-- ==== Sys2Proof/Word.lean ====
section
/-! DEFINITION. The word types of the Futhal 6200 and the sparse tables that hold many like cells (00 R2, 04 R60). -/

namespace Sys2Proof

/-- One instruction word or 32-bit register lane (R2, R60). -/
abbrev Word := BitVec 32

/-- One scalar register, address or CSR (R16, R64). -/
abbrev DWord := BitVec 64

/-- One byte of memory. -/
abbrev Byte := BitVec 8

/-- A lane mask: bit L belongs to lane L, 64 lanes in a lockstep pair (R33). -/
abbrev Mask := BitVec 64

/-- Cells by key, keys strictly rising, no cell equal to the value an unlisted key reads as. -/
abbrev SMap (α : Type) := List (Nat × α)

/-- The low byte `i` of a value. -/
abbrev byteAt (v : Nat) (i : Nat) : Byte := BitVec.ofNat 8 (v >>> (8 * i))

end Sys2Proof
end

