-- ==== Sys2Proof/Machine/Float.lean ====
section
/-! DEFINITION. Number formats, rounding and flags: 05_number_formats.md, R72 to R91.
Values are handled as exact dyadic or rational numbers and rounded once. -/

namespace Sys2Proof.Machine

/-- A floating-point format (R73): exponent and mantissa widths, bias, the bits of the largest finite
value, whether it has infinities, and its canonical NaN (R74), if it has one. -/
structure FFmt where
  eb : Nat
  mb : Nat
  bias : Nat
  maxFin : Nat
  hasInf : Bool
  nan : Option Nat
  deriving DecidableEq, Repr

def fmtF64 : FFmt := ⟨11, 52, 1023, 0x7FEFFFFFFFFFFFFF, true, some 0x7FF8000000000000⟩
def fmtF32 : FFmt := ⟨8, 23, 127, 0x7F7FFFFF, true, some 0x7FC00000⟩
def fmtF16 : FFmt := ⟨5, 10, 15, 0x7BFF, true, some 0x7E00⟩
def fmtBF16 : FFmt := ⟨8, 7, 127, 0x7F7F, true, some 0x7FC0⟩
def fmtE5M2 : FFmt := ⟨5, 2, 15, 0x7B, true, some 0x7E⟩
def fmtE4M3 : FFmt := ⟨4, 3, 7, 0x7E, false, some 0x7F⟩
def fmtE2M1 : FFmt := ⟨2, 1, 1, 0x7, false, none⟩

/-- The width of a format in bits. -/
def FFmt.width (f : FFmt) : Nat := 1 + f.eb + f.mb

/-- The sign bit of a format. -/
def FFmt.signBit (f : FFmt) : Nat := 2 ^ (f.eb + f.mb)

/-- Rounding modes (R62, R78). -/
inductive Rm where
  | rne | rna | rtz | rup | rdn
  deriving DecidableEq, Repr

/-- NSTAT flags in bit order: IV 5, DZ 4, OF 3, UF 2, NX 1, TRES 0 (R81). -/
abbrev Flags := BitVec 6

def flIV : Flags := 0x20#6
def flDZ : Flags := 0x10#6
def flOF : Flags := 0x08#6
def flUF : Flags := 0x04#6
def flNX : Flags := 0x02#6
def flTRES : Flags := 0x01#6

/-- What a bit pattern of a format stands for: a NaN (signalling or not), an infinity, or the finite
number (-1)^neg * m * 2^e. -/
inductive FVal where
  | nan (sig : Bool)
  | inf (neg : Bool)
  | fin (neg : Bool) (m : Nat) (e : Int)
  deriving DecidableEq, Repr

/-- R73: read a bit pattern. -/
def FFmt.unpack (f : FFmt) (x : Nat) : FVal :=
  let neg := x.testBit (f.eb + f.mb)
  let E := (x >>> f.mb) % 2 ^ f.eb
  let m := x % 2 ^ f.mb
  if f.hasInf && E == 2 ^ f.eb - 1 then
    if m = 0 then .inf neg else .nan (!m.testBit (f.mb - 1))
  else if !f.hasInf && f.nan.isSome && E == 2 ^ f.eb - 1 && m == 2 ^ f.mb - 1 then .nan false
  else if E = 0 then .fin neg m (1 - f.bias - f.mb)
  else .fin neg (m + 2 ^ f.mb) ((E : Int) - f.bias - f.mb)

/-- Magnitude bits with a sign. -/
def FFmt.signed (f : FFmt) (neg : Bool) (mag : Nat) : Nat := if neg then f.signBit + mag else mag

/-- R74: the canonical NaN; e2m1 has none and takes +0 (R79). -/
def FFmt.canon (f : FFmt) : Nat := f.nan.getD 0

/-- Does a quotient num/den rounded down to m with remainder r over d go up, by mode and sign (R78)? -/
def roundsUp (rm : Rm) (neg : Bool) (m r d : Nat) : Bool :=
  match rm with
  | .rne => decide (2 * r > d) || (decide (2 * r = d) && m % 2 == 1)
  | .rna => decide (2 * r ≥ d)
  | .rtz => false
  | .rup => !neg && decide (r > 0)
  | .rdn => neg && decide (r > 0)

/-- num/den at quantum 2^q, rounded to an integer count of quanta; the second part says whether exact. -/
def quantise (rm : Rm) (neg : Bool) (num den : Nat) (q : Int) : Nat × Bool :=
  let n := if q < 0 then num * 2 ^ q.natAbs else num
  let d := if q < 0 then den else den * 2 ^ q.natAbs
  let m := n / d
  let r := n % d
  (if roundsUp rm neg m r d then m + 1 else m, r == 0)

/-- floor(log2(num/den)) for positive num and den. -/
def ratLog2 (num den : Nat) : Int :=
  let k : Int := (num.log2 : Int) - (den.log2 : Int)
  let lt : Bool := if k < 0 then decide (num * 2 ^ k.natAbs < den) else decide (num < den * 2 ^ k.natAbs)
  if lt then k - 1 else k

/-- How a narrowing result answers overflow (R78, R79, R381). -/
def overflowBits (f : FFmt) (rm : Rm) (sat : Bool) (neg : Bool) : Nat :=
  if sat then f.signed neg f.maxFin
  else if f.hasInf then
    let toInf := match rm with
      | .rne => true | .rna => true | .rtz => false | .rup => !neg | .rdn => neg
    if toInf then f.signed neg (f.maxFin + 1) else f.signed neg f.maxFin
  else match f.nan with
    | some n => n
    | none => f.signed neg f.maxFin

/-- Round the non-zero rational (-1)^neg * num/den to a format, once (R74, R78, R79).
Tininess is detected after rounding (R74). -/
def roundRat (f : FFmt) (rm : Rm) (sat : Bool) (neg : Bool) (num den : Nat) : Nat × Flags :=
  let k := ratLog2 num den
  let emin : Int := 1 - f.bias
  let q := max (k - f.mb) (emin - f.mb)
  let (m, exact) := quantise rm neg num den q
  let biased : Int := q + f.mb + f.bias
  -- m may reach 2^(mb+1) by carry; the packed form absorbs it
  let mag : Int := if m < 2 ^ f.mb then m else (biased - 1) * 2 ^ f.mb + m
  let (m2, _) := quantise rm neg num den (k - f.mb)
  let tiny : Bool := decide (k < emin) && !(decide (k = emin - 1) && m2 == 2 ^ (f.mb + 1))
  if mag > f.maxFin then (overflowBits f rm sat neg, flOF ||| flNX)
  else
    (f.signed neg mag.toNat,
      if exact then 0 else if tiny then flNX ||| flUF else flNX)

/-- A dyadic number m * 2^e. -/
structure Dy where
  m : Int
  e : Int
  deriving DecidableEq, Repr

def Dy.add (a b : Dy) : Dy :=
  let e := min a.e b.e
  ⟨a.m * 2 ^ (a.e - e).toNat + b.m * 2 ^ (b.e - e).toNat, e⟩

def Dy.mul (a b : Dy) : Dy := ⟨a.m * b.m, a.e + b.e⟩

/-- Round a dyadic number; an exact zero takes the sign given (R74). -/
def roundDy (f : FFmt) (rm : Rm) (sat : Bool) (x : Dy) (zeroNeg : Bool) : Nat × Flags :=
  if x.m = 0 then (f.signed zeroNeg 0, 0)
  else
    let n := x.m.natAbs
    if x.e < 0 then roundRat f rm sat (decide (x.m < 0)) n (2 ^ x.e.natAbs)
    else roundRat f rm sat (decide (x.m < 0)) (n * 2 ^ x.e.natAbs) 1

/-- The dyadic value of a finite number. -/
def finDy (neg : Bool) (m : Nat) (e : Int) : Dy := ⟨if neg then -(m : Int) else m, e⟩

/-- R89: at NBV = 2 an f16 result of subnormal magnitude becomes a zero of its sign, with UF and NX. -/
def nbvFlush (nbv : Nat) (f : FFmt) (r : Nat × Flags) : Nat × Flags :=
  let mag := r.1 % f.signBit
  if nbv = 2 ∧ f = fmtF16 ∧ 0 < mag ∧ mag < 2 ^ f.mb then (r.1 - mag, r.2 ||| flUF ||| flNX) else r

def sigFlag (a : FVal) : Flags := match a with
  | .nan true => flIV
  | _ => 0

/-- The sign an exact zero sum takes from its two addends' signs (R74). -/
def zeroSumNeg (rm : Rm) (n1 n2 : Bool) : Bool :=
  if n1 = n2 then n1 else rm == .rdn

/-- a + b, rounded once (R74, R381). -/
def fAdd (f : FFmt) (rm : Rm) (sat : Bool) (x y : Nat) : Nat × Flags :=
  match f.unpack x, f.unpack y with
  | .nan s, b => (f.canon, sigFlag (.nan s) ||| sigFlag b)
  | a, .nan s => (f.canon, sigFlag a ||| sigFlag (.nan s))
  | .inf a, .inf b => if a = b then (f.signed a (f.maxFin + 1), 0) else (f.canon, flIV)
  | .inf a, .fin .. => (f.signed a (f.maxFin + 1), 0)
  | .fin .., .inf b => (f.signed b (f.maxFin + 1), 0)
  | .fin na ma ea, .fin nb mb eb =>
    roundDy f rm sat ((finDy na ma ea).add (finDy nb mb eb))
      (if ma = 0 ∧ mb = 0 then zeroSumNeg rm na nb else rm == .rdn)

/-- Flip the sign bit (R378: MOD negation is exact). -/
def fNeg (f : FFmt) (x : Nat) : Nat := x ^^^ f.signBit

/-- a × b + c with one rounding (R390). -/
def fMad (f : FFmt) (rm : Rm) (sat : Bool) (x y z : Nat) : Nat × Flags :=
  let a := f.unpack x
  let b := f.unpack y
  let c := f.unpack z
  let sig := sigFlag a ||| sigFlag b ||| sigFlag c
  let infTimesZero : Bool := match a, b with
    | .inf _, .fin _ m _ => m == 0
    | .fin _ m _, .inf _ => m == 0
    | _, _ => false
  if infTimesZero then (f.canon, flIV)
  else match a, b, c with
    | .nan _, _, _ => (f.canon, sig)
    | _, .nan _, _ => (f.canon, sig)
    | _, _, .nan _ => (f.canon, sig)
    | .fin na ma ea, .fin nb mb eb, .fin nc mc ec =>
      roundDy f rm sat (((finDy na ma ea).mul (finDy nb mb eb)).add (finDy nc mc ec))
        (if ma * mb = 0 ∧ mc = 0 then zeroSumNeg rm (na != nb) nc else rm == .rdn)
    | .fin .., .fin .., .inf nc => (f.signed nc (f.maxFin + 1), 0)
    | a, b, c =>
      let sgn : FVal → Bool := fun
        | .inf n => n
        | .fin n _ _ => n
        | .nan _ => false
      let n := sgn a != sgn b
      match c with
      | .inf nc => if nc = n then (f.signed n (f.maxFin + 1), 0) else (f.canon, flIV)
      | _ => (f.signed n (f.maxFin + 1), 0)

/-- a × b, rounded once (R381). -/
def fMul (f : FFmt) (rm : Rm) (sat : Bool) (x y : Nat) : Nat × Flags :=
  match f.unpack x, f.unpack y with
  | .fin na ma ea, .fin nb mb eb => roundDy f rm sat ((finDy na ma ea).mul (finDy nb mb eb)) (na != nb)
  | _, _ => fMad f rm sat x y (f.signed (x.testBit (f.eb + f.mb) != y.testBit (f.eb + f.mb)) 0)

/-- a / b, correctly rounded (R90, R387). -/
def fDiv (f : FFmt) (rm : Rm) (sat : Bool) (x y : Nat) : Nat × Flags :=
  match f.unpack x, f.unpack y with
  | .nan s, b => (f.canon, sigFlag (.nan s) ||| sigFlag b)
  | a, .nan s => (f.canon, sigFlag a ||| sigFlag (.nan s))
  | .inf _, .inf _ => (f.canon, flIV)
  | .inf a, .fin b _ _ => (f.signed (a != b) (f.maxFin + 1), 0)
  | .fin a _ _, .inf b => (f.signed (a != b) 0, 0)
  | .fin na ma ea, .fin nb mb eb =>
    if mb = 0 then if ma = 0 then (f.canon, flIV) else (f.signed (na != nb) (f.maxFin + 1), flDZ)
    else if ma = 0 then (f.signed (na != nb) 0, 0)
    else
      let d := ea - eb
      if d < 0 then roundRat f rm sat (na != nb) ma (mb * 2 ^ d.natAbs)
      else roundRat f rm sat (na != nb) (ma * 2 ^ d.natAbs) mb

/-- floor of the square root of num/den scaled by 2^g, with an odd low bit when inexact. -/
def sqrtSticky (num den g : Nat) : Nat :=
  let n := num * 4 ^ g / den
  let s := n.sqrt
  2 * s + (if s * s * den = num * 4 ^ g then 0 else 1)

/-- √a, correctly rounded by rm (R90, R91). -/
def fSqrt (f : FFmt) (rm : Rm) (x : Nat) : Nat × Flags :=
  match f.unpack x with
  | .nan s => (f.canon, sigFlag (.nan s))
  | .inf false => (x, 0)
  | .inf true => (f.canon, flIV)
  | .fin neg m e =>
    if m = 0 then (x, 0)
    else if neg then (f.canon, flIV)
    else
      let g := 1200
      let s := if e < 0 then sqrtSticky m (2 ^ e.natAbs) g else sqrtSticky (m * 2 ^ e.natAbs) 1 g
      roundRat f rm false false s (2 ^ (g + 1))

/-- Float to float conversion (R79, R386). R79 gives an infinite input its value and no flag, also where that value is a
largest finite number or e4m3's NaN: none is raised (DESIGN CHOICE, log 32). -/
def fCvt (src dst : FFmt) (rm : Rm) (sat : Bool) (x : Nat) : Nat × Flags :=
  match src.unpack x with
  | .nan s => (dst.canon, sigFlag (.nan s) ||| (if dst.nan.isNone then flIV else 0))
  | .inf n =>
    if dst.hasInf then (if sat then dst.signed n dst.maxFin else dst.signed n (dst.maxFin + 1), 0)
    else match dst.nan with
      | some c => (if sat then dst.signed n dst.maxFin else c, 0)
      | none => (dst.signed n dst.maxFin, 0)
  | .fin n m e => roundDy dst rm sat (finDy n m e) n

/-- Round a dyadic number to an integer (R80); the flag says whether it was exact. -/
def dyToInt (rm : Rm) (neg : Bool) (m : Nat) (e : Int) : Int × Bool :=
  let (k, exact) := if e < 0 then quantise rm neg m (2 ^ e.natAbs) 0 else (m * 2 ^ e.natAbs, true)
  (if neg then -(k : Int) else k, exact)

/-- Float to integer (R80): clamp to [lo, hi]; out of range or NaN sets IV; inexact in range sets NX. -/
def fToInt (src : FFmt) (rm : Rm) (lo hi : Int) (x : Nat) : Int × Flags :=
  match src.unpack x with
  | .nan _ => (0, flIV)
  | .inf n => (if n then lo else hi, flIV)
  | .fin n m e =>
    let (v, exact) := dyToInt rm n m e
    if v < lo then (lo, flIV) else if v > hi then (hi, flIV) else (v, if exact then 0 else flNX)

/-- Integer to float (R79). -/
def intToF (dst : FFmt) (rm : Rm) (sat : Bool) (v : Int) : Nat × Flags :=
  roundDy dst rm sat ⟨v, 0⟩ false

/-- Order two numbers: none when a NaN takes part; −0 equals +0 (R385). -/
def fCmp (f : FFmt) (x y : Nat) : Option Ordering :=
  let val : FVal → Option Dy := fun
    | .fin n m e => some (finDy n m e)
    | _ => none
  match f.unpack x, f.unpack y with
  | .nan _, _ => none
  | _, .nan _ => none
  | .inf a, .inf b => some (if a = b then .eq else if a then .lt else .gt)
  | .inf a, .fin .. => some (if a then .lt else .gt)
  | .fin .., .inf b => some (if b then .gt else .lt)
  | a, b => match val a, val b with
    | some p, some q => some (compare ((p.add ⟨-q.m, q.e⟩).m) 0)
    | _, _ => none

def isNaN (f : FFmt) (x : Nat) : Bool := match f.unpack x with
  | .nan _ => true
  | _ => false

/-- maximumNumber / minimumNumber (R391): −0 below +0, a number wins over a NaN, sNaN sets IV. -/
def fMinMax (f : FFmt) (wantMax : Bool) (x y : Nat) : Nat × Flags :=
  let fl := sigFlag (f.unpack x) ||| sigFlag (f.unpack y)
  match isNaN f x, isNaN f y with
  | true, true => (f.canon, fl)
  | true, false => (y, fl)
  | false, true => (x, fl)
  | false, false =>
    let xLess : Bool := match fCmp f x y with
      | some .lt => true
      | some .gt => false
      | _ => x.testBit (f.eb + f.mb)
    (if xLess != wantMax then x else y, fl)

/-- minimum/maximum of Burin's LMIN and LMAX (R320): canonical NaN if either is NaN. -/
def lMinMax (f : FFmt) (wantMax : Bool) (x y : Nat) : Nat :=
  if isNaN f x || isNaN f y then f.canon else (fMinMax f wantMax x y).1

/-- R388: the class of a bit pattern, as a bit number. -/
def fClass (f : FFmt) (x : Nat) : Nat :=
  match f.unpack x with
  | .nan true => 8
  | .nan false => 9
  | .inf true => 0
  | .inf false => 7
  | .fin n m _ =>
    if m = 0 then (if n then 3 else 4)
    else if m < 2 ^ f.mb then (if n then 2 else 5) else (if n then 1 else 6)

/-! ## Exactly summed products (R86 to R88) -/

/-- The products of one chunk: any NaN operand or inf × 0 or both infinities gives NaN. -/
structure ChunkAcc where
  sum : Dy
  nan : Bool
  sig : Bool
  pinf : Bool
  ninf : Bool
  allNegZero : Bool
  deriving DecidableEq, Repr

def ChunkAcc.init : ChunkAcc := ⟨⟨0, 0⟩, false, false, false, false, true⟩

def ChunkAcc.step (f : FFmt) (acc : ChunkAcc) (p : Nat × Nat) : ChunkAcc :=
  match f.unpack p.1, f.unpack p.2 with
  | .fin na ma ea, .fin nb mb eb =>
    { acc with
      sum := acc.sum.add ((finDy na ma ea).mul (finDy nb mb eb))
      allNegZero := acc.allNegZero && (ma * mb == 0) && (na != nb) }
  | .nan s, b => { acc with nan := true, sig := acc.sig || s || (sigFlag b != 0), allNegZero := false }
  | a, .nan s => { acc with nan := true, sig := acc.sig || s || (sigFlag a != 0), allNegZero := false }
  | .inf na, .fin nb m _ =>
    if m = 0 then { acc with nan := true, sig := true, allNegZero := false }
    else if na != nb then { acc with ninf := true, allNegZero := false }
    else { acc with pinf := true, allNegZero := false }
  | .fin na m _, .inf nb =>
    if m = 0 then { acc with nan := true, sig := true, allNegZero := false }
    else if na != nb then { acc with ninf := true, allNegZero := false }
    else { acc with pinf := true, allNegZero := false }
  | .inf na, .inf nb =>
    if na != nb then { acc with ninf := true, allNegZero := false }
    else { acc with pinf := true, allNegZero := false }

/-- R86: the sum of one chunk of products, exact, rounded once to f32. A NaN product, or infinities of
both signs, gives the canonical NaN and sets IV; a zero sum is −0 only when every product is −0. -/
def chunkSum (f : FFmt) (rm : Rm) (ps : List (Nat × Nat)) : Nat × Flags :=
  let a := ps.foldl (ChunkAcc.step f) ChunkAcc.init
  if a.nan || (a.pinf && a.ninf) then (fmtF32.canon, flIV)
  else if a.pinf then (fmtF32.maxFin + 1, 0)
  else if a.ninf then (fmtF32.signed true (fmtF32.maxFin + 1), 0)
  else roundDy fmtF32 rm false a.sum (a.allNegZero && !ps.isEmpty)

/-- R88: one element of SCLA: acc + p × 2^((ea − 127) + (eb − 127)), rounded once. -/
def scaleAdd (acc p : Nat) (ea eb : Nat) : Nat × Flags :=
  if ea = 0xFF ∨ eb = 0xFF then (fmtF32.canon, flIV)
  else
    let sh : Int := (ea : Int) - 127 + ((eb : Int) - 127)
    match fmtF32.unpack acc, fmtF32.unpack p with
    | .fin na ma xa, .fin nb mb xb =>
      roundDy fmtF32 .rne false ((finDy na ma xa).add (finDy nb mb (xb + sh)))
        (if ma = 0 ∧ mb = 0 then zeroSumNeg .rne na nb else false)
    | _, _ => fAdd fmtF32 .rne false acc p

end Sys2Proof.Machine
end

