-- ==== Sys2Proof/Syntax.lean ====
section
/-! DEFINITION. One constructor of `Instr` per row of the opcode table: 97 events of a unit and 167 instructions
(04_instruction_formats.md, 95_what_each_step_holds.md). Two-word instructions keep every raw field, since the
core judges them when it executes them (R65, R66). -/

namespace Sys2Proof

/-- The fields of a two-word core instruction (R60) beside OP and FN. `z` is bit 0 of word 0. -/
structure P where
  d : BitVec 8
  a : BitVec 8
  b : BitVec 8
  c : BitVec 8
  ty : BitVec 4
  rm : BitVec 3
  sat : BitVec 1
  mod : BitVec 3
  bk : BitVec 2
  x3 : BitVec 3
  g : BitVec 3
  gn : BitVec 1
  z : BitVec 1
  deriving DecidableEq, Repr, Inhabited

/-- What a debugger reads or writes (R231). -/
inductive DebugTarget where
  | v (reg lane : Nat)
  | s (reg : Nat)
  | p (reg : Nat)
  | csr (num : Nat)
  | queue (q entry lane : Nat)
  | tile (h : Nat)
  deriving DecidableEq, Repr, Inhabited

/-- How the Capo agent resolves a core freeze (R154). -/
inductive FreezeFix where
  | retry
  | failed
  | kill
  deriving DecidableEq, Repr, Inhabited

/-- A contribution that arrives from a consort on another package (R152, R153): the receiving consort and accumulator, the
words by element, the slot under FN 2, and the receiver's count flag. -/
structure PeerAdd where
  cid : Nat
  acc : Nat
  payload : List (Nat × BitVec 32)
  slot : Option Nat
  rflag : Option Nat
  deriving DecidableEq, Repr, Inhabited

/-- An element of a peer-tile copy that arrives from another package (R100): that package, and the consort, tile, row, column and
value. -/
structure PeerElem where
  pkg : Nat
  cid : Nat
  h : Nat
  row : Nat
  col : Nat
  value : Nat
  red : Bool
  nbv : Nat
  deriving DecidableEq, Repr, Inhabited

/-- What a peer-tile write moves (R100): the next element of a copy at the head of a channel, or one from another package. -/
inductive PeerSource where
  | channel (ch : Nat)
  | remote (e : PeerElem)
  deriving DecidableEq, Repr, Inhabited

/-- What the host reads (R278): BAR0 at an offset, or device memory at an address. -/
inductive HostAddr where
  | bar0 (off : Nat)
  | mem (pa : Nat)
  deriving DecidableEq, Repr, Inhabited

/-- What another package sends (R152, R279, R281): a read, a write under the key slot of the leaf that mapped it, or a
contribution. -/
inductive FabricReq where
  | read
  | write (slot : Nat) (bytes : List Byte)
  | add (a : PeerAdd)
  deriving DecidableEq, Repr, Inhabited

/-- The trained link that a mode set names (R267): lanes and rate in Mbit/s per lane. -/
inductive LinkMode where
  | dp128 (lanes mbps : Nat)
  | dp8 (lanes mbps : Nat)
  | frl (lanes mbps : Nat)
  | tmds (mbps : Nat)
  deriving DecidableEq, Repr, Inhabited

/-- The parameters of one head in a mode set (R256); bits per pixel are after DSC. -/
structure HeadMode where
  hwidth : Nat
  hheight : Nat
  htotal : Nat
  vtotal : Nat
  pixclk : Nat
  cores : BitVec 16
  entry : Nat
  pasid : Nat
  root : Nat
  slots : List Nat
  pbuf0 : Nat
  pbuf1 : Nat
  kfx : Word
  kfy : Word
  kcx : Word
  kcy : Word
  image : List Byte
  link : LinkMode
  bpp : Nat
  deriving DecidableEq, Repr, Inhabited

/-- The rows of the opcode table. An instruction acts in the course or Burin core, and an event at the unit
(queue, launch, core, consort or head), that the machine's turn names. -/
inductive Instr where
  | powerUp (failStep failSub ident : Nat) (peerIdents : List Nat) (up : BitVec 18)
  | wakeWrite (off : Nat) (bytes : List Byte) (pasid : Option Nat)
  | gangPlace (cores : List Nat)
  | gangReserve (cores : List Nat)
  | gangReady (gid pkg : Nat)
  | gangReadyUndeliverable (pkg : Nat)
  | gangAbort (gid pkg : Nat)
  | clauseIssue (islot : Nat)
  | longLatencyWriteback (ci k : Nat)
  | courseEnd (ci : Nat)
  | copyBegin (ch : Nat)
  | copyLineTransfer (ch i : Nat)
  | freezeResume (fix : FreezeFix)
  | copyComplete (ch : Nat)
  | peerTileWrite (src : PeerSource)
  | chordTileClose (tile : Nat)
  | chordWriteback (k : Nat)
  | smarchWriteback (k : Nat)
  | ttakeComplete (islot : Nat)
  | pinTimeout (line : Nat)
  | sleepExpire (ci sp : Nat)
  | yieldExpire (ci sp : Nat)
  | consortRestore (core : Nat)
  | priResponse (success : Bool)
  | atsInvalidation (pasid va : Nat)
  | hostMemoryWrite (pa : Nat) (bytes : List Byte)
  | hostMemoryRead (addr : HostAddr) (n : Nat)
  | fabricAccess (pkg pa : Nat) (req : FabricReq)
  | powerThrottle (khz : Nat)
  | fltrecRead (sd : BitVec 6)
  | registerWrite (off : Nat) (value : DWord)
  | attest (nonce : List Byte)
  | fwload (image : List Byte)
  | capmint (qcb : DWord) (pasid : BitVec 20) (rights : BitVec 16)
  | retire (pasid : BitVec 20)
  | debugAttach (pasid : BitVec 20)
  | debugHalt (ci : Nat)
  | debugStep (ci : Nat)
  | debugResume (ci : Nat)
  | debugRead (ci : Nat) (t : DebugTarget)
  | debugWrite (ci : Nat) (t : DebugTarget) (value : DWord) (force : Bool)
  | tlbflush (kind : Nat) (pasid : BitVec 20) (va : DWord)
  | modeset (modes : List (Nat × HeadMode))
  | dispcsrRead (csr : Nat)
  | dispcsrWrite (csr : Nat) (value : DWord)
  | keyloadLoad (slot : Nat) (wrapped : List Byte)
  | keyloadZeroise (slot : Nat)
  | powercap (watts : Nat)
  | br (cond : BitVec 4) (sa : BitVec 6) (off : BitVec 15)
  | call (off : BitVec 15)
  | calli (sa : BitVec 6)
  | jmpi (sa : BitVec 6)
  | loop (sa : BitVec 6) (stages : BitVec 4) (len : BitVec 15)
  | loopi (count : BitVec 10) (stages : BitVec 4) (len : BitVec 11)
  | lbrk (cond : BitVec 4) (sa : BitVec 6)
  | lcnt (sd : BitVec 6) (fn : BitVec 7)
  | sadd (sd sa sb : BitVec 6)
  | ssub (sd sa sb : BitVec 6)
  | sand (sd sa sb : BitVec 6)
  | sor (sd sa sb : BitVec 6)
  | sxor (sd sa sb : BitVec 6)
  | sshl (sd sa sb : BitVec 6)
  | sshr (sd sa sb : BitVec 6)
  | ssha (sd sa sb : BitVec 6)
  | smul (sd sa sb : BitVec 6)
  | smulh (sd sa sb : BitVec 6)
  | smin (sd sa sb : BitVec 6)
  | smax (sd sa sb : BitVec 6)
  | sminu (sd sa sb : BitVec 6)
  | smaxu (sd sa sb : BitVec 6)
  | sslt (sd sa sb : BitVec 6)
  | ssltu (sd sa sb : BitVec 6)
  | sseq (sd sa sb : BitVec 6)
  | saddi (sd sa : BitVec 6) (imm : BitVec 13)
  | sandi (sd sa : BitVec 6) (imm : BitVec 13)
  | sori (sd sa : BitVec 6) (imm : BitVec 13)
  | sxori (sd sa : BitVec 6) (imm : BitVec 13)
  | sshli (sd sa : BitVec 6) (amt : BitVec 6)
  | sshri (sd sa : BitVec 6) (amt : BitVec 6)
  | sshai (sd sa : BitVec 6) (amt : BitVec 6)
  | smovi (sd : BitVec 6) (imm : BitVec 19)
  | slea (sd sa sb : BitVec 6) (k : BitVec 3)
  | srd (sd : BitVec 6) (n : BitVec 13)
  | vadd (p : P)
  | vsub (p : P)
  | vmul (p : P)
  | vmulh (p : P)
  | vmad (p : P)
  | vmin (p : P)
  | vmax (p : P)
  | vdiv (p : P)
  | vand (p : P)
  | vor (p : P)
  | vxor (p : P)
  | vandn (p : P)
  | vorn (p : P)
  | vxnor (p : P)
  | vshl (p : P)
  | vshr (p : P)
  | vsha (p : P)
  | vrol (p : P)
  | vcmp (p : P) (fn : BitVec 4)
  | vsel (p : P)
  | vcvt (p : P) (fn : BitVec 4)
  | vpopc (p : P)
  | vclz (p : P)
  | vctz (p : P)
  | vbrev (p : P)
  | vbfe (p : P)
  | vbfi (p : P)
  | vmov (p : P)
  | vmovi (p : P)
  | vbcast (p : P)
  | vget (p : P)
  | vperm (p : P)
  | vscan (p : P) (fn : BitVec 4)
  | vred (p : P) (fn : BitVec 4)
  | vwacc (p : P)
  | vrcp (p : P)
  | vrsq (p : P)
  | vsqrt (p : P)
  | vexp2 (p : P)
  | vlog2 (p : P)
  | vsin (p : P)
  | vcos (p : P)
  | vtanh (p : P)
  | vfclass (p : P)
  | vpack (p : P)
  | vunpk (p : P)
  | pand (p : P)
  | por (p : P)
  | pxor (p : P)
  | pandn (p : P)
  | pnot (p : P)
  | pmov (p : P)
  | pany (p : P)
  | pall (p : P)
  | pbal (p : P)
  | setx (p : P)
  | getx (p : P)
  | brd (p : P) (fn : BitVec 4)
  | join (p : P)
  | refill (p : P)
  | ld (p : P)
  | st (p : P)
  | lds (p : P)
  | sts (p : P)
  | ldsp (p : P)
  | chk (p : P) (fn : BitVec 4)
  | ldt (p : P)
  | stt (p : P)
  | atom (p : P) (fn : BitVec 4)
  | atoms (p : P) (fn : BitVec 4)
  | fence (p : P)
  | wpush (p : P)
  | talloc (p : P)
  | tfree (p : P)
  | tgive (p : P)
  | ttake (p : P)
  | xcopy (p : P)
  | xcopym (p : P) (fn : BitVec 4)
  | xtpl (p : P)
  | mma (p : P) (fn : BitVec 4)
  | mblk (p : P)
  | scla (p : P)
  | mzero (p : P)
  | mdrain (p : P)
  | mdrainPeer (p : P)
  | mdrainOpeer (p : P)
  | cfwait (p : P)
  | cfadd (p : P)
  | cfset (p : P)
  | cfrd (p : P)
  | chord (p : P) (fn : BitVec 4)
  | smarch (p : P)
  | bar (p : P)
  | gbar (p : P)
  | sstep (p : P)
  | trap (p : P)
  | eret (p : P)
  | csrr (p : P)
  | csrw (p : P)
  | tlbinv (p : P)
  | dbgbrk (p : P)
  | pslot (p : P)
  | pguard (p : P)
  | sleep (p : P)
  | ladd (stg : BitVec 2) (d a b : BitVec 6) (ty : BitVec 2) (fn : BitVec 3)
  | lsub (stg : BitVec 2) (d a b : BitVec 6) (ty : BitVec 2) (fn : BitVec 3)
  | lmul (stg : BitVec 2) (d a b : BitVec 6) (ty : BitVec 2) (fn : BitVec 3)
  | lmad (stg : BitVec 2) (d a b : BitVec 6) (ty : BitVec 2) (fn : BitVec 3)
  | lmin (stg : BitVec 2) (d a b : BitVec 6) (ty : BitVec 2) (fn : BitVec 3)
  | lmax (stg : BitVec 2) (d a b : BitVec 6) (ty : BitVec 2) (fn : BitVec 3)
  | lsel (stg : BitVec 2) (d a b : BitVec 6) (ty : BitVec 2) (fn : BitVec 3)
  | lcmp (stg : BitVec 2) (d : BitVec 3) (a b : BitVec 6) (ty : BitVec 2) (fn : BitVec 3)
  | lcvt (stg : BitVec 2) (d a : BitVec 6) (ty : BitVec 2) (fn : BitVec 3)
  | lshf (stg : BitVec 2) (d a b : BitVec 6) (ty : BitVec 2) (fn : BitVec 3)
  | llog (stg : BitVec 2) (d a b : BitVec 6) (ty : BitVec 2) (fn : BitVec 3)
  | lpack (stg : BitVec 2) (d a : BitVec 6) (ty : BitVec 2) (fn : BitVec 3)
  | lunpk (stg : BitVec 2) (d a : BitVec 6) (ty : BitVec 2) (fn : BitVec 3)
  | wxy (stg : BitVec 2) (d a b : BitVec 6)
  | lbld (stg : BitVec 2) (d a : BitVec 6) (ty : BitVec 2) (r : BitVec 3)
  | lbst (stg : BitVec 2) (a b : BitVec 6) (ty : BitVec 2) (r : BitVec 3)
  | fsmp (stg : BitVec 2) (d a b : BitVec 6) (fn : BitVec 3)
  | facq (stg : BitVec 2) (d : BitVec 6)
  | posel (stg : BitVec 2) (d : BitVec 6)
  | lmma (stg : BitVec 2) (d a b : BitVec 6)
  | lout (stg : BitVec 2) (a : BitVec 6) (h : BitVec 3)
  | dlchk (stg : BitVec 2) (d : BitVec 3)
  | rpj (stg : BitVec 2) (a : BitVec 6)
  | bwait (stg : BitVec 2) (fn : BitVec 3)
  | commandFetch
  | launch
  | feedCreate
  | feedDestroy
  | feedAppend
  | feedRoom
  | signalStore
  | signalAdd
  | wait
  | waitReread
  | gang
  | launchComplete
  | ticketClaim
  | ticketSteal
  | gangPreempt
  | gangTimeout
  | gangReadySend
  | gangDecide
  | capoInterleave
  | temporalIteration
  | plateFeed
  | matrixStart
  | matrixComplete
  | peerContributionApply
  | chordPass
  | brickLoad
  | barComplete
  | gbarComplete
  | sstepComplete
  | wdog
  | storeError
  | gangPeerFailure
  | survivorTeardown
  | preemptSave
  | preemptWithdraw
  | fabricTimeout
  | linkFail
  | bandStart
  | bandDeadline
  | scanoutLine
  | burinInvocationStart
  | burinWriteback
  | poseCommit
  | mailboxCommandComplete
  | ident
  | preempt
  | events
  | nop
  | ret
  | exit
  | yield
  | gangStart
  | loutRowRead
  deriving DecidableEq, Repr, Inhabited

end Sys2Proof
end

