-- ==== Sys2Proof/Config.lean ====
section
/-! DEFINITION. What one module or one run fixes and the manual leaves open. Every opaque constant is a free value:
nothing can compute it, so a claim holds whatever it is. -/

namespace Sys2Proof

/-- Who moves next: nobody in particular, the clause in an issue slot of a core (slot 4 is the Capo clause that
interleaves on slot 0, R210), a Burin core with its bundle, or an event at a unit. The unit is the queue, launch,
core, consort, head, Burin core, package, link or request that the event's own docstring names. -/
inductive Turn where
  | free
  | slot (core islot : Nat)
  | burin (b : Nat)
  | event (unit : Nat) (i : Instr)
  deriving DecidableEq, Repr, Inhabited

/-- What a configuration image carries: the frame partition size in units of 32 MiB, if it carries one, the heads whose
port is HDMI 2.1, and the floor of the power cap (R285). -/
structure ImageConfig where
  size : Option Nat
  hdmi : BitVec 4
  floor : Nat
  deriving DecidableEq, Repr, Inhabited

namespace Config

/-- The agent that moves at a tick when none is named (log 1). -/
opaque pick : Nat → Turn

/-- Core cycles, %fabtime units and Burin cycles that pass with a step beyond the least (log 2). -/
opaque moreCycles : Nat → Nat
opaque moreFabtime : Nat → Nat
opaque moreBurin : Nat → Nat

/-- Which translation an access of a tick to a virtual address uses: 0 the tables as they stand, else the one of that
number among those cached for its page (R111). -/
opaque useCached : Nat → Nat → Nat

/-- Is what a write of a tick replaces at a place kept to be found, and does it stay what an earlier write replaced there?
Does an access of a tick to a place find what a write that it is not ordered after replaced (R116, R121, R128)? A place is
twice an address, and one more in the host's memory. -/
opaque late : Nat → Nat → Bool
opaque keepOldest : Nat → Nat → Bool
opaque seeOld : Nat → Nat → Bool

/-- Which value the fetch of a tick of the word at an address returns: 0 what memory holds, else the one of that number
among those in the core's instruction cache and those of memory as it was at the last dispatch and since (R239). -/
opaque fetchCached : Nat → Nat → Nat

/-- Is memory as a step finds it kept for the fetches of launches that are running, by tick (R239)? -/
opaque snap : Nat → Bool

/-- Which lane of those that store to one location wins, and the order of the lanes of an ATOM (R113). -/
opaque laneChoice : Nat → Nat → Nat

/-- %gen of a course that starts at a tick (R68). -/
opaque courseGen : Nat → BitVec 16

/-- %launch of a launch dispatched at a tick (R68). -/
opaque launchIdent : Nat → DWord

/-- The low 64 bits of the AES-256-CMAC of a capability's bits [191:0] under the device seal key (R190). -/
opaque capSeal : Nat → DWord

/-- Part number that IDENT returns, the version of an image that runs, the images that the module ships with (the configuration
or the firmware), and the RSA signature of a report (R284 to R286). -/
opaque partNumber : List Byte
opaque imageVersion : List Byte → List Byte
opaque factoryImage : Bool → List Byte
opaque reportSignature : List Byte → List Byte

/-- Does an image pass the signature check of R285, and what does it configure, if it is a configuration image? Does a
wrapped key unwrap, and to which key (R281)? -/
opaque imageSigned : List Byte → Bool
opaque imageConfig : List Byte → Option ImageConfig
opaque keyUnwraps : List Byte → Bool
opaque keyOf : List Byte → Nat

/-- Payload rate in Mbit/s of an HDMI link at lanes and Mbit/s per lane; lanes 0 stands for TMDS (R267). -/
opaque hdmiPayload : Nat → Nat → Nat

/-- Where each core's Capo agent starts, its page table and its PASID: firmware that the manual does not give (R204). -/
opaque capoEntry : Nat → Nat
opaque capoRoot : Nat
opaque capoPasid : Nat

/-- The entries of a plate read at a tick that prove uncorrectable in the plate window when they are fed (R186). -/
opaque plateErrors : Nat → List Nat

/-- Flags that a peer add or a reducing copy raises on another package, and whether that package finds it failed, by the
tick of the sender's command (R140, R152). -/
opaque remoteFlags : Nat → BitVec 6
opaque remoteFails : Nat → Bool

/-- Did another package tear its consorts of a spanning gang down unstarted, by GID and package (R208)? -/
opaque neverStarted : Nat → Nat → Bool

/-- The sub-code of a Burin ILL trap that R71, R69, R59 or R340 gives no sub-code, by tick (R255). -/
opaque burinSub : Nat → Nat

/-- The address of the area that a save image goes to, the image, and an address of the context whose leaf names the key slot, by
tick (R228, R281). -/
opaque saveArea : Nat → Nat
opaque saveImage : Nat → List Byte
opaque saveLeaf : Nat → Nat

/-- What a read at a tick of a register byte gives where the manual gives no value: the pose mailboxes of another package
(R265, R279). -/
opaque openRegister : Nat → Nat → Byte

/-- The configuration image with which the module ships (R285). -/
def shipped : ImageConfig := ⟨some 4, 0, 600⟩

/-- Bytes of HBM4 and GDDR7 on a package (R105). -/
def installedBytes : Nat := 0x006000000000

/-- Where GDDR7 begins (R105). -/
def gddrBase : Nat := 0x004800000000

/-- The end of the Krehan register space (R279). -/
def krehanEnd : Nat := 0x008000000000

end Config

end Sys2Proof
end

