-- ==== Sys2Proof/Machine/State.lean ====
section
/-! DEFINITION. Everything the manual gives the Futhal 6200 to hold, as plain data, and the machine right after
reset. INVENTORY.md lists each piece with its rule and its reset value. -/

namespace Sys2Proof.Machine

/-- A 32-bit register lane or queue element with its poison tag; tag 0 is clear (R221). -/
structure LaneVal where
  val : Word
  tag : Byte
  deriving DecidableEq, Repr, Inhabited

/-- The mark of a scalar register of a driver course during an etch (R177). -/
inductive Mark where
  | arg (n : Nat) (offset : DWord)
  | res (index : Nat) (offset : DWord)
  | volatile
  deriving DecidableEq, Repr, Inhabited

/-- A hardware loop (R337): first byte of the body, byte after it, count, stages and step; the stage in the enclosing
loop of the clause that began it (R325); the first iteration since the pipeline was last filled, and during a drain
the iteration at which it was cut (R227). -/
structure LoopRec where
  start : Nat
  stop : Nat
  count : Nat
  stages : Nat
  t : Nat
  stg : Nat
  fill : Nat
  upto : Option Nat
  deriving DecidableEq, Repr, Inhabited

/-- Why a split is parked (R294, R315, R369, R47). -/
inductive Park where
  | ready
  | bar
  | gbar
  | sstep
  | refill (queue : Nat)
  deriving DecidableEq, Repr, Inhabited

/-- A trap, or one kept pending in a split entry (R225): cause, value, resume cursor, and the faulting word's address. -/
structure PendTrap where
  cause : Nat
  value : DWord
  header : Nat
  offset : Nat
  word : Nat
  deriving DecidableEq, Repr, Inhabited

/-- A YIELD in force (R409): when it began and the courses, by consort and index, that must issue first. -/
structure YieldRec where
  since : Nat
  others : List (Nat × Nat)
  deriving DecidableEq, Repr, Inhabited

/-- A split entry (R39). `off` is the word offset at which the split continues in the clause at `pc` (R217); `point`
says that its last boundary is a pre-emption point, `iter` that it is an iteration boundary (R227). -/
structure Split where
  pc : Nat
  off : Nat
  m : Mask
  exec : Mask
  park : Park
  jrec : Option Nat
  loops : List LoopRec
  preRun : Nat
  point : Bool
  iter : Bool
  wake : Option Nat
  yielded : Option YieldRec
  trap : Option PendTrap
  deriving DecidableEq, Repr, Inhabited

/-- The deferred half of a join record (R39). `boundary` says that its fall-through crossed an iteration boundary. -/
structure Deferred where
  m : Mask
  exec : Mask
  pc : Nat
  loops : List LoopRec
  boundary : Bool
  deriving DecidableEq, Repr, Inhabited

/-- A join record (R39). -/
structure JoinRec where
  addr : Nat
  parent : Option Nat
  count : Nat
  accM : Mask
  accE : Mask
  deferred : Option Deferred
  deriving DecidableEq, Repr, Inhabited

/-- An uncorrectable error found after its word completed (R224): the course and split, and the line's address. -/
structure StoreErr where
  cid : Nat
  ci : Nat
  sp : Nat
  gen : BitVec 16
  slot : Nat
  pc : Nat
  line : Nat
  deriving DecidableEq, Repr, Inhabited

/-- A long-latency instruction whose writes have not all landed (R37, R38): the completion flags that wait for
it, the vector and scalar registers it still has to write, the values bound for them, and for CHORD and SMARCH the
requests still outstanding. `holds` keeps its issue slot (no flag named); `skip` lists lanes that a debugger took (R232);
`turn` is the place of its push among those of the consort's clauses (R49). -/
structure PendWrite where
  id : Nat
  split : Nat
  flags : List Nat
  vregs : List Nat
  sregs : List Nat
  lanes : List (Nat × LaneVal)
  scalars : List (Nat × DWord)
  fl : BitVec 6
  push : Option (Nat × List (List LaneVal))
  turn : Nat
  reqs : Nat
  holds : Bool
  skip : List Nat
  record : Option StoreErr
  deriving DecidableEq, Repr, Inhabited

/-- A course (R29, R32, R33). -/
structure Course where
  idx : Nat
  slot : Nat
  width : Nat
  entry : Nat
  v : SMap LaneVal
  p : SMap Mask
  s : SMap DWord
  marks : List (Nat × Mark)
  ncr : DWord
  nstat : DWord
  nbv : DWord
  chw : DWord
  msteps : DWord
  trapc : DWord
  trappc : DWord
  trapv : DWord
  splits : List (Nat × Split)
  recs : List (Nat × JoinRec)
  rr : Nat
  pend : List PendWrite
  nextId : Nat
  inHandler : Option Nat
  trapHalt : Option Nat
  waitCapo : Bool
  halted : Bool
  haltReq : Bool
  stepOne : Bool
  atEnd : Bool
  ended : Bool
  gen : BitVec 16
  age : Nat
  driver : Option Bool
  deriving DecidableEq, Repr, Inhabited

/-- A tile table entry (R94); an entry keeps its other fields when TFREE clears V (R98). -/
structure TileEnt where
  v : Bool
  ty : Nat
  rows : Nat
  cols : Nat
  grp : Nat
  base : Nat
  ngr : Nat
  lvl : Bool
  own : Bool
  frz : Bool
  deriving DecidableEq, Repr, Inhabited

/-- Print or etch state of a consort (R174 to R187). Mode 0 none or abandoned, 1 etch, 2 print. `ue` names the entries that
prove uncorrectable in the plate window (R186). -/
structure Plate where
  mode : Nat
  reason : Nat
  addr : Nat
  window : Nat
  finished : Bool
  dmask : BitVec 16
  entries : List (BitVec 128)
  tpls : List (BitVec 512)
  patches : List (BitVec 128)
  tileGuards : List Nat
  argsRead : List Nat
  patched : List Nat
  resGuards : List (Nat × List DWord)
  feed : Nat
  feedAwait : Option Nat
  feedDone : Bool
  ue : List Nat
  deriving DecidableEq, Repr, Inhabited

/-- A consort resident on a core (R29 to R32, R94, R95, R132). Addresses of tile memory count from group 0. `wdDue` says
that WDOG is raised and not yet delivered (R230). `turns` gives the place of each queue's entries among the pushes of the
consort's clauses, in the order in which those issued (R49). -/
structure Consort where
  cid : Nat
  launch : Nat
  index : Nat
  core : Nat
  capo : Bool
  courses : List Course
  tiles : List (Nat × TileEnt)
  tmem : SMap Byte
  resv : List (Nat × Nat)
  tpls : List (Nat × BitVec 512)
  ntpl : Nat
  tplBase : Nat
  cf : SMap (BitVec 16)
  nflag : Nat
  cfBase : Nat
  acc : SMap Word
  nacc : Nat
  accBase : Nat
  nextSlot : SMap Nat
  vgran : Nat
  queues : List (Nat × List (List LaneVal))
  turns : List (Nat × List Nat)
  chstat : DWord
  tix : List Nat
  gbarFail : Bool
  stepSeq : Option Nat
  wdSpent : Nat
  wdLimit : Nat
  wdRaised : Bool
  wdDue : Bool
  failAt : Option Nat
  preReq : Option Nat
  dying : Bool
  held : Bool
  plate : Plate
  deriving DecidableEq, Repr, Inhabited

/-- What an engine command does (R138 to R153). Scalars and the template are captured at issue (R406). -/
inductive CmdKind where
  | copy (tpl : BitVec 512) (s0 s1 s2 s3 : DWord)
  | mma (ty k : Nat) (sat : Bool) (acc a b : Nat)
  | mblk (ty acc a b : Nat)
  | scla (dst src tile : Nat)
  | mzero (acc : Nat)
  | mdrain (tile acc ty : Nat) (sat : Bool)
  | peer (ordered : Bool) (racc acc : Nat) (target : DWord)
  deriving DecidableEq, Repr, Inhabited

/-- An engine command from issue, at a tick, to completion: one entry of the dependency table (R134). `todo` is what a begun
copy has still to move, by element index; `payload` is what a begun peer add has sent. -/
structure Cmd where
  seq : Nat
  issued : Nat
  cid : Nat
  ci : Option Nat
  kind : CmdKind
  nbv : Nat
  flag : Option Nat
  follows : Option Nat
  begun : Bool
  todo : List Nat
  payload : SMap Word
  failed : Bool
  flags : BitVec 6
  entry : Option Nat
  done : Bool
  deriving DecidableEq, Repr, Inhabited

/-- A clause in an issue slot (R36): who issues it, its header's address, its words, the offset reached, the
long-latency instructions begun, its place in the order of issue, what CFWAIT took (R145), the tick before which
the commands issued that a waiting TTAKE awaits (R99), and whether it waits at its word (R210). -/
structure Issue where
  cid : Nat
  ci : Nat
  sp : Nat
  hdr : Nat
  header : Word
  words : List Word
  off : Nat
  ll : Nat
  ord : Nat
  cfErr : List Nat
  cfSub : List (Nat × Nat × Nat)
  await : Option Nat
  waits : Bool
  deriving DecidableEq, Repr, Inhabited

/-- A fault record (R223), 256 bits. -/
abbrev FaultRec := BitVec 256

/-- A line pinned to the core (R126), with the consort and course whose release pinned it and when. -/
structure Pin where
  line : Nat
  cid : Nat
  since : Nat
  deriving DecidableEq, Repr, Inhabited

/-- A store that has not been written beyond L1 (R126), with the member lanes of the split that made it, and the split entry
whose lineage it belongs to: 8 and more for those that wait at a join record, none once that split has exited (R119). -/
structure Dirty where
  line : Nat
  cid : Nat
  ci : Nat
  m : Mask
  sp : Option Nat
  deriving DecidableEq, Repr, Inhabited

/-- The constants of one output that a layer reads: its weights, block scales and bias (R160). -/
structure RowData where
  w : List Nat
  sc : List Nat
  bias : Option Nat
  deriving DecidableEq, Repr, Inhabited

/-- A Chord request that holds a row (R159, R164), with the page table, key slot and descriptor that its own validation
read (R167). `x` is the input of the layer to run, and `net` the constants of each layer once they are fetched (R166). -/
structure ChordReq where
  cid : Nat
  ci : Nat
  pid : Nat
  lane : Nat
  d : Nat
  no : Nat
  root : Nat
  key : Nat
  desc : List Byte
  x : List Nat
  net : Option (List (List RowData))
  flags : BitVec 6
  poison : Option Nat
  deriving DecidableEq, Repr, Inhabited

/-- A Chord tile (R164, R165): its key, its rows, how many rows have joined (those of a killed consort are gone), and
once closed the layer it has reached. -/
structure ChordTile where
  tid : Nat
  pasid : Nat
  rtab : Nat
  handle : Nat
  nbv : Nat
  rows : List ChordReq
  joined : Nat
  opened : Nat
  win : Nat
  owner : Nat
  layer : Nat
  deriving DecidableEq, Repr, Inhabited

/-- A marching request (R269, R270) with the progress it has made: where it is on its way down (the brick, its
depth, and the cell of its parent), and the brick it waits for. `ray` is origin, direction and tmax as f64; `got` are the
addresses and lengths of the reads of the step. -/
structure SmReq where
  cid : Nat
  ci : Nat
  pid : Nat
  lane : Nat
  d : Nat
  a : Nat
  ns : Nat
  budget : Nat
  nbv : Nat
  pasid : Nat
  root : Nat
  key : Nat
  shape0 : Nat
  feat : Nat
  base : Nat
  ray : List Nat
  t : Nat
  steps : Nat
  samples : List (List Word)
  brick : Nat
  depth : Nat
  px : Nat
  py : Nat
  pz : Nat
  need : Option Nat
  state : Option Nat
  poison : Option Nat
  window : Nat
  got : List (Nat × Nat)
  deriving DecidableEq, Repr, Inhabited

/-- A brick in the Stipple unit's cache (R273). -/
structure Brick where
  pasid : Nat
  root : Nat
  base : Nat
  idx : Nat
  deriving DecidableEq, Repr, Inhabited

/-- A core freeze (R154): the faulting command, the trap it reports, and since when. -/
structure Freeze where
  seq : Nat
  chan : Nat
  trap : PendTrap
  since : Nat
  deriving DecidableEq, Repr, Inhabited

/-- A word in an instruction cache (R239): the context that fetched its line, its physical address, in host memory or
not, and the word as it was then. -/
structure IcWord where
  pasid : Nat
  host : Bool
  pa : Nat
  word : Word
  deriving DecidableEq, Repr, Inhabited

/-- A core: issue slots, engines and units (R5, R36, R132 to R154, R164, R273), and its instruction cache (R239). -/
structure Core where
  issue : List (Nat × Issue)
  fifo : List FaultRec
  fdw : Nat
  wdogl : DWord
  pinTimeouts : Nat
  pins : List Pin
  dirty : List Dirty
  chans : List (List Cmd)
  matq : List Cmd
  seq : Nat
  freeze : Option Freeze
  lost : Nat
  openTiles : List ChordTile
  closedTiles : List ChordTile
  results : List ChordReq
  nextTile : Nat
  passes : Nat
  stipple : List SmReq
  bricks : List Brick
  storeErrs : List StoreErr
  icache : List IcWord
  deriving DecidableEq, Repr, Inhabited

/-- A command that the front end has fetched (R192, R193): its slot number, bytes, rights, and how far it is.
Stage 0 fetched, 1 dispatched and running, 2 waiting for room or for memory. -/
structure QCmd where
  n : Nat
  bytes : List Byte
  rights : BitVec 16
  stage : Nat
  since : Nat
  deriving DecidableEq, Repr, Inhabited

/-- A completion record's contents but for time and phase (R196). -/
structure Done where
  status : Nat
  detail : Nat
  tag : Nat
  count : Nat
  plate : Nat
  abandon : Nat
  deriving DecidableEq, Repr, Inhabited

/-- What the front end holds of a queue beyond its QCB (R188 to R193): rights of the commands still to fetch, by number
of commands; the commands fetched; when it was last served; the GANG that binds the next LAUNCH (R208); whether a ring
access failed or waits for a page, and the addresses whose page a response has granted and that have not succeeded since (R413);
the records of commands that have ended and that are not written yet, oldest first (R193, R413); and during retirement how many
commands were dropped (R211). -/
structure Queue where
  qcb : Nat
  cached : Bool
  spans : List (Nat × BitVec 16)
  cmds : List QCmd
  served : Nat
  bind : Option (List Byte)
  broken : Bool
  pri : Bool
  granted : List Nat
  owed : List Done
  retiring : Option Nat
  deriving DecidableEq, Repr, Inhabited

/-- A hardware work queue (R198). -/
structure WorkQ where
  num : Nat
  owner : Nat
  root : Nat
  addr : Nat
  cap : Nat
  head : Nat
  count : Nat
  isOpen : Bool
  deriving DecidableEq, Repr, Inhabited

/-- The GANG command bound to a launch (R208). -/
structure Span where
  start : Nat
  base : Nat
  total : Nat
  gid : Nat
  pkgs : List Nat
  sent : Bool
  decided : Bool
  going : Bool
  aborted : Bool
  deriving DecidableEq, Repr, Inhabited

/-- A gang that waits for cores (R206, R207). -/
structure GangWait where
  gang : Nat
  since : Nat
  reserved : List Nat
  preempted : Bool
  deriving DecidableEq, Repr, Inhabited

/-- A written line (R281, R282): its key slot, which key the slot held, and whether its check value fails. -/
structure LineInfo where
  key : Nat
  id : Nat
  bad : Bool
  deriving DecidableEq, Repr, Inhabited

/-- Memory as it was at a time: the module's, with the check of each line and the keys, and the host's. -/
structure Past where
  mem : SMap Byte
  lines : SMap LineInfo
  keyIds : SMap Nat
  hostmem : SMap Byte
  deriving DecidableEq, Repr, Inhabited

/-- A dispatched launch (R194 to R197, R203, R237). `shares` is each die's list of ranges of units (consorts, or gangs),
`waits` the gang that waits on a die (R207), and `failed` the gangs that lost a member (R226). `code` is memory
as it was when a LAUNCH of its PASID was last dispatched, and at times since, which fetches may still find (R239). -/
structure Launch where
  lid : Nat
  qcb : Nat
  n : Nat
  tag : Word
  pasid : Nat
  root : Nat
  prio : Nat
  kdesc : List Byte
  args : List DWord
  rtab : Nat
  code : List Past
  lt : List Word
  nbv : Nat
  refill : Bool
  plateMode : Nat
  gangSize : Nat
  pstore : Nat
  pstride : Nat
  wq : Nat
  plateId : Nat
  lidValue : DWord
  total : Nat
  ended : Nat
  shares : List (List (Nat × Nat))
  waits : List (Nat × GangWait)
  failed : List Nat
  span : Option Span
  status : Nat
  detail : DWord
  printed : Bool
  etched : Bool
  abandon : Nat
  order : Nat
  deriving DecidableEq, Repr, Inhabited

/-- A consort saved by pre-emption with its commands, by queue (R229); queue 4 is the matrix queue. -/
structure Saved where
  consort : Consort
  cmds : List (Nat × Cmd)
  area : Nat
  deriving DecidableEq, Repr, Inhabited

/-- Who waits for a PRI response (R111, R214, R413). -/
inductive PriFor where
  | course (cid ci : Nat)
  | freeze (core : Nat)
  | queue (qcb : Nat)
  deriving DecidableEq, Repr, Inhabited

/-- A PRI page request (R111). -/
structure Pri where
  id : Nat
  pasid : Nat
  va : Nat
  who : PriFor
  deriving DecidableEq, Repr, Inhabited

/-- A leaf of a page table as an access uses it (R107), for one 4 KiB frame, and how many frames its page holds (R108). -/
structure Leaf where
  frame : Nat
  key : Nat
  host : Bool
  x : Bool
  w : Bool
  frames : Nat
  deriving DecidableEq, Repr, Inhabited

/-- An array of translations (R109): a core's L1 TLB, a die's last-level TLB, or its array of 1 GiB pages. -/
inductive TlbArray where
  | l1 (core : Nat)
  | die (d : Nat)
  | giant (d : Nat)
  deriving DecidableEq, Repr, Inhabited

/-- A cached translation (R109, R111) of a page: its first virtual frame, how many it holds, and its first frame's leaf. -/
structure TlbEnt where
  array : TlbArray
  pasid : Nat
  root : Nat
  vframe : Nat
  frames : Nat
  leaf : Leaf
  deriving DecidableEq, Repr, Inhabited

/-- Whose write replaced bytes of memory: a copy of a consort from a tile, with the step tag or not, or a store of a course. -/
inductive Writer where
  | copy (cid tile : Nat) (step : Bool)
  | course (cid ci : Nat)
  deriving DecidableEq, Repr, Inhabited

/-- The agents around a course that a scope names (R117). -/
inductive Inst where
  | consort (cid : Nat)
  | gang (launch gang : Nat)
  | die (d : Nat)
  | package
  | system
  deriving DecidableEq, Repr, Inhabited

/-- Bytes of the module's memory or the host's that one access of each of these writers replaced, with what they held
before: an access that nothing orders after them may still find it (R116, R121, R128). `known` are agents that no longer may
(R119, R125), `whole` agents of which none writes between the read and the write of the atomics among the writers (R124), and
`via` the translations that the writes used, by PASID and address (R111). -/
structure Unseen where
  writers : List Writer
  host : Bool
  key : Nat
  old : List Byte
  known : List Inst
  whole : List Inst
  via : List (Nat × Nat)
  deriving DecidableEq, Repr, Inhabited

/-- The registers of a Burin core that a bundle reads before any slot writes (R69, R252). -/
structure BurinRegs where
  w : SMap (BitVec 512)
  s : SMap DWord
  m : SMap Word
  deriving DecidableEq, Repr, Inhabited

/-- A LOUT whose row the scan-out controller has not read (R259): its frame, band and line, and the row's
line-buffer address. -/
structure LoutRow where
  frame : Nat
  band : Nat
  line : Nat
  addr : Nat
  deriving DecidableEq, Repr, Inhabited

/-- What FACQ read of the slot it acquired (R312). -/
structure Acquired where
  width : Nat
  height : Nat
  colour : Nat
  depth : Nat
  motion : Nat
  deriving DecidableEq, Repr, Inhabited

/-- A result that has not landed (R253): its register, its value, and whether it is FSMP's (R260). -/
structure Landing where
  reg : Nat
  val : BitVec 512
  fsmp : Bool
  deriving DecidableEq, Repr, Inhabited

/-- A Burin core (R252 to R254, R258, R263). `src` is what the slots of the bundle in progress read. -/
structure Burin where
  regs : BurinRegs
  src : BurinRegs
  lb : SMap Byte
  pc : Nat
  npc : Option Nat
  loops : List LoopRec
  bundle : List Word
  pos : Nat
  running : Bool
  exiting : Bool
  head : Nat
  band : Nat
  frame : Nat
  late : Bool
  hold : Option Nat
  acq : Option Acquired
  louts : List LoutRow
  landing : List Landing
  deriving DecidableEq, Repr, Inhabited

/-- A pose: the 32 bytes of R265. -/
abbrev Pose := List Byte

/-- A record of the head and fabric event logs (R255, R263, R280). -/
structure LogRec where
  cause : Nat
  sub : Nat
  addr : Nat
  head : Nat
  band : Nat
  deriving DecidableEq, Repr, Inhabited

/-- How a line of a band is supplied (R260): the pixels of a LOUT row, once read, or reprojection. -/
inductive Supply where
  | row (pixels : List Word)
  | due
  | reproj
  deriving DecidableEq, Repr, Inhabited

/-- A band that is being served or whose lines are not all scanned (R257, R260): the pose latched at its start, and
its lines by number. -/
structure Band where
  frame : Nat
  band : Nat
  pose : Option Pose
  lines : List (Nat × Supply)
  closed : Bool
  deriving DecidableEq, Repr, Inhabited

/-- A display head (R256, R257, R265). Frame 0 here is the lead-in frame; refresh frame f is frame f + 1, and `line` is the
beam's line in the frame. `leadFrom` and `guardFrom` list new values with the frame from which each applies (R266). -/
structure Head where
  on : Bool
  mode : HeadMode
  frame : Nat
  line : Nat
  nextStart : Nat
  nextDeadline : Nat
  bands : List Band
  poses : List (Nat × Nat × Pose)
  nextBand : List (Nat × Nat)
  committed : Pose
  staged : Pose
  lead : Nat
  guard : Nat
  leadFrom : List (Nat × Nat)
  guardFrom : List (Nat × Nat)
  deriving DecidableEq, Repr, Inhabited

/-- The management mailbox (R283): status fields, and the response of the command in progress. -/
structure Mailbox where
  ready : Bool
  safe : Bool
  busy : Bool
  result : Byte
  stcode : BitVec 16
  waiting : Option (Byte × List Byte)
  request : List Byte
  response : List Byte
  deriving DecidableEq, Repr, Inhabited

/-- A ring-fault record (R413): the failing address and the QCB's address. -/
structure RingFault where
  addr : Nat
  qcb : Nat
  deriving DecidableEq, Repr, Inhabited

/-- What the configuration image in force fixes (R8, R285): the frame partition in units of 32 MiB, the heads with an HDMI
port, and the floor of the power cap. -/
structure Board where
  fp : Nat
  hdmi : BitVec 4
  floor : Nat
  deriving DecidableEq, Repr, Inhabited

/-- The module. `heard` says when each peer package last answered (R280), `keyIds` which key each slot was last loaded with
(R281), `adds` the contributions that came from other packages (R152), `staged` the images that take effect at the next
power-up; `fwImage` and `cfgImage` run, empty for those that the module ships with (R285); `plateDue` are plates, by page table
and address, whose STATE goes to 2 once their line is not pinned (R126, R181). -/
structure State where
  turn : Turn
  tick : Nat
  cycles : Nat
  fabtime : Nat
  bcycles : Nat
  mem : SMap Byte
  lines : SMap LineInfo
  hostmem : SMap Byte
  tlb : List TlbEnt
  unseen : List Unseen
  plateDue : List ((Nat × Nat) × Nat)
  cores : List (Nat × Core)
  consorts : List Consort
  nextCid : Nat
  launches : List Launch
  queues : List Queue
  workqs : List WorkQ
  saved : List Saved
  pris : List Pri
  adds : List PeerAdd
  ready : List (Nat × Nat)
  aborts : List (Nat × Nat)
  abortsOut : List (Nat × Nat)
  readyOut : List (Nat × Nat)
  burins : List (Nat × Burin)
  heads : List (Nat × Head)
  headLog : List LogRec
  poselead : DWord
  dlguard : DWord
  dres : DWord
  bandmiss : DWord
  mbox : Mailbox
  pkg : Nat
  ident : Nat
  peers : List Nat
  lostPkgs : List Nat
  heard : List (Nat × Nat)
  links : BitVec 18
  fabricLog : List LogRec
  ringFaults : List RingFault
  wakeDiscards : List Nat
  keys : List Nat
  keyIds : SMap Nat
  attached : List Nat
  staged : List (List Byte)
  fwImage : List Byte
  cfgImage : List Byte
  board : Board
  cap : Nat
  khz : Nat
  msix : BitVec 64
  hostReads : List (List Byte × Bool)
  deriving DecidableEq, Repr

/-- What stops the machine. Every behaviour of the manual ends in a next state, so nothing raises one. -/
inductive Fault where
  deriving DecidableEq, Repr

/-- What the machine refuses. -/
inductive Refusal where
  /-- Raised by the dispatcher for an instruction without a meaning; safe, since nothing is then proved of it. -/
  | notModelled (mnemonic : String)
  deriving DecidableEq, Repr

/-- The mailbox right after reset (R283). -/
def Mailbox.reset : Mailbox :=
  { ready := false, safe := false, busy := false, result := 0, stcode := 0, waiting := none, request := [], response := [] }

/-- The machine right after reset: no course, no launch, no queue, no mode, memory unwritten (R281, R283, R266). -/
def State.reset : State :=
  { turn := .free, tick := 0, cycles := 0, fabtime := 0, bcycles := 0
    mem := [], lines := [], hostmem := [], tlb := [], unseen := [], plateDue := []
    cores := [], consorts := [], nextCid := 0, launches := [], queues := [], workqs := [], saved := [], pris := []
    adds := [], ready := [], aborts := [], abortsOut := [], readyOut := []
    burins := [], heads := [], headLog := []
    poselead := 0x0020002000200020, dlguard := 0x0004000400040004, dres := 12, bandmiss := 0
    mbox := Mailbox.reset
    pkg := 0, ident := 0, peers := [], lostPkgs := [], heard := [], links := 0, fabricLog := [], ringFaults := []
    wakeDiscards := [0, 0, 0, 0, 0, 0], keys := [], keyIds := [], attached := []
    staged := [], fwImage := [], cfgImage := [], board := ⟨4, 0, 600⟩
    cap := 1500, khz := 1500000, msix := 0, hostReads := [] }

end Sys2Proof.Machine
end

