-- ==== Sys2Proof/Decode.lean ====
section
/-! DEFINITION. Decoding of control words (R56 to R58), two-word core instructions (R60 to R63) and Burin slot
words (R69 to R71), total on any bits and rejecting by name; then the encoder, from the same tables. -/

namespace Sys2Proof

/-- Why bits stand for no instruction. The fields of a two-word instruction stay with it, because the fate of a
reserved opcode or FN follows the class and the guard (R65, R66). -/
inductive DecodeErr where
  /-- A reserved control opcode: ILL OPCODE, always (R57). -/
  | ctrlOpcode
  /-- A reserved or non-zero unused field of a control word: ILL FIELD, always (R57). -/
  | ctrlField
  /-- A reserved opcode of the upper half, lane-class (R63). -/
  | laneOpcode (p : P)
  /-- A reserved FN of a lane-class opcode. -/
  | laneFn (p : P)
  /-- A reserved FN of a course-class opcode. -/
  | courseFn (p : P)
  /-- A reserved Burin slot word (R71). -/
  | burin
  /-- Fewer bytes than the instruction has. -/
  | short
  deriving DecidableEq, Repr

/-- Field [lo + n − 1 : lo] of a word. -/
abbrev fld (n : Nat) (w : Word) (lo : Nat) : BitVec n := w.extractLsb' lo n

/-! ## Control words -/

/-- The seventeen SALU functions (R57). -/
def saluCtor (fn : Nat) : Option (BitVec 6 → BitVec 6 → BitVec 6 → Instr) :=
  match fn with
  | 0 => some .sadd
  | 1 => some .ssub
  | 2 => some .sand
  | 3 => some .sor
  | 4 => some .sxor
  | 5 => some .sshl
  | 6 => some .sshr
  | 7 => some .ssha
  | 8 => some .smul
  | 9 => some .smulh
  | 10 => some .smin
  | 11 => some .smax
  | 12 => some .sminu
  | 13 => some .smaxu
  | 14 => some .sslt
  | 15 => some .ssltu
  | 16 => some .sseq
  | _ => none

/-- The condition codes of BR and LBRK: 7 to 15 are reserved, and AL takes no register (R57). -/
def condOk (cond : BitVec 4) (sa : BitVec 6) : Bool := decide (cond.toNat ≤ 6) && (cond != 0 || sa == 0)

/-- Stage counts 1 to 8 (R57). -/
def stagesOk (s : BitVec 4) : Bool := decide (1 ≤ s.toNat) && decide (s.toNat ≤ 8)

/-- Is field [lo + n − 1 : lo] zero? -/
def zf (n : Nat) (w : Word) (lo : Nat) : Bool := fld n w lo == 0

/-- Accept when the unused and limited fields are as R57 says. -/
def okIf (b : Bool) (i : Instr) : Except DecodeErr Instr := if b then .ok i else .error .ctrlField

/-- A control word (bit 31 = 0) by its opcode. -/
def decodeCtrl (w : Word) : Except DecodeErr Instr :=
  let sd := fld 6 w 19
  let sa := fld 6 w 13
  let imm := fld 13 w 0
  match (fld 7 w 25).toNat with
  | 0x00 => okIf (w == 0) .nop
  | 0x01 => okIf (condOk (fld 4 w 21) (fld 6 w 15)) (.br (fld 4 w 21) (fld 6 w 15) (fld 15 w 0))
  | 0x02 => okIf (zf 10 w 15) (.call (fld 15 w 0))
  | 0x03 => okIf (zf 6 w 19 && zf 13 w 0) (.calli sa)
  | 0x04 => okIf (zf 25 w 0) .ret
  | 0x05 => okIf (zf 6 w 19 && zf 13 w 0) (.jmpi sa)
  | 0x06 => okIf (stagesOk (fld 4 w 15) && fld 15 w 0 != 0) (.loop sd (fld 4 w 15) (fld 15 w 0))
  | 0x07 => okIf (stagesOk (fld 4 w 11) && fld 11 w 0 != 0) (.loopi (fld 10 w 15) (fld 4 w 11) (fld 11 w 0))
  | 0x08 => okIf (condOk (fld 4 w 21) (fld 6 w 15) && zf 15 w 0) (.lbrk (fld 4 w 21) (fld 6 w 15))
  | 0x09 => okIf (zf 12 w 7 && decide ((fld 7 w 0).toNat ≤ 3)) (.lcnt sd (fld 7 w 0))
  | 0x0A => okIf (zf 25 w 0) .exit
  | 0x0B => okIf (zf 25 w 0) .yield
  | 0x10 => match saluCtor (fld 7 w 0).toNat with
    | some k => .ok (k sd sa (fld 6 w 7))
    | none => .error .ctrlField
  | 0x11 => .ok (.saddi sd sa imm)
  | 0x12 => .ok (.sandi sd sa imm)
  | 0x13 => .ok (.sori sd sa imm)
  | 0x14 => .ok (.sxori sd sa imm)
  | 0x15 => okIf (zf 7 w 6) (.sshli sd sa (fld 6 w 0))
  | 0x16 => okIf (zf 7 w 6) (.sshri sd sa (fld 6 w 0))
  | 0x17 => okIf (zf 7 w 6) (.sshai sd sa (fld 6 w 0))
  | 0x18 => .ok (.smovi sd (fld 19 w 0))
  | 0x19 => okIf (zf 4 w 3) (.slea sd sa (fld 6 w 7) (fld 3 w 0))
  | 0x1A => okIf (zf 6 w 13 && decide (imm.toNat ≤ 127)) (.srd sd imm)
  | _ => .error .ctrlOpcode

/-! ## Two-word core instructions -/

/-- The raw fields of a two-word instruction (R60). -/
def fieldsOf (w0 w1 : Word) : P :=
  { d := fld 8 w0 17, a := fld 8 w0 9, b := fld 8 w0 1, z := fld 1 w0 0
    c := fld 8 w1 24, ty := fld 4 w1 20, rm := fld 3 w1 13, sat := fld 1 w1 12, mod := fld 3 w1 9
    bk := fld 2 w1 7, x3 := fld 3 w1 4, g := fld 3 w1 1, gn := fld 1 w1 0 }

/-- An instruction whose FN is an operand, up to a greatest FN. -/
def fnUpTo (hi fn : Nat) (k : P → BitVec 4 → Instr) : Option (P → Instr) :=
  if fn ≤ hi then some (fun p => k p (BitVec.ofNat 4 fn)) else none

/-- R63: the instruction that an opcode and an FN name. -/
def coreCtor (op fn : Nat) : Option (P → Instr) :=
  match op with
  | 0x40 => if fn = 0 then some .vadd else none
  | 0x41 => if fn = 0 then some .vsub else none
  | 0x42 => if fn = 0 then some .vmul else none
  | 0x43 => if fn = 0 then some .vmulh else none
  | 0x44 => if fn = 0 then some .vmad else none
  | 0x45 => if fn = 0 then some .vmin else none
  | 0x46 => if fn = 0 then some .vmax else none
  | 0x47 => if fn = 0 then some .vdiv else none
  | 0x48 => match fn with
    | 0 => some .vand
    | 1 => some .vor
    | 2 => some .vxor
    | 3 => some .vandn
    | 4 => some .vorn
    | 5 => some .vxnor
    | _ => none
  | 0x49 => match fn with
    | 0 => some .vshl
    | 1 => some .vshr
    | 2 => some .vsha
    | 3 => some .vrol
    | _ => none
  | 0x4A => fnUpTo 7 fn .vcmp
  | 0x4B => if fn = 0 then some .vsel else none
  | 0x4C => fnUpTo 14 fn .vcvt
  | 0x4D => match fn with
    | 0 => some .vpopc
    | 1 => some .vclz
    | 2 => some .vctz
    | 3 => some .vbrev
    | 4 => some .vbfe
    | 5 => some .vbfi
    | _ => none
  | 0x4E => match fn with
    | 0 => some .vmov
    | 1 => some .vmovi
    | 2 => some .vbcast
    | 3 => some .vget
    | _ => none
  | 0x4F => if fn = 0 then some .vperm else none
  | 0x50 => if fn ≤ 5 ∨ (8 ≤ fn ∧ fn ≤ 13) then some (fun p => .vscan p (BitVec.ofNat 4 fn)) else none
  | 0x51 => fnUpTo 5 fn .vred
  | 0x52 => if fn = 0 then some .vwacc else none
  | 0x53 => match fn with
    | 0 => some .vrcp
    | 1 => some .vrsq
    | 2 => some .vsqrt
    | 3 => some .vexp2
    | 4 => some .vlog2
    | 5 => some .vsin
    | 6 => some .vcos
    | 7 => some .vtanh
    | _ => none
  | 0x54 => if fn = 0 then some .vfclass else none
  | 0x55 => if fn = 0 then some .vpack else none
  | 0x56 => if fn = 0 then some .vunpk else none
  | 0x58 => match fn with
    | 0 => some .pand
    | 1 => some .por
    | 2 => some .pxor
    | 3 => some .pandn
    | 4 => some .pnot
    | 5 => some .pmov
    | _ => none
  | 0x59 => match fn with
    | 0 => some .pany
    | 1 => some .pall
    | 2 => some .pbal
    | _ => none
  | 0x5A => match fn with
    | 0 => some .setx
    | 1 => some .getx
    | _ => none
  | 0x5B => fnUpTo 1 fn .brd
  | 0x5C => if fn = 0 then some .join else none
  | 0x5D => if fn = 0 then some .refill else none
  | 0x5E => if fn = 0 then some .ld else none
  | 0x5F => if fn = 0 then some .st else none
  | 0x60 => if fn = 0 then some .lds else none
  | 0x61 => if fn = 0 then some .sts else none
  | 0x62 => if fn = 0 then some .ldsp else none
  | 0x63 => fnUpTo 15 fn .chk
  | 0x64 => if fn = 0 then some .ldt else none
  | 0x65 => if fn = 0 then some .stt else none
  | 0x66 => fnUpTo 10 fn .atom
  | 0x67 => fnUpTo 10 fn .atoms
  | 0x68 => if fn = 0 then some .fence else none
  | 0x69 => if fn = 0 then some .wpush else none
  | 0x6A => if fn = 0 then some .talloc else none
  | 0x6B => if fn = 0 then some .tfree else none
  | 0x6C => if fn = 0 then some .tgive else none
  | 0x6D => if fn = 0 then some .ttake else none
  | 0x6E => if fn = 0 then some .xcopy else none
  | 0x6F => fnUpTo 3 fn .xcopym
  | 0x70 => if fn = 0 then some .xtpl else none
  | 0x71 => fnUpTo 3 fn .mma
  | 0x72 => if fn = 0 then some .mblk else none
  | 0x73 => if fn = 0 then some .scla else none
  | 0x74 => match fn with
    | 0 => some .mdrain
    | 1 => some .mdrainPeer
    | 2 => some .mdrainOpeer
    | _ => none
  | 0x75 => if fn = 0 then some .mzero else none
  | 0x76 => match fn with
    | 0 => some .cfwait
    | 1 => some .cfadd
    | 2 => some .cfset
    | 3 => some .cfrd
    | _ => none
  | 0x77 => fnUpTo 15 fn .chord
  | 0x78 => if fn = 0 then some .smarch else none
  | 0x79 => match fn with
    | 0 => some .bar
    | 1 => some .gbar
    | 2 => some .sstep
    | _ => none
  | 0x7A => match fn with
    | 0 => some .trap
    | 1 => some .eret
    | 2 => some .csrr
    | 3 => some .csrw
    | 4 => some .tlbinv
    | 5 => some .dbgbrk
    | _ => none
  | 0x7B => match fn with
    | 0 => some .pslot
    | 1 => some .pguard
    | _ => none
  | 0x7C => if fn = 0 then some .sleep else none
  | _ => none

/-- The opcodes that R63 leaves reserved. -/
def reservedOp (op : Nat) : Bool := op == 0x57 || decide (0x7D ≤ op)

/-- The course-class opcodes of R63. -/
def courseOp (op : Nat) : Bool :=
  op == 0x59 || op == 0x5A || op == 0x5B || op == 0x5C || op == 0x5D || op == 0x60 || op == 0x61 ||
  op == 0x67 || op == 0x68 || (decide (0x6A ≤ op) && decide (op ≤ 0x76)) || op == 0x79 || op == 0x7A ||
  op == 0x7B || op == 0x7C

/-- A two-word instruction (bit 31 of word 0 is 1). -/
def decodeCore (w0 w1 : Word) : Except DecodeErr Instr :=
  let op := (fld 7 w0 25).toNat
  let p := fieldsOf w0 w1
  match coreCtor op (fld 4 w1 16).toNat with
  | some k => .ok (k p)
  | none =>
    if reservedOp op then .error (.laneOpcode p)
    else if courseOp op then .error (.courseFn p)
    else .error (.laneFn p)

/-- The next instruction of a list of words, and the words after it. -/
def decodeWords : List Word → Except DecodeErr (Instr × List Word)
  | [] => .error .short
  | w :: ws =>
    if w.getLsbD 31 then match ws with
      | [] => .error .short
      | w1 :: rest => (decodeCore w w1).map (·, rest)
    else (decodeCtrl w).map (·, ws)

/-! ## Burin slot words -/

def okB (b : Bool) (i : Instr) : Except DecodeErr Instr := if b then .ok i else .error .burin

/-- The lane type of LPACK and LUNPK by fn (R341, R344): f16, f16, i32. -/
def packTy (ty : BitVec 2) (fn : BitVec 3) : Bool := match fn.toNat with
  | 0 | 1 => ty == 1
  | 2 => ty == 2
  | _ => false

/-- A word of slots 1 to 3 other than the all-zero no-op (R70, R71); the slot is checked where it issues. -/
def decodeBurin (w : Word) : Except DecodeErr Instr :=
  let stg := fld 2 w 23
  let d := fld 6 w 17
  let a := fld 6 w 11
  let b := fld 6 w 5
  let ty := fld 2 w 3
  let fn := fld 3 w 0
  match (fld 7 w 25).toNat with
  | 0x40 => okB (decide (fn.toNat ≤ 1) && (fn == 0 || !ty.getLsbD 0)) (.ladd stg d a b ty fn)
  | 0x41 => okB (decide (fn.toNat ≤ 1) && (fn == 0 || !ty.getLsbD 0)) (.lsub stg d a b ty fn)
  | 0x42 => okB (decide (fn.toNat ≤ 1) && (fn == 0 || !ty.getLsbD 0)) (.lmul stg d a b ty fn)
  | 0x43 => okB (decide (fn.toNat ≤ 1) && (fn == 0 || !ty.getLsbD 0)) (.lmad stg d a b ty fn)
  | 0x44 => okB (decide (fn.toNat ≤ 1) && (fn == 0 || !ty.getLsbD 0)) (.lmin stg d a b ty fn)
  | 0x45 => okB (decide (fn.toNat ≤ 1) && (fn == 0 || !ty.getLsbD 0)) (.lmax stg d a b ty fn)
  | 0x46 => .ok (.lsel stg d a b ty fn)
  | 0x47 => okB (zf 3 w 20 && decide (fn.toNat ≤ 5)) (.lcmp stg (fld 3 w 17) a b ty fn)
  | 0x48 => okB (b == 0) (.lcvt stg d a ty fn)
  | 0x49 => okB (decide (fn.toNat ≤ 3) && !ty.getLsbD 0) (.lshf stg d a b ty fn)
  | 0x4A => okB (decide (fn.toNat ≤ 4) && !ty.getLsbD 0 && (fn != 4 || b == 0)) (.llog stg d a b ty fn)
  | 0x4B => okB (b == 0 && packTy ty fn) (.lpack stg d a ty fn)
  | 0x4C => okB (b == 0 && packTy ty fn) (.lunpk stg d a ty fn)
  | 0x50 => okB (b == 0 && !ty.getLsbD 0) (.lbld stg d a ty fn)
  | 0x51 => okB (d == 0 && !ty.getLsbD 0) (.lbst stg a b ty fn)
  | 0x52 => okB (ty == 3 && decide (fn.toNat ≤ 2)) (.fsmp stg d a b fn)
  | 0x53 => okB (zf 17 w 0) (.facq stg d)
  | 0x54 => okB (zf 17 w 0) (.posel stg d)
  | 0x55 => okB (ty == 3 && fn == 0) (.wxy stg d a b)
  | 0x56 => okB (ty == 1 && fn == 0) (.lmma stg d a b)
  | 0x57 => okB (d == 0 && b == 0 && ty == 0 && decide (fn.toNat ≤ 3)) (.lout stg a fn)
  | 0x58 => okB (zf 3 w 20 && zf 17 w 0) (.dlchk stg (fld 3 w 17))
  | 0x59 => okB (d == 0 && zf 11 w 0) (.rpj stg a)
  | 0x5A => okB (zf 20 w 3 && decide (fn.toNat ≤ 1)) (.bwait stg fn)
  | _ => .error .burin

/-- A slot word of a Burin bundle: slot 0 is a control word; zero is the no-op of the others (R69). -/
def decodeSlot (slot : Nat) (w : Word) : Except DecodeErr Instr :=
  if slot = 0 then (if w.getLsbD 31 then .error .burin else decodeCtrl w)
  else if w = 0 then .ok .nop
  else if w.getLsbD 31 then decodeBurin w else .error .burin

/-! ## Bytes -/

/-- The little-endian word of four bytes (R2). -/
def wordOf (b0 b1 b2 b3 : Byte) : Word := b3 ++ b2 ++ b1 ++ b0

/-- Whole words of a byte list; left-over bytes are dropped. -/
def wordsOf : List Byte → List Word
  | b0 :: b1 :: b2 :: b3 :: rest => wordOf b0 b1 b2 b3 :: wordsOf rest
  | _ => []

/-- The bytes of a word, lowest address first. -/
def bytesOf (w : Word) : List Byte := [fld 8 w 0, fld 8 w 8, fld 8 w 16, fld 8 w 24]

/-- The first core instruction of a byte list. -/
def decode (bs : List Byte) : Except DecodeErr (Instr × List Word) := decodeWords (wordsOf bs)

/-- The instruction that this decoder reads from a table word: a control word or a Burin slot word of 32 bits,
or a two-word core instruction of 64, laid out in memory order first. -/
def decodeTableWord (nbits w : Nat) : Option Instr :=
  let bs := bytesOf (BitVec.ofNat 32 w) ++ bytesOf (BitVec.ofNat 32 (w >>> 32))
  let r := if nbits ≤ 32 && w.testBit 31 then decodeBurin (BitVec.ofNat 32 w) else (decode bs).map (·.1)
  match r with
  | .ok i => some i
  | .error _ => none

/-! ## The encoder -/

/-- Word 0 of a two-word instruction. -/
def encode0 (op : Nat) (p : P) : Word := (BitVec.ofNat 7 op ++ p.d ++ p.a ++ p.b ++ p.z : BitVec 32)

/-- Word 1 of a two-word instruction. -/
def encode1 (fn : BitVec 4) (p : P) : Word :=
  (p.c ++ p.ty ++ fn ++ p.rm ++ p.sat ++ p.mod ++ p.bk ++ p.x3 ++ p.g ++ p.gn : BitVec 32)

/-- The two words of a core instruction. -/
def encCore (op : Nat) (fn : BitVec 4) (p : P) : List Word := [encode0 op p, encode1 fn p]

/-- Layout C-R (R56). -/
def encR (op : Nat) (sd sa sb : BitVec 6) (fn : BitVec 7) : List Word :=
  [(BitVec.ofNat 7 op ++ sd ++ sa ++ sb ++ fn : BitVec 32)]

/-- Layout C-I (R56). -/
def encI (op : Nat) (sd sa : BitVec 6) (imm : BitVec 13) : List Word := [(BitVec.ofNat 7 op ++ sd ++ sa ++ imm : BitVec 32)]

/-- Layout C-B (R56). -/
def encB (op : Nat) (cond : BitVec 4) (sa : BitVec 6) (off : BitVec 15) : List Word :=
  [(BitVec.ofNat 7 op ++ cond ++ sa ++ off : BitVec 32)]

/-- A Burin slot word (R70). -/
def encL (op : Nat) (stg : BitVec 2) (d a b : BitVec 6) (ty : BitVec 2) (fn : BitVec 3) : List Word :=
  [(BitVec.ofNat 7 op ++ stg ++ d ++ a ++ b ++ ty ++ fn : BitVec 32)]

/-- The words of an instruction; an event has none. -/
def encode : Instr → List Word
  | .powerUp _ _ _ _ _ => []
  | .wakeWrite _ _ _ => []
  | .commandFetch => []
  | .launch => []
  | .feedCreate => []
  | .feedDestroy => []
  | .feedAppend => []
  | .feedRoom => []
  | .signalStore => []
  | .signalAdd => []
  | .wait => []
  | .waitReread => []
  | .gang => []
  | .launchComplete => []
  | .ticketClaim => []
  | .ticketSteal => []
  | .gangPlace _ => []
  | .gangReserve _ => []
  | .gangPreempt => []
  | .gangTimeout => []
  | .gangReadySend => []
  | .gangReady _ _ => []
  | .gangReadyUndeliverable _ => []
  | .gangAbort _ _ => []
  | .gangDecide => []
  | .clauseIssue _ => []
  | .capoInterleave => []
  | .longLatencyWriteback _ _ => []
  | .temporalIteration => []
  | .courseEnd _ => []
  | .plateFeed => []
  | .copyBegin _ => []
  | .copyLineTransfer _ _ => []
  | .freezeResume _ => []
  | .copyComplete _ => []
  | .matrixStart => []
  | .matrixComplete => []
  | .peerContributionApply => []
  | .peerTileWrite _ => []
  | .chordTileClose _ => []
  | .chordPass => []
  | .chordWriteback _ => []
  | .brickLoad => []
  | .smarchWriteback _ => []
  | .ttakeComplete _ => []
  | .barComplete => []
  | .gbarComplete => []
  | .sstepComplete => []
  | .pinTimeout _ => []
  | .sleepExpire _ _ => []
  | .yieldExpire _ _ => []
  | .wdog => []
  | .storeError => []
  | .gangPeerFailure => []
  | .survivorTeardown => []
  | .preemptSave => []
  | .preemptWithdraw => []
  | .consortRestore _ => []
  | .priResponse _ => []
  | .atsInvalidation _ _ => []
  | .hostMemoryWrite _ _ => []
  | .hostMemoryRead _ _ => []
  | .fabricAccess _ _ _ => []
  | .fabricTimeout => []
  | .linkFail => []
  | .powerThrottle _ => []
  | .bandStart => []
  | .bandDeadline => []
  | .scanoutLine => []
  | .burinInvocationStart => []
  | .burinWriteback => []
  | .poseCommit => []
  | .fltrecRead _ => []
  | .registerWrite _ _ => []
  | .mailboxCommandComplete => []
  | .ident => []
  | .attest _ => []
  | .fwload _ => []
  | .capmint _ _ _ => []
  | .retire _ => []
  | .preempt => []
  | .debugAttach _ => []
  | .debugHalt _ => []
  | .debugStep _ => []
  | .debugResume _ => []
  | .debugRead _ _ => []
  | .debugWrite _ _ _ _ => []
  | .tlbflush _ _ _ => []
  | .modeset _ => []
  | .events => []
  | .dispcsrRead _ => []
  | .dispcsrWrite _ _ => []
  | .keyloadLoad _ _ => []
  | .keyloadZeroise _ => []
  | .powercap _ => []
  | .nop => [0]
  | .br cond sa off => encB 0x01 cond sa off
  | .call off => encB 0x02 0 0 off
  | .calli sa => encR 0x03 0 sa 0 0
  | .ret => encR 0x04 0 0 0 0
  | .jmpi sa => encR 0x05 0 sa 0 0
  | .loop sa stages len => [(0x06#7 ++ sa ++ stages ++ len : BitVec 32)]
  | .loopi count stages len => [(0x07#7 ++ count ++ stages ++ len : BitVec 32)]
  | .lbrk cond sa => encB 0x08 cond sa 0
  | .lcnt sd fn => encR 0x09 sd 0 0 fn
  | .exit => encR 0x0A 0 0 0 0
  | .yield => encR 0x0B 0 0 0 0
  | .sadd sd sa sb => encR 0x10 sd sa sb 0
  | .ssub sd sa sb => encR 0x10 sd sa sb 1
  | .sand sd sa sb => encR 0x10 sd sa sb 2
  | .sor sd sa sb => encR 0x10 sd sa sb 3
  | .sxor sd sa sb => encR 0x10 sd sa sb 4
  | .sshl sd sa sb => encR 0x10 sd sa sb 5
  | .sshr sd sa sb => encR 0x10 sd sa sb 6
  | .ssha sd sa sb => encR 0x10 sd sa sb 7
  | .smul sd sa sb => encR 0x10 sd sa sb 8
  | .smulh sd sa sb => encR 0x10 sd sa sb 9
  | .smin sd sa sb => encR 0x10 sd sa sb 10
  | .smax sd sa sb => encR 0x10 sd sa sb 11
  | .sminu sd sa sb => encR 0x10 sd sa sb 12
  | .smaxu sd sa sb => encR 0x10 sd sa sb 13
  | .sslt sd sa sb => encR 0x10 sd sa sb 14
  | .ssltu sd sa sb => encR 0x10 sd sa sb 15
  | .sseq sd sa sb => encR 0x10 sd sa sb 16
  | .saddi sd sa imm => encI 0x11 sd sa imm
  | .sandi sd sa imm => encI 0x12 sd sa imm
  | .sori sd sa imm => encI 0x13 sd sa imm
  | .sxori sd sa imm => encI 0x14 sd sa imm
  | .sshli sd sa amt => encI 0x15 sd sa (amt.setWidth 13)
  | .sshri sd sa amt => encI 0x16 sd sa (amt.setWidth 13)
  | .sshai sd sa amt => encI 0x17 sd sa (amt.setWidth 13)
  | .smovi sd imm => [(0x18#7 ++ sd ++ imm : BitVec 32)]
  | .slea sd sa sb k => encR 0x19 sd sa sb (k.setWidth 7)
  | .srd sd n => encI 0x1A sd 0 n
  | .vadd p => encCore 0x40 0 p
  | .vsub p => encCore 0x41 0 p
  | .vmul p => encCore 0x42 0 p
  | .vmulh p => encCore 0x43 0 p
  | .vmad p => encCore 0x44 0 p
  | .vmin p => encCore 0x45 0 p
  | .vmax p => encCore 0x46 0 p
  | .vdiv p => encCore 0x47 0 p
  | .vand p => encCore 0x48 0 p
  | .vor p => encCore 0x48 1 p
  | .vxor p => encCore 0x48 2 p
  | .vandn p => encCore 0x48 3 p
  | .vorn p => encCore 0x48 4 p
  | .vxnor p => encCore 0x48 5 p
  | .vshl p => encCore 0x49 0 p
  | .vshr p => encCore 0x49 1 p
  | .vsha p => encCore 0x49 2 p
  | .vrol p => encCore 0x49 3 p
  | .vcmp p fn => encCore 0x4A fn p
  | .vsel p => encCore 0x4B 0 p
  | .vcvt p fn => encCore 0x4C fn p
  | .vpopc p => encCore 0x4D 0 p
  | .vclz p => encCore 0x4D 1 p
  | .vctz p => encCore 0x4D 2 p
  | .vbrev p => encCore 0x4D 3 p
  | .vbfe p => encCore 0x4D 4 p
  | .vbfi p => encCore 0x4D 5 p
  | .vmov p => encCore 0x4E 0 p
  | .vmovi p => encCore 0x4E 1 p
  | .vbcast p => encCore 0x4E 2 p
  | .vget p => encCore 0x4E 3 p
  | .vperm p => encCore 0x4F 0 p
  | .vscan p fn => encCore 0x50 fn p
  | .vred p fn => encCore 0x51 fn p
  | .vwacc p => encCore 0x52 0 p
  | .vrcp p => encCore 0x53 0 p
  | .vrsq p => encCore 0x53 1 p
  | .vsqrt p => encCore 0x53 2 p
  | .vexp2 p => encCore 0x53 3 p
  | .vlog2 p => encCore 0x53 4 p
  | .vsin p => encCore 0x53 5 p
  | .vcos p => encCore 0x53 6 p
  | .vtanh p => encCore 0x53 7 p
  | .vfclass p => encCore 0x54 0 p
  | .vpack p => encCore 0x55 0 p
  | .vunpk p => encCore 0x56 0 p
  | .pand p => encCore 0x58 0 p
  | .por p => encCore 0x58 1 p
  | .pxor p => encCore 0x58 2 p
  | .pandn p => encCore 0x58 3 p
  | .pnot p => encCore 0x58 4 p
  | .pmov p => encCore 0x58 5 p
  | .pany p => encCore 0x59 0 p
  | .pall p => encCore 0x59 1 p
  | .pbal p => encCore 0x59 2 p
  | .setx p => encCore 0x5A 0 p
  | .getx p => encCore 0x5A 1 p
  | .brd p fn => encCore 0x5B fn p
  | .join p => encCore 0x5C 0 p
  | .refill p => encCore 0x5D 0 p
  | .ld p => encCore 0x5E 0 p
  | .st p => encCore 0x5F 0 p
  | .lds p => encCore 0x60 0 p
  | .sts p => encCore 0x61 0 p
  | .ldsp p => encCore 0x62 0 p
  | .chk p fn => encCore 0x63 fn p
  | .ldt p => encCore 0x64 0 p
  | .stt p => encCore 0x65 0 p
  | .atom p fn => encCore 0x66 fn p
  | .atoms p fn => encCore 0x67 fn p
  | .fence p => encCore 0x68 0 p
  | .wpush p => encCore 0x69 0 p
  | .talloc p => encCore 0x6A 0 p
  | .tfree p => encCore 0x6B 0 p
  | .tgive p => encCore 0x6C 0 p
  | .ttake p => encCore 0x6D 0 p
  | .xcopy p => encCore 0x6E 0 p
  | .xcopym p fn => encCore 0x6F fn p
  | .xtpl p => encCore 0x70 0 p
  | .mma p fn => encCore 0x71 fn p
  | .mblk p => encCore 0x72 0 p
  | .scla p => encCore 0x73 0 p
  | .mzero p => encCore 0x75 0 p
  | .mdrain p => encCore 0x74 0 p
  | .mdrainPeer p => encCore 0x74 1 p
  | .mdrainOpeer p => encCore 0x74 2 p
  | .cfwait p => encCore 0x76 0 p
  | .cfadd p => encCore 0x76 1 p
  | .cfset p => encCore 0x76 2 p
  | .cfrd p => encCore 0x76 3 p
  | .chord p fn => encCore 0x77 fn p
  | .smarch p => encCore 0x78 0 p
  | .bar p => encCore 0x79 0 p
  | .gbar p => encCore 0x79 1 p
  | .sstep p => encCore 0x79 2 p
  | .trap p => encCore 0x7A 0 p
  | .eret p => encCore 0x7A 1 p
  | .csrr p => encCore 0x7A 2 p
  | .csrw p => encCore 0x7A 3 p
  | .tlbinv p => encCore 0x7A 4 p
  | .dbgbrk p => encCore 0x7A 5 p
  | .pslot p => encCore 0x7B 0 p
  | .pguard p => encCore 0x7B 1 p
  | .sleep p => encCore 0x7C 0 p
  | .ladd stg d a b ty fn => encL 0x40 stg d a b ty fn
  | .lsub stg d a b ty fn => encL 0x41 stg d a b ty fn
  | .lmul stg d a b ty fn => encL 0x42 stg d a b ty fn
  | .lmad stg d a b ty fn => encL 0x43 stg d a b ty fn
  | .lmin stg d a b ty fn => encL 0x44 stg d a b ty fn
  | .lmax stg d a b ty fn => encL 0x45 stg d a b ty fn
  | .lsel stg d a b ty fn => encL 0x46 stg d a b ty fn
  | .lcmp stg d a b ty fn => encL 0x47 stg (d.setWidth 6) a b ty fn
  | .lcvt stg d a ty fn => encL 0x48 stg d a 0 ty fn
  | .lshf stg d a b ty fn => encL 0x49 stg d a b ty fn
  | .llog stg d a b ty fn => encL 0x4A stg d a b ty fn
  | .lpack stg d a ty fn => encL 0x4B stg d a 0 ty fn
  | .lunpk stg d a ty fn => encL 0x4C stg d a 0 ty fn
  | .wxy stg d a b => encL 0x55 stg d a b 3 0
  | .lbld stg d a ty r => encL 0x50 stg d a 0 ty r
  | .lbst stg a b ty r => encL 0x51 stg 0 a b ty r
  | .fsmp stg d a b fn => encL 0x52 stg d a b 3 fn
  | .facq stg d => encL 0x53 stg d 0 0 0 0
  | .posel stg d => encL 0x54 stg d 0 0 0 0
  | .lmma stg d a b => encL 0x56 stg d a b 1 0
  | .lout stg a h => encL 0x57 stg 0 a 0 0 h
  | .dlchk stg d => encL 0x58 stg (d.setWidth 6) 0 0 0 0
  | .rpj stg a => encL 0x59 stg 0 a 0 0 0
  | .bwait stg fn => encL 0x5A stg 0 0 0 0 fn
  | .gangStart => []
  | .loutRowRead => []

/-- Does a slot of a Burin bundle take this operation (R69)? -/
def burinSlotOk (slot : Nat) (i : Instr) : Bool :=
  let vec := slot == 1 || slot == 2
  match i with
  | .nop => true
  | .ladd .. => vec
  | .lsub .. => vec
  | .lmul .. => vec
  | .lmad .. => vec
  | .lmin .. => vec
  | .lmax .. => vec
  | .lshf .. => vec
  | .llog .. => vec
  | .lsel .. => vec
  | .lcmp .. => vec
  | .lcvt .. => vec
  | .lpack .. => vec
  | .lunpk .. => vec
  | .wxy .. => vec
  | .lbld .. => slot == 3
  | .lbst .. => slot == 3
  | .fsmp .. => slot == 3
  | .facq .. => slot == 3
  | .posel .. => slot == 3
  | .lmma .. => slot == 3
  | .lout .. => slot == 3
  | .dlchk .. => slot == 3
  | .rpj .. => slot == 3
  | .bwait .. => slot == 3
  | _ => slot == 0

end Sys2Proof
end

