-- ==== Sys2Proof/WellFormed.lean ====
section
/-! DEFINITION. Well-formed instructions: operands within the limits that their encoding has (R57, R63, R70), and
events whose unit numbers exist on the module (R5, R188, R198). -/

namespace Sys2Proof

/-- A Burin lane type of the integer kind: i16 or i32 (R70). -/
def intLane (ty : BitVec 2) : Bool := !ty.getLsbD 0

/-- fn of LADD to LMAX: 0, or 1 on integer lanes (R70). -/
def satFnOk (ty : BitVec 2) (fn : BitVec 3) : Bool := decide (fn.toNat ≤ 1) && (fn == 0 || intLane ty)

/-- The limits of an instruction's operands. -/
def Instr.wf : Instr → Bool
  | .powerUp _ _ _ _ _ => true
  | .wakeWrite off _ _ => decide (off < 0x100000)
  | .commandFetch => true
  | .launch => true
  | .feedCreate => true
  | .feedDestroy => true
  | .feedAppend => true
  | .feedRoom => true
  | .signalStore => true
  | .signalAdd => true
  | .wait => true
  | .waitReread => true
  | .gang => true
  | .launchComplete => true
  | .ticketClaim => true
  | .ticketSteal => true
  | .gangPlace _ => true
  | .gangReserve _ => true
  | .gangPreempt => true
  | .gangTimeout => true
  | .gangReadySend => true
  | .gangReady _ _ => true
  | .gangReadyUndeliverable _ => true
  | .gangAbort _ _ => true
  | .gangDecide => true
  | .clauseIssue islot => decide (islot < 4)
  | .capoInterleave => true
  | .longLatencyWriteback ci _ => decide (ci < 16)
  | .temporalIteration => true
  | .courseEnd ci => decide (ci < 16)
  | .plateFeed => true
  | .copyBegin ch => decide (ch < 4)
  | .copyLineTransfer ch _ => decide (ch < 4)
  | .freezeResume _ => true
  | .copyComplete ch => decide (ch < 4)
  | .matrixStart => true
  | .matrixComplete => true
  | .peerContributionApply => true
  | .peerTileWrite src => match src with
    | .channel ch => decide (ch < 4)
    | .remote _ => true
  | .chordTileClose _ => true
  | .chordPass => true
  | .chordWriteback _ => true
  | .brickLoad => true
  | .smarchWriteback _ => true
  | .ttakeComplete islot => decide (islot < 4)
  | .barComplete => true
  | .gbarComplete => true
  | .sstepComplete => true
  | .pinTimeout _ => true
  | .sleepExpire ci sp => decide (ci < 16) && decide (sp < 8)
  | .yieldExpire ci sp => decide (ci < 16) && decide (sp < 8)
  | .wdog => true
  | .storeError => true
  | .gangPeerFailure => true
  | .survivorTeardown => true
  | .preemptSave => true
  | .preemptWithdraw => true
  | .consortRestore core => decide (core < 256)
  | .priResponse _ => true
  | .atsInvalidation _ _ => true
  | .hostMemoryWrite _ _ => true
  | .hostMemoryRead _ _ => true
  | .fabricAccess _ _ req => match req with
    | .write slot _ => decide (slot < 4096)
    | _ => true
  | .fabricTimeout => true
  | .linkFail => true
  | .powerThrottle _ => true
  | .bandStart => true
  | .bandDeadline => true
  | .scanoutLine => true
  | .burinInvocationStart => true
  | .burinWriteback => true
  | .poseCommit => true
  | .fltrecRead _ => true
  | .registerWrite off _ => decide (off < 0x100000)
  | .mailboxCommandComplete => true
  | .ident => true
  | .attest _ => true
  | .fwload _ => true
  | .capmint _ _ _ => true
  | .retire _ => true
  | .preempt => true
  | .debugAttach _ => true
  | .debugHalt ci => decide (ci < 16)
  | .debugStep ci => decide (ci < 16)
  | .debugResume ci => decide (ci < 16)
  | .debugRead ci _ => decide (ci < 16)
  | .debugWrite ci _ _ _ => decide (ci < 16)
  | .tlbflush kind _ _ => decide (kind ≤ 2)
  | .modeset _ => true
  | .events => true
  | .dispcsrRead _ => true
  | .dispcsrWrite _ _ => true
  | .keyloadLoad slot _ => decide (slot < 4096)
  | .keyloadZeroise slot => decide (slot < 4096)
  | .powercap _ => true
  | .nop => true
  | .br cond sa _ => condOk cond sa
  | .call _ => true
  | .calli _ => true
  | .ret => true
  | .jmpi _ => true
  | .loop _ stages len => stagesOk stages && len != 0
  | .loopi _ stages len => stagesOk stages && len != 0
  | .lbrk cond sa => condOk cond sa
  | .lcnt _ fn => decide (fn.toNat ≤ 3)
  | .exit => true
  | .yield => true
  | .sadd _ _ _ => true
  | .ssub _ _ _ => true
  | .sand _ _ _ => true
  | .sor _ _ _ => true
  | .sxor _ _ _ => true
  | .sshl _ _ _ => true
  | .sshr _ _ _ => true
  | .ssha _ _ _ => true
  | .smul _ _ _ => true
  | .smulh _ _ _ => true
  | .smin _ _ _ => true
  | .smax _ _ _ => true
  | .sminu _ _ _ => true
  | .smaxu _ _ _ => true
  | .sslt _ _ _ => true
  | .ssltu _ _ _ => true
  | .sseq _ _ _ => true
  | .saddi _ _ _ => true
  | .sandi _ _ _ => true
  | .sori _ _ _ => true
  | .sxori _ _ _ => true
  | .sshli _ _ _ => true
  | .sshri _ _ _ => true
  | .sshai _ _ _ => true
  | .smovi _ _ => true
  | .slea _ _ _ _ => true
  | .srd _ n => decide (n.toNat ≤ 127)
  | .vadd _ => true
  | .vsub _ => true
  | .vmul _ => true
  | .vmulh _ => true
  | .vmad _ => true
  | .vmin _ => true
  | .vmax _ => true
  | .vdiv _ => true
  | .vand _ => true
  | .vor _ => true
  | .vxor _ => true
  | .vandn _ => true
  | .vorn _ => true
  | .vxnor _ => true
  | .vshl _ => true
  | .vshr _ => true
  | .vsha _ => true
  | .vrol _ => true
  | .vcmp _ fn => decide (fn.toNat ≤ 7)
  | .vsel _ => true
  | .vcvt _ fn => decide (fn.toNat ≤ 14)
  | .vpopc _ => true
  | .vclz _ => true
  | .vctz _ => true
  | .vbrev _ => true
  | .vbfe _ => true
  | .vbfi _ => true
  | .vmov _ => true
  | .vmovi _ => true
  | .vbcast _ => true
  | .vget _ => true
  | .vperm _ => true
  | .vscan _ fn => decide (fn.toNat ≤ 5) || (decide (8 ≤ fn.toNat) && decide (fn.toNat ≤ 13))
  | .vred _ fn => decide (fn.toNat ≤ 5)
  | .vwacc _ => true
  | .vrcp _ => true
  | .vrsq _ => true
  | .vsqrt _ => true
  | .vexp2 _ => true
  | .vlog2 _ => true
  | .vsin _ => true
  | .vcos _ => true
  | .vtanh _ => true
  | .vfclass _ => true
  | .vpack _ => true
  | .vunpk _ => true
  | .pand _ => true
  | .por _ => true
  | .pxor _ => true
  | .pandn _ => true
  | .pnot _ => true
  | .pmov _ => true
  | .pany _ => true
  | .pall _ => true
  | .pbal _ => true
  | .setx _ => true
  | .getx _ => true
  | .brd _ fn => decide (fn.toNat ≤ 1)
  | .join _ => true
  | .refill _ => true
  | .ld _ => true
  | .st _ => true
  | .lds _ => true
  | .sts _ => true
  | .ldsp _ => true
  | .chk _ _ => true
  | .ldt _ => true
  | .stt _ => true
  | .atom _ fn => decide (fn.toNat ≤ 10)
  | .atoms _ fn => decide (fn.toNat ≤ 10)
  | .fence _ => true
  | .wpush _ => true
  | .talloc _ => true
  | .tfree _ => true
  | .tgive _ => true
  | .ttake _ => true
  | .xcopy _ => true
  | .xcopym _ fn => decide (fn.toNat ≤ 3)
  | .xtpl _ => true
  | .mma _ fn => decide (fn.toNat ≤ 3)
  | .mblk _ => true
  | .scla _ => true
  | .mzero _ => true
  | .mdrain _ => true
  | .mdrainPeer _ => true
  | .mdrainOpeer _ => true
  | .cfwait _ => true
  | .cfadd _ => true
  | .cfset _ => true
  | .cfrd _ => true
  | .chord _ _ => true
  | .smarch _ => true
  | .bar _ => true
  | .gbar _ => true
  | .sstep _ => true
  | .trap _ => true
  | .eret _ => true
  | .csrr _ => true
  | .csrw _ => true
  | .tlbinv _ => true
  | .dbgbrk _ => true
  | .pslot _ => true
  | .pguard _ => true
  | .sleep _ => true
  | .ladd _ _ _ _ ty fn => satFnOk ty fn
  | .lsub _ _ _ _ ty fn => satFnOk ty fn
  | .lmul _ _ _ _ ty fn => satFnOk ty fn
  | .lmad _ _ _ _ ty fn => satFnOk ty fn
  | .lmin _ _ _ _ ty fn => satFnOk ty fn
  | .lmax _ _ _ _ ty fn => satFnOk ty fn
  | .lsel _ _ _ _ _ _ => true
  | .lcmp _ _ _ _ _ fn => decide (fn.toNat ≤ 5)
  | .lcvt _ _ _ _ _ => true
  | .lshf _ _ _ _ ty fn => decide (fn.toNat ≤ 3) && intLane ty
  | .llog _ _ _ b ty fn => decide (fn.toNat ≤ 4) && intLane ty && (fn != 4 || b == 0)
  | .lpack _ _ _ ty fn => packTy ty fn
  | .lunpk _ _ _ ty fn => packTy ty fn
  | .wxy _ _ _ _ => true
  | .lbld _ _ _ ty _ => intLane ty
  | .lbst _ _ _ ty _ => intLane ty
  | .fsmp _ _ _ _ fn => decide (fn.toNat ≤ 2)
  | .facq _ _ => true
  | .posel _ _ => true
  | .lmma _ _ _ _ => true
  | .lout _ _ h => decide (h.toNat ≤ 3)
  | .dlchk _ _ => true
  | .rpj _ _ => true
  | .bwait _ fn => decide (fn.toNat ≤ 1)
  | .gangStart => true
  | .loutRowRead => true

/-- Does an instruction have words of its own (R56, R60, R70)? An event has none. -/
def Instr.hasWords (i : Instr) : Bool := !(encode i).isEmpty

/-- Is it a Burin slot operation, whose upper half of the opcode space is read as R70 says? -/
def Instr.isBurin : Instr → Bool
  | .ladd ..  => true
  | .lsub ..  => true
  | .lmul ..  => true
  | .lmad ..  => true
  | .lmin ..  => true
  | .lmax ..  => true
  | .lshf ..  => true
  | .llog ..  => true
  | .lsel ..  => true
  | .lcmp ..  => true
  | .lcvt ..  => true
  | .lpack ..  => true
  | .lunpk ..  => true
  | .wxy ..  => true
  | .lbld ..  => true
  | .lbst ..  => true
  | .fsmp ..  => true
  | .facq ..  => true
  | .posel ..  => true
  | .lmma ..  => true
  | .lout ..  => true
  | .dlchk ..  => true
  | .rpj ..  => true
  | .bwait ..  => true
  | _ => false

/-- Decode the words of one instruction, by the machine they are for. -/
def decodeAs (burin : Bool) (ws : List Word) : Except DecodeErr Instr :=
  if burin then match ws with
    | [w] => decodeBurin w
    | _ => .error .short
  else match decodeWords ws with
    | .ok (i, []) => .ok i
    | .ok _ => .error .short
    | .error e => .error e

end Sys2Proof
end

