-- ==== Sys2Proof/Machine/Ops.lean ====
section
/-! DEFINITION. The named operations over the state: tables, registers, memory and translation, splits and loops,
issue slots, and taking a trap. Every meaning is written over these. -/

namespace Sys2Proof.Machine

/-! ## Tables -/

/-- What a table holds at a key. -/
def smGet {α : Type} (dflt : α) (m : SMap α) (k : Nat) : α :=
  match m with
  | [] => dflt
  | (k', v) :: t => if k = k' then v else smGet dflt t k

/-- Put a cell in its place in a rising list that does not hold its key. -/
def smIns {α : Type} (k : Nat) (v : α) : List (Nat × α) → List (Nat × α)
  | [] => [(k, v)]
  | (k', v') :: t => if k < k' then (k, v) :: (k', v') :: t else (k', v') :: smIns k v t

/-- Take a key out. -/
def smDel {α : Type} (m : List (Nat × α)) (k : Nat) : List (Nat × α) := m.filter (fun c => decide (c.1 ≠ k))

/-- Write a cell, keeping the canonical form: writing what an unlisted key reads as removes the cell. -/
def smSet {α : Type} [DecidableEq α] (dflt : α) (m : SMap α) (k : Nat) (v : α) : SMap α :=
  if v = dflt then smDel m k else smIns k v (smDel m k)

/-- Write several cells, in order. -/
def smSets {α : Type} [DecidableEq α] (dflt : α) (m : SMap α) (l : List (Nat × α)) : SMap α :=
  l.foldl (fun m c => smSet dflt m c.1 c.2) m

/-- The canonical form of a table (MEMORY): keys rising, no cell equal to what an unlisted key reads as. -/
def smWf {α : Type} [DecidableEq α] (dflt : α) : SMap α → Bool
  | [] => true
  | (k, v) :: t => decide (v ≠ dflt) && t.all (fun c => decide (k < c.1)) && smWf dflt t

/-- A record by key, if there is one. -/
def alGet {α : Type} (m : List (Nat × α)) (k : Nat) : Option α :=
  match m with
  | [] => none
  | (k', v) :: t => if k = k' then some v else alGet t k

/-- Write a record by key. -/
def alSet {α : Type} (m : List (Nat × α)) (k : Nat) (v : α) : List (Nat × α) := smIns k v (smDel m k)

/-- The number of the lowest key of 0 to n − 1 that is free. -/
def freeKey {α : Type} (m : List (Nat × α)) (n : Nat) : Option Nat := (List.range n).find? (fun k => (alGet m k).isNone)

/-- Replace the elements that a test names. -/
def putWhere {α : Type} (l : List α) (t : α → Bool) (x : α) : List α := l.map (fun y => if t y then x else y)

/-! ## Bits and bytes -/

/-- n bytes of a number, lowest first (R2). -/
def toBytes (n v : Nat) : List Byte := (List.range n).map (byteAt v)

/-- The number that bytes make, lowest first (R2). -/
def ofBytes : List Byte → Nat
  | [] => 0
  | b :: bs => b.toNat + 256 * ofBytes bs

/-- Bits [lo + n − 1 : lo] of a number. -/
def bits (v lo n : Nat) : Nat := (v >>> lo) % 2 ^ n

/-- The signed reading of the low w bits. -/
def signedOf (w v : Nat) : Int :=
  let x := v % 2 ^ w
  if x < 2 ^ (w - 1) then x else (x : Int) - 2 ^ w

/-- An integer modulo 2^w. -/
def wrapTo (w : Nat) (x : Int) : Nat := (x % 2 ^ w).toNat

/-- The lanes of a mask, in increasing order, up to a width. -/
def lanesOf (m : Mask) (width : Nat) : List Nat := (List.range width).filter (fun l => m.getLsbD l)

/-- A mask of the lanes that a test names. -/
def maskOf (width : Nat) (t : Nat → Bool) : Mask :=
  BitVec.ofNat 64 ((List.range width).foldl (fun a l => if t l then a + 2 ^ l else a) 0)

/-- Mask of all lanes of a width. -/
def fullMask (width : Nat) : Mask := BitVec.ofNat 64 (2 ^ width - 1)

/-! ## The parts of the state -/

/-- A core at power-up: nothing in it. -/
def coreInit : Core :=
  { issue := [], fifo := [], fdw := 0, wdogl := 0, pinTimeouts := 0, pins := [], dirty := []
    chans := [[], [], [], []], matq := [], seq := 0, freeze := none, lost := 0
    openTiles := [], closedTiles := [], results := [], nextTile := 0, passes := 0, stipple := [], bricks := [], storeErrs := []
    icache := [] }

def coreAt (s : State) (k : Nat) : Core := (alGet s.cores k).getD coreInit
def setCore (s : State) (k : Nat) (c : Core) : State := { s with cores := alSet s.cores k c }
def modCore (s : State) (k : Nat) (f : Core → Core) : State := setCore s k (f (coreAt s k))

def conAt (s : State) (cid : Nat) : Option Consort := s.consorts.find? (fun c => c.cid == cid)
def setCon (s : State) (c : Consort) : State := { s with consorts := putWhere s.consorts (fun d => d.cid == c.cid) c }

def crsAt (con : Consort) (ci : Nat) : Option Course := con.courses.find? (fun c => c.idx == ci)
def setCrs (con : Consort) (c : Course) : Consort := { con with courses := putWhere con.courses (fun d => d.idx == c.idx) c }

def launchAt (s : State) (l : Nat) : Option Launch := s.launches.find? (fun x => x.lid == l)
def setLaunch (s : State) (l : Launch) : State := { s with launches := putWhere s.launches (fun x => x.lid == l.lid) l }

/-- Change one course where it is. -/
def modCrs (s : State) (cid ci : Nat) (f : Course → Course) : State :=
  match conAt s cid with
  | none => s
  | some con => match crsAt con ci with
    | none => s
    | some c => setCon s (setCrs con (f c))

/-- The unit at which the event of this step happens. -/
def unitOf (s : State) : Nat := match s.turn with
  | .event u _ => u
  | _ => 0

/-- The launch that a consort belongs to gives its PASID and ROOT (R107); the Capo agent has its own. -/
def ctxOf (s : State) (con : Consort) : Nat × Nat :=
  if con.capo then (Config.capoPasid, Config.capoRoot)
  else match launchAt s con.launch with
    | some l => (l.pasid, l.root)
    | none => (0, 0)

/-! ## Registers -/

/-- A vector register lane; the value of a poisoned lane reads 0 (R221). -/
def vGet (c : Course) (r l : Nat) : LaneVal := smGet ⟨0, 0⟩ c.v (r * 64 + l)

/-- The value of a lane. -/
def vVal (c : Course) (r l : Nat) : Word := (vGet c r l).val

def vSet (c : Course) (r l : Nat) (x : LaneVal) : Course := { c with v := smSet ⟨0, 0⟩ c.v (r * 64 + l) x }

/-- A scalar register; s0 reads 0 (R27). -/
def sGet (c : Course) (r : Nat) : DWord := if r = 0 then 0 else smGet 0 c.s r

/-- Write a scalar register: s0 discards the write (R27), and the register's mark goes (R177). -/
def sSet (c : Course) (r : Nat) (x : DWord) : Course :=
  if r = 0 then c else { c with s := smSet 0 c.s r x, marks := smDel c.marks r }

/-- A predicate; p0 reads true (R27). -/
def pGet (c : Course) (r l : Nat) : Bool := if r = 0 then true else (smGet 0 c.p r).getLsbD l

/-- A predicate register as a mask. -/
def pMask (c : Course) (r : Nat) : Mask := if r = 0 then fullMask 64 else smGet 0 c.p r

/-- Write the lanes of a predicate that a mask names; p0 discards the write (R27). -/
def pSet (c : Course) (r : Nat) (lanes vals : Mask) : Course :=
  if r = 0 then c else { c with p := smSet 0 c.p r ((smGet 0 c.p r &&& ~~~lanes) ||| (vals &&& lanes)) }

/-! ## Physical memory -/

/-- Why an access fails: a translation reason of R110, or an uncorrectable memory error. -/
inductive MemErr where
  | xlat (reason : Nat)
  | mem
  deriving DecidableEq, Repr

def rNotPresent : Nat := 1
def rWrite : Nat := 2
def rExec : Nat := 3
def rReserved : Nat := 4
def rNonCanon : Nat := 5
def rRange : Nat := 6

/-- Where a physical address leads (R105, R279, R280): memory by home package and offset, a register of this
package, another package's register space, a package that cannot be reached, or nowhere. -/
inductive Place where
  | mem (key : Nat)
  | reg (off : Nat)
  | away (home off : Nat)
  | lost
  | range
  deriving DecidableEq, Repr

def placeOf (s : State) (pa : Nat) : Place :=
  let home := (pa / 2 ^ 39) % 2 ^ 13 ^^^ s.pkg
  let off := pa % 2 ^ 39
  if home ≠ s.pkg ∧ ¬ home ∈ s.peers then .range
  else if Config.krehanEnd ≤ off then .range
  else if home ≠ s.pkg ∧ (home ∈ s.lostPkgs ∨ s.links = 0) then .lost
  else if off < Config.installedBytes then .mem (home * 2 ^ 39 + off)
  else if home = s.pkg then .reg (off - Config.installedBytes) else .away home (off - Config.installedBytes)

/-- Consecutive bytes from a key. -/
def rawRead (s : State) (key n : Nat) : List Byte := (List.range n).map (fun i => smGet 0 s.mem (key + i))

def lineOf (key : Nat) : Nat := key / 64

/-- What is known of a line; a line that no write reached is unwritten (R281). -/
def lineAt (s : State) (line : Nat) : Option LineInfo := alGet s.lines line

/-- The check of a line read under a key slot (R281, R282). -/
def lineOk (s : State) (line slot : Nat) : Bool := match lineAt s line with
  | none => true
  | some i => i.key == slot && i.id == smGet 0 s.keyIds slot && !i.bad

/-- Can messages of another package reach this one (R280)? -/
def reaches (s : State) (pkg : Nat) : Bool := s.links != 0 && !s.lostPkgs.contains pkg

/-- Memory as it is now. -/
def pastOf (s : State) : Past := ⟨s.mem, s.lines, s.keyIds, s.hostmem⟩

/-! ## Writes that some have not seen (R116, R121, R128) -/

/-- Do replaced bytes lie among n bytes from an address? -/
def Unseen.reached (u : Unseen) (host : Bool) (key n : Nat) : Bool :=
  u.host == host && decide (u.key < key + n ∧ key < u.key + u.old.length)

/-- Whoever has seen a write has seen it for all (R115, R119, R123): what n bytes from an address replaced is found no more. -/
def forget (s : State) (host : Bool) (key n : Nat) : State :=
  { s with unseen := s.unseen.filter fun u => !u.reached host key n }

/-- Writes by a writer that a test names come to be seen by all. -/
def showWrites (s : State) (t : Writer → Bool) : State := { s with unseen := s.unseen.filter fun u => !u.writers.any t }

def Writer.cid : Writer → Nat
  | .copy cid _ _ => cid
  | .course cid _ => cid

/-- The gang of a launch that a consort belongs to; a consort in no gang is one by itself (R117). -/
def gangInst (s : State) (con : Consort) : Inst := match launchAt s con.launch with
  | some l => if l.gangSize = 0 ∨ con.capo then .consort con.cid else .gang l.lid (con.index / l.gangSize)
  | none => .consort con.cid

/-- The agents around a consort that a scope code names, from the consort on (R117). -/
def instOf (s : State) (con : Consort) (scope : Nat) : Inst := match scope with
  | 1 => .consort con.cid
  | 2 => gangInst s con
  | 3 => .die (con.core / 64)
  | 4 => .package
  | _ => .system

/-- Do the agents that a scope names hold those of a consort (R117)? -/
def inInst (s : State) (cid : Nat) : Inst → Bool
  | .consort c => c == cid
  | .gang l g => (conAt s cid).elim false fun con => gangInst s con == .gang l g
  | .die d => (conAt s cid).elim false fun con => con.core / 64 == d
  | .package | .system => true

/-- Writes that a test names come to be seen by the agents that a scope names. -/
def reveal (s : State) (i : Inst) (t : Unseen → Bool) : State :=
  { s with unseen := if i = .system then s.unseen.filter (!t ·)
      else s.unseen.map fun u => if t u && !u.known.contains i then { u with known := i :: u.known } else u }

/-- Read n bytes within one line. -/
def memRead (s : State) (key n slot : Nat) : Except MemErr (List Byte) :=
  if lineOk s (lineOf key) slot then .ok (rawRead s key n) else .error .mem

/-- Write bytes within one line: a part of a line is merged, so the old line is verified first; a whole line needs
no merge (R282). -/
def memWrite (s : State) (key slot : Nat) (bs : List Byte) : Except MemErr State :=
  if bs.length = 64 ∨ lineOk s (lineOf key) slot then
    .ok { s with
      mem := smSets 0 s.mem ((List.range bs.length).map (fun i => (key + i, bs.getD i 0)))
      lines := alSet s.lines (lineOf key) ⟨slot, smGet 0 s.keyIds slot, false⟩
      unseen := (forget s false key bs.length).unseen }
  else .error .mem

/-! ## Pose mailboxes (R265, R278) -/

def headInit : Head :=
  { on := false, mode := default, frame := 0, line := 0, nextStart := 0, nextDeadline := 0, bands := [], poses := []
    nextBand := [], committed := List.replicate 32 0, staged := List.replicate 32 0
    lead := 32, guard := 4, leadFrom := [], guardFrom := [] }

def headAt (s : State) (h : Nat) : Head := (alGet s.heads h).getD headInit
def setHead (s : State) (h : Nat) (x : Head) : State := { s with heads := alSet s.heads h x }

/-- The value of a scheduled field in a frame (R266). -/
def fieldAt (base : Nat) (sched : List (Nat × Nat)) (frame : Nat) : Nat :=
  (((sched.filter (fun e => decide (e.1 ≤ frame))).getLast?).map (·.2)).getD base

/-- POSELEAD and DLGUARD of a head for a refresh frame. -/
def leadOf (x : Head) (f : Nat) : Nat := fieldAt x.lead x.leadFrom (f + 1)
def guardOf (x : Head) (f : Nat) : Nat := fieldAt x.guard x.guardFrom (f + 1)

/-- Replace bytes of a list from an offset; bytes beyond its end are dropped. -/
def overlay (l : List Byte) (off : Nat) (bs : List Byte) : List Byte :=
  (List.range l.length).map (fun i => if off ≤ i ∧ i < off + bs.length then bs.getD (i - off) 0 else l.getD i 0)

/-- A write to the pose mailbox of a head: bytes 0 to 31 stage, a write that touches COMMIT commits (R265). -/
def poseWrite (s : State) (h off : Nat) (bs : List Byte) : State :=
  let x := headAt s h
  let x := { x with staged := overlay x.staged off bs }
  setHead s h (if off < 40 ∧ 32 < off + bs.length then { x with committed := x.staged } else x)

/-- A read of a package's Krehan register space: a staged pose byte of this package, a free value for another package's,
which is not held here, and else 0: COMMIT is write only, and a read of such a field gives 0 (R3, R265, R279). -/
def regRead (s : State) (home off n : Nat) : List Byte :=
  (List.range n).map (fun i =>
    let o := off + i
    if 0x100 ≤ o ∨ 32 ≤ o % 0x40 then 0
    else if home = s.pkg then (headAt s (o / 0x40)).staged.getD (o % 0x40) 0
    else Config.openRegister s.tick (home * 0x100 + o))

def regWrite (s : State) (off : Nat) (bs : List Byte) : State :=
  if off < 0x100 then poseWrite s (off / 0x40) (off % 0x40) bs else s

/-! ## Accesses by physical address -/

def physRead (s : State) (pa n slot : Nat) : Except MemErr (List Byte) :=
  match placeOf s pa with
  | .mem key => memRead s key n slot
  | .reg off => .ok (regRead s s.pkg off n)
  | .away home off => .ok (regRead s home off n)
  | .lost => .error .mem
  | .range => .error (.xlat rRange)

def physWrite (s : State) (pa slot : Nat) (bs : List Byte) : Except MemErr State :=
  match placeOf s pa with
  | .mem key => memWrite s key slot bs
  | .reg off => .ok (regWrite s off bs)
  | .away _ _ => .ok s
  | .lost => .error .mem
  | .range => .error (.xlat rRange)

/-- Write bytes at a physical address, line by line, under a key slot; a part of a line is merged (R282), and where that
meets an uncorrectable error the line is left. -/
def writeLines (slot : State → Nat → Nat) : Nat → State → Nat → List Byte → State
  | 0, s, _, _ => s
  | fuel + 1, s, pa, bs =>
    if bs.isEmpty then s
    else
      let n := 64 - pa % 64
      let s := match physWrite s pa (slot s pa) (bs.take n) with
        | .ok s' => s'
        | .error _ => s
      writeLines slot fuel s (pa + n) (bs.drop n)

/-! ## Translation (R105 to R111) -/

/-- Read a page-table entry; a table outside installed memory gives RANGE (R110). Tables are read under key slot 0. R110
names no reason for uncorrectable data of an entry: it is an uncorrectable error of the access (DESIGN CHOICE, log 10). -/
def readPte (s : State) (pa : Nat) : Except MemErr Nat :=
  match placeOf s pa with
  | .mem key => (memRead s key 8 0).map ofBytes
  | .lost => .error .mem
  | _ => .error (.xlat rRange)

/-- The page size in 4 KiB frames of a leaf (R108). -/
def leafFrames (level : Nat) (grp16 : Bool) : Nat := 512 ^ level * (if grp16 then 16 else 1)

/-- The checks of a leaf entry at a level, and the leaf it gives for a virtual frame (R107, R108, R110). R110 sets no order
among the reasons: RESERVED comes before RANGE, and both before WRITE and EXEC (DESIGN CHOICE, log 10). -/
def leafOf (s : State) (level vframe e : Nat) : Except MemErr Leaf :=
  let grp := e.testBit 8
  let n := leafFrames level grp
  let ppn := bits e 12 40
  if 3 ≤ level ∨ bits e 9 3 ≠ 0 ∨ bits e 5 3 ≠ 0 ∨ (grp ∧ level = 2) ∨ ppn % n ≠ 0 then .error (.xlat rReserved)
  else
    let frame := ppn + vframe % n
    let host := e.testBit 4
    let key := bits e 52 12
    let inside := match placeOf s (frame * 4096) with
      | .range => false
      | _ => true
    if !host && !inside then .error (.xlat rRange)
    else if !host && !(s.keys.contains key) then .error (.xlat rRange)
    else .ok ⟨frame * 4096, key, host, e.testBit 3, e.testBit 2, n⟩

/-- Walk from a table at a level, whose number falls. -/
def walk (s : State) (va table : Nat) : Nat → Except MemErr Leaf
  | 0 => do
    let e ← readPte s (table + 8 * bits va 12 9)
    if !e.testBit 0 then .error (.xlat rNotPresent)
    else if !e.testBit 1 then .error (.xlat rReserved)
    else if e.testBit 8 then
      let d ← readPte s (table + 8 * (bits va 12 9 / 16 * 16))
      if !d.testBit 0 then .error (.xlat rNotPresent)
      else if !d.testBit 1 || !d.testBit 8 then .error (.xlat rReserved)
      else leafOf s 0 (va / 4096) d
    else leafOf s 0 (va / 4096) e
  | level + 1 => do
    let lo := 12 + 9 * (level + 1)
    let e ← readPte s (table + 8 * bits va lo 9)
    if !e.testBit 0 then .error (.xlat rNotPresent)
    else if e.testBit 1 then
      if level = 0 ∧ e.testBit 8 then
        let d ← readPte s (table + 8 * (bits va lo 9 / 16 * 16))
        if !d.testBit 0 then .error (.xlat rNotPresent)
        else if !d.testBit 1 || !d.testBit 8 then .error (.xlat rReserved)
        else leafOf s 1 (va / 4096) d
      else leafOf s (level + 1) (va / 4096) e
    else if bits e 52 12 ≠ 0 ∨ bits e 2 10 ≠ 0 then .error (.xlat rReserved)
    else walk s va (bits e 12 40 * 4096) level

/-- Where a walk reads its entries, the head of a group of 16 with them. -/
def walkEntries (s : State) (va table : Nat) : Nat → List Nat
  | 0 => [table + 8 * bits va 12 9, table + 8 * (bits va 12 9 / 16 * 16)]
  | level + 1 =>
    let i := bits va (12 + 9 * (level + 1)) 9
    (table + 8 * i) :: match readPte s (table + 8 * i) with
      | .error _ => []
      | .ok e =>
        if !e.testBit 0 then [] else if e.testBit 1 then [table + 8 * (i / 16 * 16)]
        else walkEntries s va (bits e 12 40 * 4096) level

/-- Reasons WRITE and EXEC (R110). -/
inductive Acc where
  | read | write | fetch
  deriving DecidableEq, Repr

def permit (a : Acc) (l : Leaf) : Except MemErr Leaf :=
  match a with
  | .read => .ok l
  | .write => if l.w then .ok l else .error (.xlat rWrite)
  | .fetch => if l.x then .ok l else .error (.xlat rExec)

/-- Does a cached translation serve a virtual frame of a context? -/
def TlbEnt.covers (e : TlbEnt) (pasid root vframe : Nat) : Bool :=
  e.pasid == pasid && e.root == root && decide (e.vframe ≤ vframe ∧ vframe < e.vframe + e.frames)

/-- The cached translations of a frame (R111): of its own PASID and ROOT alone. -/
def tlbFind (s : State) (pasid root vframe : Nat) : List Leaf :=
  (s.tlb.filter (fun e => e.covers pasid root vframe)).map fun e =>
    { e.leaf with frame := e.leaf.frame + 4096 * (vframe - e.vframe) }

/-- What a free choice names in a list; 0, and a number beyond its end, name nothing. -/
def chosen {α : Type} (l : List α) (n : Nat) : Option α := match l with
  | [] => none
  | a :: as => if n = 0 then none else (a :: as)[n - 1]?

/-- Translate an address: a cached translation may be used, or the tables as they stand (R111); an access through a
key slot that holds no key fails either way (R281). -/
def translate (s : State) (pasid root : Nat) (a : Acc) (va : Nat) : Except MemErr Leaf :=
  if 2 ^ 57 ≤ va then .error (.xlat rNonCanon)
  else
    match (chosen (tlbFind s pasid root (va / 4096)) (Config.useCached s.tick va)).elim (walk s va root 4) Except.ok with
    | .ok l => if !l.host && !(s.keys.contains l.key) then .error (.xlat rRange) else permit a l
    | .error e => .error e

/-- Put a translation into an array, whose oldest makes room (R109). -/
def tlbPut (cap : Nat) (l : List TlbEnt) (e : TlbEnt) : List TlbEnt :=
  if l.contains e then l
  else
    let mine := l.filter (fun d => d.array == e.array)
    e :: (if mine.length < cap then l else match mine.getLast? with
      | some o => l.erase o
      | none => l)

/-- The core, if a word of a clause is what moves, and the die whose arrays an access fills. -/
def tlbHome (s : State) : Option Nat × Nat := match s.turn with
  | .slot core _ => (some core, core / 64)
  | .event u _ => (none, u / 64 % 4)
  | _ => (none, 0)

/-- Keep the translation that an access used (R109, R111: failed walks are never cached). -/
def tlbNote (s : State) (pasid root va : Nat) : State :=
  match translate s pasid root .read va with
  | .ok l =>
    let n := max 1 l.frames
    let first := va / 4096 / n * n
    let e := fun (a : TlbArray) => (⟨a, pasid, root, first, n, { l with frame := l.frame - 4096 * (va / 4096 - first) }⟩ : TlbEnt)
    let (core, die) := tlbHome s
    let t := if 512 * 512 ≤ n then tlbPut 384 s.tlb (e (.giant die)) else tlbPut 12288 s.tlb (e (.die die))
    { s with tlb := core.elim t fun c => tlbPut 64 t (e (.l1 c)) }
  | .error _ => s

/-- Does TLBINV cover a translation (R220): kind 0 those of a PASID, kind 1 those of the page that holds an address, kind 2 all? -/
def tlbGone (kind pasid va : Nat) (e : TlbEnt) : Bool := match kind with
  | 0 => e.pasid == pasid
  | 1 => e.covers pasid e.root (va / 4096)
  | _ => true

/-- TLBINV (R220): the translations that it covers go, and every access that used one has completed (R111). -/
def tlbDrop (s : State) (kind pasid va : Nat) : State :=
  let gone := tlbGone kind pasid va
  let used := fun (v : Nat × Nat) => match kind with
    | 0 => v.1 == pasid
    | 1 => v.1 == pasid && (v.2 / 4096 == va / 4096 || s.tlb.any fun e => gone e && e.covers v.1 e.root (v.2 / 4096))
    | _ => true
  { s with tlb := s.tlb.filter (!gone ·), unseen := s.unseen.filter fun u => !u.via.any used }

/-- The physical line that an access reaches, for pins: memory only. -/
def lineOfVirt (s : State) (pasid root va : Nat) : Option Nat :=
  match translate s pasid root .read va with
  | .ok l => if l.host then none else match placeOf s (l.frame + va % 4096) with
    | .mem key => some (lineOf key)
    | _ => none
  | .error _ => none

/-- Load n bytes at an address that a leaf translates. -/
def loadLeaf (s : State) (l : Leaf) (va n : Nat) : Except MemErr (List Byte) :=
  let pa := l.frame + va % 4096
  if l.host then .ok ((List.range n).map (fun i => smGet 0 s.hostmem (pa + i))) else physRead s pa n l.key

/-- Store bytes at an address that a leaf translates. -/
def storeLeaf (s : State) (l : Leaf) (va : Nat) (bs : List Byte) : Except MemErr State :=
  let pa := l.frame + va % 4096
  if l.host then .ok { forget s true pa bs.length with
      hostmem := smSets 0 s.hostmem ((List.range bs.length).map (fun i => (pa + i, bs.getD i 0))) }
  else physWrite s pa l.key bs

/-- Where an access that a leaf translates goes: the module's memory or the host's, and the address there. -/
def spotOf (s : State) (l : Leaf) (va : Nat) : Option (Bool × Nat) :=
  if l.host then some (true, l.frame + va % 4096)
  else match placeOf s (l.frame + va % 4096) with
    | .mem key => some (false, key)
    | _ => none

/-- Who reads: a course, the unit that reads for the courses with a row in a Chord tile (R166), a course that writes, a copy, a
Burin core, or an agent that finds every write done (log 10). -/
inductive Reader where
  | course (cid ci : Nat)
  | rows (cs : List (Nat × Nat))
  | writer (cid ci : Nat)
  | copy (cid : Nat)
  | burin
  | present
  deriving DecidableEq, Repr

/-- May a course still find what a write replaced? Not one that wrote the bytes (R115), nor one that a scope of an order
after the write holds (R119). -/
def openToCourse (s : State) (u : Unseen) (cid ci : Nat) : Bool :=
  !u.writers.contains (.course cid ci) && !u.known.any (inInst s cid)

/-- May a reader still find what a write replaced? A copy is ordered after what copies wrote (log 10), and no write of the
agents that an atomic's scope holds falls between its read and its write (R124). -/
def Unseen.openTo (s : State) (u : Unseen) : Reader → Bool
  | .course cid ci => openToCourse s u cid ci
  | .rows cs => cs.all fun c => openToCourse s u c.1 c.2
  | .writer cid ci => openToCourse s u cid ci && !u.whole.any (inInst s cid)
  | .copy cid => (u.writers.all fun w => match w with
      | .copy _ _ _ => false
      | .course _ _ => true) && !u.known.any (inInst s cid)
  | .burin => !(u.known.contains .package || u.known.contains .system)
  | .present => false

/-- What is ordered before a course's next access, all it has written and all that is ordered before it, comes to be seen by the
agents of a scope: a release by the course (R119, R120). -/
def releaseTo (s : State) (i : Inst) (cid ci : Nat) : State := reveal s i fun u => !openToCourse s u cid ci

def Unseen.place (u : Unseen) : Nat := 2 * u.key + u.host.toNat

/-- Does the access of this step find what a write replaced? All the bytes of one write together (R114). -/
def findsOld (s : State) (r : Reader) (u : Unseen) : Bool := u.openTo s r && Config.seeOld s.tick u.place

/-- n bytes from an address as a reader finds them: b is what is there. -/
def asSeen (s : State) (r : Reader) (host : Bool) (key : Nat) (b : List Byte) : List Byte :=
  b.zipIdx.map fun c =>
    ((s.unseen.find? fun u => u.reached host (key + c.2) 1 && findsOld s r u).bind fun u => u.old[key + c.2 - u.key]?).getD c.1

/-- The writes that the access finds done are seen by all from then on (R115, R119, R123). -/
def noteSeen (s : State) (r : Reader) (host : Bool) (key n : Nat) : State :=
  { s with unseen := s.unseen.filter fun u => !u.reached host key n || findsOld s r u }

/-- Load n bytes, where a leaf translates the address, as a reader finds them. -/
def loadFound (s : State) (r : Reader) (l : Leaf) (va n : Nat) : Except MemErr (List Byte) := do
  let b ← loadLeaf s l va n
  .ok ((spotOf s l va).elim b fun p => asSeen s r p.1 p.2 b)

/-- Load n bytes at an aligned virtual address as a reader finds them. -/
def loadSeen (s : State) (r : Reader) (pasid root va n : Nat) : Except MemErr (List Byte) := do
  let l ← translate s pasid root .read va
  loadFound s r l va n

/-- A reader has made accesses of n bytes. -/
def sawVas (s : State) (r : Reader) (ctx : Nat × Nat) (n : Nat) (vas : List Nat) : State :=
  vas.foldl (fun s va => match translate s ctx.1 ctx.2 .read va with
    | .ok l => (spotOf s l va).elim s fun p => noteSeen s r p.1 p.2 n
    | .error _ => s) s

/-- Reads of bytes, by address and number, have been made. -/
def sawSpans (s : State) (r : Reader) (ctx : Nat × Nat) (spans : List (Nat × Nat)) : State :=
  if s.unseen.isEmpty then s else sawVas s r ctx 1 (spans.flatMap fun a => (List.range a.2).map fun i => (a.1 + i) % 2 ^ 64)

/-- Reads of n bytes at addresses find every write done. -/
def forgetVas (s : State) (ctx : Nat × Nat) (n : Nat) (vas : List Nat) : State := sawVas s .present ctx n vas

/-- What n bytes from an address held before a write of this step, which s' has made through a translation, may be found for a
while. -/
def noteOld (s : State) (w : Writer) (whole : List Inst) (via : Nat × Nat) (host : Bool) (key n : Nat) (s' : State) : State :=
  if !Config.late s.tick (2 * key + host.toNat) then s'
  else
    let same := if Config.keepOldest s.tick (2 * key + host.toNat) then
      s.unseen.find? fun u => u.host == host && u.key == key && u.old.length == n && u.known.isEmpty else none
    let m := if host then s.hostmem else s.mem
    { s' with unseen := s'.unseen ++ [same.elim ⟨[w], host, key, (List.range n).map fun i => smGet 0 m (key + i), [], whole, [via]⟩
        fun u => { u with writers := w :: u.writers, whole := whole ++ u.whole, via := via :: u.via }] }

/-- A store before the write changes what the write replaced. -/
def Unseen.under (u : Unseen) (key : Nat) (bs : List Byte) : Unseen :=
  { u with old := u.old.zipIdx.map fun o => if key ≤ u.key + o.2 then bs.getD (u.key + o.2 - key) o.1 else o.1 }

/-- Store bytes of a course where a leaf translates the address, as an atomic towards the agents named. The store may come
before a write that it is not ordered after: it then changes what that write replaced (R115, R121, R124). Others may miss it
for a while. -/
def storeSeen (s : State) (pasid cid ci : Nat) (whole : List Inst) (l : Leaf) (va : Nat) (bs : List Byte) : Except MemErr State :=
  match spotOf s l va with
  | none => storeLeaf s l va bs
  | some (host, key) =>
    let before := s.unseen.filter fun u => u.reached host key bs.length && findsOld s (.writer cid ci) u
    if before.isEmpty then (storeLeaf s l va bs).map (noteOld s (.course cid ci) whole (pasid, va) host key bs.length)
    else do
      let now ← loadLeaf s l va bs.length
      let under := fun i => before.any fun u => u.reached host (key + i) 1
      let s' ← storeLeaf s l va (bs.zipIdx.map fun b => if under b.2 then now.getD b.2 0 else b.1)
      .ok { s' with unseen := s'.unseen ++ before.map (·.under key bs) }

/-- Load n bytes at an aligned virtual address. -/
def load (s : State) (pasid root va n : Nat) : Except MemErr (List Byte) := do
  let l ← translate s pasid root .read va
  loadLeaf s l va n

/-- Store bytes at an aligned virtual address. -/
def store (s : State) (pasid root va : Nat) (bs : List Byte) : Except MemErr State := do
  let l ← translate s pasid root .write va
  storeLeaf s l va bs

/-- Load a run of bytes as a reader finds them, 8 at a time, from an 8-byte aligned address. -/
def loadManySeen (s : State) (r : Reader) (pasid root va : Nat) : Nat → Except MemErr (List Byte)
  | 0 => .ok []
  | n + 1 => do
    let b ← loadSeen s r pasid root va 8
    let bs ← loadManySeen s r pasid root (va + 8) n
    .ok (b ++ bs)

/-- Load a run of bytes, 8 at a time, from an 8-byte aligned address. -/
def loadMany (s : State) (pasid root va : Nat) : Nat → Except MemErr (List Byte)
  | 0 => .ok []
  | n + 1 => do
    let b ← load s pasid root va 8
    let r ← loadMany s pasid root (va + 8) n
    .ok (b ++ r)

/-- Is a line pinned to a core for another consort (R126)? Then an access waits. A pin of 2^16 core cycles has ended
(R127). -/
def pinnedAway (s : State) (cid line : Nat) : Bool :=
  s.cores.any (fun c => c.2.pins.any (fun p => p.line == line && p.cid != cid && decide (s.cycles < p.since + 2 ^ 16)))

/-- Is any line pinned? -/
def anyPins (s : State) : Bool := s.cores.any fun c => !c.2.pins.isEmpty

/-- An agent that is no consort: every pin holds it back. -/
def outsider (s : State) : Nat := s.nextCid

/-- Does the walk for an address, which no cached translation saves, wait for a pinned line of a table (R126)? -/
def walkPinned (s : State) (ctx : Nat × Nat) (va : Nat) : Bool :=
  (chosen (tlbFind s ctx.1 ctx.2 (va / 4096)) (Config.useCached s.tick va)).isNone &&
  (walkEntries s va ctx.2 4).any fun pa => match placeOf s pa with
    | .mem key => pinnedAway s (outsider s) (lineOf key)
    | _ => false

/-- Does an access of a consort wait for a line that another has pinned, or for a page table in one (R126)? -/
def waitsPinned (s : State) (ctx : Nat × Nat) (cid : Nat) (vas : List Nat) : Bool :=
  anyPins s && vas.any fun va => walkPinned s ctx va || (lineOfVirt s ctx.1 ctx.2 va).elim false (pinnedAway s cid)

/-- Does an access of an agent that is no consort wait for a pin (R126)? -/
def waitsPins (s : State) (ctx : Nat × Nat) (vas : List Nat) : Bool := waitsPinned s ctx (outsider s) vas

/-- Does an access by physical address, from the host or the fabric, wait for a pin (R126)? -/
def physPinned (s : State) (pa : Nat) : Bool := match placeOf s pa with
  | .mem key => pinnedAway s (outsider s) (lineOf key)
  | _ => false

/-- Does an access to n bytes at a physical address wait for a pin (R126)? -/
def spanPinned (s : State) (pa n : Nat) : Bool := (List.range (n / 64 + 2)).any fun i => physPinned s (pa + min (64 * i) (n - 1))

/-! ## Pins (R126, R127) -/

/-- Bits [14:6] of a physical address. -/
def setOf (line : Nat) : Nat := line % 512

/-- A store of a split of a course, with its member lanes, is in L1 until a release or a write-back takes it further. -/
def markDirty (k : Core) (cid ci : Nat) (m : Mask) (sp : Nat) (lines : List Nat) : Core :=
  { k with dirty := k.dirty ++ (lines.map (fun l => (⟨l, cid, ci, m, some sp⟩ : Dirty))).filter (fun d => !k.dirty.contains d) }

/-- Pins of 2^16 core cycles end, are written beyond L1 and are counted (R127). -/
def expirePins (now : Nat) (k : Core) : Core :=
  let old := k.pins.filter (fun p => decide (p.since + 2 ^ 16 ≤ now))
  { k with
    pins := k.pins.filter (fun p => decide (now < p.since + 2 ^ 16))
    dirty := k.dirty.filter (fun d => !old.any (fun p => p.line == d.line)), pinTimeouts := k.pinTimeouts + old.length }

/-- Pin one line; a set that holds 8 writes its oldest pinned line back (R127). -/
def pinLine (now cid : Nat) (k : Core) (line : Nat) : Core :=
  let k := expirePins now k
  if k.pins.any (fun p => p.line == line && p.cid == cid) then k
  else
    let inSet := k.pins.filter (fun p => setOf p.line == setOf line)
    let k := if 8 ≤ inSet.length then
        match inSet.head? with
        | some o => { k with pins := k.pins.filter (fun p => p != o), dirty := k.dirty.filter (fun d => d.line != o.line) }
        | none => k
      else k
    { k with pins := k.pins ++ [⟨line, cid, now⟩] }

/-- A release of course or consort scope by a split pins the lines that hold the stores before it (R119, R126): those of its
own lineage, and of the splits that its member lanes were in. -/
def pinCourse (now cid ci : Nat) (m : Mask) (sp : Nat) (k : Core) : Core :=
  ((k.dirty.filter (fun d => d.cid == cid && d.ci == ci && (d.sp == some sp || (d.m &&& m) != 0))).map (·.line)).foldl (pinLine now cid) k

/-- A wider release, or the end of the consort, ends its pins and writes its lines beyond L1 (R127); a pin that has
timed out by then is counted. -/
def unpin (now cid : Nat) (k : Core) : Core :=
  let k := expirePins now k
  { k with pins := k.pins.filter (fun p => p.cid != cid), dirty := k.dirty.filter (fun d => d.cid != cid) }

/-! ## The word that executes -/

/-- The course whose clause executes a word: core and slot, and copies of what the word acts on. -/
structure Cur where
  core : Nat
  islot : Nat
  k : Core
  con : Consort
  c : Course
  sp : Split
  spi : Nat
  iss : Issue
  deriving DecidableEq, Repr

/-- The current word's course, when the turn is an issue slot that holds a clause. -/
def cur? (s : State) : Option Cur :=
  match s.turn with
  | .slot core islot => do
    let iss ← alGet (coreAt s core).issue islot
    let con ← conAt s iss.cid
    let c ← crsAt con iss.ci
    let sp ← alGet c.splits iss.sp
    some ⟨core, islot, coreAt s core, con, c, sp, iss.sp, iss⟩
  | _ => none

/-- Write the parts back. -/
def putCur (s : State) (x : Cur) : State :=
  let c := { x.c with splits := alSet x.c.splits x.spi x.sp }
  let s := setCon s (setCrs x.con c)
  setCore s x.core { x.k with issue := alSet x.k.issue x.islot x.iss }

/-- Byte address of the clause after the one in issue. -/
def nextClause (x : Cur) : Nat := x.iss.hdr + 4 * (x.iss.words.length + 1)

/-- Add to a count flag, ERR as it is (R143). -/
def cfAdd (con : Consort) (f n : Nat) : Consort :=
  let v := smGet 0 con.cf f
  { con with cf := smSet 0 con.cf f (BitVec.ofNat 16 ((v.toNat % 2 ^ 15 + n) % 2 ^ 15 + v.toNat / 2 ^ 15 * 2 ^ 15)) }

/-- Add back the thresholds that CFWAIT words at and after the current word took at issue (R145, R216). -/
def cfRestore (x : Cur) : Consort :=
  (x.iss.cfSub.filter (fun t => decide (x.iss.off ≤ t.2.2))).foldl (fun con t => cfAdd con t.1 t.2.1) x.con

/-- A halt ends every sleep of a course (R365). -/
def endSleeps (splits : List (Nat × Split)) : List (Nat × Split) := splits.map fun p => (p.1, { p.2 with wake := none })

/-- A trap of a split begins its run of PRE = 0 anew (R54). -/
def resetRun (splits : List (Nat × Split)) (spi : Nat) : List (Nat × Split) := match alGet splits spi with
  | some sp => alSet splits spi { sp with preRun := 0 }
  | none => splits

/-- Leave the slot with the course as given. A step under a debugger halts the course again (R231). -/
def leaveSlot (x : Cur) (splits : List (Nat × Split)) (s : State) : State :=
  let halt := x.c.halted || x.c.stepOne || x.c.haltReq
  let c := { x.c with
    splits := if halt then endSleeps splits else splits, halted := halt, stepOne := false, haltReq := false }
  let s := setCon s (setCrs (cfRestore x) c)
  setCore s x.core { x.k with issue := smDel x.k.issue x.islot }

/-- The word in issue cannot go on yet: it waits in its slot (R38, R210). -/
def waitHere (s : State) (x : Cur) : State := putCur s { x with iss := { x.iss with waits := true } }

/-- Free the slot: the clause is over, or torn short at a word. -/
def freeSlot (x : Cur) (s : State) : State := leaveSlot x (alSet x.c.splits x.spi x.sp) s

/-! ## Traps (R213 to R219, R223, R225) -/

def cSOFT : Nat := 1
def cPOISON : Nat := 2
def cFPX : Nat := 3
def cILL : Nat := 4
def cPRIV : Nat := 5
def cALIGN : Nat := 6
def cXLAT : Nat := 7
def cMEMERR : Nat := 8
def cBANKC : Nat := 9
def cOWNER : Nat := 10
def cCFERR : Nat := 11
def cWDOG : Nat := 12
def cPLATE : Nat := 13
def cPEER : Nat := 14

def iOPCODE : Nat := 1
def iFIELD : Nat := 2
def iHEADER : Nat := 3
def iPLACE : Nat := 4
def iSPLIT : Nat := 5
def iLOOP : Nat := 6
def iREGPAIR : Nat := 7
def iREGRANGE : Nat := 8
def iGUARD : Nat := 9

/-- TRAPPC's layout (R216). -/
def cursor (header offset : Nat) : DWord := BitVec.ofNat 64 (offset % 32 * 2 ^ 59 + header % 2 ^ 57)

/-- Does TRAPV[7:0] hold a sub-code for a cause (R213)? -/
def hasSub (cause : Nat) : Bool := cause == cILL || cause == cOWNER || cause == cPLATE || cause == cPEER

/-- A fault record (R223). -/
def faultRec (cause : Nat) (value : DWord) (pc queue entry slot split : Nat) (gen : BitVec 16)
    (imprecise exited freeze nocourse : Bool) : FaultRec :=
  let b := fun (x : Bool) (i : Nat) => if x then 2 ^ i else 0
  BitVec.ofNat 256 (queue * 2 ^ 224 + entry % 2 ^ 32 * 2 ^ 192 + value.toNat * 2 ^ 128 + pc % 2 ^ 57 * 2 ^ 64
    + 2 ^ 63 + b imprecise 62 + b exited 61 + b freeze 60 + b nocourse 56
    + (if hasSub cause then value.toNat % 256 else 0) * 2 ^ 48 + cause * 2 ^ 40
    + gen.toNat * 2 ^ 16 + slot % 64 * 2 ^ 8 + split % 8 * 16)

/-- Room for one more record (R223)? -/
def fifoRoom (k : Core) : Bool := decide (k.fifo.length < 16)

/-- Status of a killed launch (R214). -/
def killStatus (cause : Nat) (value : DWord) (gang : Bool) : Nat :=
  if cause = cPLATE then (match value.toNat % 256 with | 1 => 12 | 2 => 13 | _ => 11)
  else if gang then 9 else 10

/-- The commands of a consort leave their queues (R215 step 2). -/
def dropCommands (cid : Nat) (k : Core) : Core :=
  let notMine := fun (q : List Cmd) => q.filter (fun c => c.cid != cid)
  { k with chans := k.chans.map notMine, matq := notMine k.matq }

/-- Take a consort off its core (R215 steps 1 to 4): its slots, commands, requests, rows and pins go. -/
def dropConsort (s : State) (cid : Nat) : State :=
  match conAt s cid with
  | none => s
  | some con =>
    let s := modCore s con.core (fun k => unpin s.cycles cid { dropCommands cid k with
      issue := k.issue.filter (fun i => i.2.cid != cid)
      openTiles := k.openTiles.map (fun t => { t with rows := t.rows.filter (fun r => r.cid != cid) })
      closedTiles := k.closedTiles.map (fun t => { t with rows := t.rows.filter (fun r => r.cid != cid) })
      results := k.results.filter (fun r => r.cid != cid)
      stipple := k.stipple.filter (fun r => r.cid != cid) })
    { s with consorts := s.consorts.filter (fun c => c.cid != cid), unseen := (showWrites s (·.cid == cid)).unseen
             pris := s.pris.filter (fun p => match p.who with
        | .course c _ => c != cid
        | _ => true) }

/-- Write STATE = 2 into the header of a consort's plate (R181, R186, R215): byte 5 of the header's first doubleword. While its
line is pinned the write waits (R126). -/
def plateInvalid (s : State) (pasid root addr : Nat) : State :=
  if waitsPins s (pasid, root) [addr] then { s with plateDue := s.plateDue ++ [((pasid, root), addr)] }
  else match store s pasid root (addr + 5) [2] with
  | .ok s' => s'
  | .error _ => s

/-- The writes of plates' STATE that waited are made, once no pin holds them back. -/
def platesInvalid (s : State) : State :=
  s.plateDue.foldl (fun s d => plateInvalid s d.1.1 d.1.2 d.2) { s with plateDue := [] }

/-- Does a consort hold an issue slot? It is then torn down when its clause ends (R215). -/
def inIssue (s : State) (con : Consort) : Bool :=
  (coreAt s con.core).issue.any (fun i => i.2.cid == con.cid)

/-- Tear a consort of a killed launch down, invalidating a plate that it was still recording (R215). -/
def tearDown (s : State) (cid : Nat) : State :=
  match conAt s cid with
  | none => s
  | some con =>
    let (pasid, root) := ctxOf s con
    let s := if con.plate.mode = 1 ∧ !con.plate.finished then plateInvalid s pasid root con.plate.addr else s
    dropConsort s cid

/-- Kill the launch of a faulting consort (R215): its tickets go, each consort goes when its clause ends; the other
consorts of the faulting consort's own gang are survivors and run on (R226). -/
def killLaunch (s : State) (lid cid : Nat) (status : Nat) (detail : DWord) : State :=
  match launchAt s lid with
  | none => tearDown s cid
  | some l =>
    let gang := fun (c : Consort) => if l.gangSize = 0 then c.index else c.index / l.gangSize
    let mine := (conAt s cid).map gang
    let s := setLaunch s { l with
      shares := [], waits := [], status := if l.status = 0 then status else l.status
      detail := if l.status = 0 then detail else l.detail
      failed := if l.gangSize = 0 then l.failed else mine.toList ++ l.failed }
    let survivor := fun (c : Consort) => decide (l.gangSize ≠ 0) && some (gang c) == mine && c.cid != cid
    let targets := (s.consorts.filter (fun c => c.launch == lid && !c.capo && !survivor c)).map (·.cid)
    let s := { s with
      saved := s.saved.filter (fun v => v.consort.launch != lid || survivor v.consort)
      consorts := s.consorts.map (fun c => if targets.contains c.cid then { c with dying := true } else c) }
    targets.foldl (fun s t => match conAt s t with
      | some c => if inIssue s c then modCore s c.core (dropCommands t) else tearDown s t
      | none => s) s

/-- Is a debugger attached to a context (R231)? -/
def debugged (s : State) (pasid : Nat) : Bool := s.attached.contains pasid

/-- Leave a trap pending in its split's entry (R225). -/
def keepTrap (s : State) (cid ci spi : Nat) (t : PendTrap) : State :=
  modCrs s cid ci fun c => { c with splits := match alGet c.splits spi with
    | some sp => alSet c.splits spi { sp with trap := some t }
    | none => c.splits }

/-- A trap at a clause boundary or a word, for the running split of a course, whose slot is free (R214, R218).
`user` causes go to the handler at TRAPE; every other goes to the Capo agent, which records it and then halts,
pages in by PRI, or kills. -/
def capoTakes (s : State) (cid ci spi : Nat) (t : PendTrap) : State :=
  match conAt s cid with
  | none => s
  | some con => match crsAt con ci with
    | none => s
    | some c =>
      let k := coreAt s con.core
      if !fifoRoom k then
        -- the core holds the course until a record slot frees (R223)
        keepTrap s cid ci spi t
      else
        let r := faultRec t.cause t.value t.word 6 0 c.slot spi c.gen false c.ended false false
        let s := setCore s con.core { k with fifo := k.fifo ++ [r] }
        let s := modCrs s cid ci (fun c => { c with
          trapc := BitVec.ofNat 64 t.cause, trapv := t.value, trappc := cursor t.header t.offset
          splits := match alGet c.splits spi with
            | some sp => alSet c.splits spi { sp with trap := none, preRun := 0 }
            | none => c.splits })
        let (pasid, _) := ctxOf s con
        let halt := modCrs s cid ci (fun c => { c with halted := true, trapHalt := some spi, splits := endSleeps c.splits })
        if con.capo then halt
        else if t.cause = cXLAT ∧ bits t.value.toNat 60 4 = rNotPresent then
          let s := modCrs s cid ci (fun c => { c with waitCapo := true, trapHalt := some spi })
          { s with pris := s.pris ++ [⟨s.tick, pasid, bits t.value.toNat 0 57, .course cid ci⟩] }
        else if debugged s pasid then halt
        else
          let gang := match launchAt s con.launch with
            | some l => decide (l.gangSize ≠ 0)
            | none => false
          killLaunch s con.launch cid (killStatus t.cause t.value gang) (BitVec.ofNat 64 (r.toNat % 2 ^ 64))

/-- The lowest split with a trap to deliver, while another's handler does not run (R225). -/
def trapPending (c : Course) : Option (Nat × Split × PendTrap) :=
  c.splits.findSome? fun p => if c.inHandler.elim false (· != p.1) then none else p.2.trap.map fun t => (p.1, p.2, t)

/-- Must an imprecise error wait to be recorded (R223 to R225)? The FIFO is full, a clause of the course is in issue, or a split
before it in the table has a trap that is delivered first. A handler of another split does not hold it back: R224 has the course
held at its next boundary, whichever split runs (DEDUCED, log 10). -/
def impWaits (s : State) (core : Nat) (e : StoreErr) : Bool :=
  !fifoRoom (coreAt s core) || (match (conAt s e.cid).bind (crsAt · e.ci) with
    | none => false
    | some c => c.gen == e.gen && !c.ended && ((coreAt s core).issue.any (fun i => i.2.cid == e.cid && i.2.ci == e.ci) ||
        ((trapPending c).elim false (fun p => decide (p.1 < e.sp)) && (alGet c.splits e.sp).isSome)))

/-- An uncorrectable error after its word completed (R224): once it may, its record is written, and the context is
killed, or the course halts at its split's cursor when a debugger is attached (R214). -/
def imprecise (s : State) (core : Nat) (e : StoreErr) : State :=
  let k := coreAt s core
  if impWaits s core e then setCore s core { k with storeErrs := k.storeErrs ++ [e] }
  else
    let exited := ((conAt s e.cid).bind (crsAt · e.ci)).elim true (·.ended)
    let r := faultRec cMEMERR (BitVec.ofNat 64 e.line) e.pc 6 0 e.slot e.sp e.gen true exited false false
    let s := setCore s core { k with fifo := k.fifo ++ [r] }
    match conAt s e.cid with
    | none => s
    | some con =>
      if con.capo ∨ debugged s (ctxOf s con).1 then
        modCrs s e.cid e.ci fun c => { c with
          trapc := BitVec.ofNat 64 cMEMERR, trapv := BitVec.ofNat 64 e.line
          trappc := (alGet c.splits e.sp).elim (cursor e.pc 0) fun sp => cursor sp.pc sp.off
          halted := true, trapHalt := if (alGet c.splits e.sp).isSome then some e.sp else none
          splits := endSleeps (resetRun c.splits e.sp) }
      else
        let gang := (launchAt s con.launch).elim false fun l => decide (l.gangSize ≠ 0)
        killLaunch s con.launch e.cid (killStatus cMEMERR 0 gang) (BitVec.ofNat 64 (r.toNat % 2 ^ 64))

/-- TRAPE of a consort's kernel, 0 for none (R237). -/
def trapEntry (s : State) (con : Consort) : Nat := match launchAt s con.launch with
  | some l => ofBytes ((l.kdesc.drop 8).take 8)
  | none => 0

/-- Deliver a trap of a split (R218): SOFT, POISON and FPX to the user handler when there is one and the course is
not in it; every other to the Capo agent. An error found of a store or load of a split with no greater index comes
first (R225). -/
def deliver (s : State) (cid ci spi : Nat) (t : PendTrap) : State :=
  match conAt s cid with
  | none => s
  | some con => match crsAt con ci with
    | none => s
    | some c =>
      let e := trapEntry s con
      if (coreAt s con.core).storeErrs.any (fun e => e.cid == cid && e.ci == ci && e.gen == c.gen && decide (e.sp ≤ spi)) then
        keepTrap s cid ci spi t
      else if (t.cause = cSOFT ∨ t.cause = cPOISON ∨ t.cause = cFPX) ∧ e ≠ 0 ∧ c.inHandler.isNone then
        modCrs s cid ci (fun c => { c with
          trapc := BitVec.ofNat 64 t.cause, trapv := t.value, trappc := cursor t.header t.offset
          inHandler := some spi
          splits := match alGet c.splits spi with
            | some sp => alSet c.splits spi { sp with pc := e, off := 0, trap := none, preRun := 0 }
            | none => c.splits })
      else capoTakes s cid ci spi t

/-- End a clause that was torn short or finished for a consort that is being killed (R215 step 1). -/
def sweepDying (s : State) (cid : Nat) : State :=
  match conAt s cid with
  | some con => if con.dying && !inIssue s con then tearDown s cid else s
  | none => s

/-- The word at the current offset traps: the slot is freed, the cursor names the word (R216), the trap is
delivered (R218). -/
def trapAt (s : State) (x : Cur) (off cause : Nat) (value : DWord) : State :=
  let sp := { x.sp with pc := x.iss.hdr, off := off, point := false }
  let s := freeSlot { x with sp := sp } s
  sweepDying (deliver s x.con.cid x.c.idx x.spi ⟨cause, value, x.iss.hdr, off, x.iss.hdr + 4 * off⟩) x.con.cid

def trap (s : State) (x : Cur) (cause : Nat) (value : DWord) : State := trapAt s x x.iss.off cause value

/-- ILL with a sub-code (R67). -/
def ill (s : State) (x : Cur) (sub : Nat) : State := trap s x cILL (BitVec.ofNat 64 sub)

/-! ## Moving on -/

/-- The step of a loop after its present one (R337), or none when it is over. A drain that is done begins a new fill of the
pipeline at the iteration at which it was cut (R227). -/
def nextStep (l : LoopRec) : Option LoopRec :=
  match l.upto with
  | some u =>
    if u < l.count ∧ u + l.stages ≤ l.t + 2 then some { l with t := u, fill := u, upto := none }
    else if l.t + 2 < l.count + l.stages then some { l with t := l.t + 1 } else none
  | none => if l.t + 2 < l.count + l.stages then some { l with t := l.t + 1 } else none

/-- Does a clause of a stage run in a loop's present step (R337)? During a drain no iteration begins, and after one the
pipeline fills anew (R227). -/
def runsIn (l : LoopRec) (stg : Nat) : Bool :=
  decide (l.fill + stg ≤ l.t ∧ l.t - stg < l.count) && l.upto.elim true fun u => decide (l.t - stg < u)

/-- Where a split goes after a clause that falls through to an address (R337): at the end of the innermost body the
loop steps or is popped; past the end, a loop with one stage is popped and another is a bad place. -/
def fallTo (hdr e : Nat) : List LoopRec → Option (Nat × List LoopRec × Bool)
  | [] => some (e, [], false)
  | l :: ls =>
    if e = l.stop then match nextStep l with
      | some l' => some (l.start, l' :: ls, true)
      | none => match fallTo hdr e ls with
        | some (pc, ls', _) => some (pc, ls', true)
        | none => none
    else if l.start ≤ hdr ∧ hdr < l.stop ∧ l.stop < e then
      if l.stages = 1 then some (e, ls, false) else none
    else some (e, l :: ls, false)

/-- A taken branch to a target: outside the innermost body it pops that loop, or is a bad place (R338). -/
def branchTo (target : Nat) : List LoopRec → Option (List LoopRec)
  | [] => some []
  | l :: ls =>
    if l.start ≤ target ∧ target < l.stop then some (l :: ls)
    else if l.stages = 1 then some ls else none

/-- End the clause with the split at an address. -/
def endAt (s : State) (x : Cur) (pc : Nat) (loops : List LoopRec) : State :=
  sweepDying (freeSlot { x with sp := { x.sp with pc := pc, off := 0, loops := loops } } s) x.con.cid

/-- An iteration boundary of a loop resets the run of PRE = 0 and is a pre-emption point (R54, R227). -/
def atBoundary (sp : Split) (b : Bool) : Split := if b then { sp with preRun := 0, point := true, iter := true } else sp

/-- End the clause by falling through from a clause at one address to another. -/
def fallOn (s : State) (x : Cur) (hdr e : Nat) : State :=
  match fallTo hdr e x.sp.loops with
  | some (pc, ls, boundary) => endAt s { x with sp := atBoundary x.sp boundary } pc ls
  | none =>
    let s := freeSlot { x with sp := { x.sp with pc := e, off := 0 } } s
    sweepDying (deliver s x.con.cid x.c.idx x.spi ⟨cILL, BitVec.ofNat 64 iPLACE, e, 0, e⟩) x.con.cid

/-- End the clause in issue by falling through. -/
def endClause (s : State) (x : Cur) : State := fallOn s x x.iss.hdr (nextClause x)

/-- A word of n words is done: on to the next word, or past the last one the clause ends. -/
def retire (s : State) (x : Cur) (n : Nat) : State :=
  let iss := { x.iss with off := x.iss.off + n, waits := false }
  if x.iss.words.length < iss.off then endClause s { x with iss := iss }
  else putCur s { x with iss := iss }

/-- A taken branch. -/
def branch (s : State) (x : Cur) (target : Nat) : State :=
  match branchTo target x.sp.loops with
  | some ls => endAt s x target ls
  | none => ill s x iPLACE

/-- Does the word of n words stand last in its clause (R55)? -/
def isLast (x : Cur) (n : Nat) : Bool := x.iss.off + n == x.iss.words.length + 1

/-- Does a long-latency instruction of the course still have to write one of these registers (R38)? -/
def interlocked (c : Course) (vregs sregs : List Nat) : Bool :=
  c.pend.any (fun p => p.vregs.any (fun r => vregs.contains r) || p.sregs.any (fun r => sregs.contains r))

/-- Are there reads still to come of CHORD or SMARCH requests of a course? They count as its loads (R166, R273): those of a
network come once its tile has closed, those of a grid as its ray marches. -/
def unitReads (k : Core) (cid ci : Nat) : Bool :=
  (k.openTiles ++ k.closedTiles).any (fun t => t.rows.any fun r => r.cid == cid && r.ci == ci && r.net.isNone) ||
  k.stipple.any fun r => r.cid == cid && r.ci == ci && r.state.isNone && r.poison.isNone

/-- Does a course of the word in issue still have such reads to come? -/
def Cur.reads (x : Cur) : Bool := unitReads x.k x.con.cid x.c.idx

/-- Is the word's clause overtaken on slot 0 by a Capo clause, which issues whole while it waits (R210)? -/
def overtaken (x : Cur) : Bool := x.islot == 0 && (alGet x.k.issue 4).isSome

/-- Run a word in the current course, once the interlock allows (R38), no long-latency instruction without a flag
holds the slot (R37), and no Capo clause has slot 0; with no clause in the slot nothing happens. -/
def onWord (s : State) (vregs sregs : List Nat) (f : Cur → State) : State :=
  match cur? s with
  | none => s
  | some x =>
    if overtaken x || x.c.pend.any (·.holds) || interlocked x.c vregs sregs then waitHere s x else f x

end Sys2Proof.Machine
end

