-- ==== Sys2Proof/Machine/Operands.lean ====
section
/-! DEFINITION. Operand forms of the core: element types, guards and active lanes, special sources, vector and queue
register operands, and the legality checks that the V instructions share (R48, R60 to R68, R378, R379). -/

namespace Sys2Proof.Machine

/-! ## Element types (R62) -/

/-- Bits of an element of a type code. -/
def tyBits (ty : Nat) : Nat := match ty with
  | 0 => 8 | 1 => 16 | 2 => 32 | 3 => 64 | 4 => 8 | 5 => 16 | 6 => 32 | 7 => 64
  | 8 => 16 | 9 => 16 | 10 => 32 | 11 => 64 | 12 => 8 | 13 => 8 | 14 => 4 | _ => 2

def tyInt (ty : Nat) : Bool := decide (ty < 8)
def tySigned (ty : Nat) : Bool := decide (ty < 4)

/-- The float format of a type code, f16 to e2m1. -/
def tyFmt (ty : Nat) : Option FFmt := match ty with
  | 8 => some fmtF16 | 9 => some fmtBF16 | 10 => some fmtF32 | 11 => some fmtF64
  | 12 => some fmtE4M3 | 13 => some fmtE5M2 | 14 => some fmtE2M1 | _ => none

/-- W, F, Q and N of R63. -/
def setW : List Nat := [2, 3, 6, 7]
def setF : List Nat := [8, 9, 10, 11]
def setQ : List Nat := [12, 13, 14]
def setN : List Nat := [6, 7]

/-- An element's bits read as an integer of its type. -/
def intOf (ty v : Nat) : Int := if tySigned ty then signedOf (tyBits ty) v else (v % 2 ^ tyBits ty : Nat)

/-- The range of an integer type. -/
def tyMin (ty : Nat) : Int := if tySigned ty then -(2 ^ (tyBits ty - 1)) else 0
def tyMax (ty : Nat) : Int := if tySigned ty then 2 ^ (tyBits ty - 1) - 1 else 2 ^ tyBits ty - 1

/-- Narrow an exact integer: wrap, or clamp with SAT (R28, R72). -/
def narrow (ty : Nat) (sat : Bool) (v : Int) : Nat :=
  wrapTo (tyBits ty) (if sat then max (tyMin ty) (min (tyMax ty) v) else v)

/-! ## Guards -/

/-- The active lanes of a guarded word (R27). -/
def active (x : Cur) (p : P) : Mask :=
  let g := pMask x.c p.g.toNat
  x.sp.exec &&& (if p.gn = 1 then ~~~g else g) &&& fullMask 64

/-- A guard field that is not "always". -/
def guarded (p : P) : Bool := p.g != 0 || p.gn != 0

/-! ## Special sources (R68) -/

/-- Time of %etime: core cycles outside freezes (R154). -/
def etime (s : State) (k : Core) : Nat := match k.freeze with
  | some f => f.since - k.lost
  | none => s.cycles - k.lost

def extentOf (l : Launch) (n : Nat) : Nat :=
  let w := l.lt.getD n 0
  if w.getLsbD 27 then (w.extractLsb' 0 25).toNat else 0

def kindOf (l : Launch) (n : Nat) : Nat :=
  let w := l.lt.getD n 0
  if w.getLsbD 27 then (w.extractLsb' 25 2).toNat else 0

/-- The spatial digit of a level in a consort index (R34). -/
def digitOf (l : Launch) (index n : Nat) : Nat :=
  let below := (List.range n).foldl (fun a i => if kindOf l i ≠ 0 ∧ extentOf l i ≠ 0 then a * extentOf l i else a) 1
  if extentOf l n = 0 then 0 else index / below % extentOf l n

/-- %idxN: the digit of a spatial level, the current iteration of a temporal one. -/
def idxOf (l : Launch) (con : Consort) (n : Nat) : Nat :=
  if extentOf l n = 0 then 0 else if kindOf l n = 0 then con.tix.getD n 0 else digitOf l con.index n

def gangRank (l : Launch) (con : Consort) : Nat :=
  if l.gangSize = 0 then 0
  else con.index % l.gangSize + (match l.span with | some g => g.base | none => 0)

def gangTotal (l : Launch) : Nat :=
  if l.gangSize = 0 then 0 else match l.span with
    | some g => g.total
    | none => l.gangSize

/-- A byte of the kernel descriptor (R237). -/
def kdByte (l : Launch) (i : Nat) : Nat := (l.kdesc.getD i 0).toNat

def ncourses (l : Launch) : Nat := kdByte l 17

def noLaunch : Launch :=
  { lid := 0, qcb := 0, n := 0, tag := 0, pasid := Config.capoPasid, root := Config.capoRoot, prio := 23, kdesc := []
    args := [], rtab := 0, lt := [], nbv := 3, refill := false, plateMode := 0, gangSize := 0, pstore := 0, pstride := 0
    wq := 0, plateId := 0, lidValue := 0, total := 0, ended := 0, shares := [], waits := [], failed := [], span := none, status := 0
    detail := 0, printed := false, etched := false, abandon := 0, order := 0, code := [] }

/-- The launch of a word's consort. -/
def launchOf (s : State) (con : Consort) : Launch := (launchAt s con.launch).getD noLaunch

/-- A course-wide special source; none when the number is undefined or per-lane (R68). -/
def srdVal (s : State) (x : Cur) (n : Nat) : Option DWord :=
  let l := launchOf s x.con
  let nat := fun (v : Nat) => some (BitVec.ofNat 64 v)
  let b := fun (v : Bool) (i : Nat) => if v then 2 ^ i else 0
  match n with
  | 1 => nat x.c.width
  | 2 => nat x.c.idx
  | 3 => nat (ncourses l)
  | 4 => nat x.c.slot
  | 5 => nat (x.con.core % 64)
  | 6 => nat (x.con.core / 64)
  | 7 => nat s.pkg
  | 8 => nat x.con.index
  | 9 => nat (gangRank l x.con)
  | 10 => nat (gangTotal l)
  | 11 => nat x.c.gen.toNat
  | 16 => nat (idxOf l x.con 0)
  | 17 => nat (idxOf l x.con 1)
  | 18 => nat (idxOf l x.con 2)
  | 19 => nat (idxOf l x.con 3)
  | 20 => nat (extentOf l 0)
  | 21 => nat (extentOf l 1)
  | 22 => nat (extentOf l 2)
  | 23 => nat (extentOf l 3)
  | 24 => nat (kindOf l 0 + kindOf l 1 * 4 + kindOf l 2 * 16 + kindOf l 3 * 64)
  | 32 => nat s.cycles
  | 33 => nat (etime s x.k)
  | 34 => nat s.fabtime
  | 40 => some l.lidValue
  | 41 => nat l.pasid
  | 48 => nat (b l.refill 0 + b (x.con.plate.mode == 1) 1 + b (x.con.plate.mode == 2) 2 + b (l.gangSize != 0) 3 + b x.con.gbarFail 4)
  | n => if 64 ≤ n ∧ n ≤ 95 then some (l.args.getD (n - 64) 0) else none

/-- Is a special source defined for operand B (R68)? -/
def srdDefined (s : State) (x : Cur) (n : Nat) : Bool := n == 0 || (srdVal s x n).isSome

/-! ## Vector and queue operands -/

/-- Entries that one access of a course moves (R48). -/
def qWidth (c : Course) : Nat := if c.width = 64 then 2 else 1

def queueOf (con : Consort) (q : Nat) : List (List LaneVal) := (alGet con.queues q).getD []

/-- The places of a queue's entries among the pushes of the consort's clauses (R49). -/
def turnsOf (con : Consort) (q : Nat) : List Nat := (alGet con.turns q).getD []

/-- A source lane: a vector register, or the front of a queue (R48). -/
def srcLane (x : Cur) (r l : Nat) : LaneVal :=
  if 248 ≤ r then ((queueOf x.con (r - 248)).getD (l / 32) []).getD (l % 32) ⟨0, 0⟩ else vGet x.c r l

/-- A source value of 32 or 64 bits with its tag: that of the lowest poisoned register (R222, R378). -/
def srcVal (x : Cur) (w r l : Nat) : Nat × Byte :=
  let lo := srcLane x r l
  if w = 64 then
    let hi := srcLane x (r + 1) l
    (lo.val.toNat + hi.val.toNat * 2 ^ 32, if lo.tag ≠ 0 then lo.tag else hi.tag)
  else (lo.val.toNat, lo.tag)

/-- The 16-bit immediate {C,B}. -/
def imm16 (p : P) : Nat := p.c.toNat * 256 + p.b.toNat

/-- The immediate form of B for a type (R61). -/
def immVal (ty : Nat) (p : P) : Nat :=
  let i := imm16 p
  match ty with
  | 0 | 1 | 2 | 3 => wrapTo 64 (signedOf 16 i)
  | 10 => i * 2 ^ 16
  | 11 => i * 2 ^ 48
  | _ => i

/-- Operand B by BK (R61), at 32 or 64 bits. -/
def operandB (s : State) (x : Cur) (p : P) (l : Nat) : Nat × Byte :=
  let w := if tyBits p.ty.toNat = 64 then 64 else 32
  match p.bk.toNat with
  | 0 => srcVal x w p.b.toNat l
  | 1 => ((sGet x.c (p.b.toNat % 64)).toNat % 2 ^ w, 0)
  | 2 => (immVal p.ty.toNat p % 2 ^ w, 0)
  | _ => ((if p.b.toNat = 0 then l else ((srdVal s x p.b.toNat).getD 0).toNat) % 2 ^ w, 0)

/-- The queue registers that a two-word instruction pops and pushes, from its words (R48, R49): each source queue
once; D of ST, STT and CAS is a source. -/
def queueUse (w0 w1 : Word) : List Nat × List Nat :=
  let op := (w0.extractLsb' 25 7).toNat
  let fn := (w1.extractLsb' 16 4).toNat
  let d := (w0.extractLsb' 17 8).toNat
  let a := (w0.extractLsb' 9 8).toNat
  let b := (w0.extractLsb' 1 8).toNat
  let c := (w1.extractLsb' 24 8).toNat
  let useA := decide (0x40 ≤ op ∧ op ≤ 0x54 ∧ ¬ (op = 0x4E ∧ fn < 2)) || op == 0x56
  let useB := w1.extractLsb' 7 2 == 0 && (decide (0x40 ≤ op ∧ op ≤ 0x4B) || (op == 0x4D && decide (4 ≤ fn)) ||
    (op == 0x4E && fn == 0) || op == 0x4F || op == 0x5E || op == 0x5F || op == 0x62 || op == 0x64 || op == 0x65 || op == 0x66 ||
    op == 0x77 || op == 0x78)
  let useC := op == 0x44 || (op == 0x4D && fn == 5) || op == 0x66
  let popD := op == 0x5F || op == 0x65 || (op == 0x66 && fn == 9)
  let pushD := decide (0x40 ≤ op ∧ op ≤ 0x55 ∧ op ≠ 0x4A ∧ ¬ (op = 0x4E ∧ (fn = 1 ∨ fn = 3)) ∧ op ≠ 0x52) ||
    op == 0x5E || op == 0x64 || op == 0x66
  let q := fun (u : Bool) (r : Nat) => if u && decide (248 ≤ r) then [r] else []
  ((q useA a ++ q useB b ++ q useC c ++ q popD d).eraseDups, q pushD d)

/-- The same for a run of words, one list entry per pop and push. -/
def clauseUse : List Word → List Nat × List Nat
  | w0 :: w1 :: ws =>
    if w0.msb then
      let u := queueUse w0 w1
      let r := clauseUse ws
      (u.1 ++ r.1, u.2 ++ r.2)
    else clauseUse (w1 :: ws)
  | _ => ([], [])

/-- The place of a push by the word in issue: by the order in which clauses issue, then by the word's place (R49). -/
def pushTurn (x : Cur) : Nat := 32 * x.iss.ord + x.iss.off

/-- Pushes to a queue that come before those of a place and are still to be made, by clauses in issue and pending loads. -/
def pushesBefore (con : Consort) (k : Core) (q turn : Nat) : Bool :=
  con.courses.any (fun c => c.pend.any (fun p => decide (p.turn < turn) && p.push.elim false (fun u => u.1 == q))) ||
  k.issue.any (fun i => i.2.cid == con.cid && decide (32 * i.2.ord + i.2.off < turn) &&
    (clauseUse (i.2.words.drop (i.2.off - 1))).2.contains (q + 248))

/-- The entries at a queue's front that may be popped: none stands before an entry that an earlier clause is still to push
(R49). -/
def queueReady (con : Consort) (k : Core) (q : Nat) : Nat := ((turnsOf con q).takeWhile fun t => !pushesBefore con k q t).length

/-- Do the queues named as sources hold what one access pops, and is there room for a push (R49)? -/
def queuesReady (x : Cur) (srcs : List Nat) (dst : Option Nat) : Bool :=
  srcs.all (fun r => decide (r < 248) || decide (qWidth x.c ≤ queueReady x.con x.k (r - 248))) &&
  (match dst with
    | some d => decide (d < 248) ||
        decide ((queueOf x.con (d - 248)).length + qWidth x.c ≤ 16 + (if srcs.contains d then qWidth x.c else 0))
    | none => true)

/-- Pop each named queue once (R48). -/
def popQueues (con : Consort) (n : Nat) (srcs : List Nat) : Consort :=
  (srcs.filter (fun r => decide (248 ≤ r))).eraseDups.foldl
    (fun c r => { c with
      queues := alSet c.queues (r - 248) ((queueOf c (r - 248)).drop n)
      turns := alSet c.turns (r - 248) ((turnsOf c (r - 248)).drop n) }) con

/-- One access's entries (R48): inactive lanes supply 0 with a clear tag. -/
def queueEntries (width : Nat) (outs : List (Nat × LaneVal)) : List (List LaneVal) :=
  let entry := fun (base : Nat) => (List.range 32).map (fun i => (alGet outs (base + i)).getD ⟨0, 0⟩)
  if width = 64 then [entry 0, entry 32] else [entry 0]

/-- Entries enter a queue at their place, behind those of earlier pushes (R48, R49). -/
def enqueueAt (con : Consort) (q turn : Nat) (es : List (List LaneVal)) : Consort :=
  let n := ((turnsOf con q).filter fun t => decide (t ≤ turn)).length
  { con with
    queues := alSet con.queues q ((queueOf con q).take n ++ es ++ (queueOf con q).drop n)
    turns := alSet con.turns q ((turnsOf con q).take n ++ List.replicate es.length turn ++ (turnsOf con q).drop n) }

/-- Push one access's entries (R48). -/
def pushQueue (con : Consort) (q turn width : Nat) (outs : List (Nat × LaneVal)) : Consort :=
  enqueueAt con q turn (queueEntries width outs)

/-- Write result lanes to a register: each lane by number (R378). -/
def writeLanes (c : Course) (r : Nat) (outs : List (Nat × LaneVal)) : Course :=
  outs.foldl (fun c o => vSet c r o.1 o.2) c

/-- One result of w bits per lane, to a register, an aligned pair or a queue. -/
def writeResult (x : Cur) (w d : Nat) (outs : List (Nat × Nat × Byte)) : Cur :=
  let lane := fun (v : Nat) (t : Byte) => (⟨if t = 0 then BitVec.ofNat 32 v else 0, t⟩ : LaneVal)
  let lo := outs.map (fun o => (o.1, lane o.2.1 o.2.2))
  if 248 ≤ d then { x with con := pushQueue x.con (d - 248) (pushTurn x) x.c.width lo }
  else
    let c := writeLanes x.c d lo
    { x with c := if w = 64 then writeLanes c (d + 1) (outs.map (fun o => (o.1, lane (o.2.1 / 2 ^ 32) o.2.2))) else c }

/-! ## Legality (R65, R66, R378, R379) -/

/-- What a lane-class instruction lets its fields hold. Bits of `mods` are the MOD bits in use; `bks` the BK codes;
`srcs` and `dst` name the registers with the width each is read or written at; `other` is a check of its own. -/
structure Form where
  tys : List Nat
  rm : Bool
  sat : Bool
  mods : BitVec 3
  bks : List Nat
  x3 : Bool
  useA : Bool
  useB : Bool
  useC : Bool
  other : Bool
  regs : List (Nat × Nat)
  deriving DecidableEq, Repr

/-- Registers allocated to a course of a consort (R31). -/
def allocated (con : Consort) : Nat := con.vgran * 8

/-- The first failing step of R379: a sub-code of ILL, or none. -/
def formErr (s : State) (x : Cur) (p : P) (f : Form) : Option Nat :=
  let bk := p.bk.toNat
  let cUsed := f.useC || (f.bks.contains 2 && bk == 2)
  if !f.tys.contains p.ty.toNat || p.z != 0
    || (if f.rm then p.rm.toNat == 5 || p.rm.toNat == 6 else p.rm != 0)
    || (!f.sat && p.sat != 0) || (p.mod &&& ~~~f.mods) != 0 || (!f.x3 && p.x3 != 0)
    || (!f.useA && p.a != 0) || (!f.useB && p.b != 0 && !(bk == 2 && f.bks.contains 2)) || (!cUsed && p.c != 0)
    || !f.bks.contains bk || (bk == 1 && decide (64 ≤ p.b.toNat))
    || (bk == 2 && f.useC) || (bk == 3 && !srdDefined s x p.b.toNat) || !f.other then some iFIELD
  else if f.regs.any (fun r => r.2 == 64 && (r.1 % 2 == 1 || decide (248 ≤ r.1))) then some iREGPAIR
  else if f.regs.any (fun r => decide (r.1 < 248) && decide (allocated x.con ≤ r.1 + (if r.2 = 64 then 1 else 0))) then
    some iREGRANGE
  else none

/-- The rounding mode of an RM field (R62, R78). -/
def rmOf (c : Course) (rm : Nat) : Rm := match (if rm = 7 then (c.ncr.extractLsb' 0 3).toNat else rm) with
  | 1 => .rna | 2 => .rtz | 3 => .rup | 4 => .rdn | _ => .rne

/-- Numbers of the vector registers that fields name, for the interlock. -/
def vregsOf (l : List (Nat × Nat)) : List Nat := l.flatMap (fun r => if r.2 = 64 then [r.1, r.1 + 1] else [r.1])

end Sys2Proof.Machine
end

