-- ==== Sys2Proof/Machine/BurinOps.lean ====
section
/-! DEFINITION. Shared operations of a Burin core: registers, ending a bundle or an invocation, traps, holds
(R69, R252 to R258, R260, R263). -/

namespace Sys2Proof.Machine

def burinInit : Burin :=
  { regs := ⟨[], [], []⟩, src := ⟨[], [], []⟩, lb := [], pc := 0, npc := none, loops := [], bundle := [], pos := 0
    running := false, exiting := false, head := 0, band := 0, frame := 0, late := false, hold := none, acq := none
    louts := [], landing := [] }

def burinAt (s : State) (b : Nat) : Burin := (alGet s.burins b).getD burinInit
def setBurin (s : State) (b : Nat) (x : Burin) : State := { s with burins := alSet s.burins b x }

/-- Scalar registers: s0 reads 0 and discards writes (R252). Sources come from the snapshot (R69). -/
def bs (x : Burin) (r : Nat) : DWord := if r = 0 then 0 else smGet 0 x.src.s r
def bsSet (x : Burin) (r : Nat) (v : DWord) : Burin :=
  if r = 0 then x else { x with regs := { x.regs with s := smSet 0 x.regs.s r v } }

def bw (x : Burin) (r : Nat) : Nat := (smGet 0 x.src.w r).toNat
def bwSet (x : Burin) (r v : Nat) : Burin := { x with regs := { x.regs with w := smSet 0 x.regs.w r (BitVec.ofNat 512 v) } }

/-- Masks: m0 reads all ones and discards writes (R252). -/
def bm (x : Burin) (r : Nat) : Word := if r = 0 then 0xFFFFFFFF else smGet 0 x.src.m r
def bmSet (x : Burin) (r : Nat) (v : Word) : Burin :=
  if r = 0 then x else { x with regs := { x.regs with m := smSet 0 x.regs.m r v } }

/-- Display context of a head (R252). -/
def dispCtx (s : State) (h : Nat) : Nat × Nat := ((headAt s h).mode.pasid, (headAt s h).mode.root)

def logHead (s : State) (r : LogRec) : State := { s with headLog := s.headLog ++ [r] }

def errCause : MemErr → Nat × Nat
  | .xlat r => (cXLAT, r)
  | .mem => (cMEMERR, 0)

/-- Add to the HOLD word of a slot descriptor, as a package-scope store (R262, R263). -/
def addHold (s : State) (h slot : Nat) (up : Bool) : Except MemErr State := do
  let (pasid, root) := dispCtx s h
  let va := (headAt s h).mode.slots.getD slot 0 + 8
  let v ← load s pasid root va 4
  let n := ofBytes v
  store s pasid root va (toBytes 4 (if up then n + 1 else n + (2 ^ 32 - 1)))

/-- Release an invocation's hold; a decrement that fails is logged and not retried (R263). -/
def releaseHold (s : State) (b : Nat) : State :=
  let x := burinAt s b
  match x.hold with
  | none => s
  | some slot =>
    let s := setBurin s b { x with hold := none }
    match addHold s x.head slot false with
    | .ok s' => s'
    | .error e => logHead s ⟨(errCause e).1, slot, (headAt s x.head).mode.slots.getD slot 0, x.head, x.band⟩

/-- Release a hold once its descriptor's line is not pinned (R126): until then the core keeps it. -/
def tryRelease (s : State) (b : Nat) : State :=
  let x := burinAt s b
  let pinned := x.hold.elim false fun slot => waitsPins s (dispCtx s x.head) [(headAt s x.head).mode.slots.getD slot 0 + 8]
  if pinned then s else releaseHold s b

/-- An invocation ends (R258, R263); at a deadline or a trap what FSMP has outstanding is discarded (R255, R260). -/
def endInvocation (s : State) (b : Nat) (discard : Bool) : State :=
  let s := tryRelease s b
  let x := burinAt s b
  setBurin s b { x with
    running := false, exiting := false, bundle := [], pos := 0, npc := none, loops := [], acq := none
    landing := if discard then x.landing.filter (fun l => !l.fsmp) else x.landing, src := x.regs }

/-- A Burin trap: the bundle has no effect, the record is written, the invocation ends (R255). -/
def burinTrap (s : State) (b cause sub : Nat) : State :=
  let x := burinAt s b
  let s := logHead s ⟨cause, sub, x.pc, x.head, x.band⟩
  endInvocation (setBurin s b { x with regs := x.src }) b true

/-- A Burin ILL trap to which the manual gives no sub-code: one of those of R67, left open (R71, R255). -/
def burinIll (s : State) (b : Nat) : State := burinTrap s b cILL (Config.burinSub s.tick % 9 + 1)

/-- The slot's word is done; after slot 3 the bundle is, and control goes on (R69, R254, R337). -/
def slotDone (s : State) (b : Nat) (x : Burin) : State :=
  if x.pos + 1 < 4 then setBurin s b { x with pos := x.pos + 1 }
  else if x.exiting then endInvocation (setBurin s b { x with bundle := [], pos := 0 }) b false
  else match x.npc with
    | some pc => setBurin s b { x with pc := pc, npc := none, bundle := [], pos := 0, src := x.regs }
    | none => match fallTo x.pc (x.pc + 16) x.loops with
      | some (pc, ls, _) => setBurin s b { x with pc := pc, loops := ls, bundle := [], pos := 0, src := x.regs }
      | none => burinTrap (setBurin s b x) b cILL iPLACE

/-- Run a slot word in the Burin core whose turn it is. -/
def onBurin (s : State) (f : Nat → Burin → State) : State :=
  match s.turn with
  | .burin b => if (burinAt s b).running && !(burinAt s b).bundle.isEmpty then f b (burinAt s b) else s
  | _ => s

end Sys2Proof.Machine
end

