-- ==== Sys2Proof/Machine/Scalar.lean ====
section
/-! DEFINITION. The scalar words of the control subset, on the core and on Burin (R177, R258, R360 to R368). -/

namespace Sys2Proof.Machine

/-- Is the word that of a driver course during an etch (R175)? -/
def etching (x : Cur) : Bool := x.con.plate.mode == 1 && x.c.driver == some true

def isVolatile (c : Course) (r : Nat) : Bool := alGet c.marks r == some .volatile

/-- Write a scalar register with the volatile mark when a source has it (R177). -/
def sSetFrom (x : Cur) (r : Nat) (v : DWord) (srcs : List Nat) : Course :=
  let tainted := etching x && srcs.any (isVolatile x.c)
  let c := sSet x.c r v
  if tainted && r != 0 then { c with marks := alSet c.marks r .volatile } else c

/-- An etch is abandoned with a reason: recording stops and the course runs on as in mode 0 (R176); the STATE of a plate
that was already written goes back to 2. -/
def abandonEtch (s : State) (cid reason : Nat) : State :=
  match conAt s cid with
  | none => s
  | some con =>
    if con.plate.mode ≠ 1 then s
    else
      let ctx := ctxOf s con
      let s := if con.plate.finished then plateInvalid s ctx.1 ctx.2 con.plate.addr else s
      let s := setCon s { con with plate := { con.plate with mode := 0, reason := reason } }
      match launchAt s con.launch with
      | some l => setLaunch s { l with abandon := if l.abandon = 0 then reason else l.abandon }
      | none => s

/-- Abandon from inside a word, and go on with the same word. -/
def abandonIn (reason : Nat) (b : Bool) (s : State) (x : Cur) (f : State → Cur → State) : State :=
  if b && etching x then
    f (abandonEtch s x.con.cid reason) { x with con := { x.con with plate := { x.con.plate with mode := 0, reason := reason } } }
  else f s x

/-- A scalar result from scalar registers, on the machine whose turn it is (R360). -/
def scalarOp (s : State) (sd : BitVec 6) (srcs : List (BitVec 6)) (f : (BitVec 6 → DWord) → DWord) : State :=
  match s.turn with
  | .burin _ => onBurin s fun b x => slotDone s b (bsSet x sd.toNat (f fun r => bs x r.toNat))
  | _ => onWord s [] (sd.toNat :: srcs.map (·.toNat)) fun x =>
    retire s { x with c := sSetFrom x sd.toNat (f fun r => sGet x.c r.toNat) (srcs.map (·.toNat)) } 1

/-- A SALU word of two registers. -/
def salu (sd sa sb : BitVec 6) (s : State) (f : DWord → DWord → DWord) : Host.Outcome State Fault Refusal :=
  .next (scalarOp s sd [sa, sb] fun r => f (r sa) (r sb))

/-- An immediate word. -/
def saluImm (sd sa : BitVec 6) (b : DWord) (s : State) (f : DWord → DWord → DWord) : Host.Outcome State Fault Refusal :=
  .next (scalarOp s sd [sa] fun r => f (r sa) b)

def boolWord (b : Bool) : DWord := if b then 1 else 0

/-- Bits [127:64] of the signed product (R360). -/
def mulHigh (a b : DWord) : DWord := BitVec.ofInt 64 ((a.toInt * b.toInt) / 2 ^ 64)

/-- A shift by the low six bits of the amount (R360). -/
def shAmt (b : DWord) : Nat := b.toNat % 64

/-- R360. -/
def execSadd (sd sa sb : BitVec 6) (s : State) : Host.Outcome State Fault Refusal := salu sd sa sb s (· + ·)
/-- R360. -/
def execSsub (sd sa sb : BitVec 6) (s : State) : Host.Outcome State Fault Refusal := salu sd sa sb s (· - ·)
/-- R360. -/
def execSand (sd sa sb : BitVec 6) (s : State) : Host.Outcome State Fault Refusal := salu sd sa sb s (· &&& ·)
/-- R360. -/
def execSor (sd sa sb : BitVec 6) (s : State) : Host.Outcome State Fault Refusal := salu sd sa sb s (· ||| ·)
/-- R360. -/
def execSxor (sd sa sb : BitVec 6) (s : State) : Host.Outcome State Fault Refusal := salu sd sa sb s (· ^^^ ·)
/-- R360. -/
def execSshl (sd sa sb : BitVec 6) (s : State) : Host.Outcome State Fault Refusal := salu sd sa sb s fun a b => a <<< shAmt b
/-- R360. -/
def execSshr (sd sa sb : BitVec 6) (s : State) : Host.Outcome State Fault Refusal := salu sd sa sb s fun a b => a >>> shAmt b
/-- R360. -/
def execSsha (sd sa sb : BitVec 6) (s : State) : Host.Outcome State Fault Refusal := salu sd sa sb s fun a b => a.sshiftRight (shAmt b)
/-- R360. -/
def execSmul (sd sa sb : BitVec 6) (s : State) : Host.Outcome State Fault Refusal := salu sd sa sb s (· * ·)
/-- R360. -/
def execSmulh (sd sa sb : BitVec 6) (s : State) : Host.Outcome State Fault Refusal := salu sd sa sb s mulHigh
/-- R360. -/
def execSmin (sd sa sb : BitVec 6) (s : State) : Host.Outcome State Fault Refusal := salu sd sa sb s fun a b => if a.slt b then a else b
/-- R360. -/
def execSmax (sd sa sb : BitVec 6) (s : State) : Host.Outcome State Fault Refusal := salu sd sa sb s fun a b => if a.slt b then b else a
/-- R360. -/
def execSminu (sd sa sb : BitVec 6) (s : State) : Host.Outcome State Fault Refusal := salu sd sa sb s fun a b => if a.ult b then a else b
/-- R360. -/
def execSmaxu (sd sa sb : BitVec 6) (s : State) : Host.Outcome State Fault Refusal := salu sd sa sb s fun a b => if a.ult b then b else a
/-- R360. -/
def execSslt (sd sa sb : BitVec 6) (s : State) : Host.Outcome State Fault Refusal := salu sd sa sb s fun a b => boolWord (a.slt b)
/-- R360. -/
def execSsltu (sd sa sb : BitVec 6) (s : State) : Host.Outcome State Fault Refusal := salu sd sa sb s fun a b => boolWord (a.ult b)
/-- R360. -/
def execSseq (sd sa sb : BitVec 6) (s : State) : Host.Outcome State Fault Refusal := salu sd sa sb s fun a b => boolWord (a == b)

/-- R361. -/
def execSaddi (sd sa : BitVec 6) (imm : BitVec 13) (s : State) : Host.Outcome State Fault Refusal :=
  saluImm sd sa (imm.signExtend 64) s (· + ·)
/-- R361. -/
def execSandi (sd sa : BitVec 6) (imm : BitVec 13) (s : State) : Host.Outcome State Fault Refusal :=
  saluImm sd sa (imm.signExtend 64) s (· &&& ·)
/-- R361. -/
def execSori (sd sa : BitVec 6) (imm : BitVec 13) (s : State) : Host.Outcome State Fault Refusal :=
  saluImm sd sa (imm.signExtend 64) s (· ||| ·)
/-- R361. -/
def execSxori (sd sa : BitVec 6) (imm : BitVec 13) (s : State) : Host.Outcome State Fault Refusal :=
  saluImm sd sa (imm.signExtend 64) s (· ^^^ ·)
/-- R361. -/
def execSshli (sd sa : BitVec 6) (amt : BitVec 6) (s : State) : Host.Outcome State Fault Refusal :=
  saluImm sd sa (amt.setWidth 64) s fun a b => a <<< shAmt b
/-- R361. -/
def execSshri (sd sa : BitVec 6) (amt : BitVec 6) (s : State) : Host.Outcome State Fault Refusal :=
  saluImm sd sa (amt.setWidth 64) s fun a b => a >>> shAmt b
/-- R361. -/
def execSshai (sd sa : BitVec 6) (amt : BitVec 6) (s : State) : Host.Outcome State Fault Refusal :=
  saluImm sd sa (amt.setWidth 64) s fun a b => a.sshiftRight (shAmt b)

/-- R367. -/
def execSmovi (sd : BitVec 6) (imm : BitVec 19) (s : State) : Host.Outcome State Fault Refusal :=
  .next (scalarOp s sd [] fun _ => imm.signExtend 64)

/-- R364. -/
def execSlea (sd sa sb : BitVec 6) (k : BitVec 3) (s : State) : Host.Outcome State Fault Refusal :=
  .next (scalarOp s sd [sa, sb] fun r => r sa + (r sb <<< k.toNat))

/-- The deadline line of a band and the lines of its instants, counted in the frame before when negative (R257). -/
def instantLine (h : Head) (band lead : Nat) : Nat :=
  if lead ≤ 16 * band then 16 * band - lead else h.mode.vtotal + 16 * band - lead

/-- The special sources of Burin (R258). -/
def burinSrc (s : State) (b : Nat) (x : Burin) (n : Nat) : Option DWord :=
  let h := headAt s x.head
  let nat := fun (v : Nat) => some (BitVec.ofNat 64 v)
  match n with
  | 0 => nat b
  | 1 => nat x.head
  | 2 => nat x.band
  | 3 => nat (16 * x.band)
  | 4 => nat h.mode.hwidth
  | 5 => nat h.mode.hheight
  | 6 => nat h.mode.vtotal
  | 7 => nat h.line
  | 8 => nat (instantLine h x.band (guardOf h x.frame))
  | 9 => nat x.frame
  | 10 => nat s.bcycles
  | 11 => nat s.fabtime
  | _ => none

/-- Sources whose reading abandons an etch (R176 reason 3). -/
def etchSource (n : Nat) : Bool :=
  n == 4 || n == 5 || n == 6 || n == 7 || n == 11 || n == 32 || n == 33 || n == 34 || n == 40 || n == 41 || n == 48

/-- R368. -/
def execSrd (sd : BitVec 6) (n : BitVec 13) (s : State) : Host.Outcome State Fault Refusal :=
  .next (match s.turn with
    | .burin _ => onBurin s fun b x => match burinSrc s b x n.toNat with
      | some v => slotDone s b (bsSet x sd.toNat v)
      | none => burinIll s b
    | _ => onWord s [] [sd.toNat] fun x => match srdVal s x n.toNat with
      | none => ill s x iFIELD
      | some v => abandonIn 3 (etchSource n.toNat) s x fun s x =>
        let arg := n.toNat - 64
        let con := if etching x && decide (64 ≤ n.toNat) && !x.con.plate.patched.contains arg then
            { x.con with plate := { x.con.plate with
              argsRead := if x.con.plate.argsRead.contains arg then x.con.plate.argsRead else arg :: x.con.plate.argsRead } }
          else x.con
        retire s { x with con := con, c := sSetFrom x sd.toNat v [] } 1)

end Sys2Proof.Machine
end

