-- ==== Sys2Proof/Machine/Control.lean ====
section
/-! DEFINITION. Branches, calls, hardware loops, EXIT, YIELD and NOP, on the core and on Burin
(R54 to R59, R295 to R299, R311, R317, R322, R325, R337 to R339, R351, R358, R409), and the arrival of splits at
their join records (R43, R46). -/

namespace Sys2Proof.Machine

/-- The test of BR and LBRK (R295). -/
def condTaken (cond : BitVec 4) (v : DWord) : Bool :=
  match cond.toNat with
  | 0 => true
  | 1 => v == 0
  | 2 => v != 0
  | 3 => v.msb
  | 4 => !v.msb
  | 5 => v.msb || v == 0
  | _ => !v.msb && v != 0

/-- An address some words or bundles away (R295). -/
def relAddr (base unit : Nat) (off : BitVec 15) : Nat := wrapTo 64 ((base : Int) + unit * off.toInt)

/-- A control word that must stand last in its clause (R55). -/
def lastWord (s : State) (sregs : List Nat) (f : Cur → State) : State :=
  onWord s [] sregs fun x => if isLast x 1 then f x else ill s x iPLACE

/-- A jump that no loop rule touches: calls and returns keep the loop stack (R338). -/
def goTo (s : State) (x : Cur) (target : Nat) : State := endAt s x target x.sp.loops

/-- A taken branch of a Burin bundle: the other slots execute, then the target follows (R59, R338). -/
def burinBranch (s : State) (b : Nat) (x : Burin) (target : Nat) : State :=
  match branchTo target x.loops with
  | some ls => slotDone s b { x with npc := some target, loops := ls }
  | none => burinTrap s b cILL iPLACE

/-- R295. -/
def execBr (cond : BitVec 4) (sa : BitVec 6) (off : BitVec 15) (s : State) : Host.Outcome State Fault Refusal :=
  .next (match s.turn with
    | .burin _ => onBurin s fun b x =>
      if condTaken cond (bs x sa.toNat) then burinBranch s b x (relAddr x.pc 16 off) else slotDone s b x
    | _ => lastWord s [sa.toNat] fun x => abandonIn 4 (isVolatile x.c sa.toNat) s x fun s x =>
      if condTaken cond (sGet x.c sa.toNat) then branch s x (relAddr x.iss.hdr 4 off) else endClause s x)

/-- R298. -/
def execCall (off : BitVec 15) (s : State) : Host.Outcome State Fault Refusal :=
  .next (match s.turn with
    | .burin _ => onBurin s fun b x =>
      slotDone s b { bsSet x 63 (BitVec.ofNat 64 (x.pc + 16)) with npc := some (relAddr x.pc 16 off) }
    | _ => lastWord s [63] fun x =>
      goTo s { x with c := sSetFrom x 63 (BitVec.ofNat 64 (nextClause x)) [] } (relAddr x.iss.hdr 4 off))

/-- A jump to an address in a register, aligned as the machine asks (R58, R59). RET alone may go by a volatile s63 (R176,
R177). -/
def jumpReg (s : State) (sa : Nat) (link : Bool) (loops : Bool) : State :=
  match s.turn with
  | .burin _ => onBurin s fun b x =>
    let t := (bs x sa).toNat
    if t % 16 ≠ 0 then burinTrap s b cALIGN 0
    else
      let x := if link then bsSet x 63 (BitVec.ofNat 64 (x.pc + 16)) else x
      if loops then burinBranch s b x t else slotDone s b { x with npc := some t }
  | _ => lastWord s [sa, 63] fun x => abandonIn 4 ((link || loops) && isVolatile x.c sa) s x fun s x =>
    let t := sGet x.c sa
    if t.toNat % 4 ≠ 0 then trap s x cALIGN t
    else
      let x := if link then { x with c := sSetFrom x 63 (BitVec.ofNat 64 (nextClause x)) [] } else x
      if loops then branch s x t.toNat else goTo s x t.toNat

/-- R299. -/
def execCalli (sa : BitVec 6) (s : State) : Host.Outcome State Fault Refusal := .next (jumpReg s sa.toNat true false)
/-- R358. -/
def execRet (s : State) : Host.Outcome State Fault Refusal := .next (jumpReg s 63 false false)
/-- R317. -/
def execJmpi (sa : BitVec 6) (s : State) : Host.Outcome State Fault Refusal := .next (jumpReg s sa.toNat false true)

/-- Begin a loop of N iterations over a body in a clause of a stage (R337): none runs when N is 0; a fifth level is too
deep (R58). With N = 0 the split goes on at the body end, and an enclosing loop that ends there too neither steps nor is
popped, since no clause ended there by falling through (DESIGN CHOICE, log 16). -/
def pushLoop (body len count stages stg : Nat) (ls : List LoopRec) : Option (Nat × List LoopRec) :=
  if count = 0 then some (body + len, ls)
  else if 4 ≤ ls.length then none
  else some (body, ⟨body, body + len, count, stages, 0, stg, 0, none⟩ :: ls)

/-- Stage of the clause in issue (R54). -/
def stgOf (x : Cur) : Nat := (x.iss.header.extractLsb' 0 3).toNat

/-- LOOP and LOOPI (R337, R339). -/
def loopWord (s : State) (sregs : List Nat) (vol : Cur → Bool) (core : Cur → Nat) (burin : Burin → Nat)
    (stages len : Nat) : State :=
  match s.turn with
  | .burin _ => onBurin s fun b x =>
    if 4 < stages then burinTrap s b cILL iFIELD
    else match pushLoop (x.pc + 16) (16 * len) (burin x) stages 0 x.loops with
      | some (pc, ls) => slotDone s b { x with npc := some pc, loops := ls }
      | none => burinTrap s b cILL iLOOP
  | _ => lastWord s sregs fun x => abandonIn 4 (vol x) s x fun s x =>
    match pushLoop (nextClause x) (4 * len) (core x) stages (stgOf x) x.sp.loops with
    | some (pc, ls) => endAt s x pc ls
    | none => ill s x iLOOP

/-- R337. -/
def execLoop (sa : BitVec 6) (stages : BitVec 4) (len : BitVec 15) (s : State) : Host.Outcome State Fault Refusal :=
  .next (loopWord s [sa.toNat] (fun x => isVolatile x.c sa.toNat) (fun x => (sGet x.c sa.toNat).toNat)
    (fun x => (bs x sa.toNat).toNat) stages.toNat len.toNat)

/-- R339. -/
def execLoopi (count : BitVec 10) (stages : BitVec 4) (len : BitVec 11) (s : State) : Host.Outcome State Fault Refusal :=
  .next (loopWord s [] (fun _ => false) (fun _ => count.toNat) (fun _ => count.toNat) stages.toNat len.toNat)

/-- A taken LBRK in a pipelined loop: iterations from the current step on run no more (R322). -/
def cutLoop (l : LoopRec) : LoopRec := { l with count := min l.count l.t }

/-- R322. Stage of a core clause is STG of its header; slot 0 of a bundle is stage 0. A loop that it pops ends as one of no
iterations does (log 16). -/
def execLbrk (cond : BitVec 4) (sa : BitVec 6) (s : State) : Host.Outcome State Fault Refusal :=
  .next (match s.turn with
    | .burin _ => onBurin s fun b x => match x.loops with
      | [] => burinTrap s b cILL iPLACE
      | l :: ls =>
        if !condTaken cond (bs x sa.toNat) then slotDone s b x
        else if l.stages = 1 then slotDone s b { x with npc := some l.stop, loops := ls }
        else slotDone s b { x with loops := cutLoop l :: ls }
    | _ => lastWord s [sa.toNat] fun x => abandonIn 4 (isVolatile x.c sa.toNat) s x fun s x => match x.sp.loops with
      | [] => ill s x iPLACE
      | l :: ls =>
        if !condTaken cond (sGet x.c sa.toNat) then endClause s x
        else if l.stages = 1 then endAt s x l.stop ls
        else if stgOf x ≠ 0 then ill s x iPLACE
        else endClause s { x with sp := { x.sp with loops := cutLoop l :: ls } })

/-- The iteration of the loop at a level, for a word of a stage (R325): a loop inside another runs for the iteration of the
clause that began it. -/
def loopIter : List LoopRec → Nat → Nat → Nat
  | [], _, _ => 0
  | l :: _, 0, stg => l.t - stg
  | l :: ls, level + 1, _ => loopIter ls level l.stg

/-- R325. -/
def execLcnt (sd : BitVec 6) (fn : BitVec 7) (s : State) : Host.Outcome State Fault Refusal :=
  .next (match s.turn with
    | .burin _ => onBurin s fun b x => slotDone s b (bsSet x sd.toNat (BitVec.ofNat 64 (loopIter x.loops fn.toNat 0)))
    | _ => onWord s [] [sd.toNat] fun x =>
      let v := loopIter x.sp.loops fn.toNat (stgOf x)
      retire s { x with c := sSetFrom x sd.toNat (BitVec.ofNat 64 v) [] } 1)

/-! ## Arrival at a join record (R43, R46) -/

/-- What becomes of a split that arrives. -/
inductive Arrival where
  /-- Others are awaited: its entry is freed. -/
  | freed
  /-- Every member has exited, up to a record without parent, whose join address this is. -/
  | gone (addr : Nat)
  /-- It takes the deferred half. -/
  | deferred (d : Deferred) (jrec : Nat)
  /-- It goes on merged, after the JOIN word at an address. -/
  | merged (m exec : Mask) (parent : Option Nat) (addr : Nat)
  deriving DecidableEq, Repr

/-- Arrive at a record with masks; records above are counted in turn when all their members are gone. -/
def arrive (recs : List (Nat × JoinRec)) (r : Nat) (m e : Mask) : Nat → List (Nat × JoinRec) × Arrival
  | 0 => (recs, .freed)
  | fuel + 1 => match alGet recs r with
    | none => (recs, .freed)
    | some j =>
      let j := { j with accM := j.accM ||| m, accE := j.accE ||| e, count := j.count - 1 }
      if j.count ≠ 0 then (alSet recs r j, .freed)
      else match j.deferred with
        | some d => (alSet recs r { j with deferred := none, count := 1 }, .deferred d r)
        | none =>
          let recs := smDel recs r
          if j.accM ≠ 0 then (recs, .merged j.accM j.accE j.parent j.addr)
          else match j.parent with
            | some q => arrive recs q 0 0 fuel
            | none => (recs, .gone j.addr)

/-- The record at which what arrived at a record waits: that record, or the first of those above it that is left. -/
def waitsAt (before after : List (Nat × JoinRec)) : Nat → Nat → Option Nat
  | 0, _ => none
  | fuel + 1, r => if (alGet after r).isSome then some r else ((alGet before r).bind (·.parent)).bind (waitsAt before after fuel)

/-- The stores of splits that merge become those of the split that goes on (R119): an arrival of the running split at a
record leaves its own, unless it exits and is gone, and those that wait at the records it completes, to the split that goes on,
or to the record where they wait. -/
def mergeStores (x : Cur) (after : List (Nat × JoinRec)) (r : Nat) (joins : Bool) (a : Arrival) : Cur :=
  let heir := match a with
    | .merged _ _ _ _ | .gone _ => some x.spi
    | .freed | .deferred _ _ => (waitsAt x.c.recs after 17 r).map (8 + ·)
  let done := fun n => decide (8 ≤ n) && (alGet x.c.recs (n - 8)).isSome && (alGet after (n - 8)).isNone
  let now := fun n => if n = x.spi then (if joins then heir else none) else if done n then heir else some n
  let mine := fun (d : Dirty) => d.cid == x.con.cid && d.ci == x.c.idx
  { x with
    c := { x.c with recs := after }
    k := { x.k with dirty := x.k.dirty.map fun d => if mine d then { d with sp := d.sp.bind now } else d } }

/-- A split whose exit, or whose arrival above its own record, completes the record of a join clause goes on after that
clause's JOIN word (R43): at the word after it, or, where JOIN stands alone, as the clause falls through (R337). Where the
clause cannot be read, its fetch at the word after JOIN meets the error (DESIGN CHOICE, log 16: R43 does not say). -/
def afterJoin (s : State) (x : Cur) (addr : Nat) : State :=
  let ctx := ctxOf s x.con
  match load s ctx.1 ctx.2 addr 4 with
  | .ok b =>
    if ofBytes b / 2 ^ 27 = 2 then fallOn s x addr (addr + 12)
    else sweepDying (freeSlot { x with sp := { x.sp with pc := addr, off := 3 } } s) x.con.cid
  | .error _ => sweepDying (freeSlot { x with sp := { x.sp with pc := addr, off := 3 } } s) x.con.cid

/-- End the clause with the split's entry freed. -/
def freeSplit (s : State) (x : Cur) : State :=
  sweepDying (leaveSlot x (smDel x.c.splits x.spi) s) x.con.cid

/-- Is the running split the course's only one? -/
def onlySplit (x : Cur) : Bool := x.c.splits.all (fun p => p.1 == x.spi)

/-- Does the course refill (R47)? -/
def refills (s : State) (con : Consort) : Bool := (launchOf s con).refill

/-- Does refill keep the running split when its arrival ends the last of its records (R43, R46)? -/
def staysOn (s : State) (x : Cur) : Arrival → Bool
  | .gone _ => refills s x.con && onlySplit x
  | .freed | .deferred _ _ | .merged _ _ _ _ => false

/-- Apply an arrival of the running split from EXIT. Where empty records are counted upwards until none has a parent, the
split that refill keeps goes on after the JOIN word of the outermost of them (DESIGN CHOICE, log 16). -/
def exitArrival (s : State) (x : Cur) (a : Arrival) : State :=
  match a with
  | .freed => freeSplit s x
  | .gone addr =>
    if staysOn s x a then afterJoin s { x with sp := { x.sp with m := 0, exec := 0, jrec := none } } addr
    else freeSplit s x
  | .deferred d r =>
    let sp := atBoundary x.sp d.boundary
    sweepDying (freeSlot { x with sp := { sp with
      m := d.m, exec := d.exec, jrec := some r, pc := d.pc, off := 0, loops := d.loops } } s) x.con.cid
  | .merged m e parent addr => afterJoin s { x with sp := { x.sp with m := m, exec := e, jrec := parent } } addr

/-- R46, R311. -/
def execExit (s : State) : Host.Outcome State Fault Refusal :=
  .next (match s.turn with
    | .burin _ => onBurin s fun b x => slotDone s b { x with exiting := true }
    | _ => lastWord s [] fun x =>
      let x := { x with c := { x.c with inHandler := none }, sp := { x.sp with trap := none } }
      match x.sp.jrec with
      | none =>
        if refills s x.con && onlySplit x then endClause s { x with sp := { x.sp with m := 0, exec := 0 } }
        else freeSplit s (mergeStores x x.c.recs 0 false .freed)
      | some r =>
        let (recs, a) := arrive x.c.recs r 0 0 17
        exitArrival s (mergeStores x recs r (staysOn s x a) a) a)

/-- R351. -/
def execNop (s : State) : Host.Outcome State Fault Refusal :=
  .next (match s.turn with
    | .burin _ => onBurin s (fun b x => slotDone s b x)
    | _ => onWord s [] [] fun x => retire s x 1)

end Sys2Proof.Machine
end

