-- ==== Sys2Proof/Machine/Flags.lean ====
section
/-! DEFINITION. NSTAT and the FPX and POISON traps of lane-class instructions (R81 to R83, R172, R222). -/

namespace Sys2Proof.Machine

/-- Set sticky flags (R82). -/
def raise (c : Course) (f : Flags) : Course := { c with nstat := c.nstat ||| f.setWidth 64 }

/-- The flags that NCR makes trap: [13:8] in NSTAT bit order (R81). -/
def enabled (c : Course) : Flags := c.ncr.extractLsb' 8 6

/-- The lanes half of TRAPV: lanes 0 to 31 when any is named, else the upper lanes, and whether it is the upper. -/
def lanesHalf (m : Mask) : Nat × Bool :=
  let lo := m.toNat % 2 ^ 32
  if lo ≠ 0 then (lo, false) else (m.toNat / 2 ^ 32, decide (m.toNat ≠ 0))

/-- TRAPV of FPX (R83). -/
def fpxValue (m : Mask) (f : Flags) : DWord :=
  let (l, up) := lanesHalf m
  BitVec.ofNat 64 (l * 2 ^ 32 + (if up then 64 else 0) + f.toNat)

/-- TRAPV of POISON (R172). -/
def poisonValue (m : Mask) (reason : Nat) : DWord :=
  let (l, up) := lanesHalf m
  BitVec.ofNat 64 (l * 2 ^ 32 + (if up then 256 else 0) + reason % 256)

/-- One lane's outcome: its value, the flags it raises and its poison tag. -/
structure LaneOut where
  lane : Nat
  val : Nat
  fl : Flags
  tag : Byte
  deriving DecidableEq, Repr

/-- A poisoned lane raises no flag (R222). -/
def outFlags (outs : List LaneOut) : Flags := outs.foldl (fun f o => if o.tag = 0 then f ||| o.fl else f) 0

/-- Lanes that raised one of the flags. -/
def lanesRaising (outs : List LaneOut) (f : Flags) : Mask :=
  maskOf 64 (fun l => outs.any (fun o => o.lane == l && o.tag == 0 && (o.fl &&& f) != 0))

/-- FPX when an enabled flag would be raised (R83): no lane is written. -/
def fpx? (c : Course) (outs : List LaneOut) : Option DWord :=
  let hit := outFlags outs &&& enabled c
  if hit = 0 then none else some (fpxValue (lanesRaising outs (enabled c)) hit)

/-- The first tag of a list of tags, the lowest-numbered register's when they stand in register order (R222). -/
def firstTag (ts : List (Nat × Byte)) : Byte :=
  ((ts.filter (fun t => t.2 != 0)).foldl (fun (a : Option (Nat × Byte)) t => match a with
    | some b => if t.1 < b.1 then some t else some b
    | none => some t) none).elim 0 (·.2)

/-- The trap of an instruction that cannot pass poison on (R172, R222): from each active lane's tag. -/
def poison? (ts : List (Nat × Byte)) : Option DWord :=
  match ts.find? (fun t => t.2 != 0) with
  | none => none
  | some t => some (poisonValue (maskOf 64 (fun l => ts.any (fun u => u.1 == l && u.2 != 0))) t.2.toNat)

end Sys2Proof.Machine
end

