-- ==== Sys2Proof/Machine/Split.lean ====
section
/-! DEFINITION. Predicates, execution masks, divergence and refill, work-queue pushes and CHK
(R40 to R47, R198 to R201, R222, R296, R304, R316, R318, R352, R353, R357, R363, R404). -/

namespace Sys2Proof.Machine

/-- Which fields of a two-word instruction may be non-zero beside G and GN. -/
structure Free where
  d : Bool := false
  a : Bool := false
  b : Bool := false
  c : Bool := false
  ty : Bool := false
  rm : Bool := false
  sat : Bool := false
  mod : Bool := false
  bk : Bool := false
  x3 : Bool := false
  deriving DecidableEq, Repr

/-- Every field that is not free is zero (R66). -/
def fieldsOk (p : P) (f : Free) : Bool :=
  (f.d || p.d == 0) && (f.a || p.a == 0) && (f.b || p.b == 0) && (f.c || p.c == 0) && (f.ty || p.ty == 0) &&
  (f.rm || p.rm == 0) && (f.sat || p.sat == 0) && (f.mod || p.mod == 0) && (f.bk || p.bk == 0) && (f.x3 || p.x3 == 0) &&
  p.z == 0

/-- An s register in a field: bits [7:6] are 0 (R60). -/
def isS (r : BitVec 8) : Bool := decide (r.toNat < 64)
def isP (r : BitVec 8) : Bool := decide (r.toNat < 8)

/-- A course-class word: its checks are made whatever the mask, a guard first (R65, R66). -/
def courseWord (s : State) (p : P) (f : Free) (legal : Bool) (sregs : List Nat) (k : Cur → State) : State :=
  onWord s [] sregs fun x =>
    if guarded p then ill s x iGUARD
    else if !fieldsOk p f || !legal then ill s x iFIELD
    else k x

/-- A lane-class word that is no V instruction: nothing without an active lane, then its field checks (R65). -/
def laneWord (s : State) (p : P) (f : Free) (legal : Bool) (vregs sregs : List Nat) (k : Cur → Mask → State) : State :=
  onWord s vregs sregs fun x =>
    let act := active x p
    if act = 0 then retire s x 2
    else if !fieldsOk p f || !legal then ill s x iFIELD
    else k x act

/-- A window of registers inside v0 to v247 and the allocation (R31, R66). -/
def windowOk (x : Cur) (r n : Nat) : Bool := decide (r + n ≤ 248) && decide (r + n ≤ allocated x.con)

/-! ## Predicates -/

/-- The predicate logic instructions (R353). -/
def predLogic (p : P) (s : State) (two : Bool) (op : Mask → Mask → Mask) : Host.Outcome State Fault Refusal :=
  .next (laneWord s p { d := true, a := true, b := two } (isP p.d && isP p.a && isP p.b) [] [] fun x act =>
    retire s { x with c := pSet x.c p.d.toNat act (op (pMask x.c p.a.toNat) (pMask x.c p.b.toNat)) } 2)

/-- R353. -/
def execPand (p : P) (s : State) : Host.Outcome State Fault Refusal := predLogic p s true (· &&& ·)
/-- R353. -/
def execPor (p : P) (s : State) : Host.Outcome State Fault Refusal := predLogic p s true (· ||| ·)
/-- R353. -/
def execPxor (p : P) (s : State) : Host.Outcome State Fault Refusal := predLogic p s true (· ^^^ ·)
/-- R353. -/
def execPandn (p : P) (s : State) : Host.Outcome State Fault Refusal := predLogic p s true fun a b => a &&& ~~~b
/-- R353. -/
def execPnot (p : P) (s : State) : Host.Outcome State Fault Refusal := predLogic p s false fun a _ => ~~~a
/-- R353. -/
def execPmov (p : P) (s : State) : Host.Outcome State Fault Refusal := predLogic p s false fun a _ => a

/-- The predicate reductions (R352): from EXEC and the predicate within it. -/
def predReduce (p : P) (s : State) (f : Mask → Mask → DWord) : Host.Outcome State Fault Refusal :=
  .next (courseWord s p { d := true, a := true } (isS p.d && isP p.a) [p.d.toNat] fun x =>
    retire s { x with c := sSetFrom x p.d.toNat (f x.sp.exec (x.sp.exec &&& pMask x.c p.a.toNat)) [] } 2)

/-- R352. -/
def execPany (p : P) (s : State) : Host.Outcome State Fault Refusal := predReduce p s fun _ m => boolWord (m != 0)
/-- R352. -/
def execPall (p : P) (s : State) : Host.Outcome State Fault Refusal := predReduce p s fun e m => boolWord (m == e)
/-- R352. -/
def execPbal (p : P) (s : State) : Host.Outcome State Fault Refusal := predReduce p s fun _ m => m

/-! ## Masks and splits -/

/-- R41, R363. -/
def execSetx (p : P) (s : State) : Host.Outcome State Fault Refusal :=
  .next (courseWord s p { b := true, c := p.bk == 2, bk := true }
      (p.bk == 2 || (p.bk == 1 && isS p.b)) (if p.bk = 1 then [p.b.toNat] else []) fun x =>
    let src : DWord := if p.bk = 1 then sGet x.c p.b.toNat else BitVec.ofNat 64 (imm16 p)
    let src := if x.c.width = 64 then src else src &&& 0xFFFFFFFF
    retire s { x with sp := { x.sp with exec := src &&& x.sp.m } } 2)

/-- R41, R316. -/
def execGetx (p : P) (s : State) : Host.Outcome State Fault Refusal :=
  .next (courseWord s p { d := true } (isS p.d) [p.d.toNat] fun x =>
    retire s { x with c := sSetFrom x p.d.toNat x.sp.exec [] } 2)

/-- R42, R296. The new split has issued no clause yet, so its run of PRE = 0 is empty (R54). BRD's place is tested before
its guard and its fields, and a control word's fields before its place: R55, R65 and R66 set no order between them (DESIGN
CHOICE, log 16). -/
def execBrd (p : P) (fn : BitVec 4) (s : State) : Host.Outcome State Fault Refusal :=
  .next (onWord s [] [] fun x =>
    let taken := imm16 p
    let join := p.d.toNat * 256 + p.a.toNat
    if !isLast x 2 then ill s x iPLACE
    else if guarded p then ill s x iGUARD
    else if !fieldsOk p { d := true, a := true, b := true, c := true, mod := true, bk := true } || p.bk != 2 then ill s x iFIELD
    else if taken < x.iss.words.length + 1 ∨ join < taken then ill s x iPLACE
    else
      let pr := pMask x.c p.mod.toNat
      let pr := if fn = 1 then ~~~pr else pr
      let t := x.sp.exec &&& pr
      let f := x.sp.m &&& ~~~t
      let target := x.iss.hdr + 4 * taken
      if t = 0 then endClause s x
      else if f = 0 then branch s x target
      else match freeKey x.c.recs 16 with
        | none => ill s x iSPLIT
        | some j =>
          match branchTo target x.sp.loops, fallTo x.iss.hdr (nextClause x) x.sp.loops with
          | some tl, some (npc, fl, boundary) =>
            let r : JoinRec := ⟨x.iss.hdr + 4 * join, x.sp.jrec, 2, 0, 0, none⟩
            let fallen := { atBoundary x.sp boundary with
              m := f, exec := x.sp.exec &&& ~~~pr, pc := npc, off := 0, loops := fl, jrec := some j }
            let gone := { x.sp with m := t, exec := t, pc := target, off := 0, loops := tl, jrec := some j }
            let fresh := { gone with trap := none, wake := none, yielded := none, preRun := 0 }
            match freeKey x.c.splits 8 with
            | some k =>
              let c := { x.c with recs := alSet x.c.recs j r, splits := alSet x.c.splits k fresh }
              sweepDying (freeSlot { x with c := c, sp := fallen } s) x.con.cid
            | none =>
              let r := { r with count := 1, deferred := some ⟨f, x.sp.exec &&& ~~~pr, npc, fl, boundary⟩ }
              sweepDying (freeSlot { x with c := { x.c with recs := alSet x.c.recs j r }, sp := gone } s) x.con.cid
          | _, _ => ill s x iPLACE)

/-- R43, R44, R318. A course never finds what its own stores replaced, so a merged split's later accesses come after; an arrival
awaits the reads of CHORD and SMARCH requests that are still to come, which count as the course's loads (R166, R273). JOIN's
place is tested before its guard and its fields: R43, R65 and R66 set no order between them (DESIGN CHOICE, log 16). -/
def execJoin (p : P) (s : State) : Host.Outcome State Fault Refusal :=
  .next (onWord s [] [] fun x =>
    if !(x.iss.off == 1 && x.iss.header.getLsbD 5) then ill s x iPLACE
    else if guarded p then ill s x iGUARD
    else if !fieldsOk p {} then ill s x iFIELD
    else match x.sp.jrec with
      | none => retire s x 2
      | some r =>
        if (alGet x.c.recs r).elim true (fun j => j.addr != x.iss.hdr) then retire s x 2
        else if x.reads then waitHere s x
        else
          let (recs, a) := arrive x.c.recs r x.sp.m x.sp.exec 17
          let x := mergeStores x recs r true a
          match a with
          | .merged m e parent addr =>
            if addr = x.iss.hdr then retire s { x with sp := { x.sp with m := m, exec := e, jrec := parent } } 2
            else exitArrival s x a
          | .gone addr =>
            if staysOn s x a && addr == x.iss.hdr then
              retire s { x with sp := { x.sp with m := 0, exec := 0, jrec := none } } 2
            else exitArrival s x a
          | a => exitArrival s x a)

/-! ## Work queues (R198 to R201) -/

def wqAt (s : State) (q : Nat) : Option WorkQ := s.workqs.find? (fun w => w.num == q)
def setWq (s : State) (w : WorkQ) : State := { s with workqs := putWhere s.workqs (fun v => v.num == w.num) w }

/-- The 16-byte record at a place of the ring, as two doublewords. -/
def wqAddr (w : WorkQ) (i : Nat) : Nat := w.addr + 16 * ((w.head + i) % w.cap)

/-- Pop one record (R47). -/
def wqPop (s : State) (w : WorkQ) : Except MemErr (List Byte × State) := do
  let b ← loadMany s w.owner w.root (wqAddr w 0) 2
  let s := forgetVas s (w.owner, w.root) 8 [wqAddr w 0, wqAddr w 0 + 8]
  .ok (b, setWq s { w with head := (w.head + 1) % w.cap, count := w.count - 1 })

/-- Push one record (R200). -/
def wqPush (s : State) (w : WorkQ) (rec : List Byte) : Except MemErr State := do
  let a := wqAddr w w.count
  let s ← store s w.owner w.root a (rec.take 8)
  let s ← store s w.owner w.root (a + 8) (rec.drop 8)
  .ok (setWq s { w with count := w.count + 1 })

/-- Wake the splits of a consort that sleep in a REFILL of a queue: they execute it again (R47, R357). -/
def wakeCon (q : Nat) (con : Consort) : Consort :=
  { con with courses := con.courses.map fun c => { c with
      splits := c.splits.map fun p => (p.1, if p.2.park = .refill q then { p.2 with park := .ready } else p.2) } }

/-- Wake every REFILL asleep on a queue (R47, R199), those of saved consorts with the others. -/
def wakeRefills (s : State) (q : Nat) : State :=
  { s with consorts := s.consorts.map (wakeCon q), saved := s.saved.map fun v => { v with consort := wakeCon q v.consort } }

/-- The error of uncorrectable data that the word in issue met at an address (R224). -/
def dataError (x : Cur) (va : Nat) : StoreErr :=
  ⟨x.con.cid, x.c.idx, x.spi, x.c.gen, x.c.slot, x.iss.hdr + 4 * x.iss.off, va % 2 ^ 57 / 64 * 64⟩

/-- Note an error of the word in issue, which is reported once its clause is over (R224): one for each line that failed. -/
def noteError (x : Cur) (va : Nat) : Cur :=
  if x.k.storeErrs.contains (dataError x va) then x
  else { x with k := { x.k with storeErrs := x.k.storeErrs ++ [dataError x va] } }

/-- The trap of an access that failed at an address (R110, R213). -/
def memTrap (e : MemErr) (va : Nat) : Nat × DWord := match e with
  | .xlat r => (cXLAT, BitVec.ofNat 64 (r * 2 ^ 60 + va % 2 ^ 57))
  | .mem => (cMEMERR, BitVec.ofNat 64 (va % 2 ^ 57 / 64 * 64))

/-- Lanes of the course that belong to no split, among those a half course never leaves out (R33, R47). -/
def vacant (x : Cur) : List Nat :=
  let taken := x.c.splits.foldl (fun m p => m ||| (if p.1 = x.spi then x.sp.m else p.2.m)) 0
  (List.range x.c.width).filter (fun l => !taken.getLsbD l)

/-- A vacant lane joins the split with four words in a window. -/
def fillLane (x : Cur) (d l : Nat) (word : Nat → LaneVal) : Cur :=
  let bit : Mask := BitVec.ofNat 64 (2 ^ l)
  { x with
    c := (List.range 4).foldl (fun c j => vSet c (d + j) l (word j)) x.c
    sp := { x.sp with m := x.sp.m ||| bit, exec := x.sp.exec ||| bit } }

/-- The addresses of n records of a queue, from the i-th on. -/
def wqSpan (w : WorkQ) (i n : Nat) : List Nat := (List.range n).map fun k => wqAddr w (i + k)

/-- The pops of REFILL, lane by lane (R47). Uncorrectable data of a record poisons its lane as that of LD does, and is
reported by R224 (DESIGN CHOICE, log 10). -/
def refillLanes (q d : Nat) (s : State) (x : Cur) : List Nat → Except (Nat × DWord) (State × Cur)
  | [] => .ok (s, x)
  | l :: ls => match wqAt s q with
    | none => .ok (s, x)
    | some w =>
      if w.count = 0 then .ok (s, x)
      else match wqPop s w with
        | .error (.xlat r) => .error (memTrap (.xlat r) (wqAddr w 0))
        | .error .mem =>
          let s := setWq s { w with head := (w.head + 1) % w.cap, count := w.count - 1 }
          refillLanes q d s (noteError (fillLane x d l fun _ => ⟨0, 7⟩) (wqAddr w 0)) ls
        | .ok (b, s) =>
          refillLanes q d s (fillLane x d l fun j => ⟨BitVec.ofNat 32 (ofBytes ((b.drop (4 * j)).take 4)), 0⟩) ls

/-- R47, R357. REFILL's place is tested first, then its guard, its fields and its window: R47, R65 and R66 set no order between
them (DESIGN CHOICE, log 16). -/
def execRefill (p : P) (s : State) : Host.Outcome State Fault Refusal :=
  .next (onWord s (window p.d.toNat 4) [p.a.toNat] fun x =>
    let sa := sGet x.c p.a.toNat
    let q := sa.toNat % 2 ^ 16
    if !x.iss.header.getLsbD 6 || !refills s x.con then ill s x iPLACE
    else if guarded p then ill s x iGUARD
    else if !fieldsOk p { d := true, a := true } || !isS p.a then ill s x iFIELD
    else if !windowOk x p.d.toNat 4 then ill s x iREGRANGE
    else if x.sp.jrec.isSome then retire s x 2
    else match wqAt s q with
      | none => trap s x cXLAT sa
      | some w =>
        if w.owner ≠ (ctxOf s x.con).1 then trap s x cXLAT sa
        else if waitsPinned s (w.owner, w.root) x.con.cid (wqSpan w 0 (min w.count (vacant x).length)) then waitHere s x
        else match refillLanes q p.d.toNat s x (vacant x) with
          | .error (cause, v) => trap s x cause v
          | .ok (s, x) =>
            let empty := (wqAt s q).elim true (fun w => w.count == 0 && w.isOpen)
            if x.sp.m = 0 ∧ empty then
              sweepDying (freeSlot { x with sp := { x.sp with
                park := .refill q, pc := x.iss.hdr, off := x.iss.off, point := false } } s) x.con.cid
            else retire s x 2)
where
  window (r n : Nat) : List Nat := (List.range n).map (r + ·)

/-- The pushes of WPUSH (R200): which lanes succeeded. A storage write that fails as translation traps; one that meets
uncorrectable data is a store's imprecise error (R201, R224): the record's place is taken, and its bytes stay as they were. -/
def pushLanes (q d : Nat) (s : State) (x : Cur) (ok : Mask) : List Nat → Except (Nat × DWord) (State × Cur × Mask)
  | [] => .ok (s, x, ok)
  | l :: ls => match wqAt s q with
    | none => .ok (s, x, ok)
    | some w =>
      let ok' := ok ||| BitVec.ofNat 64 (2 ^ l)
      if w.isOpen ∧ w.count < w.cap then
        match wqPush s w ((List.range 4).flatMap (fun j => toBytes 4 (vVal x.c (d + j) l).toNat)) with
        | .error (.xlat r) => .error (memTrap (.xlat r) (wqAddr w w.count))
        | .error .mem => pushLanes q d (setWq s { w with count := w.count + 1 }) (noteError x (wqAddr w w.count)) ok' ls
        | .ok s => pushLanes q d s x ok' ls
      else pushLanes q d s x ok ls

/-- R200, R404. -/
def execWpush (p : P) (s : State) : Host.Outcome State Fault Refusal :=
  .next (laneWord s p { d := true, a := true, mod := true } (isS p.a) ((List.range 4).map (p.d.toNat + ·)) [p.a.toNat]
    fun x act =>
      let sa := sGet x.c p.a.toNat
      let q := sa.toNat % 2 ^ 16
      let ls := lanesOf act x.c.width
      if !windowOk x p.d.toNat 4 then ill s x iREGRANGE
      else match wqAt s q with
        | none => trap s x cXLAT sa
        | some w =>
          if w.owner ≠ (ctxOf s x.con).1 then trap s x cXLAT sa
          else match poison? (ls.map (fun l => (l, firstTag ((List.range 4).map (fun j => (j, (vGet x.c (p.d.toNat + j) l).tag)))))) with
            | some v => trap s x cPOISON v
            | none =>
              if waitsPinned s (w.owner, w.root) x.con.cid (wqSpan w w.count ls.length) then waitHere s x
              else match pushLanes q p.d.toNat s x 0 ls with
              | .error (cause, v) => trap s x cause v
              | .ok (s', x, ok) => wakeRefills (retire s' { x with c := pSet x.c p.mod.toNat act ok } 2) q)

/-- R222, R304. -/
def execChk (p : P) (fn : BitVec 4) (s : State) : Host.Outcome State Fault Refusal :=
  let n := fn.toNat + 1
  .next (laneWord s p { a := true } true ((List.range n).map (p.a.toNat + ·)) [] fun x act =>
    if !windowOk x p.a.toNat n then ill s x iREGRANGE
    else
      let tags := (lanesOf act x.c.width).map (fun l => (l, firstTag ((List.range n).map (fun j => (j, (vGet x.c (p.a.toNat + j) l).tag)))))
      match poison? tags with
      | some v => trap s x cPOISON v
      | none => retire s x 2)

end Sys2Proof.Machine
end

