-- ==== Sys2Proof/Machine/Memory.lean ====
section
/-! DEFINITION. Loads, stores and atomics of lanes and of the course, and FENCE
(R37, R38, R110 to R127, R224, R288 to R293, R313, R327 to R332, R370 to R372). -/

namespace Sys2Proof.Machine

/-! ## Long-latency instructions (R37) -/

/-- The opcodes of the long-latency instructions: LDT, LDS and its kin, LD, LDSP, ATOM, ATOMS, CHORD and SMARCH (R37). -/
def longOps : List Nat := [0x5E, 0x60, 0x62, 0x64, 0x66, 0x67, 0x77, 0x78]

/-- A word with no active lane is over; a long-latency one sets no flag, and still counts towards the first and second of
its clause (R37, R217). -/
def passWord (s : State) (x : Cur) : State :=
  let long := longOps.contains ((x.iss.words.getD (x.iss.off - 1) 0).extractLsb' 25 7).toNat
  retire s { x with iss := { x.iss with ll := x.iss.ll + (if long then 1 else 0) } } 2

/-- The completion flag that the clause's next long-latency instruction sets, if one is named. -/
def flagFor (x : Cur) : Option Nat :=
  let h := x.iss.header.toNat
  let f := match x.iss.ll with
    | 0 => bits h 11 4
    | 1 => bits h 7 4
    | _ => 15
  if f < 12 then some f else none

/-- A pending write with nothing in it. -/
def pendInit : PendWrite :=
  { id := 0, split := 0, flags := [], vregs := [], sregs := [], lanes := [], scalars := [], fl := 0, push := none, turn := 0, reqs := 0
    holds := false, skip := [], record := none }

/-- Begin a long-latency instruction: its flag is set and the next word follows; with no flag named it holds the
slot at its own word until its writes have landed. -/
def beginLong (s : State) (x : Cur) (p : PendWrite) : State :=
  let fl := flagFor x
  let p := { p with id := x.c.nextId, split := x.spi, flags := fl.toList, turn := pushTurn x, holds := fl.isNone }
  let x := { x with
    c := { x.c with pend := x.c.pend ++ [p], nextId := x.c.nextId + 1 }
    iss := { x.iss with ll := x.iss.ll + 1 } }
  if fl.isNone then waitHere s x else retire s x 2

/-- Lanes to write when the data lands: a register, a pair, or the entries of a queue (R378). -/
def pendLanes (p : PendWrite) (width d w : Nat) (outs : List (Nat × Nat × Byte)) : PendWrite :=
  let lane := fun (v : Nat) (t : Byte) => (⟨if t = 0 then BitVec.ofNat 32 v else 0, t⟩ : LaneVal)
  if 248 ≤ d then { p with push := some (d - 248, queueEntries width (outs.map fun o => (o.1, lane o.2.1 o.2.2))) }
  else { p with
    vregs := if w = 64 then [d, d + 1] else [d]
    lanes := outs.map (fun o => (d * 64 + o.1, lane o.2.1 o.2.2)) ++
      (if w = 64 then outs.map (fun o => ((d + 1) * 64 + o.1, lane (o.2.1 / 2 ^ 32) o.2.2)) else []) }

/-! ## Lane accesses -/

/-- One lane's access: its address and the poison of its offset. -/
structure LaneAcc where
  lane : Nat
  va : Nat
  tag : Byte
  deriving DecidableEq, Repr

/-- The 32-bit offset or coordinate operand B (R327, R333). -/
def offLane (x : Cur) (p : P) (l : Nat) : Nat × Byte :=
  match p.bk.toNat with
  | 0 => srcVal x 32 p.b.toNat l
  | 1 => ((sGet x.c (p.b.toNat % 64)).toNat % 2 ^ 32, 0)
  | _ => (imm16 p, 0)

def laneAccs (x : Cur) (p : P) (ls : List Nat) : List LaneAcc :=
  ls.map fun l =>
    let o := offLane x p l
    ⟨l, ((sGet x.c (p.a.toNat % 64)).toNat + o.1) % 2 ^ 64, o.2⟩

/-- The precise traps of an access, in their order (R329, R371, R290): POISON from the tags given, ALIGN, XLAT. -/
def accessTrap (s : State) (ctx : Nat × Nat) (a : Acc) (n : Nat) (tags : List (Nat × Byte)) (accs : List LaneAcc) :
    Option (Nat × DWord) :=
  match poison? tags with
  | some v => some (cPOISON, v)
  | none => match accs.find? (fun c => c.va % n != 0) with
    | some c => some (cALIGN, BitVec.ofNat 64 c.va)
    | none => accs.findSome? fun c => match translate s ctx.1 ctx.2 a c.va with
      | .error e => some (memTrap e c.va)
      | .ok _ => none

/-- Note the translations that accesses used (R111). -/
def noteAll (s : State) (ctx : Nat × Nat) (vas : List Nat) : State := vas.foldl (fun s va => tlbNote s ctx.1 ctx.2 va) s

/-- The course of the word in issue as a reader. -/
def Cur.reader (x : Cur) : Reader := .course x.con.cid x.c.idx

/-- Loads of n bytes of the course: the translations that they used, and the writes that they found done. -/
def noteLoads (s : State) (ctx : Nat × Nat) (x : Cur) (n : Nat) (vas : List Nat) : State :=
  noteAll (sawVas s x.reader ctx n vas) ctx vas

/-- The memory lines that accesses reach. -/
def linesOf (s : State) (ctx : Nat × Nat) (vas : List Nat) : List Nat :=
  (vas.filterMap (lineOfVirt s ctx.1 ctx.2)).eraseDups

/-- The form of a memory instruction: the types, the registers that hold data, and a limit on X3. -/
def memForm (p : P) (tys : List Nat) (bks : List Nat) (data : List Nat) (w x3 : Nat) (useC other : Bool) : Form :=
  { tys := tys, rm := false, sat := false, mods := 0, bks := bks, x3 := decide (x3 ≠ 0), useA := true, useB := true, useC := useC
    other := isS p.a && (decide (x3 = 0) || decide (p.x3.toNat < x3)) && other
    regs := data.map (fun r => (r, w)) ++ (if p.bk = 0 then [(p.b.toNat, 32)] else []) }

/-- Scalar registers that a lane access reads. -/
def memScalars (p : P) : List Nat := p.a.toNat :: (if p.bk = 1 then [p.b.toNat] else [])

/-- A lane-class word that accesses memory or a tile: nothing without an active lane, the form, and the queues. -/
def accessWord (s : State) (p : P) (f : Form) (sregs reads : List Nat) (dst : Option Nat) (k : Cur → List Nat → State) : State :=
  onWord s (vregsOf f.regs) sregs fun x =>
    let act := active x p
    if act = 0 then passWord s x
    else match formErr s x p f with
      | some sub => ill s x sub
      | none => if !queuesReady x reads dst then waitHere s x else k x (lanesOf act x.c.width)

/-- Registers that B reads. -/
def offReads (p : P) : List Nat := if p.bk = 0 then [p.b.toNat] else []

/-- Pop the source queues of a word. -/
def popFor (x : Cur) (reads : List Nat) : Cur := { x with con := popQueues x.con (qWidth x.c) reads }

/-- What a load of n bytes gives a 32-bit lane: i types extend by sign (R328). -/
def loaded (ty : Nat) (bs : List Byte) : Nat :=
  let v := ofBytes bs
  if tySigned ty ∧ tyBits ty < 32 then wrapTo 32 (signedOf (tyBits ty) v) else v

/-- R327 to R330. -/
def execLd (p : P) (s : State) : Host.Outcome State Fault Refusal :=
  let ty := p.ty.toNat
  let n := tyBits ty / 8
  let w := if tyBits ty = 64 then 64 else 32
  .next (accessWord s p (memForm p (List.range 8) [0, 1, 2] [p.d.toNat] w 4 false true) (memScalars p) (offReads p) (some p.d.toNat) fun x ls =>
    let ctx := ctxOf s x.con
    let accs := laneAccs x p ls
    let vas := accs.map (·.va)
    match accessTrap s ctx .read n (accs.map fun c => (c.lane, c.tag)) accs with
    | some (cause, v) => trap s x cause v
    | none =>
      if waitsPinned s ctx x.con.cid vas then waitHere s x
      else
        let got := accs.map fun c => (c, loadSeen s x.reader ctx.1 ctx.2 c.va n)
        let outs := got.map fun g => match g.2 with
          | .ok b => (g.1.lane, loaded ty b, (0 : Byte))
          | .error _ => (g.1.lane, 0, 7)
        let bad := got.find? fun g => match g.2 with
          | .ok _ => false
          | .error _ => true
        beginLong (noteLoads s ctx x n vas) (popFor x (offReads p))
          { pendLanes pendInit x.c.width p.d.toNat w outs with record := bad.map fun g => dataError x g.1.va })

/-- What one lane of LDSP gets: its data, or a reason (R332). -/
def specLane (s : State) (r : Reader) (ctx : Nat × Nat) (ty n : Nat) (c : LaneAcc) : Nat × Nat × Byte :=
  if c.tag ≠ 0 then (c.lane, 0, c.tag)
  else if c.va % n ≠ 0 then (c.lane, 0, 8)
  else match loadSeen s r ctx.1 ctx.2 c.va n with
    | .ok b => (c.lane, loaded ty b, 0)
    | .error (.xlat r) => (c.lane, 0, BitVec.ofNat 8 r)
    | .error .mem => (c.lane, 0, 7)

/-- R332: every failure of a lane goes into its tag. -/
def execLdsp (p : P) (s : State) : Host.Outcome State Fault Refusal :=
  let ty := p.ty.toNat
  let n := tyBits ty / 8
  let w := if tyBits ty = 64 then 64 else 32
  .next (accessWord s p (memForm p (List.range 8) [0, 1, 2] [p.d.toNat] w 4 false (decide (p.d.toNat < 248)))
      (memScalars p) (offReads p) (some p.d.toNat) fun x ls =>
    let ctx := ctxOf s x.con
    let accs := laneAccs x p ls
    let vas := (accs.filter fun c => c.tag == 0 && c.va % n == 0).map (·.va)
    if waitsPinned s ctx x.con.cid vas then waitHere s x
    else
      let outs := accs.map fun c => specLane s x.reader ctx ty n c
      beginLong (noteLoads s ctx x n vas) (popFor x (offReads p)) (pendLanes pendInit x.c.width p.d.toNat w outs))

/-! ## Stores -/

/-- An order of a list that no index decides (R113); a single element needs no choice. -/
def shuffle {α : Type} (f : Nat → Nat) : Nat → List α → List α
  | 0, l => l
  | n + 1, l =>
    if l.length ≤ 1 then l
    else match l[f n % l.length]? with
      | some a => a :: shuffle f n (l.eraseIdx (f n % l.length))
      | none => l

/-- The location that an address reaches, in the module's memory or the host's. -/
def placeKey (s : State) (ctx : Nat × Nat) (va : Nat) : Nat := match translate s ctx.1 ctx.2 .write va with
  | .ok l => 2 * (l.frame + va % 4096) + (if l.host then 1 else 0)
  | .error _ => 0

/-- Group by location, each group in a free order (R113). -/
def byPlace {α : Type} (tick : Nat) (key : α → Nat) (l : List α) : List (List α) :=
  (l.map key).eraseDups.map fun k => let g := l.filter (fun a => key a == k); shuffle (Config.laneChoice tick) g.length g

/-- One store of a course, translated as things stood at the word (t). A memory error leaves it unmade and is found
later (R224). A store of policy 2 or 3 bypasses the L1 data cache, so no pin concerns it (R106, R126). -/
def storeOne (t : State) (ctx : Nat × Nat) (s : State) (x : Cur) (policy va : Nat) (bs : List Byte) : State × Cur :=
  match (translate t ctx.1 ctx.2 .write va).bind (storeSeen s ctx.1 x.con.cid x.c.idx [] · va bs) with
  | .ok s' => (s', if policy < 2 then { x with k := markDirty x.k x.con.cid x.c.idx x.sp.m x.spi (linesOf t ctx [va]) } else x)
  | .error _ => (s, noteError x va)

/-- R370, R371. -/
def execSt (p : P) (s : State) : Host.Outcome State Fault Refusal :=
  let ty := p.ty.toNat
  let n := tyBits ty / 8
  let w := if tyBits ty = 64 then 64 else 32
  let reads := p.d.toNat :: offReads p
  .next (accessWord s p (memForm p (List.range 8) [0, 1, 2] [p.d.toNat] w 4 false true) (memScalars p) reads none fun x ls =>
    let ctx := ctxOf s x.con
    let accs := laneAccs x p ls
    let vas := accs.map (·.va)
    let data := fun l => srcVal x w p.d.toNat l
    match accessTrap s ctx .write n (accs.map fun c => (c.lane, firstTag [(p.b.toNat, c.tag), (p.d.toNat, (data c.lane).2)])) accs with
    | some (cause, v) => trap s x cause v
    | none =>
      if waitsPinned s ctx x.con.cid vas then waitHere s x
      else
        let winners := (byPlace s.tick (fun c => placeKey s ctx c.va) accs).filterMap List.head?
        let (s', x') := winners.foldl (fun a c => storeOne s ctx a.1 a.2 p.x3.toNat c.va (toBytes n (data c.lane).1)) (noteAll s ctx vas, x)
        retire s' (popFor x' reads) 2)

/-! ## Course accesses -/

/-- The address of a course access (R331). -/
def courseAddr (x : Cur) (p : P) : Nat :=
  ((sGet x.c (p.a.toNat % 64)).toNat + (if p.bk = 1 then (sGet x.c (p.b.toNat % 64)).toNat % 2 ^ 32 else imm16 p)) % 2 ^ 64

/-- A course access: guard and fields, then ALIGN, XLAT, and a pinned line. -/
def courseAccess (s : State) (p : P) (f : Free) (legal : Bool) (sregs : List Nat) (addr : Cur → Nat) (n : Nat) (a : Acc)
    (k : Cur → Nat × Nat → Nat → State) : State :=
  courseWord s p f legal sregs fun x =>
    let ctx := ctxOf s x.con
    let va := addr x
    match accessTrap s ctx a n [] [⟨0, va, 0⟩] with
    | some (cause, v) => trap s x cause v
    | none => if waitsPinned s ctx x.con.cid [va] then waitHere s x else k x ctx va

def courseLegal (p : P) : Bool :=
  decide (p.ty.toNat < 8) && decide (p.x3.toNat < 4) && isS p.d && isS p.a && ((p.bk == 1 && isS p.b) || p.bk == 2)

def courseFree (p : P) : Free := { d := true, a := true, b := true, c := p.bk == 2, ty := true, bk := true, x3 := true }

/-- R331. -/
def execLds (p : P) (s : State) : Host.Outcome State Fault Refusal :=
  let ty := p.ty.toNat
  let n := tyBits ty / 8
  .next (courseAccess s p (courseFree p) (courseLegal p) (p.d.toNat :: memScalars p) (fun x => courseAddr x p) n .read fun x ctx va =>
    let s' := noteLoads s ctx x n [va]
    match loadSeen s x.reader ctx.1 ctx.2 va n with
    | .ok b =>
      let v := if tySigned ty then wrapTo 64 (signedOf (8 * n) (ofBytes b)) else ofBytes b
      beginLong s' x { pendInit with sregs := [p.d.toNat], scalars := [(p.d.toNat, BitVec.ofNat 64 v)] }
    | .error _ => beginLong s' x { pendInit with sregs := [p.d.toNat], record := some (dataError x va) })

/-- R372. -/
def execSts (p : P) (s : State) : Host.Outcome State Fault Refusal :=
  let n := tyBits p.ty.toNat / 8
  .next (courseAccess s p (courseFree p) (courseLegal p) (p.d.toNat :: memScalars p) (fun x => courseAddr x p) n .write fun x ctx va =>
    let (s', x') := storeOne s ctx (noteAll s ctx [va]) x p.x3.toNat va (toBytes n (sGet x.c p.d.toNat).toNat)
    retire s' x' 2)

/-! ## Atomics -/

/-- What an atomic writes (R289), and the flags that FADD raises. -/
def atomNew (ty fn : Nat) (rm : Rm) (m d : Nat) : Nat × Flags :=
  let w := tyBits ty
  match fn with
  | 0 => ((m + d) % 2 ^ w, 0)
  | 1 => (if intOf ty d < intOf ty m then d else m, 0)
  | 2 => (if intOf ty m < intOf ty d then d else m, 0)
  | 3 => (min m d, 0)
  | 4 => (max m d, 0)
  | 5 => (m &&& d, 0)
  | 6 => (m ||| d, 0)
  | 7 => (m ^^^ d, 0)
  | 10 => fAdd fmtF32 rm false m d
  | _ => (d, 0)

/-- The agents towards which an atomic of a scope is indivisible, beside its own course (R124). -/
def atomWhole (s : State) (con : Consort) (scope : Nat) : List Inst := if scope = 0 then [] else [instOf s con scope]

/-- One atomic access of a course, translated as things stood at the word (t): the old value, or none for uncorrectable
data; flags; whether it wrote. Where it finds what a write replaced, it comes before that write (R121, R124). -/
def atomOne (t s : State) (con : Consort) (ci : Nat) (ctx : Nat × Nat) (scope ty fn : Nat) (rm : Rm) (va d e : Nat) :
    State × Option (Nat × Flags × Bool) :=
  let n := tyBits ty / 8
  match translate t ctx.1 ctx.2 .write va with
  | .error _ => (s, none)
  | .ok l => match loadFound s (.writer con.cid ci) l va n with
    | .error _ => (s, none)
    | .ok b =>
      let m := ofBytes b
      if fn = 9 ∧ m ≠ e then ((spotOf s l va).elim s fun p => noteSeen s (.writer con.cid ci) p.1 p.2 n, some (m, 0, false))
      else
        let r := atomNew ty fn rm m d
        match storeSeen s ctx.1 con.cid ci (atomWhole s con scope) l va (toBytes n r.1) with
        | .ok s' => (s', some (m, r.2, true))
        | .error _ => (s, none)

/-- The types that an atomic takes (R288). -/
def atomTys (fn : Nat) : List Nat := if fn = 10 then [10] else setW

/-- Atomics of course and consort scope stay in L1, so their lines can be pinned (R126). -/
def atomDirty (s : State) (x : Cur) (p : P) (ctx : Nat × Nat) (vas : List Nat) : Cur :=
  if p.x3.toNat ≤ 1 then { x with k := markDirty x.k x.con.cid x.c.idx x.sp.m x.spi (linesOf s ctx vas) } else x

/-- R288 to R291. -/
def execAtom (p : P) (fn : BitVec 4) (s : State) : Host.Outcome State Fault Refusal :=
  let ty := p.ty.toNat
  let w := tyBits ty
  let fn := fn.toNat
  let f := { memForm p (atomTys fn) [0, 1] [p.d.toNat, p.c.toNat] w 6 true true with rm := decide (fn = 10) }
  let reads := p.c.toNat :: offReads p ++ (if fn = 9 then [p.d.toNat] else [])
  .next (accessWord s p f (memScalars p) reads (some p.d.toNat) fun x ls =>
    let ctx := ctxOf s x.con
    let accs := laneAccs x p ls
    let vas := accs.map (·.va)
    let data := fun l => srcVal x w p.c.toNat l
    let expd := fun l => if fn = 9 then srcVal x w p.d.toNat l else (0, 0)
    let tag := fun (c : LaneAcc) => firstTag ((if p.bk = 0 then [(p.b.toNat, c.tag)] else []) ++
      [(p.c.toNat, (data c.lane).2), (p.d.toNat, (expd c.lane).2)])
    match accessTrap s ctx .write (w / 8) (accs.map fun c => (c.lane, tag c)) accs with
    | some (cause, v) => trap s x cause v
    | none =>
      if waitsPinned s ctx x.con.cid vas then waitHere s x
      else
        let step := fun (a : State × List (LaneAcc × Option (Nat × Flags × Bool))) (c : LaneAcc) =>
          let r := atomOne s a.1 x.con x.c.idx ctx p.x3.toNat ty fn (rmOf x.c p.rm.toNat) c.va (data c.lane).1 (expd c.lane).1
          (r.1, a.2 ++ [(c, r.2)])
        let (s', got) := (byPlace s.tick (fun c => placeKey s ctx c.va) accs).flatten.foldl step (noteAll s ctx vas, [])
        let outs := got.map fun g => match g.2 with
          | some r => (g.1.lane, r.1, (0 : Byte))
          | none => (g.1.lane, 0, 7)
        let fl := got.foldl (fun f g => f ||| g.2.elim 0 (·.2.1)) 0
        let bad := got.find? fun g => g.2.isNone
        let wrote := (got.filter fun g => g.2.elim false (·.2.2)).map (·.1.va)
        beginLong s' (popFor (atomDirty s' x p ctx wrote) reads)
          { pendLanes pendInit x.c.width p.d.toNat w outs with fl := fl, record := bad.map fun g => dataError x g.1.va })

/-- R292, R293. -/
def execAtoms (p : P) (fn : BitVec 4) (s : State) : Host.Outcome State Fault Refusal :=
  let ty := p.ty.toNat
  let w := tyBits ty
  let fn := fn.toNat
  let legal := (atomTys fn).contains ty && decide (p.x3.toNat < 6) && isS p.d && isS p.a &&
    ((p.bk == 1 && isS p.b && (if fn = 9 then isS p.c else p.c == 0)) || (p.bk == 2 && decide (fn ≠ 9 ∧ fn ≠ 10))) &&
    (decide (p.rm.toNat ≠ 5 ∧ p.rm.toNat ≠ 6))
  .next (courseAccess s p { d := true, a := true, b := true, c := true, ty := true, rm := decide (fn = 10), bk := true, x3 := true } legal
      (p.d.toNat :: memScalars p ++ (if fn = 9 then [p.c.toNat] else [])) (fun x => (sGet x.c (p.a.toNat % 64)).toNat) (w / 8) .write
      fun x ctx va =>
    let d := (if p.bk = 1 then (sGet x.c (p.b.toNat % 64)).toNat
      else if tySigned ty then wrapTo 64 (signedOf 16 (imm16 p)) else imm16 p) % 2 ^ w
    let e := (sGet x.c (p.c.toNat % 64)).toNat % 2 ^ w
    let (s', r) := atomOne s (noteAll s ctx [va]) x.con x.c.idx ctx p.x3.toNat ty fn (rmOf x.c p.rm.toNat) va d e
    match r with
    | none => beginLong s' x { pendInit with sregs := [p.d.toNat], record := some (dataError x va) }
    | some (m, fl, wrote) =>
      let v := if w = 32 ∧ tySigned ty then wrapTo 64 (signedOf 32 m) else m
      beginLong s' (if wrote then atomDirty s' x p ctx [va] else x)
        { pendInit with sregs := [p.d.toNat], scalars := [(p.d.toNat, BitVec.ofNat 64 v)], fl := fl })

/-! ## FENCE -/

/-- A release by a course (R126, R127): of a narrow scope it pins the lines of its stores, of a wider one it ends
the consort's pins. -/
def release (now : Nat) (x : Cur) (scope : Nat) : Cur :=
  { x with k := if scope ≤ 1 then pinCourse now x.con.cid x.c.idx x.sp.m x.spi x.k else unpin now x.con.cid x.k }

/-- R118, R119, R313. Loads are bound at their own words, but the reads of CHORD and SMARCH requests come later: a fence with
load before it awaits them. With store before it, what the course has stored, and what is ordered before its accesses, is seen
from then on by the agents of its scope. -/
def execFence (p : P) (s : State) : Host.Outcome State Fault Refusal :=
  let pred := p.a.toNat % 16
  let scope := p.x3.toNat
  .next (courseWord s p { a := true, x3 := true } (decide (pred ≠ 0 ∧ 16 ≤ p.a.toNat ∧ p.x3.toNat < 6)) [] fun x =>
    if pred.testBit 0 && x.reads then waitHere s x
    else if pred.testBit 1 then
      retire (if scope = 0 then s else releaseTo s (instOf s x.con scope) x.con.cid x.c.idx) (release s.cycles x scope) 2
    else retire s x 2)

end Sys2Proof.Machine
end

