-- ==== Sys2Proof/Machine/Tile.lean ====
section
/-! DEFINITION. Tile memory and the tile table (R92 to R98), and the lanes' way to them
(R100 to R102, R333, R334, R373 to R375). -/

namespace Sys2Proof.Machine

/-! ## Tiles -/

/-- Row pitch in bytes (R92). -/
def pitchOf (ty cols : Nat) : Nat := ((cols * tyBits ty + 7) / 8 + 15) / 16 * 16

/-- Granules that a tile takes (R92). -/
def granulesOf (rows cols ty : Nat) : Nat := (rows * pitchOf ty cols + 4095) / 4096

/-- Address in tile memory of a tile's first byte. -/
def tileAddr (t : TileEnt) : Nat := t.grp * 131072 + t.base * 4096

/-- The entry of a handle with V = 1. -/
def tileAt (con : Consort) (h : Nat) : Option TileEnt := (alGet con.tiles h).filter (·.v)

/-- The byte of an element, and its first bit in it (R77, R92). -/
def elemPos (t : TileEnt) (r c : Nat) : Nat × Nat :=
  let b := c * tyBits t.ty
  (tileAddr t + r * pitchOf t.ty t.cols + b / 8, b % 8)

/-- An element's bits. -/
def tileRead (con : Consort) (t : TileEnt) (r c : Nat) : Nat :=
  let (a, b) := elemPos t r c
  let w := tyBits t.ty
  if w < 8 then bits (smGet 0 con.tmem a).toNat b w
  else ofBytes ((List.range (w / 8)).map fun i => smGet 0 con.tmem (a + i))

/-- Write an element; a sub-byte one leaves the rest of its byte (R77, R373). -/
def tileWrite (con : Consort) (t : TileEnt) (r c v : Nat) : Consort :=
  let (a, b) := elemPos t r c
  let w := tyBits t.ty
  let cells := if w < 8 then
      let old := (smGet 0 con.tmem a).toNat
      [(a, BitVec.ofNat 8 (old - bits old b w * 2 ^ b + v % 2 ^ w * 2 ^ b))]
    else (List.range (w / 8)).map fun i => (a + i, byteAt v i)
  { con with tmem := smSets 0 con.tmem cells }

/-- Is a granule of a group taken by a tile? -/
def granTaken (con : Consort) (g i : Nat) : Bool :=
  con.tiles.any fun t => t.2.v && t.2.grp == g && decide (t.2.base ≤ i ∧ i < t.2.base + t.2.ngr)

/-- The lowest granule of the first free run of n granules in a group's reservation (R97). -/
def freeRun (con : Consort) (g n : Nat) : Option Nat :=
  let (start, len) := con.resv.getD g (0, 0)
  ((List.range len).map (start + ·)).find? fun b =>
    decide (b + n ≤ start + len) && (List.range n).all fun i => !granTaken con g (b + i)

/-- A descriptor as TALLOC takes it (R96): GRP resolved to the tile's group. -/
def tileDesc (t : TileEnt) : Nat :=
  (if t.lvl then 2 ^ 20 else 0) + t.grp * 2 ^ 16 + (t.cols - 1) * 2 ^ 8 + (t.rows - 1)

/-- TRAPV of OWNER (R96). -/
def ownerValue (sub h : Nat) : DWord := BitVec.ofNat 64 (h * 256 + sub)

def oLIVE : Nat := 1
def oDEAD : Nat := 2
def oLANES : Nat := 3
def oENGINES : Nat := 4
def oSPACE : Nat := 5
def oFROZEN : Nat := 6

def owner (s : State) (x : Cur) (sub h : Nat) : State := trap s x cOWNER (ownerValue sub h)

/-- R96, R97, R374. -/
def execTalloc (p : P) (s : State) : Host.Outcome State Fault Refusal :=
  let h := p.d.toNat
  .next (courseWord s p { d := true, a := true, ty := true } (isS p.d && isS p.a) [p.a.toNat] fun x =>
    let v := (sGet x.c p.a.toNat).toNat
    let grp := bits v 16 4
    let rows := bits v 0 7 + 1
    let cols := bits v 8 7 + 1
    let n := granulesOf rows cols p.ty.toNat
    if v / 2 ^ 21 ≠ 0 ∨ v.testBit 15 ∨ v.testBit 7 ∨ 8 < grp then ill s x iFIELD
    else if kdByte (launchOf s x.con) 19 ≤ h then ill s x iREGRANGE
    else if (tileAt x.con h).isSome then owner s x oLIVE h
    else
      let place := if grp = 8 then (List.range 8).findSome? fun g => (freeRun x.con g n).map fun b => (g, b)
        else (freeRun x.con grp n).map fun b => (grp, b)
      match place with
      | none => owner s x oSPACE h
      | some (g, b) =>
        let t : TileEnt := ⟨true, p.ty.toNat, rows, cols, g, b, n, v.testBit 20, false, false⟩
        let lo := tileAddr t
        let con := { x.con with
          tiles := alSet x.con.tiles h t
          tmem := x.con.tmem.filter fun c => !(decide (lo ≤ c.1 ∧ c.1 < lo + n * 4096)) }
        retire s { x with con := con } 2)

/-- A word that names one tile in D and nothing else (R375 to R377). -/
def tileWord (s : State) (p : P) (k : Cur → Nat → TileEnt → State) : State :=
  courseWord s p { d := true } (isS p.d) [] fun x => match tileAt x.con p.d.toNat with
    | none => owner s x oDEAD p.d.toNat
    | some t => k x p.d.toNat t

/-! ## Lanes and tiles -/

/-- A coordinate word: row and column, or none when it is out of range (R333, R334). -/
def coordOf (t : TileEnt) (v : Nat) : Option (Nat × Nat) :=
  let r := bits v 8 7
  let c := bits v 0 7
  if v / 2 ^ 15 ≠ 0 ∨ v.testBit 7 ∨ t.rows ≤ r ∨ t.cols ≤ c then none else some (r, c)

/-- The tile checks of LDT and STT in order (R334, R373), then the lanes with their elements. -/
def tileAccess (s : State) (p : P) (reads : List Nat) (dst : Option Nat) (write : Bool) (tag : Cur → Nat → Byte)
    (k : Cur → TileEnt → List (Nat × Nat × Nat) → State) : State :=
  let ty := p.ty.toNat
  let w := if tyBits ty = 64 then 64 else 32
  accessWord s p (memForm p (List.range 15) [0, 1, 2] [p.d.toNat] w 0 false true) (if p.bk = 1 then [p.b.toNat] else []) reads dst fun x ls =>
    let h := p.a.toNat
    match tileAt x.con h with
    | none => owner s x oDEAD h
    | some t =>
      if t.own then owner s x oLANES h
      else if t.ty ≠ ty then ill s x iFIELD
      else if write && t.frz then owner s x oFROZEN h
      else match poison? (ls.map fun l => (l, firstTag [(p.b.toNat, (offLane x p l).2), (p.d.toNat, tag x l)])) with
        | some v => trap s x cPOISON v
        | none => match ls.find? fun l => (coordOf t (offLane x p l).1).isNone with
          | some l => trap s x cXLAT (BitVec.ofNat 64 (rRange * 2 ^ 60 + (offLane x p l).1))
          | none => k x t (ls.map fun l => (l, (coordOf t (offLane x p l).1).getD (0, 0)))

/-- R333, R334. -/
def execLdt (p : P) (s : State) : Host.Outcome State Fault Refusal :=
  let ty := p.ty.toNat
  let w := if tyBits ty = 64 then 64 else 32
  .next (tileAccess s p (offReads p) (some p.d.toNat) false (fun _ _ => 0) fun x t ls =>
    let ext := fun (v : Nat) => if ty ≤ 2 then wrapTo 32 (signedOf (tyBits ty) v) else v
    beginLong s (popFor x (offReads p))
      (pendLanes pendInit x.c.width p.d.toNat w (ls.map fun l => (l.1, ext (tileRead x.con t l.2.1 l.2.2), 0))))

/-- R373: of lanes that write one element, one wins (R370). -/
def execStt (p : P) (s : State) : Host.Outcome State Fault Refusal :=
  let w := if tyBits p.ty.toNat = 64 then 64 else 32
  let reads := p.d.toNat :: offReads p
  .next (tileAccess s p reads none true (fun x l => (srcVal x w p.d.toNat l).2) fun x t ls =>
    let winners := (byPlace s.tick (fun l : Nat × Nat × Nat => l.2.1 * 128 + l.2.2) ls).filterMap List.head?
    let con := winners.foldl (fun con l => tileWrite con t l.2.1 l.2.2 (srcVal x w p.d.toNat l.1).1) x.con
    retire s (popFor { x with con := con } reads) 2)

end Sys2Proof.Machine
end

