-- ==== Sys2Proof/Machine/EngineOps.lean ====
section
/-! DEFINITION. What engine commands are, how they are checked and queued, what they wait for, and what an etch
records of them (R100, R103, R132 to R142, R145, R147 to R153, R181 to R183, R345 to R350, R406, R407). -/

namespace Sys2Proof.Machine

/-! ## Copy templates (R135, R137) -/

abbrev Tpl := BitVec 512

def Tpl.f (t : Tpl) (lo n : Nat) : Nat := bits t.toNat lo n
def Tpl.kind (t : Tpl) : Nat := Tpl.f t 0 3
def Tpl.ty (t : Tpl) : Nat := Tpl.f t 8 4
def Tpl.red (t : Tpl) : Bool := t.getLsbD 16
def Tpl.step (t : Tpl) : Bool := t.getLsbD 17
def Tpl.zfill (t : Tpl) : Bool := t.getLsbD 18
def Tpl.ndim (t : Tpl) : Nat := Tpl.f t 24 2
def Tpl.e (t : Tpl) (i : Nat) : Nat := Tpl.f t (64 + 32 * i) 32
def Tpl.s (t : Tpl) (i : Nat) : Int := signedOf 64 (Tpl.f t (192 + 64 * i) 64)

/-- A valid image (R137). -/
def Tpl.valid (t : Tpl) : Bool :=
  let k := Tpl.kind t
  let w := tyBits (Tpl.ty t)
  let dim := fun i => decide (1 ≤ Tpl.e t i ∧ Tpl.e t i ≤ 128)
  let unused := fun i => decide (i < Tpl.ndim t) || (Tpl.e t i == 1 && (Tpl.s t i == 0 || (k == 3 && i == 2)))
  Tpl.f t 384 128 == 0 && Tpl.f t 160 32 == 0 && Tpl.f t 26 38 == 0 && Tpl.f t 19 5 == 0 && Tpl.f t 12 4 == 0 && Tpl.f t 3 5 == 0 &&
  decide (k ≤ 4) && Tpl.ndim t != 0 && dim 0 && dim 1 && dim 2 && unused 1 && unused 2 && decide (Tpl.e t 1 * Tpl.e t 2 ≤ 128) &&
  (!Tpl.red t || ((Tpl.ty t == 10 || Tpl.ty t == 9 || Tpl.ty t == 2) && decide (k ≤ 2))) &&
  (!Tpl.zfill t || decide (k ≤ 1)) &&
  (decide (8 ≤ w) || (Tpl.s t 0 == 0 && Tpl.e t 0 % (8 / w) == 0)) &&
  (k != 3 || (Tpl.ndim t == 2 && Tpl.e t 2 == 1 && [0, 4, 8, 9, 12, 13].contains (Tpl.ty t) && Tpl.e t 0 % 4 == 0 &&
    Tpl.s t 0 == (w / 8 : Nat))) &&
  (k != 4 || (Tpl.ndim t == 2 && Tpl.e t 2 == 1 && Tpl.e t 0 % 32 == 0 && Tpl.e t 1 % 32 == 0 && decide (8 ≤ w) &&
    Tpl.s t 0 == 0 && Tpl.s t 1 == 0 && Tpl.s t 2 == 0))

/-! ## Checks at issue -/

/-- A check answers a cause and its TRAPV. -/
abbrev Chk (α : Type) := Except (Nat × DWord) α

def cill (sub : Nat) : Nat × DWord := (cILL, BitVec.ofNat 64 sub)
def cowner (sub h : Nat) : Nat × DWord := (cOWNER, ownerValue sub h)

def need (b : Bool) (t : Nat × DWord) : Chk Unit := if b then .ok () else .error t

/-- OWNER DEAD for each named tile, then OWNER ENGINES, in order (R345, R406). -/
def ownedTiles (con : Consort) (hs : List Nat) : Chk (List TileEnt) := do
  match hs.find? fun h => (tileAt con h).isNone with
  | some h => .error (cowner oDEAD h)
  | none => match hs.find? fun h => (tileAt con h).elim false fun t => !t.own with
    | some h => .error (cowner oENGINES h)
    | none => .ok (hs.filterMap (tileAt con))

/-- A command as planned by its checks: queue 0 to 3 a channel, 4 the matrix queue. -/
structure Plan where
  queue : Nat
  kind : CmdKind
  flag : Option Nat
  deriving DecidableEq, Repr

/-- Only these bits of a scalar may be set. -/
def onlyBits (v : DWord) (mask : Nat) : Bool := v.toNat &&& (2 ^ 64 - 1 - mask) == 0

/-- The scalar layouts of R138; `mma` frees the bits that XCOPYM adds to s(A+2) (R142). -/
def copyScalars (k : Nat) (mma : Bool) (s0 s1 s2 s3 : DWord) : Bool :=
  let rc := 0x7F7F
  let all := 2 ^ 64 - 1
  let m : Nat × Nat × Nat := match k with
    | 0 | 1 => (all, 0x3F, 2 ^ 48 - 1)
    | 2 => (0x3FFF, 0x3F, rc)
    | 3 => (all, 0x3F, all)
    | _ => (0, 0x3F3F, rc)
  onlyBits s0 m.1 && onlyBits s1 m.2.1 && onlyBits s2 (rc + if mma then 0x77F000000 else 0) && onlyBits s3 m.2.2

/-- Row and column of an origin scalar. -/
def rowCol (v : DWord) : Nat × Nat := (bits v.toNat 0 7, bits v.toNat 8 7)

/-- The local tiles of a copy, each with its origin and extent in rows and columns (R138, R139). -/
def copyTiles (t : Tpl) (s1 s2 s3 : DWord) : List (Nat × (Nat × Nat) × Nat × Nat) :=
  let h := bits s1.toNat 0 6
  let e0 := Tpl.e t 0
  let e1 := Tpl.e t 1 * Tpl.e t 2
  if Tpl.kind t = 4 then [(h, rowCol s2, e1, e0), (bits s1.toNat 8 6, rowCol s3, e0, e1)]
  else [(h, rowCol s2, e1, e0)]

def fitsTile (t : TileEnt) (ty : Nat) (o : Nat × Nat) (r c : Nat) : Bool :=
  t.ty == ty && decide (o.1 + r ≤ t.rows) && decide (o.2 + c ≤ t.cols)

/-- The image that a template number names; an empty entry is no valid image (R132). -/
def tplAt (con : Consort) (n : Nat) : Tpl := (alGet con.tpls n).getD 0

/-- R406 steps 1 to 7, with the additions of R407 between them when the copy brings an MMA. -/
def planCopy (con : Consort) (p : P) (mma : Option (Nat × Nat)) (tpl : Tpl) (s0 s1 s2 s3 : DWord) : Chk (List Plan) := do
  need (!guarded p) (cill iGUARD)
  let base := p.d.toNat < 64 ∧ p.a.toNat ≤ 60 ∧ p.b.toNat < 64 ∧ p.x3.toNat < 4
  let ty := p.ty.toNat
  need (decide base && (match mma with
    | none => fieldsOk p { d := true, a := true, b := true, x3 := true }
    | some _ => fieldsOk p { d := true, a := true, b := true, c := true, ty := true, sat := true, x3 := true } &&
        [0, 8, 9, 12, 13, 14, 15].contains ty && (p.sat == 0 || ty == 0 || ty == 15) && (p.c == 0xFF || decide (p.c.toNat < 64))))
    (cill iFIELD)
  let acc := bits s2.toNat 32 3
  need (decide (p.d.toNat < con.ntpl) && decide (p.b.toNat < con.nflag)) (cill iREGRANGE)
  need (mma.isNone || (decide (acc < con.nacc) && (p.c == 0xFF || decide (p.c.toNat < con.nflag)))) (cill iREGRANGE)
  need (copyScalars (Tpl.kind tpl) mma.isSome s0 s1 s2 s3 && Tpl.valid tpl && (mma.isNone || Tpl.kind tpl == 0 || Tpl.kind tpl == 3))
    (cill iFIELD)
  let tiles := copyTiles tpl s1 s2 s3
  let other := bits s2.toNat 24 6
  let ts ← ownedTiles con (tiles.map (·.1) ++ (if mma.isSome then [other] else []))
  need ((tiles.zip ts).all fun u => fitsTile u.2 (Tpl.ty tpl) u.1.2.1 u.1.2.2.1 u.1.2.2.2) (cill iFIELD)
  let copy : Plan := ⟨p.x3.toNat, .copy tpl s0 s1 s2 s3, some p.b.toNat⟩
  match mma with
  | none => .ok [copy]
  | some (fn, _) =>
    let mine := bits s1.toNat 0 6
    let (a, b) := if s2.getLsbD 30 then (other, mine) else (mine, other)
    match tileAt con a, tileAt con b with
    | some ta, some tb =>
      let (tya, tyb) := if ty = 15 then (15, 0) else (ty, ty)
      let k := 16 * 2 ^ fn
      need (ta.ty == tya && tb.ty == tyb && ta.cols == k && tb.rows == k) (cill iFIELD)
      need (ta.grp != tb.grp) (cBANKC, BitVec.ofNat 64 (a * 256 + b))
      .ok [copy, ⟨4, .mma ty k (p.sat == 1) acc a b, if p.c = 0xFF then none else some p.c.toNat⟩]
    | _, _ => .error (cowner oDEAD other)

/-- The shape and bank-group checks of MMA and MBLK (R103, R149, R346). -/
def productTiles (a b : Nat) (ta tb : TileEnt) (tya tyb k : Nat) : Chk Unit := do
  need (ta.ty == tya && tb.ty == tyb && ta.cols == k && tb.rows == k) (cill iFIELD)
  need (ta.grp != tb.grp) (cBANKC, BitVec.ofNat 64 (a * 256 + b))

/-- The fields and the window checks that every matrix command makes (R345). -/
def matrixFields (con : Consort) (p : P) (f : Free) (legal : Bool) (accs : List Nat) : Chk Unit := do
  need (!guarded p) (cill iGUARD)
  need (fieldsOk p { f with c := true } && legal && (p.c == 0xFF || decide (p.c.toNat < 64))) (cill iFIELD)
  need (accs.all (fun a => decide (a < con.nacc)) && (p.c == 0xFF || decide (p.c.toNat < con.nflag))) (cill iREGRANGE)

def matrixFlag (p : P) : Option Nat := if p.c = 0xFF then none else some p.c.toNat

/-- Which instruction a matrix plan comes from. -/
inductive Mat where
  | mma (fn : Nat) | mblk | scla | mzero | mdrain | peer (ordered : Bool)
  deriving DecidableEq, Repr

/-- R149, R345 to R350, R362. `sb` is s(B), read by the peer forms alone. Its layout is tested with the encoding fields, before
REGRANGE: R345's order names no place for it (DESIGN CHOICE, log 29). -/
def planMatrix (l : Launch) (con : Consort) (m : Mat) (p : P) (sb : DWord) : Chk (List Plan) :=
  let d := p.d.toNat
  let a := p.a.toNat
  let b := p.b.toNat
  let ty := p.ty.toNat
  let plan := fun (k : CmdKind) => (.ok [⟨4, k, matrixFlag p⟩] : Chk (List Plan))
  match m with
  | .mma fn => do
    matrixFields con p { d := true, a := true, b := true, ty := true, sat := true }
      (decide (d < 8) && isS p.a && isS p.b && [0, 8, 9, 12, 13, 14, 15].contains ty && (p.sat == 0 || ty == 0 || ty == 15)) [d]
    match ← ownedTiles con [a, b] with
    | [ta, tb] =>
      let k := 16 * 2 ^ fn
      productTiles a b ta tb ty (if ty = 15 then 0 else ty) k
      plan (.mma ty k (p.sat == 1) d a b)
    | _ => .error (cowner oDEAD a)
  | .mblk => do
    matrixFields con p { d := true, a := true, b := true, ty := true } (decide (d < 8) && isS p.a && isS p.b && setQ.contains ty) [d]
    match ← ownedTiles con [a, b] with
    | [ta, tb] =>
      productTiles a b ta tb ty ty 16
      plan (.mblk ty d a b)
    | _ => .error (cowner oDEAD a)
  | .scla => do
    matrixFields con p { d := true, a := true, b := true } (decide (d < 8) && decide (a < 8) && isS p.b) [d, a]
    match ← ownedTiles con [b] with
    | [t] =>
      need (t.ty == 4 && t.rows == 2 && t.cols == 128) (cill iFIELD)
      plan (.scla d a b)
    | _ => .error (cowner oDEAD b)
  | .mzero => do
    matrixFields con p { d := true } (decide (d < 8)) [d]
    plan (.mzero d)
  | .mdrain => do
    matrixFields con p { d := true, a := true, ty := true, sat := true }
      (isS p.d && decide (a < 8) && [2, 8, 9, 10].contains ty && (p.sat == 0 || ty == 8 || ty == 9)) [a]
    match ← ownedTiles con [d] with
    | [t] =>
      need (t.ty == ty) (cill iFIELD)
      plan (.mdrain d a ty (p.sat == 1))
    | _ => .error (cowner oDEAD d)
  | .peer ordered => do
    matrixFields con p { d := true, a := true, b := true, ty := true, bk := true }
      (decide (d < 8) && decide (a < 8) && isS p.b && p.bk == 1 && ty == 10 && onlyBits sb (2 ^ 23 - 1) &&
        (ordered || bits sb.toNat 8 8 == 0)) [a]
    need (decide (l.gangSize ≠ 0) && decide (bits sb.toNat 0 8 < gangTotal l)) (cPEER, 1)
    plan (.peer ordered d a sb)

/-! ## Queues (R133, R134) -/

/-- Commands that have issued and not completed. -/
def allCmds (k : Core) : List Cmd := k.chans.flatten ++ k.matq

def queueAt (k : Core) (q : Nat) : List Cmd := if q < 4 then k.chans.getD q [] else k.matq

def setQueue (k : Core) (q : Nat) (l : List Cmd) : Core :=
  if q < 4 then { k with chans := (List.range 4).map fun i => if i = q then l else k.chans.getD i [] } else { k with matq := l }

/-- Commands that a queue holds: the copy that has begun at the head of a channel has left it (R134, R141); one that was
saved and waits behind others has not (R229). A matrix command that has started takes its place until it completes: R133 does
not say (DESIGN CHOICE, log 29). -/
def queued (k : Core) (q : Nat) : List Cmd := match queueAt k q with
  | [] => []
  | c :: cs => if q < 4 ∧ c.begun then cs else c :: cs

/-- Room in the queues and the dependency table for numbers of commands by queue, with what is there. -/
def roomFor (k : Core) (qs : List Nat) : Bool :=
  (List.range 5).all (fun q => decide ((queued k q).length + qs.count q ≤ if q < 4 then 16 else 32)) &&
  decide ((allCmds k).length + qs.length ≤ 128)

/-- Queue the commands of one instruction at a tick; a follow-on MMA names its copy (R142). -/
def enqueue (now : Nat) (k : Core) (cid : Nat) (ci : Option Nat) (nbv : Nat) (entry : Option Nat) (plans : List Plan) : Core :=
  plans.foldl (fun k pl =>
    let c : Cmd := { seq := k.seq, issued := now, cid := cid, ci := ci, kind := pl.kind, nbv := nbv, flag := pl.flag
                     follows := if plans.length = 2 ∧ pl.queue = 4 then some (k.seq - 1) else none
                     begun := false, todo := [], payload := [], failed := false, flags := 0, entry := entry, done := false }
    { setQueue k pl.queue (queueAt k pl.queue ++ [c]) with seq := k.seq + 1 }) k

/-- Has a consort ended (R95, R185, R197)? Its courses have ended, its commands are complete, its plate is written or
fed, and no error of a store or a load of its courses waits to be recorded. -/
def consortOver (s : State) (con : Consort) : Bool :=
  let k := coreAt s con.core
  !con.capo && !con.held && con.failAt.isNone && con.courses.all (fun c => c.ended && c.pend.all (·.record.isNone)) &&
  (allCmds k).all (fun c => c.cid != con.cid) && k.storeErrs.all (fun e => e.cid != con.cid) &&
  (match con.plate.mode with
    | 1 => con.plate.finished
    | 2 => con.plate.feedDone
    | _ => true)

/-- A consort that has ended releases what it held, and its launch counts it. -/
def reap (s : State) (cid : Nat) : State :=
  match conAt s cid with
  | none => s
  | some con =>
    if !consortOver s con then s
    else
      let s := match launchAt s con.launch with
        | some l => setLaunch s { l with ended := l.ended + 1 }
        | none => s
      dropConsort s cid

/-- The course that takes a command's flags (R84): its issuer, or the lowest course that started, of a print. -/
def flagCourse (con : Consort) (ci : Option Nat) : Option Nat := match ci with
  | some i => some i
  | none => ((List.range 16).filter fun i => !con.plate.dmask.getLsbD i).find? fun i => (crsAt con i).isSome

/-- Slot, generation and end of the course that a fault of a consort's commands names, and whether there is none (R223). -/
def faultCourse (con : Consort) (ci : Option Nat) : Nat × BitVec 16 × Bool × Bool :=
  match (flagCourse con ci).bind (crsAt con) with
  | some c => (c.slot, c.gen, c.ended, false)
  | none => (0, 0, false, true)

/-! ## Hazards (R134) -/

/-- What the dependency table tracks. -/
inductive Res where
  | tile (cid h : Nat)
  | acc (cid n : Nat)
  deriving DecidableEq, Repr

/-- The consort at a rank of a consort's gang, on this package; rank 0 of a consort outside a gang is itself. -/
def rankConsort (s : State) (con : Consort) (rank : Nat) : Option Consort :=
  match launchAt s con.launch with
  | none => none
  | some l =>
    let base := match l.span with
      | some g => g.base
      | none => 0
    if l.gangSize = 0 ∨ rank < base ∨ base + l.gangSize ≤ rank then none
    else s.consorts.find? fun c => c.launch == con.launch && c.index == con.index / l.gangSize * l.gangSize + (rank - base)

/-- A consort by its number, resident or saved. -/
def anyCon (s : State) (cid : Nat) : Option Consort :=
  (conAt s cid).orElse fun _ => (s.saved.map (·.consort)).find? fun c => c.cid == cid

/-- The consort at a rank of a consort's gang, on this package, resident or saved. -/
def anyRank (s : State) (con : Consort) (rank : Nat) : Option Consort :=
  rankConsort { s with consorts := s.consorts ++ s.saved.map (·.consort) } con rank

def cmdReads (c : Cmd) : List Res :=
  let t := Res.tile c.cid
  let a := Res.acc c.cid
  match c.kind with
  | .copy tpl _ s1 _ _ => if Tpl.kind tpl = 1 ∨ Tpl.kind tpl = 2 ∨ Tpl.kind tpl = 4 then [t (bits s1.toNat 0 6)] else []
  | .mma _ _ _ d x y => [a d, t x, t y]
  | .mblk _ _ x y => [t x, t y]
  | .scla d src x => [a d, a src, t x]
  | .mzero _ => []
  | .mdrain _ x _ _ => [a x]
  | .peer _ _ x _ => [a x]

/-- A peer end is a tile of the peer consort; a peer add to the sender's own rank writes its accumulator. -/
def cmdWrites (s : State) (c : Cmd) : List Res :=
  let t := Res.tile c.cid
  let a := Res.acc c.cid
  match c.kind with
  | .copy tpl s0 s1 _ _ => match Tpl.kind tpl with
    | 0 | 3 => [t (bits s1.toNat 0 6)]
    | 2 => match (anyCon s c.cid).bind fun con => anyRank s con (bits s0.toNat 0 8) with
      | some peer => [.tile peer.cid (bits s0.toNat 8 6)]
      | none => []
    | 4 => [t (bits s1.toNat 8 6)]
    | _ => []
  | .mma _ _ _ d _ _ => [a d]
  | .mblk _ d _ _ => [a d]
  | .scla d _ _ => [a d]
  | .mzero d => [a d]
  | .mdrain h _ _ _ => [t h]
  | .peer _ d _ target => match (anyCon s c.cid).bind fun con => anyRank s con (bits target.toNat 0 8) with
    | some peer => if peer.cid = c.cid then [a d] else []
    | none => []

/-- May the command at the head of its queue start? A copy whose operand bytes have all landed no longer holds
back the MMA that follows it (R142). -/
def hazardFree (s : State) (k : Core) (c : Cmd) : Bool :=
  (allCmds k).all fun e =>
    decide (c.seq ≤ e.seq) || (c.follows == some e.seq && e.begun && e.todo.isEmpty) ||
    (!(cmdReads c).any (fun r => (cmdWrites s e).contains r) &&
     !(cmdWrites s c).any (fun r => (cmdReads e).contains r || (cmdWrites s e).contains r))

/-- Does an incomplete command issued before a tick name a tile, as reader or writer (R99)? The commands of other cores
count too, and those that were saved: a gang peer's copy names its destination. -/
def tilePending (s : State) (cid h before : Nat) : Bool :=
  (s.cores.flatMap (fun k => allCmds k.2) ++ s.saved.flatMap (fun v => v.cmds.map (·.2))).any fun e =>
    decide (e.issued < before) && ((cmdReads e).contains (.tile cid h) || (cmdWrites s e).contains (.tile cid h))

/-- Does TTAKE wait for a tile? On a tile that the lanes own the commands number none (R99). -/
def takeWaits (s : State) (con : Consort) (h before : Nat) : Bool :=
  ((tileAt con h).elim false (·.own)) && tilePending s con.cid h before

/-- A peer-tile copy that waits at a tile when it is freed has failed (R375); one whose elements are all written does not wait. -/
def failAt (s : State) (cid h : Nat) (c : Cmd) : Cmd :=
  match c.kind with
  | .copy tpl _ _ _ _ =>
    if Tpl.kind tpl = 2 ∧ c.begun ∧ c.todo ≠ [] ∧ (cmdWrites s c).contains (.tile cid h) then { c with failed := true, todo := [] } else c
  | _ => c

/-- The peer-tile copies that wait at a freed tile fail, on every core and in every save image. -/
def failPeers (s : State) (cid h : Nat) : State :=
  { s with
    cores := s.cores.map fun k => (k.1, { k.2 with chans := k.2.chans.map fun q => q.map (failAt s cid h) })
    saved := s.saved.map fun v => { v with cmds := v.cmds.map fun c => (c.1, failAt s cid h c.2) } }

/-! ## Recording in an etch (R181 to R183) -/

/-- An entry: its kind above a body of 124 bits. -/
def entryOf (kind body : Nat) : BitVec 128 := BitVec.ofNat 128 (kind * 2 ^ 124 + body)

/-- The two words of the instruction in issue, word 0 lowest. -/
def wordPair (x : Cur) : Nat :=
  (x.iss.words.getD (x.iss.off - 1) 0).toNat + (x.iss.words.getD x.iss.off 0).toNat * 2 ^ 32

def tileGuard (h : Nat) (t : TileEnt) : BitVec 128 := entryOf 11 (3 * 2 ^ 120 + h * 2 ^ 96 + t.ty * 2 ^ 88 + tileDesc t)

/-- Entries that a plate may hold (R176 reason 7). -/
def plateCap (l : Launch) : Nat := min (2 ^ 20) ((l.pstride - 0x2000) / 16)

/-- Append guards for tiles not yet guarded and then the entries; an error is a reason of R176. -/
def appendPlate (cap : Nat) (con : Consort) (tiles : List Nat) (mk : Plate → Except Nat (Plate × List (BitVec 128))) :
    Except Nat Plate := do
  let pl := con.plate
  let new := tiles.eraseDups.filter fun h => !pl.tileGuards.contains h
  let pl := { pl with
    tileGuards := pl.tileGuards ++ new
    entries := pl.entries ++ new.filterMap fun h => (tileAt con h).map (tileGuard h) }
  let (pl, es) ← mk pl
  let pl := { pl with entries := pl.entries ++ es }
  if cap < pl.entries.length then .error 7 else .ok pl

/-- Record a word of a driver course, or abandon the etch. -/
def recordWord (s : State) (x : Cur) (tiles : List Nat) (mk : Plate → Except Nat (Plate × List (BitVec 128))) : State × Cur :=
  if !etching x then (s, x)
  else match appendPlate (plateCap (launchOf s x.con)) x.con tiles mk with
    | .ok pl => (s, { x with con := { x.con with plate := pl } })
    | .error r => (abandonEtch s x.con.cid r, { x with con := { x.con with plate := { x.con.plate with mode := 0, reason := r } } })

/-- Record one entry of a kind with the instruction's words. -/
def recordOne (s : State) (x : Cur) (tiles : List Nat) (kind high : Nat) : State × Cur :=
  recordWord s x tiles fun pl => .ok (pl, [entryOf kind (high * 2 ^ 64 + wordPair x)])

/-- How an address scalar is recorded, by its register's mark: the field's value, and a patch for an argument. -/
def addressField (c : Course) (r : Nat) : Except Nat (Nat × Option (Nat × DWord)) :=
  let v := (sGet c r).toNat
  match alGet c.marks r with
  | some (.arg n off) => .ok (v, some (n, off))
  | some (.res idx off) => if off.toNat < 2 ^ 47 then .ok (2 ^ 63 + idx * 2 ^ 47 + off.toNat, none) else .error 8
  | _ => .ok (v, none)

/-- Add a patch slot for a field of the operand entry that comes at an index. -/
def addPatch (pl : Plate) (idx field : Nat) : Option (Nat × DWord) → Except Nat Plate
  | none => .ok pl
  | some (n, off) =>
    if 32 ≤ pl.patches.length then .error 6
    else .ok { pl with patches := pl.patches ++
      [BitVec.ofNat 128 (idx * 2 ^ 108 + n * 2 ^ 103 + field * 2 ^ 100 + off.toNat)] }

/-- Capture a template image: identical images share one block index. -/
def captureTpl (pl : Plate) (t : Tpl) : Except Nat (Plate × Nat) :=
  match (List.range pl.tpls.length).find? fun i => pl.tpls.getD i 0 == t with
  | some i => .ok (pl, i)
  | none => if 64 ≤ pl.tpls.length then .error 5 else .ok ({ pl with tpls := pl.tpls ++ [t] }, pl.tpls.length)

/-- The entries of a copy: the command, then its operand entry. Of the reasons that one copy meets, 5 comes first, then 8, 6
and 7: R176 sets no order among them (DESIGN CHOICE, log 26). -/
def copyEntries (x : Cur) (kind : Nat) (tpl : Tpl) (a : Nat) (pl : Plate) : Except Nat (Plate × List (BitVec 128)) := do
  let s := fun i => (sGet x.c (a + i)).toNat
  let k := Tpl.kind tpl
  let (pl, ti) ← captureTpl pl tpl
  let at1 := pl.entries.length + 1
  let f0 ← if k = 0 ∨ k = 1 ∨ k = 3 then addressField x.c a else .ok (s 0, none)
  let f3 ← if k = 3 then addressField x.c (a + 3) else .ok (s 3, none)
  let pl ← addPatch pl at1 0 f0.2
  let pl ← addPatch pl at1 1 f3.2
  .ok (pl, [entryOf kind (ti * 2 ^ 118 + bits (s 2) 0 35 * 2 ^ 83 + bits (s 1) 0 14 * 2 ^ 69 + wordPair x),
    BitVec.ofNat 128 (f3.1 * 2 ^ 64 + f0.1)])

end Sys2Proof.Machine
end

