-- ==== Sys2Proof/Machine/Barrier.lean ====
section
/-! DEFINITION. BAR, GBAR, SSTEP and SLEEP, the completion of barriers and the end of sleeps and yields
(R51, R125, R127, R129, R226, R294, R315, R365, R369, R409). -/

namespace Sys2Proof.Machine

/-- Do all courses of a consort that still runs stand at the end of a temporal iteration? The next one begins in that cycle
(R35). -/
def between (con : Consort) : Bool := con.courses.all (fun c => c.ended || c.atEnd) && con.courses.any (·.atEnd)

/-- Has every course of a consort that has not ended a split parked at a barrier? -/
def arrivedAll (con : Consort) (pk : Park) : Bool :=
  !between con && con.courses.all fun c => c.ended || c.atEnd || c.splits.any fun p => decide (p.2.park = pk)

/-- Are reads still to come of CHORD or SMARCH requests of a consort? They count as its courses' loads (R166, R273). -/
def consortReads (s : State) (con : Consort) : Bool := con.courses.any fun c => unitReads (coreAt s con.core) con.cid c.idx

/-- May a write still go unseen by every course of some consorts? -/
def openToEvery (s : State) (cons : List Consort) (u : Unseen) : Bool :=
  cons.all fun d => d.courses.all fun c => openToCourse s u d.cid c.idx

/-- Is a split of the consort parked at a barrier? -/
def someParked (con : Consort) (pk : Park) : Bool := con.courses.any fun c => c.splits.any fun p => decide (p.2.park = pk)

/-- Park the running split at the word in issue: it goes on at the next word, or at the next clause. -/
def parkAt (s : State) (x : Cur) (pk : Park) : State :=
  let sp := if isLast x 2 then match fallTo x.iss.hdr (nextClause x) x.sp.loops with
      | some (pc, ls, boundary) =>
        { atBoundary x.sp boundary with pc := pc, off := 0, loops := ls }
      | none => { x.sp with pc := nextClause x, off := 0, trap := some ⟨cILL, BitVec.ofNat 64 iPLACE, nextClause x, 0, nextClause x⟩ }
    else { x.sp with pc := x.iss.hdr, off := x.iss.off + 2, point := false }
  sweepDying (freeSlot { x with sp := { sp with park := pk } } s) x.con.cid

/-- A consort that has arrived at an SSTEP awaits the step-tagged copies issued before. -/
def noteStep (s : State) (cid : Nat) : State := match conAt s cid with
  | some con => if arrivedAll con .sstep ∧ someParked con .sstep ∧ con.stepSeq.isNone then setCon s { con with stepSeq := some (coreAt s con.core).seq } else s
  | none => s

/-- R294. -/
def execBar (p : P) (s : State) : Host.Outcome State Fault Refusal :=
  .next (courseWord s p {} true [] fun x => parkAt s x .bar)

/-- R315: a release of gang scope. -/
def execGbar (p : P) (s : State) : Host.Outcome State Fault Refusal :=
  .next (courseWord s p {} true [] fun x => parkAt s { x with k := unpin s.cycles x.con.cid x.k } .gbar)

/-- R129, R369. -/
def execSstep (p : P) (s : State) : Host.Outcome State Fault Refusal :=
  .next (courseWord s p {} true [] fun x => noteStep (parkAt s { x with k := unpin s.cycles x.con.cid x.k } .sstep) x.con.cid)

/-- Every split parked at a barrier goes on. -/
def unpark (pk : Park) (con : Consort) : Consort :=
  { con with courses := con.courses.map fun c => { c with
      splits := c.splits.map fun p => (p.1, if p.2.park = pk then { p.2 with park := .ready } else p.2) } }

/-- BAR_COMPLETE (R125, R294): at the consort that the unit names, once the courses' reads are made. What its courses stored
before, and what is ordered before their accesses, every course of the consort finds from then on. -/
def execBarComplete (s : State) : Host.Outcome State Fault Refusal :=
  .next (match conAt s (unitOf s) with
    | none => s
    | some con =>
      if arrivedAll con .bar && !consortReads s con then
        reveal (setCon s (unpark .bar con)) (.consort con.cid) fun u => !openToEvery s [con] u
      else s)

/-- The consorts of this package that take part in a barrier with a consort: its gang, those pre-empted out included. -/
def inGang (s : State) (con d : Consort) : Bool :=
  d.launch == con.launch && !d.capo &&
    (let g := (launchOf s con).gangSize
     if g = 0 then d.cid == con.cid else d.index / g == con.index / g)

def gangMembers (s : State) (con : Consort) : List Consort :=
  s.consorts.filter (inGang s con) ++ (s.saved.map (·.consort)).filter (inGang s con)

/-- Has a gang lost a member: here, on a package that cannot be reached (R280), or on one that did not start, which it may have
said in an ABORT or not (R208, R226)? -/
def peerFailed (s : State) (l : Launch) (con : Consort) : Bool :=
  l.gangSize != 0 && (l.failed.contains (con.index / l.gangSize) || l.span.elim false fun g =>
    g.pkgs.any (fun p => p != s.pkg && !reaches s p) || (g.going && (s.aborts.any (fun a => a.1 == g.gid) ||
      g.pkgs.any fun p => p != s.pkg && Config.neverStarted g.gid p)))

/-- A peer has failed and its notice has not reached every member yet: the barrier waits for it (R226). -/
def noticeDue (s : State) (con : Consort) : Bool :=
  peerFailed s (launchOf s con) con && (gangMembers s con).any (·.failAt.isNone)

/-- Complete a gang barrier for every member; %status bit 4 tells of a failed peer. -/
def completeGang (s : State) (con : Consort) (pk : Park) : State :=
  let failed := (gangMembers s con).any (·.failAt.isSome)
  let go := fun (d : Consort) => if inGang s con d then { unpark pk d with gbarFail := failed, stepSeq := none } else d
  { s with
    consorts := s.consorts.map go
    saved := s.saved.map fun v => { v with consort := go v.consort } }

/-- Is every read of CHORD and SMARCH requests of a gang's courses made? -/
def gangRead (s : State) (con : Consort) : Bool := (gangMembers s con).all (!consortReads s ·)

/-- What the courses of a gang stored, and what is ordered before their accesses, each of them finds from then on (R125). -/
def shareGang (before s : State) (con : Consort) : State :=
  reveal s (gangInst before con) fun u => !openToEvery before (gangMembers before con) u

/-- GBAR_COMPLETE (R125, R315): once the reads of the gang's courses are made. -/
def execGbarComplete (s : State) : Host.Outcome State Fault Refusal :=
  .next (match conAt s (unitOf s) with
    | none => s
    | some con =>
      if (gangMembers s con).any (someParked · .gbar) && (gangMembers s con).all (arrivedAll · .gbar) && gangRead s con &&
          !noticeDue s con then
        shareGang s (completeGang s con .gbar) con
      else s)

/-- A step-tagged copy of a consort, issued before a point, that has not landed. -/
def stepsLeft (cmds : List Cmd) (cid before : Nat) : Bool :=
  cmds.any fun c => c.cid == cid && decide (c.seq < before) && !(c.begun && c.todo.isEmpty) && (match c.kind with
    | .copy tpl _ _ _ _ => Tpl.step tpl
    | _ => false)

/-- Have the step-tagged copies of a member landed (R129)? Of a member whose courses have all ended every one counts. -/
def stepsLanded (s : State) (con : Consort) : Bool :=
  let before := con.stepSeq.getD (coreAt s con.core).seq
  !stepsLeft (allCmds (coreAt s con.core)) con.cid before &&
  s.saved.all fun v => v.consort.cid != con.cid || !stepsLeft (v.cmds.map (·.2)) con.cid (con.stepSeq.getD (v.cmds.foldl (fun m c => max m (c.2.seq + 1)) 0))

/-- An SSTEP orders its participants' accesses and their step-tagged copies' writes before their later accesses (R129). -/
def sawSteps (before s : State) (con : Consort) : State :=
  let stepped := fun (u : Unseen) => u.writers.any fun w => match w with
    | .copy cid _ step => step && (gangMembers before con).any (·.cid == cid)
    | .course _ _ => false
  shareGang before (reveal s (gangInst before con) stepped) con

/-- SSTEP_COMPLETE (R129): once the reads of the participants' courses are made. -/
def execSstepComplete (s : State) : Host.Outcome State Fault Refusal :=
  .next (match conAt s (unitOf s) with
    | none => s
    | some con =>
      if (gangMembers s con).any (someParked · .sstep) && (gangMembers s con).all (fun d => arrivedAll d .sstep && stepsLanded s d) &&
          gangRead s con && !noticeDue s con then
        sawSteps s (completeGang s con .sstep) con
      else s)

/-! ## SLEEP and YIELD -/

/-- R365. -/
def execSleep (p : P) (s : State) : Host.Outcome State Fault Refusal :=
  let src := if p.bk = 1 then [p.b.toNat] else []
  .next (courseWord s p { b := true, c := p.bk == 2, bk := true } (p.bk == 2 || (p.bk == 1 && isS p.b)) src fun x =>
    let n := if p.bk = 2 then imm16 p else (sGet x.c p.b.toNat).toNat % 2 ^ 32
    let wake := if n = 0 ∨ x.con.preReq.isSome ∨ x.c.haltReq then x.sp.wake else some (max (s.cycles + n) (x.sp.wake.getD 0))
    retire s { x with sp := { x.sp with wake := wake } } 2)

/-- Change one split of a course of the consort that the unit names. -/
def modSplit (s : State) (ci sp : Nat) (f : Split → Split) : State :=
  modCrs s (unitOf s) ci fun c => match alGet c.splits sp with
    | some x => { c with splits := alSet c.splits sp (f x) }
    | none => c

/-- SLEEP_EXPIRE (R365). -/
def execSleepExpire (ci sp : Nat) (s : State) : Host.Outcome State Fault Refusal :=
  .next (modSplit s ci sp fun x => match x.wake with
    | some t => if t ≤ s.cycles then { x with wake := none } else x
    | none => x)

/-- Is a course still to be waited for by a yield? -/
def stillThere (s : State) (o : Nat × Nat) : Bool := ((conAt s o.1).bind (crsAt · o.2)).elim false fun c => !c.ended

/-- YIELD_EXPIRE (R409). -/
def execYieldExpire (ci sp : Nat) (s : State) : Host.Outcome State Fault Refusal :=
  .next (modSplit s ci sp fun x => match x.yielded with
    | some y => if y.since + 256 ≤ s.cycles ∨ (y.others.filter (stillThere s)).isEmpty then { x with yielded := none } else x
    | none => x)

end Sys2Proof.Machine
end

