-- ==== Sys2Proof/Machine/BurinLane.lean ====
section
/-! DEFINITION. The vector operations of Burin, LADD to LUNPK and WXY (R69, R70, R319, R320, R324, R326, R335,
R341 to R344, R405). -/

namespace Sys2Proof.Machine

/-- Run a slot word; a word that R70 and R71 do not allow traps ILL. -/
def burinWord (s : State) (i : Instr) (f : Nat → Burin → State) : State :=
  onBurin s fun b x => if i.wf then f b x else burinIll s b

/-! ## Lanes (R70) -/

def laneBits (ty : BitVec 2) : Nat := if ty.getLsbD 1 then 32 else 16
def laneCount (ty : BitVec 2) : Nat := 512 / laneBits ty
def laneFmt (ty : BitVec 2) : FFmt := if ty.getLsbD 1 then fmtF32 else fmtF16

def laneOf (w v k : Nat) : Nat := bits v (w * k) w

/-- Make a register of lanes. -/
def packLanes (w : Nat) (vs : List Nat) : Nat := vs.foldr (fun v a => v % 2 ^ w + 2 ^ w * a) 0

/-- Write w(D) of every lane from its number. -/
def laneWord' (s : State) (i : Instr) (d : BitVec 6) (ty : BitVec 2) (f : Burin → Nat → Nat) : Host.Outcome State Fault Refusal :=
  .next (burinWord s i fun b x =>
    slotDone s b (bwSet x d.toNat (packLanes (laneBits ty) ((List.range (laneCount ty)).map (f x)))))

/-- A lane of a register. -/
def ln (x : Burin) (ty : BitVec 2) (r : BitVec 6) (k : Nat) : Nat := laneOf (laneBits ty) (bw x r.toNat) k

/-- Wrap or clamp a signed result (R319). -/
def laneNarrow (w : Nat) (sat : Bool) (v : Int) : Nat :=
  wrapTo w (if sat then max (-(2 ^ (w - 1))) (min (2 ^ (w - 1) - 1) v) else v)

/-- An element operation of two lanes (R320). -/
def elemOp (s : State) (i : Instr) (d a b : BitVec 6) (ty : BitVec 2) (fn : BitVec 3) (int : Int → Int → Int)
    (flt : FFmt → Nat → Nat → Nat) : Host.Outcome State Fault Refusal :=
  let w := laneBits ty
  laneWord' s i d ty fun x k =>
    if intLane ty then laneNarrow w (fn == 1) (int (signedOf w (ln x ty a k)) (signedOf w (ln x ty b k)))
    else flt (laneFmt ty) (ln x ty a k) (ln x ty b k)

/-- R320. -/
def execLadd (stg : BitVec 2) (d a b : BitVec 6) (ty : BitVec 2) (fn : BitVec 3) (s : State) : Host.Outcome State Fault Refusal :=
  elemOp s (.ladd stg d a b ty fn) d a b ty fn (· + ·) fun f x y => (fAdd f .rne false x y).1
/-- R320. -/
def execLsub (stg : BitVec 2) (d a b : BitVec 6) (ty : BitVec 2) (fn : BitVec 3) (s : State) : Host.Outcome State Fault Refusal :=
  elemOp s (.lsub stg d a b ty fn) d a b ty fn (· - ·) fun f x y => (fAdd f .rne false x (fNeg f y)).1
/-- R320. -/
def execLmul (stg : BitVec 2) (d a b : BitVec 6) (ty : BitVec 2) (fn : BitVec 3) (s : State) : Host.Outcome State Fault Refusal :=
  elemOp s (.lmul stg d a b ty fn) d a b ty fn (· * ·) fun f x y => (fMul f .rne false x y).1
/-- R320. -/
def execLmin (stg : BitVec 2) (d a b : BitVec 6) (ty : BitVec 2) (fn : BitVec 3) (s : State) : Host.Outcome State Fault Refusal :=
  elemOp s (.lmin stg d a b ty fn) d a b ty fn min fun f x y => lMinMax f false x y
/-- R320. -/
def execLmax (stg : BitVec 2) (d a b : BitVec 6) (ty : BitVec 2) (fn : BitVec 3) (s : State) : Host.Outcome State Fault Refusal :=
  elemOp s (.lmax stg d a b ty fn) d a b ty fn max fun f x y => lMinMax f true x y

/-- R320: w(D) is the third source. -/
def execLmad (stg : BitVec 2) (d a b : BitVec 6) (ty : BitVec 2) (fn : BitVec 3) (s : State) : Host.Outcome State Fault Refusal :=
  let w := laneBits ty
  laneWord' s (.lmad stg d a b ty fn) d ty fun x k =>
    let va := ln x ty a k
    let vb := ln x ty b k
    let vd := ln x ty d k
    if intLane ty then laneNarrow w (fn == 1) (signedOf w va * signedOf w vb + signedOf w vd)
    else (fMad (laneFmt ty) .rne false va vb vd).1

/-- R342. -/
def execLsel (stg : BitVec 2) (d a b : BitVec 6) (ty : BitVec 2) (fn : BitVec 3) (s : State) : Host.Outcome State Fault Refusal :=
  laneWord' s (.lsel stg d a b ty fn) d ty fun x k => if (bm x fn.toNat).getLsbD k then ln x ty a k else ln x ty b k

/-- The test of LCMP (R324) on an order; none when a NaN takes part. -/
def lcmpTest (fn : Nat) (o : Option Ordering) : Bool := match o with
  | none => fn == 1
  | some o => match fn with
    | 0 => o == .eq
    | 1 => o != .eq
    | 2 => o == .lt
    | 3 => o != .gt
    | 4 => o == .gt
    | _ => o != .lt

/-- R324. -/
def execLcmp (stg : BitVec 2) (d : BitVec 3) (a b : BitVec 6) (ty : BitVec 2) (fn : BitVec 3) (s : State) :
    Host.Outcome State Fault Refusal :=
  .next (burinWord s (.lcmp stg d a b ty fn) fun c x =>
    let w := laneBits ty
    let test := fun k =>
      let va := ln x ty a k
      let vb := ln x ty b k
      lcmpTest fn.toNat (if intLane ty then some (compare (signedOf w va) (signedOf w vb)) else fCmp (laneFmt ty) va vb)
    slotDone s c (bmSet x d.toNat ((maskOf (laneCount ty) test).setWidth 32)))

/-- One conversion of LCVT (R326). -/
def lcvtLane (src dst : BitVec 2) (rm : Rm) (v : Nat) : Nat :=
  let w := laneBits dst
  if src = dst then v
  else match intLane src, intLane dst with
    | true, true => laneNarrow w true (signedOf (laneBits src) v)
    | true, false => (intToF (laneFmt dst) rm false (signedOf (laneBits src) v)).1
    | false, true => wrapTo w (fToInt (laneFmt src) rm (-(2 ^ (w - 1))) (2 ^ (w - 1) - 1) v).1
    | false, false => (fCvt (laneFmt src) (laneFmt dst) rm false v).1

/-- R326. -/
def execLcvt (stg : BitVec 2) (d a : BitVec 6) (ty : BitVec 2) (fn : BitVec 3) (s : State) : Host.Outcome State Fault Refusal :=
  let dst : BitVec 2 := fn.extractLsb' 1 2
  let n := if laneBits ty = 16 ∧ laneBits dst = 16 then 32 else 16
  laneWord' s (.lcvt stg d a ty fn) d dst fun x k =>
    if k < n then lcvtLane ty dst (if fn.getLsbD 0 then .rtz else .rne) (ln x ty a k) else 0

/-- R343. -/
def execLshf (stg : BitVec 2) (d a b : BitVec 6) (ty : BitVec 2) (fn : BitVec 3) (s : State) : Host.Outcome State Fault Refusal :=
  let w := laneBits ty
  laneWord' s (.lshf stg d a b ty fn) d ty fun x k =>
    let v := ln x ty a k
    let n := ln x ty b k % w
    match fn.toNat with
    | 0 => v * 2 ^ n % 2 ^ w
    | 1 => v / 2 ^ n
    | 2 => wrapTo w (signedOf w v / 2 ^ n)
    | _ => (v * 2 ^ n % 2 ^ w) + v / 2 ^ (w - n)

/-- R335. -/
def execLlog (stg : BitVec 2) (d a b : BitVec 6) (ty : BitVec 2) (fn : BitVec 3) (s : State) : Host.Outcome State Fault Refusal :=
  let all := 2 ^ laneBits ty - 1
  laneWord' s (.llog stg d a b ty fn) d ty fun x k =>
    let va := ln x ty a k
    let vb := ln x ty b k
    match fn.toNat with
    | 0 => va &&& vb
    | 1 => va ||| vb
    | 2 => va ^^^ vb
    | 3 => va &&& (all - vb)
    | _ => all - va

/-- An f16 component times a scale, after the clamp to [0, 1] (R341). -/
def packUnorm (scale v : Nat) : Nat := match fmtF16.unpack v with
  | .fin false m e => min scale (dyToInt .rne false (m * scale) e).1.toNat
  | .inf false => scale
  | _ => 0

/-- R341. -/
def execLpack (stg : BitVec 2) (d a : BitVec 6) (ty : BitVec 2) (fn : BitVec 3) (s : State) : Host.Outcome State Fault Refusal :=
  .next (burinWord s (.lpack stg d a ty fn) fun b x =>
    let v := bw x a.toNat
    let h := laneOf 16 v
    let out := match fn.toNat with
      | 0 => packLanes 32 ((List.range 8).map fun p =>
          packUnorm 1023 (h (4 * p)) + packUnorm 1023 (h (4 * p + 1)) * 2 ^ 10 + packUnorm 1023 (h (4 * p + 2)) * 2 ^ 20 +
            packUnorm 3 (h (4 * p + 3)) * 2 ^ 30)
      | 1 => packLanes 8 ((List.range 32).map fun k => packUnorm 255 (h k))
      | _ => packLanes 16 ((List.range 16).map fun k => laneNarrow 16 true (signedOf 32 (laneOf 32 v k)))
    slotDone s b (bwSet x d.toNat out))

/-- A field over a scale, as f16 (R344). -/
def unpackUnorm (scale v : Nat) : Nat := if v = 0 then 0 else (roundRat fmtF16 .rne false false v scale).1

/-- R344. -/
def execLunpk (stg : BitVec 2) (d a : BitVec 6) (ty : BitVec 2) (fn : BitVec 3) (s : State) : Host.Outcome State Fault Refusal :=
  .next (burinWord s (.lunpk stg d a ty fn) fun b x =>
    let v := bw x a.toNat
    let out := match fn.toNat with
      | 0 => packLanes 16 ((List.range 32).map fun k =>
          let p := laneOf 32 v (k / 4)
          if k % 4 = 3 then unpackUnorm 3 (bits p 30 2) else unpackUnorm 1023 (bits p (10 * (k % 4)) 10))
      | 1 => packLanes 16 ((List.range 32).map fun k => unpackUnorm 255 (laneOf 8 v k))
      | _ => packLanes 32 ((List.range 16).map fun k => wrapTo 32 (signedOf 16 (laneOf 16 v k)))
    slotDone s b (bwSet x d.toNat out))

/-- f32 operations with RNE. -/
def rAdd (x y : Nat) : Nat := (fAdd fmtF32 .rne false x y).1
def rSub (x y : Nat) : Nat := rAdd x (fNeg fmtF32 y)
def rMul (x y : Nat) : Nat := (fMul fmtF32 .rne false x y).1
def rDiv (x y : Nat) : Nat := (fDiv fmtF32 .rne false x y).1

/-- R405. -/
def execWxy (stg : BitVec 2) (d a b : BitVec 6) (s : State) : Host.Outcome State Fault Refusal :=
  laneWord' s (.wxy stg d a b) d 3 fun v k =>
    let x := ln v 3 a (k % 8)
    let y := ln v 3 a (k % 8 + 8)
    let h := ln v 3 b
    let row := fun i => rAdd (rAdd (rMul (h i) x) (rMul (h (i + 1)) y)) (h (i + 2))
    rDiv (if k < 8 then row 0 else row 3) (row 6)

end Sys2Proof.Machine
end

