-- ==== Sys2Proof/Machine/BurinBand.lean ====
section
/-! DEFINITION. The slot-3 operations of Burin: line buffer, frame slots, poses, LMMA, supplying lines, and waits
(R259 to R263, R265, R297, R309, R312, R314, R321, R323, R336, R340, R355, R359). -/

namespace Sys2Proof.Machine

/-! ## Bands -/

/-- A band of a head, with nothing known of it when there is no record. -/
def bandAt (h : Head) (frame band : Nat) : Band :=
  (h.bands.find? fun d => d.frame == frame && d.band == band).getD ⟨frame, band, none, [], false⟩

/-- Write a band's record. -/
def putBand (h : Head) (d : Band) : Head :=
  { h with bands := h.bands.filter (fun e => !(e.frame == d.frame && e.band == d.band)) ++ [d] }

/-- The band of a Burin core's invocation. -/
def myBand (s : State) (x : Burin) : Band := bandAt (headAt s x.head) x.frame x.band

/-- Has the band start of the invocation's band passed (R257)? -/
def bandStarted (s : State) (x : Burin) : Bool := (myBand s x).pose.isSome

/-- Do the LOUTs of the invocation wait for their rows (R259)? -/
def loutsPending (x : Burin) : Bool := x.louts.any fun l => l.frame == x.frame && l.band == x.band

/-- The beam's line, and the line of a band's deadline, counted from the start of the lead-in (R257). -/
def beamLine (h : Head) : Nat := h.frame * h.mode.vtotal + h.line
def bandLine (h : Head) (frame band lead : Nat) : Nat := (frame + 1) * h.mode.vtotal + 16 * band - lead

/-! ## The line buffer -/

def lbSize : Nat := 2 ^ 19

def lbRead (x : Burin) (addr n : Nat) : List Byte := (List.range n).map fun i => smGet 0 x.lb ((addr + i) % lbSize)

/-- The 64-byte address of LBLD and LBST. -/
def lbAddr (x : Burin) (a : BitVec 6) (r : BitVec 3) : Nat := (laneOf 32 (bw x a.toNat) 0 + 64 * r.toNat) % lbSize

/-- R321. -/
def execLbld (stg : BitVec 2) (d a : BitVec 6) (ty : BitVec 2) (r : BitVec 3) (s : State) : Host.Outcome State Fault Refusal :=
  .next (burinWord s (.lbld stg d a ty r) fun b x =>
    let addr := lbAddr x a r
    if addr % 64 ≠ 0 then burinTrap s b cALIGN 0 else slotDone s b (bwSet x d.toNat (ofBytes (lbRead x addr 64))))

/-- R323; nothing after the deadline (R260). -/
def execLbst (stg : BitVec 2) (a b : BitVec 6) (ty : BitVec 2) (r : BitVec 3) (s : State) : Host.Outcome State Fault Refusal :=
  .next (burinWord s (.lbst stg a b ty r) fun c x =>
    let addr := lbAddr x a r
    if addr % 64 ≠ 0 then burinTrap s c cALIGN 0
    else if x.late then slotDone s c x
    else slotDone s c { x with
      lb := smSets 0 x.lb ((List.range 64).map fun i => (addr + i, BitVec.ofNat 8 (bits (bw x b.toNat) (8 * i) 8))) })

/-- One output of LMMA: exact, rounded once (R259, R336); an exact zero is −0 only when every term is. -/
def lmmaLane (dv : Nat) (ps : List (Nat × Nat)) : Nat :=
  let un := ps.map fun p => (fmtE4M3.unpack p.1, fmtE4M3.unpack p.2)
  let nan := un.any fun u => match u with
    | (.fin _ _ _, .fin _ _ _) => false
    | _ => true
  let prod := fun (u : FVal × FVal) => match u with
    | (.fin n m e, .fin n' m' e') => ((finDy n m e).mul (finDy n' m' e'), n != n')
    | _ => ((⟨0, 0⟩ : Dy), false)
  match fmtF16.unpack dv with
  | .nan _ => fmtF16.canon
  | .inf _ => if nan then fmtF16.canon else dv
  | .fin n m e =>
    if nan then fmtF16.canon
    else
      let ts := un.map prod
      let sum := ts.foldl (fun a t => a.add t.1) (finDy n m e)
      let negZero := n && decide (m = 0) && ts.all fun t => t.1.m.natAbs == 0 && t.2
      (roundDy fmtF16 .rne false sum negZero).1

/-- R259, R336. -/
def execLmma (stg : BitVec 2) (d a b : BitVec 6) (s : State) : Host.Outcome State Fault Refusal :=
  .next (burinWord s (.lmma stg d a b) fun c x =>
    let addr := laneOf 32 (bw x b.toNat) 0
    if addr % 64 ≠ 0 then burinTrap s c cALIGN 0
    else
      let w := fun i => (smGet 0 x.lb ((addr + i) % lbSize)).toNat
      let va := bw x a.toNat
      let out := (List.range 32).map fun j =>
        lmmaLane (laneOf 16 (bw x d.toNat) j) ((List.range 64).map fun k => (laneOf 8 va k, w (32 * k + j)))
      slotDone s c (bwSet x d.toNat (packLanes 16 out)))

/-! ## Frame slots (R262, R263) -/

/-- A Burin load or trap. What no order puts before it may go unseen (R121, R131). -/
def burinLoad (s : State) (b va n : Nat) (k : State → Nat → State) : State :=
  let ctx := dispCtx s (burinAt s b).head
  match loadSeen s .burin ctx.1 ctx.2 va n with
  | .ok v => k (sawVas s .burin ctx n [va]) (ofBytes v)
  | .error e => burinTrap s b (errCause e).1 (errCause e).2

/-- The slot with the greatest generation, the lower index on a tie. -/
def newest (gens : List Nat) : Nat × Nat :=
  gens.zipIdx.foldl (fun a g => if a.1 < g.1 then g else a) (0, 0)

/-- Put a result on its way to a register (R253). -/
def land (x : Burin) (r v : Nat) (fsmp : Bool) : Burin := { x with landing := x.landing ++ [⟨r, BitVec.ofNat 512 v, fsmp⟩] }

/-- Does an access of a Burin core of a head wait for a pinned line (R126)? -/
def burinPinned (s : State) (h : Nat) (vas : List Nat) : Bool := waitsPins s (dispCtx s h) vas

/-- R263, R312. The whole waits while a descriptor's line is pinned (R126). -/
def execFacq (stg : BitVec 2) (d : BitVec 6) (s : State) : Host.Outcome State Fault Refusal :=
  .next (burinWord s (.facq stg d) fun b x =>
    let slots := (headAt s x.head).mode.slots
    let va := fun i => slots.getD i 0
    if !bandStarted s x || burinPinned s x.head slots then s
    else
      let s := releaseHold s b
      burinLoad s b (va 0) 8 fun s g0 => burinLoad s b (va 1) 8 fun s g1 => burinLoad s b (va 2) 8 fun s g2 => burinLoad s b (va 3) 8 fun s g3 =>
        let (gen, slot) := newest [g0, g1, g2, g3]
        if gen = 0 then slotDone s b (land { burinAt s b with acq := none } d.toNat 0 false)
        else burinLoad s b (va slot + 16) 4 fun s wh => burinLoad s b (va slot + 24) 8 fun s col => burinLoad s b (va slot + 32) 8 fun s dep =>
          burinLoad s b (va slot + 40) 8 fun s mot => burinLoad s b (va slot + 48) 8 fun s ts => match addHold s x.head slot true with
            | .error e => burinTrap s b (errCause e).1 (errCause e).2
            | .ok s =>
              let y := { burinAt s b with hold := some slot, acq := some ⟨wh % 2 ^ 16, wh / 2 ^ 16, col, dep, mot⟩ }
              slotDone s b (land y d.toNat (gen + slot * 2 ^ 64 + ts * 2 ^ 96) false))

/-- floor of an f32, clamped to 0 .. n − 1; NaN gives 0 (R314). -/
def texel (n v : Nat) : Nat := match fmtF32.unpack v with
  | .fin neg m e => min (n - 1) (dyToInt .rdn neg m e).1.toNat
  | .inf false => n - 1
  | _ => 0

/-- Does an address lie in this package's GDDR (R105)? -/
def inGddr (s : State) (ctx : Nat × Nat) (va : Nat) : Bool := match translate s ctx.1 ctx.2 .read va with
  | .ok l => !l.host && (match placeOf s (l.frame + va % 4096) with
    | .mem key => decide (key / 2 ^ 39 = s.pkg ∧ Config.gddrBase ≤ key % 2 ^ 39)
    | _ => false)
  | .error _ => false

/-- Read the samples of FSMP in lane order (R121, R131). -/
def readSamples (s : State) (ctx : Nat × Nat) (n : Nat) : List Nat → Except MemErr (List Nat)
  | [] => .ok []
  | va :: vas => do
    if !inGddr s ctx va then throw (.xlat rRange)
    let v ← loadSeen s .burin ctx.1 ctx.2 va n
    let r ← readSamples s ctx n vas
    .ok (ofBytes v :: r)

/-- R314. -/
def execFsmp (stg : BitVec 2) (d a b : BitVec 6) (fn : BitVec 3) (s : State) : Host.Outcome State Fault Refusal :=
  .next (burinWord s (.fsmp stg d a b fn) fun c x =>
    match x.acq with
    | none => slotDone s c (land x d.toNat 0 true)
    | some q =>
      let (base, n) := match fn.toNat with
        | 0 => (q.colour, 4)
        | 1 => (q.depth, 2)
        | _ => (q.motion, 4)
      let pitch := (n * q.width + 255) / 256 * 256
      let va := fun k =>
        (base + texel q.height (laneOf 32 (bw x b.toNat) k) * pitch + n * texel q.width (laneOf 32 (bw x a.toNat) k)) % 2 ^ 64
      if burinPinned s x.head ((List.range 16).map va) then s
      else match readSamples s (dispCtx s x.head) n ((List.range 16).map va) with
      | .error e => burinTrap s c (errCause e).1 (errCause e).2
      | .ok vs => slotDone (sawVas s .burin (dispCtx s x.head) n ((List.range 16).map va)) c (land x d.toNat (packLanes 32 vs) true))

/-! ## Poses, waits and the deadline -/

/-- R265, R355. -/
def execPosel (stg : BitVec 2) (d : BitVec 6) (s : State) : Host.Outcome State Fault Refusal :=
  .next (burinWord s (.posel stg d) fun b x => match (myBand s x).pose with
    | none => s
    | some p => slotDone s b (bwSet x d.toNat (ofBytes p)))

/-- R297. -/
def execBwait (stg : BitVec 2) (fn : BitVec 3) (s : State) : Host.Outcome State Fault Refusal :=
  .next (burinWord s (.bwait stg fn) fun b x =>
    if fn = 0 then (if bandStarted s x then slotDone s b x else s)
    else if loutsPending x then s else slotDone s b x)

/-- R309. -/
def execDlchk (stg : BitVec 2) (d : BitVec 3) (s : State) : Host.Outcome State Fault Refusal :=
  .next (burinWord s (.dlchk stg d) fun b x =>
    let h := headAt s x.head
    let reached := decide (bandLine h x.frame x.band (guardOf h x.frame) ≤ beamLine h + 2)
    slotDone s b (bmSet x d.toNat (if reached then 0xFFFFFFFF else 0)))

/-! ## Supplying lines (R260) -/

/-- No supply takes effect after the deadline. -/
def supplyOver (s : State) (x : Burin) : Bool := x.late || (myBand s x).closed

/-- R340. -/
def execLout (stg : BitVec 2) (a : BitVec 6) (h : BitVec 3) (s : State) : Host.Outcome State Fault Refusal :=
  .next (burinWord s (.lout stg a h) fun b x =>
    let line := laneOf 32 (bw x a.toNat) 0 % 16
    let addr := laneOf 32 (bw x a.toNat) 1
    if h.toNat ≠ x.head then burinIll s b
    else if addr % 64 ≠ 0 then burinTrap s b cALIGN 0
    else
      let d := myBand s x
      if supplyOver s x || alGet d.lines line == some .reproj then slotDone s b x
      else
        let s := setHead s x.head (putBand (headAt s x.head) { d with lines := alSet d.lines line .due })
        slotDone s b { x with louts := x.louts ++ [⟨x.frame, x.band, line, addr⟩] })

/-- R359. -/
def execRpj (stg : BitVec 2) (a : BitVec 6) (s : State) : Host.Outcome State Fault Refusal :=
  .next (burinWord s (.rpj stg a) fun b x =>
    let f := (max 0 (min (signedOf 32 (laneOf 32 (bw x a.toNat) 0)) 16)).toNat
    if supplyOver s x then slotDone s b x
    else
      let d := myBand s x
      let d := { d with lines := (List.range 16).foldl (fun l i => if f ≤ i then alSet l i .reproj else l) d.lines }
      slotDone (setHead s x.head (putBand (headAt s x.head) d)) b x)

end Sys2Proof.Machine
end

