-- ==== Sys2Proof/Machine/Matrix.lean ====
section
/-! DEFINITION. What the matrix engine computes (R76, R79, R86 to R89, R148 to R153, R346 to R350, R362). -/

namespace Sys2Proof.Machine

/-- Key of an accumulator element. -/
def accKey (a i j : Nat) : Nat := a * 16384 + i * 128 + j

def accGet (con : Consort) (a i j : Nat) : Nat := (smGet 0 con.acc (accKey a i j)).toNat

/-- A t2 weight: its value, and TRES for the reserved code (R76). -/
def t2Of (v : Nat) : Int × Flags := match v with
  | 1 => (1, 0) | 3 => (-1, 0) | 2 => (0, flTRES) | _ => (0, 0)

/-- The rounding and length of a float chunk by NBV (R86, R89). -/
def chunkRm (nbv : Nat) : Rm := if nbv = 2 then .rtz else .rne
def chunkLen (nbv : Nat) : Nat := if nbv = 2 then 8 else 16

/-- Float chunks of a dot product into the accumulator, in increasing k (R86). -/
def floatChunks (f : FFmt) (nbv : Nat) (pair : Nat → Nat × Nat) : Nat → Nat → Nat × Flags → Nat × Flags
  | 0, _, acc => acc
  | n + 1, k, acc =>
    let s := chunkSum f (chunkRm nbv) ((List.range (chunkLen nbv)).map fun i => pair (k + i))
    let r := fAdd fmtF32 .rne false acc.1 s.1
    floatChunks f nbv pair n (k + chunkLen nbv) (r.1, acc.2 ||| s.2 ||| r.2)

/-- Integer chunks of 16 (R87). -/
def intChunks (sat : Bool) (term : Nat → Int × Flags) : Nat → Nat → Nat × Flags → Nat × Flags
  | 0, _, acc => acc
  | n + 1, k, acc =>
    let ts := (List.range 16).map fun i => term (k + i)
    let v := intOf 2 acc.1 + (ts.map (·.1)).sum
    intChunks sat term n (k + 16) (narrow 2 sat v, ts.foldl (fun f t => f ||| t.2) acc.2)

/-- One element of MMA (R149). -/
def mmaElem (con : Consort) (ty k nbv : Nat) (sat : Bool) (acc : Nat) (ta tb : TileEnt) (i j : Nat) : Nat × Flags :=
  let a := fun x => tileRead con ta i x
  let b := fun x => tileRead con tb x j
  let old := accGet con acc i j
  match tyFmt ty with
  | some f => floatChunks f nbv (fun x => (a x, b x)) (k / chunkLen nbv) 0 (old, 0)
  | none =>
    let term := fun x =>
      if ty = 15 then let w := t2Of (a x); (w.1 * intOf 0 (b x), w.2) else (intOf 0 (a x) * intOf 0 (b x), 0)
    intChunks sat term (k / 16) 0 (old, 0)

/-- One element of MBLK: the exact sum of a block of 16, rounded once and written (R88, R89). -/
def mblkElem (con : Consort) (ty nbv : Nat) (ta tb : TileEnt) (i j : Nat) : Nat × Flags :=
  match tyFmt ty with
  | some f => chunkSum f (chunkRm nbv) ((List.range 16).map fun x => (tileRead con ta i x, tileRead con tb x j))
  | none => (0, 0)

/-- Write a rectangle of accumulator elements, each computed from the consort as it was. -/
def accFill (con : Consort) (acc rows cols : Nat) (f : Nat → Nat → Nat × Flags) : Consort × Flags :=
  let cells := (List.range rows).flatMap fun i => (List.range cols).map fun j => (accKey acc i j, f i j)
  ({ con with acc := smSets 0 con.acc (cells.map fun c => (c.1, BitVec.ofNat 32 c.2.1)) }, cells.foldl (fun f c => f ||| c.2.2) 0)

/-- One element of MDRAIN (R151): bits, or a rounding to bf16 or f16. -/
def drainElem (ty nbv : Nat) (sat : Bool) (v : Nat) : Nat × Flags :=
  match ty with
  | 8 => nbvFlush nbv fmtF16 (fCvt fmtF32 fmtF16 .rne sat v)
  | 9 => fCvt fmtF32 fmtBF16 .rne sat v
  | _ => (v, 0)

/-- Fill a tile from an accumulator (R151). -/
def drainTile (con : Consort) (acc ty nbv : Nat) (sat : Bool) (t : TileEnt) : Consort × Flags :=
  let cells := (List.range t.rows).flatMap fun i => (List.range t.cols).map fun j =>
    (i, j, drainElem ty nbv sat (accGet con acc i j))
  (cells.foldl (fun con c => tileWrite con t c.1 c.2.1 c.2.2.1) con, cells.foldl (fun f c => f ||| c.2.2.2) 0)

/-- The cells of one accumulator, keyed from 0. -/
def accCells (con : Consort) (a : Nat) : SMap Word :=
  (con.acc.filter fun c => decide (c.1 / 16384 = a)).map fun c => (c.1 % 16384, c.2)

/-- Add a contribution (R152): a sum with +0 on both sides changes nothing, so only listed cells are visited. -/
def addContribution (con : Consort) (a : Nat) (x : SMap Word) : Consort × Flags :=
  let keys := (x.map (·.1) ++ (accCells con a).map (·.1)).eraseDups
  keys.foldl (fun r i =>
    let v := fAdd fmtF32 .rne false (smGet 0 r.1.acc (a * 16384 + i)).toNat (smGet 0 x i).toNat
    ({ r.1 with acc := smSet 0 r.1.acc (a * 16384 + i) (BitVec.ofNat 32 v.1) }, r.2 ||| v.2)) (con, 0)

/-- The effect of a matrix command as it completes: the consort, its flags, and whether it failed (R148 to R151). -/
def runMatrix (con : Consort) (nbv : Nat) (k : CmdKind) : Consort × Flags × Bool :=
  match k with
  | .mma ty kk sat acc a b => match tileAt con a, tileAt con b with
    | some ta, some tb => let r := accFill con acc ta.rows tb.cols (mmaElem con ty kk nbv sat acc ta tb); (r.1, r.2, false)
    | _, _ => (con, 0, true)
  | .mblk ty acc a b => match tileAt con a, tileAt con b with
    | some ta, some tb => let r := accFill con acc ta.rows tb.cols (mblkElem con ty nbv ta tb); (r.1, r.2, false)
    | _, _ => (con, 0, true)
  | .scla dst src h => match tileAt con h with
    | some t =>
      let r := accFill con dst 128 128 fun i j =>
        scaleAdd (accGet con dst i j) (accGet con src i j) (tileRead con t 0 i) (tileRead con t 1 j)
      (r.1, r.2, false)
    | none => (con, 0, true)
  | .mzero a => ({ con with
      acc := con.acc.filter fun c => decide (c.1 / 16384 ≠ a), nextSlot := smSet 0 con.nextSlot a 0 }, 0, false)
  | .mdrain h acc ty sat => match tileAt con h with
    | some t => if t.frz then (con, 0, true) else let r := drainTile con acc ty nbv sat t; (r.1, r.2, false)
    | none => (con, 0, true)
  | _ => (con, 0, false)

end Sys2Proof.Machine
end

