-- ==== Sys2Proof/Machine/EngineEvents.lean ====
section
/-! DEFINITION. The events of the copy and matrix engines and the core freeze (R84, R100, R101, R104, R139 to R143,
R148, R152 to R154). The unit of each is the core. -/

namespace Sys2Proof.Machine

/-! ## Completion -/

/-- A command completes: flags to NSTAT, its count flag up by one, ERR on failure (R84, R141, R143, R148). -/
def completeCmd (s : State) (c : Cmd) : State :=
  match conAt s c.cid with
  | none => s
  | some con =>
    let con := match c.flag with
      | some f =>
        let con := cfAdd con f 1
        if c.failed then { con with cf := smSet 0 con.cf f (smGet 0 con.cf f ||| 0x8000) } else con
      | none => con
    let con := match (flagCourse con c.ci).bind (crsAt con) with
      | some crs => setCrs con { crs with nstat := crs.nstat ||| c.flags.setWidth 64 }
      | none => con
    setCon s con

/-- Replace a command in its queue. -/
def putCmd (k : Core) (q : Nat) (c : Cmd) : Core := setQueue k q (putWhere (queueAt k q) (fun e => e.seq == c.seq) c)

/-- The head of a queue on a core that is not frozen. -/
def headOf (s : State) (core q : Nat) : Option Cmd :=
  let k := coreAt s core
  if k.freeze.isSome then none else (queueAt k q).head?

/-! ## The freeze (R154, R223) -/

/-- A begun copy met a fault: every queue of the core stops, the record is written, and a page that is not present
is asked for. With no room for the record the line waits. -/
def freezeCore (s : State) (core ch : Nat) (c : Cmd) (e : MemErr) (va : Nat) : State :=
  let k := coreAt s core
  match conAt s c.cid with
  | none => s
  | some con =>
    if k.freeze.isSome || !fifoRoom k then s
    else
      let t := memTrap e va
      let (slot, gen, ended, none?) := faultCourse con c.ci
      let r := faultRec t.1 t.2 0 ch 0 slot 0 gen false ended true none?
      let s := setCore s core { k with fifo := k.fifo ++ [r], freeze := some ⟨c.seq, ch, ⟨t.1, t.2, 0, 0, 0⟩, s.cycles⟩ }
      if e = .xlat rNotPresent then
        { s with pris := s.pris ++ [⟨s.tick, (ctxOf s con).1, va, .freeze core⟩] }
      else s

/-- Kill the launch of the copy that froze a core (R154, R214), with the record's first doubleword in DETAIL. -/
def killFrozen (s : State) (f : Freeze) (c : Cmd) : State :=
  match conAt s c.cid with
  | none => s
  | some con =>
    let (slot, gen, ended, none?) := faultCourse con c.ci
    let r := faultRec f.trap.cause f.trap.value 0 f.chan 0 slot 0 gen false ended true none?
    let gang := (launchAt s con.launch).elim false fun l => decide (l.gangSize ≠ 0)
    killLaunch s con.launch con.cid (killStatus f.trap.cause f.trap.value gang) (BitVec.ofNat 64 (r.toNat % 2 ^ 64))

/-- The queues restart; the frozen cycles are lost to %etime. -/
def unfreeze (s : State) (core : Nat) : State :=
  modCore s core fun k => match k.freeze with
    | some f => { k with freeze := none, lost := k.lost + (s.cycles - f.since) }
    | none => k

/-- The course that issued the copy which froze a core halts for its debugger, with the trap registers written (R214). It
names the lowest split and where that stands (DESIGN CHOICE, log 27: no rule says where a course without a trapping word is). -/
def haltIssuer (s : State) (con : Consort) (f : Freeze) (c : Cmd) : State := match flagCourse con c.ci with
  | none => s
  | some ci => modCrs s con.cid ci fun c => match c.ended, c.splits with
    | false, (spi, sp) :: _ => { c with
        trapc := BitVec.ofNat 64 f.trap.cause, trapv := f.trap.value, trappc := cursor sp.pc sp.off
        halted := true, trapHalt := some spi, splits := endSleeps (resetRun c.splits spi) }
    | _, _ => c

/-- R154: the line is retried, once its page is no longer awaited; or the copy has failed (R140); or the context of the
copy is killed. With a debugger attached nothing is killed (R214): the course halts at its next clause boundary, and the core
stays frozen until the line is retried or the copy has failed. -/
def execFreezeResume (fix : FreezeFix) (s : State) : Host.Outcome State Fault Refusal :=
  let core := unitOf s
  .next (match (coreAt s core).freeze with
    | none => s
    | some f =>
      if s.pris.any (fun p => p.who == .freeze core) then s
      else
        let t := unfreeze s core
        match fix, (queueAt (coreAt s core) f.chan).find? fun c => c.seq == f.seq with
        | .failed, some c => modCore t core fun k => putCmd k f.chan { c with failed := true, todo := [] }
        | .kill, some c => match conAt s c.cid with
          | some con =>
            if !debugged s (ctxOf s con).1 then killFrozen t f c
            else if (coreAt s core).issue.any fun i => i.2.cid == con.cid && some i.2.ci == flagCourse con c.ci then s
            else haltIssuer s con f c
          | none => t
        | _, _ => t)

/-! ## Copies -/

/-- How many elements a copy moves: groups of four for KIND 3, blocks of 32 × 32 for KIND 4. -/
def copyCount (t : Tpl) : Nat := match Tpl.kind t with
  | 3 => Tpl.e t 1 * (Tpl.e t 0 / 4)
  | 4 => Tpl.e t 0 / 32 * (Tpl.e t 1 / 32)
  | _ => Tpl.e t 0 * Tpl.e t 1 * Tpl.e t 2

/-- COPY_BEGIN (R134, R141). -/
def execCopyBegin (ch : Nat) (s : State) : Host.Outcome State Fault Refusal :=
  let core := unitOf s
  .next (match headOf s core ch with
    | none => s
    | some c =>
      if c.begun ∨ 4 ≤ ch ∨ !hazardFree s (coreAt s core) c then s
      else match c.kind with
        | .copy tpl _ _ _ _ => modCore s core fun k => putCmd k ch { c with begun := true, todo := List.range (copyCount tpl) }
        | _ => s)

/-- Indices of an element of KIND 0, 1 and 2. -/
def elemIdx (t : Tpl) (i : Nat) : Nat × Nat × Nat :=
  let e0 := Tpl.e t 0
  let e1 := Tpl.e t 1
  (i % e0, i / e0 % e1, i / e0 / e1)

/-- Bit address of an element in memory (R139); sub-byte elements are packed along dimension 0. -/
def elemBit (t : Tpl) (base : DWord) (i : Nat × Nat × Nat) : Nat :=
  let w := tyBits (Tpl.ty t)
  let a := wrapTo 64 ((base.toNat : Int) + i.1 * Tpl.s t 0 + i.2.1 * Tpl.s t 1 + i.2.2 * Tpl.s t 2)
  8 * a + if w < 8 then i.1 * w else 0

/-- An element is in bounds by the valid counts (R138). -/
def inBounds (s3 : DWord) (i : Nat × Nat × Nat) : Bool :=
  decide (i.1 < bits s3.toNat 0 16 ∧ i.2.1 < bits s3.toNat 16 16 ∧ i.2.2 < bits s3.toNat 32 16)

/-- What an element shares with the others of its 64-byte transfer. -/
def lineKey (c : Cmd) (i : Nat) : Nat := match c.kind with
  | .copy tpl s0 _ s2 s3 =>
    let w := tyBits (Tpl.ty tpl)
    match Tpl.kind tpl with
    | 3 =>
      let e := Tpl.e tpl 0 / 4
      2 * (wrapTo 64 ((s0.toNat : Int) + (i / e : Nat) * Tpl.s tpl 1 + (i % e * 2 * (w / 8) : Nat)) / 64)
    | 4 => i
    | k =>
      let j := elemIdx tpl i
      let row := (rowCol s2).1 + j.2.1 + Tpl.e tpl 1 * j.2.2
      if inBounds s3 j ∧ k ≠ 2 ∨ k = 1 ∧ Tpl.zfill tpl then 2 * (elemBit tpl s0 j / 512) else 2 * (row * 16 + j.1 * w / 512) + 1
  | _ => 0

/-- What moving one element comes to. -/
inductive Moved where
  | ok (s : State) (flags : Flags)
  | failed
  | wait
  | fault (e : MemErr) (va : Nat)

/-- Put of R139: the value, or the reduce-add with the value there. -/
def putAs (red : Bool) (ty nbv d v : Nat) : Nat × Flags :=
  if !red then (v, 0)
  else match tyFmt ty with
    | some f => nbvFlush nbv f (fAdd f .rne false d v)
    | none => ((d + v) % 2 ^ 32, 0)

def putVal (t : Tpl) (nbv d v : Nat) : Nat × Flags := putAs (Tpl.red t) (Tpl.ty t) nbv d v

/-- Read the bits of a memory element. -/
def memElem (s : State) (ctx : Nat × Nat) (w bit : Nat) : Except MemErr Nat := do
  let n := max 1 (w / 8)
  let b ← load s ctx.1 ctx.2 (bit / 8) n
  .ok (bits (ofBytes b) (bit % 8) w)

/-- Read the bits of a memory element that goes to a tile: no order puts the copy after stores since the tile's TGIVE (R99). -/
def fillElem (s : State) (ctx : Nat × Nat) (cid w bit : Nat) : Except MemErr Nat := do
  let b ← loadSeen s (.copy cid) ctx.1 ctx.2 (bit / 8) (max 1 (w / 8))
  .ok (bits (ofBytes b) (bit % 8) w)

/-- Write the bits of a memory element. -/
def memPut (s : State) (ctx : Nat × Nat) (w bit v : Nat) : Except MemErr State :=
  if 8 ≤ w then store s ctx.1 ctx.2 (bit / 8) (toBytes (w / 8) v)
  else do
    let b ← load s ctx.1 ctx.2 (bit / 8) 1
    let old := ofBytes b
    store s ctx.1 ctx.2 (bit / 8) [BitVec.ofNat 8 (old - bits old (bit % 8) w * 2 ^ (bit % 8) + v % 2 ^ w * 2 ^ (bit % 8))]

/-- A copy of a consort from a tile has written n bytes at each of some addresses: what they held may be found for a while
(R121, R128). -/
def noteCopied (s : State) (ctx : Nat × Nat) (w : Writer) (n : Nat) (vas : List Nat) (s' : State) : State :=
  vas.foldl (fun s' va => match translate s ctx.1 ctx.2 .write va with
    | .ok l => (spotOf s l va).elim s' fun p => noteOld s w [] (ctx.1, va) p.1 p.2 n s'
    | .error _ => s') s'

/-- Write a tile element of a consort; a frozen tile drops it (R101). -/
def tilePut (s : State) (cid h r c : Nat) (f : Nat → Nat × Flags) : Moved :=
  match conAt s cid with
  | none => .failed
  | some con => match tileAt con h with
    | none => .failed
    | some t =>
      if t.frz then .failed
      else
        let v := f (tileRead con t r c)
        .ok (setCon s (tileWrite con t r c v.1)) v.2

def tileGet (s : State) (cid h r c : Nat) : Nat :=
  match (conAt s cid).bind fun con => (tileAt con h).map fun t => tileRead con t r c with
  | some v => v
  | none => 0

/-- Four elements of a 2:4 fill (R104): from two values and a nibble; a bad group is four zeros. -/
def sparseGroup (nib v0 v1 : Nat) : List Nat × Bool :=
  let i0 := nib % 4
  let i1 := nib / 4 % 4
  if i0 < i1 then ((List.range 4).map fun j => if j = i0 then v0 else if j = i1 then v1 else 0, true) else ([0, 0, 0, 0], false)

/-- A block of KIND 4 (R139): read whole from the source, then written whole, transposed, to the destination. -/
def movedBlock (s : State) (cid src dst r0 c0 dr dc : Nat) : Moved :=
  let cells := (List.range 1024).map fun j => (j / 32, j % 32, tileGet s cid src (r0 + j / 32) (c0 + j % 32))
  cells.foldl (fun m c => match m with
    | .ok s fl => match tilePut s cid dst (dr + c.2.1) (dc + c.1) fun _ => (c.2.2, 0) with
      | .ok s _ => .ok s fl
      | m => m
    | m => m) (.ok s 0)

/-- Fill the four elements of a group. -/
def fillGroup (s : State) (cid h r c : Nat) : List Nat → Moved
  | [] => .ok s 0
  | v :: vs => match tilePut s cid h r c fun _ => (v, 0) with
    | .ok s _ => fillGroup s cid h r (c + 1) vs
    | m => m

/-- Move one element of a copy whose ends are memory and local tiles (R104, R139). The flag says that the group
was bad. -/
def moveElem (s : State) (c : Cmd) (tpl : Tpl) (s0 s1 s2 s3 : DWord) (i : Nat) : Moved × Bool :=
  let ctx := match conAt s c.cid with
    | some con => ctxOf s con
    | none => (0, 0)
  let w := tyBits (Tpl.ty tpl)
  let h := bits s1.toNat 0 6
  let (r0, c0) := rowCol s2
  let pinned := fun va => waitsPinned s ctx c.cid [va]
  match Tpl.kind tpl with
  | 3 =>
    let e := Tpl.e tpl 0 / 4
    let r := i / e
    let g := i % e
    let va := wrapTo 64 ((s0.toNat : Int) + r * Tpl.s tpl 1 + (2 * g * (w / 8) : Nat))
    let ma := wrapTo 64 ((s3.toNat : Int) + r * Tpl.s tpl 2 + (g / 2 : Nat))
    if va % (w / 8) ≠ 0 then (.failed, false)
    else if pinned va || pinned (va + w / 8) || pinned ma then (.wait, false)
    else match fillElem s ctx c.cid w (8 * va), fillElem s ctx c.cid w (8 * (va + w / 8)), fillElem s ctx c.cid 8 (8 * ma) with
      | .ok v0, .ok v1, .ok m =>
        let grp := sparseGroup (bits m (4 * (g % 2)) 4) v0 v1
        let s := sawVas (sawVas s (.copy c.cid) ctx (w / 8) [va, va + w / 8]) (.copy c.cid) ctx 1 [ma]
        (fillGroup s c.cid h (r0 + r) (c0 + 4 * g) grp.1, !grp.2)
      | .error e, _, _ => (.fault e va, false)
      | _, .error e, _ => (.fault e (va + w / 8), false)
      | _, _, .error e => (.fault e ma, false)
  | 4 =>
    let b0 := i % (Tpl.e tpl 0 / 32) * 32
    let b1 := i / (Tpl.e tpl 0 / 32) * 32
    let (dr, dc) := rowCol s3
    (movedBlock s c.cid h (bits s1.toNat 8 6) (r0 + b1) (c0 + b0) (dr + b0) (dc + b1), false)
  | k =>
    let j := elemIdx tpl i
    let row := r0 + j.2.1 + Tpl.e tpl 1 * j.2.2
    let col := c0 + j.1
    let bit := elemBit tpl s0 j
    let va := bit / 8
    let inb := inBounds s3 j
    if !inb && !Tpl.zfill tpl then (.ok s 0, false)
    else if k = 0 ∧ !inb then (tilePut s c.cid h row col fun _ => (0, 0), false)
    else if va % max 1 (w / 8) ≠ 0 then (.failed, false)
    else if pinned va then (.wait, false)
    else if k = 0 then match fillElem s ctx c.cid w bit with
      | .ok v => (tilePut (tlbNote (sawVas s (.copy c.cid) ctx (max 1 (w / 8)) [va]) ctx.1 ctx.2 va) c.cid h row col fun d => putVal tpl c.nbv d v, false)
      | .error e => (.fault e va, false)
    else
      let v := tileGet s c.cid h row col
      let n := max 1 (w / 8)
      let s := if Tpl.red tpl then forgetVas s ctx n [va] else s
      let new := if !inb then Except.ok (0, 0)
        else if Tpl.red tpl then (memElem s ctx w bit).map fun d => putVal tpl c.nbv d v else .ok (v, 0)
      match new with
      | .error e => (.fault e va, false)
      | .ok r => match memPut s ctx w bit r.1 with
        | .ok s' => (.ok (tlbNote (noteCopied s ctx (.copy c.cid h (Tpl.step tpl)) n [va] s') ctx.1 ctx.2 va) r.2, false)
        | .error e => (.fault e va, false)

/-- Is the consort at a place of a consort's gang pre-empted out (R229)? -/
def savedRank (s : State) (con : Consort) (l : Launch) (place : Nat) : Bool :=
  s.saved.any fun v => v.consort.launch == con.launch && v.consort.index == con.index / l.gangSize * l.gangSize + place

/-- The peer end of a KIND 2 copy: none for a rank on another package (R140, R100). -/
inductive PeerEnd where
  | bad
  | wait
  | away
  | tile (cid h : Nat)
  deriving DecidableEq, Repr

def peerEnd (s : State) (c : Cmd) (tpl : Tpl) (s0 s3 : DWord) : PeerEnd :=
  match conAt s c.cid with
  | none => .bad
  | some con =>
    let l := launchOf s con
    let rank := bits s0.toNat 0 8
    let h := bits s0.toNat 8 6
    let base := l.span.elim 0 (·.base)
    if l.gangSize = 0 ∨ gangTotal l ≤ rank then .bad
    else if rank < base ∨ base + l.gangSize ≤ rank then .away
    else match rankConsort s con rank with
      | none => if savedRank s con l (rank - base) then .wait else .bad
      | some peer =>
        if (coreAt s peer.core).freeze.isSome then .wait
        else match tileAt peer h with
          | none => .bad
          | some t =>
            let (r, c) := rowCol s3
            if !t.lvl || !fitsTile t (Tpl.ty tpl) (r, c) (Tpl.e tpl 1 * Tpl.e tpl 2) (Tpl.e tpl 0) then .bad
            else if !t.own then .wait else .tile peer.cid h

/-- Is the package of a rank of a gang lost, or out of reach with no link up (R280)? -/
def rankLost (s : State) (con : Consort) (rank : Nat) : Bool :=
  ((launchOf s con).span.bind fun g => g.pkgs[rank]?).elim false fun p => !reaches s p

/-- Move one element to the peer. A peer on a lost package is a failed one (R140, R226, R280). -/
def movePeer (s : State) (c : Cmd) (tpl : Tpl) (s0 s1 s2 s3 : DWord) (i : Nat) : Moved :=
  match peerEnd s c tpl s0 s3 with
  | .bad => .failed
  | .wait => .wait
  | .away =>
    if Config.remoteFails s.tick || (conAt s c.cid).elim true (rankLost s · (bits s0.toNat 0 8)) then .failed
    else .ok s (if Tpl.red tpl then Config.remoteFlags s.tick else 0)
  | .tile cid h =>
    let j := elemIdx tpl i
    let row := j.2.1 + Tpl.e tpl 1 * j.2.2
    let v := tileGet s c.cid (bits s1.toNat 0 6) ((rowCol s2).1 + row) ((rowCol s2).2 + j.1)
    tilePut s cid h ((rowCol s3).1 + row) ((rowCol s3).2 + j.1) fun d => putVal tpl c.nbv d v

/-- Outcome of a run of elements: none to wait, or the state and the command as they stand; a fault names itself. -/
inductive LineDone where
  | wait
  | fault (e : MemErr) (va : Nat)
  | done (s : State) (c : Cmd)

/-- Move a line's elements in turn: what was written before a failure stays, and nothing follows it (R140). The order is that
of the elements' indices, so that the last of those that strides put in one place stays: R139 leaves it unspecified (DESIGN
CHOICE, log 29; the order of the lines is free). -/
def moveLine (mv : State → Cmd → Nat → Moved × Bool) (s : State) (c : Cmd) : List Nat → LineDone
  | [] => .done s c
  | i :: is => match mv s c i with
    | (.ok s' fl, bad) =>
      moveLine mv s' { c with flags := c.flags ||| fl, failed := c.failed || bad, todo := c.todo.filter (· != i) } is
    | (.failed, _) => .done s { c with failed := true, todo := [] }
    | (.wait, _) => .wait
    | (.fault e va, _) => .fault e va

/-- The bytes of a whole line that a KIND 1 copy writes with no merge (R282): every element of the line is written, none is
misaligned (R140), and none is added to what is there. -/
def wholeLine (s : State) (c : Cmd) (line : List Nat) : Option (Nat × List Byte) :=
  match c.kind with
  | .copy tpl s0 s1 s2 s3 =>
    let w := tyBits (Tpl.ty tpl)
    let at' := fun i => elemBit tpl s0 (elemIdx tpl i)
    let val := fun i =>
      let j := elemIdx tpl i
      if inBounds s3 j then tileGet s c.cid (bits s1.toNat 0 6) ((rowCol s2).1 + j.2.1 + Tpl.e tpl 1 * j.2.2) ((rowCol s2).2 + j.1) else 0
    let written := line.filter fun i => inBounds s3 (elemIdx tpl i) || Tpl.zfill tpl
    if Tpl.kind tpl ≠ 1 ∨ Tpl.red tpl ∨ written.any (fun i => at' i / 8 % max 1 (w / 8) != 0) then none
    else match written.head? with
      | none => none
      | some i0 =>
        let cells := (List.range (512 / w)).map fun k => (written.filter fun i => at' i == at' i0 / 512 * 512 + k * w).getLast?
        if cells.all (·.isSome) then
          some (at' i0 / 512 * 64, toBytes 64 ((cells.zipIdx.map fun k => k.1.elim 0 fun i => val i % 2 ^ w * 2 ^ (w * k.2)).sum))
        else none
  | _ => none

/-- Write a whole line, once no other consort has it pinned. -/
def putLine (s : State) (c : Cmd) (line : List Nat) (va : Nat) (bs : List Byte) : LineDone :=
  let ctx := (conAt s c.cid).elim (0, 0) (ctxOf s)
  let note := match c.kind with
    | .copy tpl s0 s1 _ _ => noteCopied s ctx (.copy c.cid (bits s1.toNat 0 6) (Tpl.step tpl)) (max 1 (tyBits (Tpl.ty tpl) / 8))
        (line.map fun i => elemBit tpl s0 (elemIdx tpl i) / 8).eraseDups
    | _ => id
  if waitsPinned s ctx c.cid [va] then .wait
  else match store s ctx.1 ctx.2 va bs with
    | .error e => .fault e va
    | .ok s' => .done (tlbNote (note s') ctx.1 ctx.2 va)
        { c with todo := c.todo.filter fun e => !line.contains e }

/-- A transfer of the head of a channel, from its todo place i (R141); a fault moves nothing of the line and freezes
the core (R154). -/
def transfer (s : State) (ch i : Nat) (peer : Bool) : State :=
  let core := unitOf s
  match headOf s core ch with
  | none => s
  | some c => match c.kind, c.todo[i]? with
    | .copy tpl s0 s1 s2 s3, some e0 =>
      if !c.begun || decide (4 ≤ ch) || (Tpl.kind tpl == 2) != peer then s
      else
        let line := c.todo.filter fun e => lineKey c e == lineKey c e0
        let mv := fun s c e => if peer then (movePeer s c tpl s0 s1 s2 s3 e, false) else moveElem s c tpl s0 s1 s2 s3 e
        match (wholeLine s c line).elim (moveLine mv s c line) fun l => putLine s c line l.1 l.2 with
        | .wait => s
        | .fault e va => freezeCore s core ch c e va
        | .done s' c' => modCore s' core fun k => putCmd k ch c'
    | _, _ => s

/-- COPY_LINE_TRANSFER (R139 to R141). -/
def execCopyLineTransfer (ch i : Nat) (s : State) : Host.Outcome State Fault Refusal := .next (transfer s ch i false)
/-- PEER_TILE_WRITE (R100, R101, R140): the transfer at the head of what is left; or an element that arrives from a
consort on another package at this core, whose sender finds out how it fared (R140). -/
def execPeerTileWrite (src : PeerSource) (s : State) : Host.Outcome State Fault Refusal :=
  .next (match src with
    | .channel ch => transfer s ch 0 true
    | .remote e => match conAt s e.cid with
      | none => s
      | some con => match tileAt con e.h with
        | none => s
        | some t =>
          if !reaches s e.pkg ∨ con.core ≠ unitOf s ∨ (coreAt s con.core).freeze.isSome ∨ !t.lvl ∨ !t.own ∨ t.rows ≤ e.row ∨ t.cols ≤ e.col then s
          else match tilePut s e.cid e.h e.row e.col fun d => putAs (e.red && [2, 9, 10].contains t.ty) t.ty e.nbv d e.value with
            | .ok s _ => s
            | _ => s)

/-- COPY_COMPLETE (R141). -/
def execCopyComplete (ch : Nat) (s : State) : Host.Outcome State Fault Refusal :=
  let core := unitOf s
  .next (match headOf s core ch with
    | none => s
    | some c =>
      if c.begun && c.todo.isEmpty && decide (ch < 4) then
        reap (modCore (completeCmd s c) core fun k => setQueue k ch ((queueAt k ch).drop 1)) c.cid
      else s)

/-! ## Matrix commands -/

/-- MATRIX_START (R134, R148); a peer add reads its accumulator and is sent (R152). -/
def execMatrixStart (s : State) : Host.Outcome State Fault Refusal :=
  let core := unitOf s
  .next (match headOf s core 4 with
    | none => s
    | some c =>
      if c.begun || !hazardFree s (coreAt s core) c then s
      else
        let payload := match c.kind, conAt s c.cid with
          | .peer _ _ a _, some con => accCells con a
          | _, _ => []
        modCore s core fun k => { putCmd k 4 { c with begun := true, payload := payload } with passes := 0 })

/-- Why a contribution is not applied yet, or never, or what applying it makes of the receiver (R152, R153). -/
inductive AddDone where
  | wait
  | bad
  | ok (rc : Consort) (flags : Flags)

/-- Is a peer add aimed at its sender's own rank (R348)? -/
def selfAdd (s : State) (c : Cmd) : Bool := match c.kind with
  | .peer _ _ _ target => (conAt s c.cid).elim false fun con =>
      (rankConsort s con (bits target.toNat 0 8)).elim false (·.cid == c.cid)
  | _ => false

/-- Is the array of a core between commands? A peer add that waits for another consort does not occupy it (R152); one to its
own sender is applied as part of the command, so it does (R348). -/
def arrayFree (s : State) (k : Core) : Bool := match k.matq.head? with
  | some c => !c.begun || (match c.kind with
    | .peer _ _ _ _ => !selfAdd s c
    | _ => false)
  | none => true

/-- Add a contribution to a consort, when its slot is due. -/
def addTo (rc : Consort) (acc : Nat) (payload : SMap Word) (slot rflag : Option Nat) : AddDone :=
  if decide (rc.nacc ≤ acc) || rflag.elim false fun f => decide (rc.nflag ≤ f) then .bad
  else if slot.elim false fun j => smGet 0 rc.nextSlot acc != j then .wait
  else
    let (rc, fl) := addContribution rc acc payload
    let rc := slot.elim rc fun j => { rc with nextSlot := smSet 0 rc.nextSlot acc (j + 1) }
    .ok (rflag.elim rc fun f => cfAdd rc f 1) fl

/-- Apply a contribution that arrives for a consort, between the commands of its core's array. -/
def applyAdd (s : State) (rc : Consort) (acc : Nat) (payload : SMap Word) (slot rflag : Option Nat) : AddDone :=
  let rk := coreAt s rc.core
  if rk.freeze.isSome || !arrayFree s rk then .wait else addTo rc acc payload slot rflag

/-- A contribution that came from another package, by its place among those that wait (R152): it is applied, or goes on
waiting, or what it names is not there. -/
def applyArrived (s : State) (i : Nat) : State := match s.adds[i]? with
  | none => s
  | some a =>
    let taken := { s with adds := s.adds.eraseIdx i }
    match conAt s a.cid with
    | none => if s.saved.any (fun v => v.consort.cid == a.cid) then s else taken
    | some rc => match applyAdd s rc a.acc (smSets 0 [] (a.payload.filter fun c => decide (c.1 < 16384))) a.slot a.rflag with
      | .ok rc _ => setCon taken rc
      | .bad => taken
      | .wait => s

/-- The slot that a peer add's target names for an ordered add, and the receiver's flag (R152). -/
def addSlot (ordered : Bool) (target : DWord) : Option Nat := if ordered then some (bits target.toNat 8 8) else none
def addFlag (target : DWord) : Option Nat := if target.getLsbD 22 then some (bits target.toNat 16 6) else none

/-- PEER_CONTRIBUTION_APPLY (R152, R153, R226): at the sender's core, the contribution at the head of its matrix queue
reaches the receiver, unless that is the sender itself; a unit from 256 on names a contribution that came from another package.
What has been sent is applied while the sender's core is frozen: R154 stops the queue, and R152 has the contribution sent by
then (DESIGN CHOICE, log 29). -/
def execPeerContributionApply (s : State) : Host.Outcome State Fault Refusal :=
  let core := unitOf s
  let mark := fun (s : State) (c : Cmd) => modCore s core fun k => putCmd k 4 { c with done := true }
  .next (if 256 ≤ core then applyArrived s (core - 256)
  else match (coreAt s core).matq.head? with
    | none => s
    | some c => match c.kind, conAt s c.cid with
      | .peer ordered racc _ target, some con =>
        let l := launchOf s con
        let rank := bits target.toNat 0 8
        let base := l.span.elim 0 (·.base)
        if !c.begun || c.done || selfAdd s c then s
        else if rank < base ∨ base + l.gangSize ≤ rank then
          mark s { c with flags := Config.remoteFlags s.tick, failed := Config.remoteFails s.tick || rankLost s con rank }
        else match rankConsort s con rank with
          | none => if savedRank s con l (rank - base) then s else mark s { c with failed := true }
          | some rc =>
            match applyAdd s rc racc c.payload (addSlot ordered target) (addFlag target) with
            | .wait => s
            | .bad => mark s { c with failed := true }
            | .ok rc fl => mark (setCon s rc) { c with flags := fl }
      | _, _ => s)

/-- What a matrix command at the head of the queue does to its consort, with its flags and whether it fails; none while it may
not end (R148): a peer add ends once it has been applied or has failed, and one to its own sender is applied now (R348). -/
def matrixDone (s : State) (c : Cmd) : Option (State × Cmd) := match c.kind, conAt s c.cid with
  | .peer ordered acc _ target, some con =>
    if !selfAdd s c then if c.done then some (s, c) else none
    else match addTo con acc c.payload (addSlot ordered target) (addFlag target) with
      | .wait => none
      | .bad => some (s, { c with failed := true })
      | .ok con fl => some (setCon s con, { c with flags := fl })
  | _, some con =>
    let (con, fl, failed) := runMatrix con c.nbv c.kind
    some (setCon s con, { c with flags := c.flags ||| fl, failed := failed })
  | _, none => some (s, c)

/-- MATRIX_COMPLETE (R148, R348). -/
def execMatrixComplete (s : State) : Host.Outcome State Fault Refusal :=
  let core := unitOf s
  .next (match headOf s core 4 with
    | none => s
    | some c =>
      if !c.begun then s
      else match matrixDone s c with
        | none => s
        | some (s, c) => reap (modCore (completeCmd s c) core fun k => setQueue k 4 ((queueAt k 4).drop 1)) c.cid)

end Sys2Proof.Machine
end

