-- ==== Sys2Proof/Machine/Func.lean ====
section
/-! DEFINITION. The correctly rounded functions of R90 and R91 (VRCP to VTANH). Each is bracketed in fixed
point at rising precision until both ends of the bracket round alike, which is then the rounded true value. -/

namespace Sys2Proof.Machine

/-- Σ r^n / n! from term n on, in fixed point with p fraction bits, 0 ≤ r < 1. -/
def expSeries (p r : Nat) : Nat → Nat → Nat → Nat
  | 0, _, _ => 0
  | fuel + 1, n, term => if term = 0 then 0 else term + expSeries p r fuel (n + 1) (term * r / 2 ^ p / (n + 1))

/-- e^r in fixed point. -/
def expFix (p r : Nat) : Nat := expSeries p r p 0 (2 ^ p)

/-- Σ z^(2k+1) / (2k+1) from term k on; `alt` alternates the signs. -/
def oddSeries (p zz : Nat) (alt : Bool) : Nat → Nat → Nat → Int
  | 0, _, _ => 0
  | fuel + 1, k, zk =>
    if zk = 0 then 0
    else ((zk / (2 * k + 1) : Nat) : Int) +
      (if alt then -oddSeries p zz alt fuel (k + 1) (zk * zz / 2 ^ p)
       else oddSeries p zz alt fuel (k + 1) (zk * zz / 2 ^ p))

/-- artanh z in fixed point, 0 ≤ z ≤ 1/3. -/
def artanhFix (p z : Nat) : Nat := (oddSeries p (z * z / 2 ^ p) false p 0 z).toNat

/-- arctan (1/n) in fixed point. -/
def arctanInv (p n : Nat) : Int := oddSeries p (2 ^ p / (n * n)) true p 0 (2 ^ p / n)

def ln2Fix (p : Nat) : Nat := 2 * artanhFix p (2 ^ p / 3)

/-- π by Machin's formula. -/
def piFix (p : Nat) : Nat := (16 * arctanInv p 5 - 4 * arctanInv p 239).toNat

/-- sin or cos of r in fixed point, 0 ≤ r < 2: Σ ± r^n / n! over odd or even n. -/
def trigSeries (p rr : Nat) : Nat → Nat → Nat → Int
  | 0, _, _ => 0
  | fuel + 1, n, term =>
    if term = 0 then 0 else (term : Int) - trigSeries p rr fuel (n + 2) (term * rr / 2 ^ p / ((n + 1) * (n + 2)))

def sinFix (p r : Nat) : Int := trigSeries p (r * r / 2 ^ p) p 1 r
def cosFix (p r : Nat) : Int := trigSeries p (r * r / 2 ^ p) p 0 (2 ^ p)

/-- A bracketed value: (-1)^neg times something between lo and hi, over 2^p, times 2^sh. -/
structure Bracket where
  neg : Bool
  lo : Int
  hi : Int
  p : Nat
  sh : Int
  deriving DecidableEq, Repr

/-- Round one end of a bracket; the value is known to be inexact. -/
def roundEnd (f : FFmt) (neg : Bool) (v : Int) (p : Nat) (sh : Int) : Nat × Flags :=
  let r := roundDy f .rne false ⟨(if neg then -(2 * v + 1) else 2 * v + 1), sh - p - 1⟩ neg
  (r.1, r.2 ||| flNX)

/-- The bracket's rounded value, when both ends agree. -/
def Bracket.decide? (f : FFmt) (b : Bracket) : Option (Nat × Flags) :=
  if b.lo ≤ 0 then none
  else
    let x := roundEnd f b.neg b.lo b.p b.sh
    let y := roundEnd f b.neg (b.hi - 1) b.p b.sh
    if x = y then some x else none

/-- Try rising precisions; the last stands in every case (no input of these formats needs it). -/
def roundBracketed (f : FFmt) (g : Nat → Bracket) : List Nat → Nat × Flags
  | [] => (f.canon, 0)
  | [p] => let b := g p; roundEnd f b.neg b.lo b.p b.sh
  | p :: q :: ps => match (g p).decide? f with
    | some r => r
    | none => roundBracketed f g (q :: ps)

def precisions : List Nat := [200, 400, 800, 1600]

/-- The allowance for the accumulated truncations of one series. -/
def slack (p : Nat) : Nat := 64 * p + 64

/-- m × 2^e in fixed point with p fraction bits, truncated. -/
def toFix (p m : Nat) (e : Int) : Nat :=
  let k := e + p
  if k < 0 then m / 2 ^ k.natAbs else m * 2 ^ k.natAbs

/-- 2^x for a finite x that is no integer, |x| below 2^11. -/
def exp2Bracket (neg : Bool) (m : Nat) (e : Int) (p : Nat) : Bracket :=
  let ax := toFix p m e
  let n := ax / 2 ^ p
  let fr := ax % 2 ^ p
  -- −x = −n − fr = −(n+1) + (1 − fr)
  let fr' := if neg then 2 ^ p - fr else fr
  let v := expFix p (fr' * ln2Fix p / 2 ^ p)
  ⟨false, (v : Int) - slack p, (v : Int) + slack p, p, if neg then -(n + 1 : Nat) else n⟩

/-- log2 of a positive m × 2^e that is no power of two. -/
def log2Bracket (m : Nat) (e : Int) (p : Nat) : Bracket :=
  let k : Int := (m.log2 : Int) + e
  let one := 2 ^ m.log2
  let z := (m - one) * 2 ^ p / (m + one)
  let l := 2 * artanhFix p z * 2 ^ p / ln2Fix p
  let v : Int := k * 2 ^ p + l
  ⟨decide (v < 0), (v.natAbs : Int) - 4 * slack p, (v.natAbs : Int) + 4 * slack p, p, 0⟩

/-- sin (or cos) of (-1)^neg × m × 2^e: the angle is reduced with π to as many bits as its size needs (R90). -/
def trigBracket (wantCos neg : Bool) (m : Nat) (e : Int) (p : Nat) : Bracket :=
  let w := p + 300
  let half := piFix w / 2
  let ax := toFix w m e
  let q := ax / half
  let r := (ax % half) / 2 ^ 300
  let k := if wantCos then q + 1 else q
  let v := if k % 2 = 0 then sinFix p r else cosFix p r
  let flip : Bool := k % 4 == 2 || k % 4 == 3
  let neg' := (flip != (decide (v < 0))) != (neg && !wantCos)
  ⟨neg', (v.natAbs : Int) - slack p, (v.natAbs : Int) + slack p, p, 0⟩

/-- tanh of |m × 2^e| < 512: (1 − E) / (1 + E), E = e^(−2|x|) = 2^−n × e^−f. -/
def tanhBracket (neg : Bool) (m : Nat) (e : Int) (p : Nat) : Bracket :=
  let y := 2 * toFix p m e
  let l2 := ln2Fix p
  let n := y / l2
  let E := expFix p (l2 - y % l2) / 2 ^ (n + 1)
  let v := ((2 ^ p : Nat) - E : Int) * 2 ^ p / ((2 ^ p : Nat) + E : Int)
  ⟨neg, v - 4 * slack p, v + 4 * slack p, p, 0⟩

/-- The eight functions of OP 0x53 in FN order (R63), and what R91 gives their special values. -/
inductive Fn where
  | rcp | rsq | sqrt | exp2 | log2 | sin | cos | tanh
  deriving DecidableEq, Repr

/-- 1.0 in a format. -/
def FFmt.one (f : FFmt) : Nat := f.bias * 2 ^ f.mb

/-- Is m × 2^e an integer? -/
def isInteger (m : Nat) (e : Int) : Bool := decide (e ≥ 0) || decide (m % 2 ^ e.natAbs = 0)

def fRsq (f : FFmt) (x : Nat) : Nat × Flags :=
  match f.unpack x with
  | .nan s => (f.canon, sigFlag (.nan s))
  | .inf false => (0, 0)
  | .inf true => (f.canon, flIV)
  | .fin neg m e =>
    if m = 0 then (f.signed neg (f.maxFin + 1), flDZ)
    else if neg then (f.canon, flIV)
    else
      let g := 400
      let s := if e < 0 then sqrtSticky (2 ^ e.natAbs) m g else sqrtSticky 1 (m * 2 ^ e.natAbs) g
      roundRat f .rne false false s (2 ^ (g + 1))

def fExp2 (f : FFmt) (x : Nat) : Nat × Flags :=
  match f.unpack x with
  | .nan s => (f.canon, sigFlag (.nan s))
  | .inf false => (x, 0)
  | .inf true => (0, 0)
  | .fin neg m e =>
    if m = 0 then (f.one, 0)
    else if toFix 0 m e ≥ 1024 then
      if neg then roundRat f .rne false false 1 (2 ^ 1024) else roundRat f .rne false false (2 ^ 1024) 1
    else if isInteger m e then
      let n := toFix 0 m e
      if neg then roundRat f .rne false false 1 (2 ^ n) else roundRat f .rne false false (2 ^ n) 1
    else roundBracketed f (exp2Bracket neg m e) precisions

def fLog2 (f : FFmt) (x : Nat) : Nat × Flags :=
  match f.unpack x with
  | .nan s => (f.canon, sigFlag (.nan s))
  | .inf false => (x, 0)
  | .inf true => (f.canon, flIV)
  | .fin neg m e =>
    if m = 0 then (f.signed true (f.maxFin + 1), flDZ)
    else if neg then (f.canon, flIV)
    else if m = 2 ^ m.log2 then roundDy f .rne false ⟨(m.log2 : Int) + e, 0⟩ false
    else roundBracketed f (log2Bracket m e) precisions

def fTrig (f : FFmt) (wantCos : Bool) (x : Nat) : Nat × Flags :=
  match f.unpack x with
  | .nan s => (f.canon, sigFlag (.nan s))
  | .inf _ => (f.canon, flIV)
  | .fin neg m e =>
    if m = 0 then (if wantCos then f.one else x, 0)
    else roundBracketed f (trigBracket wantCos neg m e) precisions

def fTanh (f : FFmt) (x : Nat) : Nat × Flags :=
  match f.unpack x with
  | .nan s => (f.canon, sigFlag (.nan s))
  | .inf neg => (f.signed neg f.one, 0)
  | .fin neg m e =>
    if m = 0 then (x, 0)
    else if toFix 0 m e ≥ 512 then (f.signed neg f.one, flNX)
    else roundBracketed f (tanhBracket neg m e) precisions

/-- A reciprocal that is subnormal is none of the exact cases of R90: it is inexact and tiny. -/
def subnormalRcp (f : FFmt) (r : Nat × Flags) : Nat × Flags :=
  let mag := r.1 % f.signBit
  if 0 < mag ∧ mag < 2 ^ f.mb then (r.1, r.2 ||| flUF ||| flNX) else r

/-- R90, R91: one function of OP 0x53; `rm` acts on VSQRT alone. -/
def evalFn (fn : Fn) (f : FFmt) (rm : Rm) (nbv x : Nat) : Nat × Flags :=
  nbvFlush nbv f (match fn with
    | .rcp => subnormalRcp f (fDiv f .rne false f.one x)
    | .rsq => fRsq f x
    | .sqrt => fSqrt f rm x
    | .exp2 => fExp2 f x
    | .log2 => fLog2 f x
    | .sin => fTrig f false x
    | .cos => fTrig f true x
    | .tanh => fTanh f x)

end Sys2Proof.Machine
end

