-- ==== Sys2Proof/Machine/EngineIssue.lean ====
section
/-! DEFINITION. Templates, engine commands as a course issues them, count flags, and the owner bit
(R99, R136, R138, R142, R144 to R151, R300 to R303, R345 to R350, R362, R376, R377, R406 to R408). -/

namespace Sys2Proof.Machine

/-- The issue checks of a fed or issued word are made before anything is queued; then the operands' marks, the
record of an etch, and the queues. -/
def engineWord (s : State) (sregs : List Nat) (plan : Cur → Chk (List Plan)) (rec : State → Cur → State × Cur) : State :=
  onWord s [] sregs fun x => match plan x with
    | .error t => trap s x t.1 t.2
    | .ok plans =>
      if !roomFor x.k (plans.map (·.queue)) then waitHere s x
      else abandonIn 4 (sregs.any (isVolatile x.c)) s x fun s x =>
        let (s, x) := rec s x
        retire s { x with k := enqueue s.tick x.k x.con.cid (some x.c.idx) (x.c.nbv.toNat % 256) none plans } 2

/-- The four scalars of a copy. -/
def copyRegs (p : P) : List Nat := (List.range 4).map (p.a.toNat + ·)

/-- XCOPY and XCOPYM (R406, R407). -/
def copyWord (s : State) (p : P) (mma : Option (Nat × Nat)) : State :=
  let sc := fun (x : Cur) (i : Nat) => sGet x.c ((p.a.toNat + i) % 64)
  engineWord s (copyRegs p)
    (fun x => planCopy x.con p mma (tplAt x.con p.d.toNat) (sc x 0) (sc x 1) (sc x 2) (sc x 3))
    (fun s x =>
      let tpl := tplAt x.con p.d.toNat
      let hs := (copyTiles tpl (sc x 1) (sc x 2) (sc x 3)).map (·.1) ++
        (if mma.isSome then [bits (sc x 2).toNat 24 6] else [])
      recordWord s x hs (copyEntries x (if mma.isSome then 2 else 1) tpl p.a.toNat))

/-- R138, R406. -/
def execXcopy (p : P) (s : State) : Host.Outcome State Fault Refusal := .next (copyWord s p none)

/-- R142, R407. -/
def execXcopym (p : P) (fn : BitVec 4) (s : State) : Host.Outcome State Fault Refusal :=
  .next (copyWord s p (some (fn.toNat, 0)))

/-- A matrix command (R345), its tile handles for guards, and the kind of its plate entry (R183). -/
def matrixWord (s : State) (p : P) (m : Mat) (tiles : List Nat) (kind : Nat) : State :=
  let peer := kind == 6 && p.bk == 1
  engineWord s (if peer then [p.b.toNat] else [])
    (fun x => planMatrix (launchOf s x.con) x.con m p (if peer then sGet x.c (p.b.toNat % 64) else 0))
    (fun s x => recordOne s x tiles kind (if peer then bits (sGet x.c (p.b.toNat % 64)).toNat 0 23 else 0))

/-- R149, R349. -/
def execMma (p : P) (fn : BitVec 4) (s : State) : Host.Outcome State Fault Refusal :=
  .next (matrixWord s p (.mma fn.toNat) [p.a.toNat, p.b.toNat] 3)
/-- R346. -/
def execMblk (p : P) (s : State) : Host.Outcome State Fault Refusal :=
  .next (matrixWord s p .mblk [p.a.toNat, p.b.toNat] 4)
/-- R362. -/
def execScla (p : P) (s : State) : Host.Outcome State Fault Refusal := .next (matrixWord s p .scla [p.b.toNat] 5)
/-- R350. -/
def execMzero (p : P) (s : State) : Host.Outcome State Fault Refusal := .next (matrixWord s p .mzero [] 7)
/-- R347. -/
def execMdrain (p : P) (s : State) : Host.Outcome State Fault Refusal := .next (matrixWord s p .mdrain [p.d.toNat] 6)
/-- R348. -/
def execMdrainPeer (p : P) (s : State) : Host.Outcome State Fault Refusal := .next (matrixWord s p (.peer false) [] 6)
/-- R348, R153. -/
def execMdrainOpeer (p : P) (s : State) : Host.Outcome State Fault Refusal := .next (matrixWord s p (.peer true) [] 6)

/-- R136, R408. -/
def execXtpl (p : P) (s : State) : Host.Outcome State Fault Refusal :=
  .next (courseWord s p { d := true, a := true } (isS p.d && isS p.a) [p.a.toNat] fun x =>
    let ctx := ctxOf s x.con
    let va := (sGet x.c p.a.toNat).toNat
    if x.con.ntpl ≤ p.d.toNat then ill s x iREGRANGE
    else match accessTrap s ctx .read 64 [] [⟨0, va, 0⟩] with
      | some (cause, v) => trap s x cause v
      | none =>
        if waitsPinned s ctx x.con.cid [va] then waitHere s x
        else
          let s' := noteLoads s ctx x 64 [va]
          match loadSeen s x.reader ctx.1 ctx.2 va 64 with
          | .error (.xlat r) => trap s x cXLAT (memTrap (.xlat r) va).2
          | .error .mem => imprecise (retire s' x 2) x.core (dataError x va)
          | .ok b =>
            let t : Tpl := BitVec.ofNat 512 (ofBytes b)
            if Tpl.valid t then retire s' { x with con := { x.con with tpls := alSet x.con.tpls p.d.toNat t } } 2
            else ill s' x iFIELD)

/-! ## Count flags -/

/-- The shared checks (R300), and the record of an etch: a flag in a field, after BK and the value's limits. -/
def flagWord (s : State) (p : P) (f : Free) (legal : Bool) (sregs : List Nat) (flag : Nat) (err : Cur → Bool)
    (k : State → Cur → State) : State :=
  courseWord s p f legal sregs fun x =>
    if x.con.nflag ≤ flag then ill s x iREGRANGE
    else if err x then trap s x cCFERR (BitVec.ofNat 64 flag)
    else
      let (s, x) := recordOne s x [] 8 0
      k s x

def immFree : Free := { d := true, b := true, c := true, bk := true }

/-- R145, R303: the flag was tested and its threshold taken when the clause issued; here a sampled ERR traps, and
leaving the slot adds back what this word and later ones took. -/
def execCfwait (p : P) (s : State) : Host.Outcome State Fault Refusal :=
  .next (flagWord s p immFree (p.bk == 2 && decide (1 ≤ imm16 p ∧ imm16 p < 2 ^ 15)) [] p.d.toNat
    (fun x => x.iss.cfErr.contains p.d.toNat) fun s x => retire s x 2)

/-- R300. -/
def execCfadd (p : P) (s : State) : Host.Outcome State Fault Refusal :=
  .next (flagWord s p immFree (p.bk == 2 && decide (imm16 p < 2 ^ 15)) [] p.d.toNat (fun _ => false) fun s x =>
    retire s { x with con := cfAdd x.con p.d.toNat (imm16 p) } 2)

/-- R302. -/
def execCfset (p : P) (s : State) : Host.Outcome State Fault Refusal :=
  .next (flagWord s p immFree (p.bk == 2) [] p.d.toNat (fun _ => false) fun s x =>
    retire s { x with con := { x.con with cf := smSet 0 x.con.cf p.d.toNat (BitVec.ofNat 16 (imm16 p)) } } 2)

/-- R301; in an etch the result is volatile (R177). -/
def execCfrd (p : P) (s : State) : Host.Outcome State Fault Refusal :=
  .next (flagWord s p { d := true, a := true } (isS p.d) [p.d.toNat] p.a.toNat (fun _ => false) fun s x =>
    let c := sSet x.c p.d.toNat ((smGet 0 x.con.cf p.a.toNat).setWidth 64)
    let c := if etching x && p.d != 0 then { c with marks := alSet c.marks p.d.toNat .volatile } else c
    retire s { x with c := c } 2)

/-! ## The owner bit -/

def setOwn (con : Consort) (h : Nat) (own : Bool) : Consort :=
  match tileAt con h with
  | some t => { con with tiles := alSet con.tiles h { t with own := own } }
  | none => con

/-- R99, R376: a release of gang scope, so the consort's pins end (R127), and what the course has stored is seen by its
gang from then on. It awaits the reads of CHORD and SMARCH requests that are still to come, which are the course's loads (R166, R273). -/
def execTgive (p : P) (s : State) : Host.Outcome State Fault Refusal :=
  .next (tileWord s p fun x h _ =>
    if x.reads then waitHere s x
    else
    let (s, x) := recordOne s x [h] 9 0
    retire (releaseTo s (gangInst s x.con) x.con.cid x.c.idx) { x with con := setOwn x.con h true, k := unpin s.cycles x.con.cid x.k } 2)

/-- After TTAKE the effects of the copies it awaited are the course's own (R128). -/
def sawCopies (s : State) (cid ci h : Nat) : State :=
  { s with unseen := s.unseen.map fun u =>
      if u.writers.any (fun w => match w with
        | .copy c t _ => c == cid && t == h
        | .course _ _ => false) then { u with writers := .course cid ci :: u.writers } else u }

/-- TTAKE takes the tile. -/
def takeTile (s : State) (x : Cur) (h : Nat) : State :=
  retire (sawCopies s x.con.cid x.c.idx h) { x with con := setOwn x.con h false, iss := { x.iss with await := none } } 2

/-- R99, R377: at once when no awaited command is left; else the word waits for TTAKE_COMPLETE. -/
def execTtake (p : P) (s : State) : Host.Outcome State Fault Refusal :=
  .next (tileWord s p fun x h _ =>
    if x.iss.await.isSome then waitHere s x
    else
      let (s, x) := recordOne s x [h] 10 0
      if takeWaits s x.con h s.tick then waitHere s { x with iss := { x.iss with await := some s.tick } }
      else takeTile s x h)

/-- TTAKE_COMPLETE (R99, R128): the tile of the waiting word is free of the commands it awaits, whoever holds it by then. -/
def execTtakeComplete (islot : Nat) (s : State) : Host.Outcome State Fault Refusal :=
  let core := unitOf s
  .next (match cur? { s with turn := .slot core islot } with
    | none => s
    | some x => match x.iss.await with
      | none => s
      | some before =>
        let h := bits (x.iss.words.getD (x.iss.off - 1) 0).toNat 17 8
        if tilePending s x.con.cid h before then s else takeTile s x h)

/-- R98, R375: V goes, and the entry's other fields stay. -/
def execTfree (p : P) (s : State) : Host.Outcome State Fault Refusal :=
  .next (tileWord s p fun x h t =>
    if t.own then owner s x oLANES h
    else
      let s := failPeers s x.con.cid h
      retire s { x with
        con := { x.con with tiles := alSet x.con.tiles h { t with v := false } }
        k := { x.k with chans := (coreAt s x.core).chans } } 2)

end Sys2Proof.Machine
end

