-- ==== Sys2Proof/Machine/Hash.lean ====
section
/-! DEFINITION. CRC-32C of the CHECK fields (R182, R241) and SHA-512 of the launch signature and of attestation (R286, R412). -/

namespace Sys2Proof.Machine

/-- One bit of the reflected CRC-32C. -/
def crcBit (c : Word) : Word := if c.getLsbD 0 then (c >>> 1) ^^^ 0x82F63B78 else c >>> 1

def crcByte (c : Word) (b : Byte) : Word :=
  (List.range 8).foldl (fun c _ => crcBit c) (c ^^^ b.setWidth 32)

/-- CRC-32C (R182, R241). -/
def crc32c (bs : List Byte) : Word := ~~~(bs.foldl crcByte 0xFFFFFFFF)

/-- The primes below 410: 80 of them. -/
def smallPrimes : List Nat :=
  (List.range 410).filter fun n => decide (2 ≤ n) && (List.range 19).all fun k => n % (k + 2) != 0 || n == k + 2

/-- The first 64 bits of the fraction of the k-th root of a number: the greatest r with r^k ≤ p · 2^(64k), without its
whole part. -/
def rootBits (k p : Nat) : DWord :=
  BitVec.ofNat 64 ((List.range 68).foldl (fun r i => if (r + 2 ^ (67 - i)) ^ k ≤ p * 2 ^ (64 * k) then r + 2 ^ (67 - i) else r) 0)

/-- SHA-512's round constants come of the cube roots of the first 80 primes, and its initial hash of the square roots of
the first 8 (FIPS 180-4). -/
def shaK : List DWord := smallPrimes.map (rootBits 3)
def shaInit : List DWord := (smallPrimes.take 8).map (rootBits 2)

/-- The next 80 − 16 schedule words, from a window of the last 16. -/
def shaSchedule : Nat → List DWord → List DWord
  | 0, _ => []
  | n + 1, w =>
    let g := fun i => w.getD i 0
    let s0 := (g 1).rotateRight 1 ^^^ (g 1).rotateRight 8 ^^^ (g 1 >>> 7)
    let s1 := (g 14).rotateRight 19 ^^^ (g 14).rotateRight 61 ^^^ (g 14 >>> 6)
    let x := g 0 + s0 + g 9 + s1
    x :: shaSchedule n (w.drop 1 ++ [x])

def shaRound (h : List DWord) (kw : DWord × DWord) : List DWord :=
  let g := fun i => h.getD i 0
  let e := g 4
  let a := g 0
  let s1 := e.rotateRight 14 ^^^ e.rotateRight 18 ^^^ e.rotateRight 41
  let ch := (e &&& g 5) ^^^ (~~~e &&& g 6)
  let t1 := g 7 + s1 + ch + kw.1 + kw.2
  let s0 := a.rotateRight 28 ^^^ a.rotateRight 34 ^^^ a.rotateRight 39
  let maj := (a &&& g 1) ^^^ (a &&& g 2) ^^^ (g 1 &&& g 2)
  [t1 + (s0 + maj), a, g 1, g 2, g 3 + t1, e, g 5, g 6]

/-- A doubleword from eight bytes, highest first. -/
def beWord (bs : List Byte) : DWord := BitVec.ofNat 64 (ofBytes bs.reverse)

/-- A block of 128 bytes changes the hash. -/
def shaBlock (h : List DWord) (block : List Byte) : List DWord :=
  let w := (List.range 16).map fun i => beWord ((block.drop (8 * i)).take 8)
  (((shaK.zip (w ++ shaSchedule 64 w)).foldl shaRound h).zip h).map fun p => p.1 + p.2

/-- A message with a 1 bit, zeros and its length in bits, in 128-byte blocks. -/
def shaPadded (msg : List Byte) : List Byte :=
  msg ++ [0x80] ++ List.replicate ((239 - msg.length % 128) % 128) 0 ++ (toBytes 16 (8 * msg.length)).reverse

/-- SHA-512 (R286, R412). -/
def sha512 (msg : List Byte) : List Byte :=
  let bs := shaPadded msg
  let h := (List.range (bs.length / 128)).foldl (fun h i => shaBlock h ((bs.drop (128 * i)).take 128)) shaInit
  h.flatMap fun w => (toBytes 8 w.toNat).reverse

end Sys2Proof.Machine
end

