-- ==== Sys2Proof/Machine/Resource.lean ====
section
/-! DEFINITION. Resource tables (R240 to R242), and PSLOT and PGUARD (R177 to R180, R354, R356). -/

namespace Sys2Proof.Machine

/-- A resource entry as eight doublewords make it (R241). -/
abbrev ResEnt := BitVec 512

def ResEnt.f (e : ResEnt) (lo n : Nat) : Nat := bits e.toNat lo n
def ResEnt.type (e : ResEnt) : Nat := ResEnt.f e 0 8
def ResEnt.base (e : ResEnt) : Nat := ResEnt.f e 64 64
def ResEnt.size (e : ResEnt) : Nat := ResEnt.f e 128 64
def ResEnt.shape0 (e : ResEnt) : Nat := ResEnt.f e 192 64
def ResEnt.shape1 (e : ResEnt) : Nat := ResEnt.f e 256 64
def ResEnt.key (e : ResEnt) : Nat := ResEnt.f e 320 12

/-- The entry check (R241): CHECK over bytes 0 to 7 and 16 to 59, a valid TYPE, reserved bits 0. -/
def ResEnt.good (e : ResEnt) : Bool :=
  let b := toBytes 64 e.toNat
  (crc32c (b.take 8 ++ (b.drop 16).take 44)).toNat == ResEnt.f e 480 32 &&
  (decide (ResEnt.type e ≤ 5) || ResEnt.type e == 0xFF) && ResEnt.f e 10 6 == 0 && ResEnt.f e 24 40 == 0 &&
  ResEnt.f e 332 4 == 0 && ResEnt.f e 352 128 == 0

/-- What an index names (R240). -/
inductive Named where
  | beyond
  | bad
  | ent (e : ResEnt)
  deriving DecidableEq, Repr

/-- An error with the address that met it. -/
abbrev AtVa (α : Type) := Except (MemErr × Nat) α

/-- Put the address into an error. -/
def atVa {α : Type} (va : Nat) : Except MemErr α → AtVa α
  | .ok a => .ok a
  | .error e => .error (e, va)

def readEnt (s : State) (rd : Reader) (ctx : Nat × Nat) (va : Nat) : AtVa ResEnt := do
  let b ← atVa va (loadManySeen s rd ctx.1 ctx.2 va 8)
  .ok (BitVec.ofNat 512 (ofBytes b))

/-- Read the entry that an index names: entry 0 first, which holds the count (R240). -/
def readNamed (s : State) (rd : Reader) (ctx : Nat × Nat) (rtab idx : Nat) : AtVa Named := do
  let h ← readEnt s rd ctx rtab
  if !ResEnt.good h || ResEnt.type h != 0xFF then .ok .bad
  else if ResEnt.size h ≤ idx then .ok .beyond
  else
    let e ← readEnt s rd ctx ((rtab + 64 * idx) % 2 ^ 64)
    .ok (if ResEnt.good e then .ent e else .bad)

/-- The reads of the table for an index, by address and number of bytes. -/
def entrySpans (s : State) (rd : Reader) (ctx : Nat × Nat) (rtab idx : Nat) : List (Nat × Nat) :=
  (rtab, 64) :: match readEnt s rd ctx rtab with
    | .ok h => if ResEnt.good h && ResEnt.type h == 0xFF && decide (idx < ResEnt.size h) then [((rtab + 64 * idx) % 2 ^ 64, 64)] else []
    | .error _ => []

/-- One byte of memory that a unit reads through an entry: the leaf's KEY must be the entry's (R241). -/
def readKeyed1 (s : State) (rd : Reader) (ctx : Nat × Nat) (key va : Nat) : AtVa Byte := do
  let l ← atVa va (translate s ctx.1 ctx.2 .read va)
  if l.key ≠ key then .error (.xlat rRange, va)
  else
    let b ← atVa va (loadSeen s rd ctx.1 ctx.2 va 1)
    .ok (b.getD 0 0)

/-- Consecutive bytes read through an entry. -/
def readKeyed (s : State) (rd : Reader) (ctx : Nat × Nat) (key va : Nat) : Nat → AtVa (List Byte)
  | 0 => .ok []
  | n + 1 => do
    let b ← readKeyed1 s rd ctx key (va % 2 ^ 64)
    let r ← readKeyed s rd ctx key (va + 1) n
    .ok (b :: r)

def readKeyedNat (s : State) (rd : Reader) (ctx : Nat × Nat) (key va n : Nat) : AtVa Nat := do
  let b ← readKeyed s rd ctx key va n
  .ok (ofBytes b)

/-- The addresses of the lines that n bytes from an address lie in. -/
def lineSpan (va n : Nat) : List Nat := (List.range ((va % 64 + n + 63) / 64)).map fun i => (va / 64 * 64 + 64 * i) % 2 ^ 64

/-- Do the reads that validate a handle wait for a line that another consort has pinned (R126)? They take the table's
first entry, the one named, and the first n bytes that it leads to. -/
def namedWaits (s : State) (ctx : Nat × Nat) (cid rtab handle n : Nat) : Bool :=
  waitsPinned s ctx cid [rtab, (rtab + 64 * handle) % 2 ^ 64] || (match readNamed s .present ctx rtab handle with
    | .ok (.ent e) => waitsPinned s ctx cid (lineSpan (ResEnt.base e) n)
    | _ => false)

/-- Mark a scalar register of a driver course (R177). -/
def setMark (x : Cur) (r : Nat) (m : Mark) : Cur :=
  if etching x && r != 0 then { x with c := { x.c with marks := alSet x.c.marks r m } } else x

/-- The shared fields of PSLOT and PGUARD (R178). -/
def plateWord (s : State) (p : P) (limit : Nat) (k : Cur → Nat → State) : State :=
  courseWord s p { d := true, a := true, b := true, c := true, bk := true }
    (p.bk == 2 && isS p.d && isS p.a && decide (imm16 p < limit)) [p.d.toNat, p.a.toNat] fun x => k x (imm16 p)

/-- R179, R356. -/
def execPslot (p : P) (s : State) : Host.Outcome State Fault Refusal :=
  .next (plateWord s p 32 fun x n =>
    let d := p.d.toNat
    let off := sGet x.c p.a.toNat
    let vol := isVolatile x.c p.a.toNat
    let arg : DWord := (launchOf s x.con).args.getD n 0
    let x := { x with c := sSet x.c d (arg + off) }
    let x := setMark x d (if vol then .volatile else .arg n off)
    let pl := x.con.plate
    let pl := if etching x && !vol && !pl.patched.contains n then { pl with patched := n :: pl.patched } else pl
    retire s { x with con := { x.con with plate := pl } } 2)

/-- A field of an entry by its code (R180). -/
def resField (e : ResEnt) (code : Nat) (off : DWord) : DWord :=
  match code with
  | 0 => BitVec.ofNat 64 (ResEnt.type e)
  | 1 => BitVec.ofNat 64 (ResEnt.f e 8 8)
  | 2 => BitVec.ofNat 64 (ResEnt.f e 16 8)
  | 3 => BitVec.ofNat 64 (ResEnt.base e) + off
  | 4 => BitVec.ofNat 64 (ResEnt.size e)
  | 5 => BitVec.ofNat 64 (ResEnt.shape0 e)
  | _ => BitVec.ofNat 64 (ResEnt.shape1 e)

/-- The addresses of an entry's doublewords. -/
def entWords (va : Nat) : List Nat := (List.range 8).map fun i => (va + 8 * i) % 2 ^ 64

/-- SignExtend(s(A)[63:16], 64). -/
def resOffset (v : DWord) : DWord := v.sshiftRight 16

/-- R180, R354. -/
def execPguard (p : P) (s : State) : Host.Outcome State Fault Refusal :=
  .next (plateWord s p 7 fun x code =>
    let d := p.d.toNat
    let a := sGet x.c p.a.toNat
    let idx := a.toNat % 2 ^ 16
    let ctx := ctxOf s x.con
    let rtab := (launchOf s x.con).rtab
    let vol := isVolatile x.c p.a.toNat
    if code ≠ 3 ∧ a.toNat / 2 ^ 16 ≠ 0 then ill s x iFIELD
    else if waitsPinned s ctx x.con.cid [rtab, (rtab + 64 * idx) % 2 ^ 64] then waitHere s x
    else match readNamed s x.reader ctx rtab idx with
      | .error (.xlat r, va) => trap s x cXLAT (memTrap (.xlat r) va).2
      | .error (.mem, va) => imprecise (retire s x 2) x.core (dataError x va)
      | .ok .beyond => trap s x cXLAT (BitVec.ofNat 64 (rRange * 2 ^ 60 + idx))
      | .ok .bad => trap s x cXLAT (BitVec.ofNat 64 (rRange * 2 ^ 60 + idx))
      | .ok (.ent e) =>
        let pl := x.con.plate
        let new := etching x && (alGet pl.resGuards idx).isNone
        let facts : List DWord := [ResEnt.type e, ResEnt.f e 16 8, ResEnt.shape0 e, ResEnt.shape1 e].map (BitVec.ofNat 64)
        let pl := if new then { pl with resGuards := alSet pl.resGuards idx facts } else pl
        let x := { x with c := sSet x.c d (resField e code (resOffset a)), con := { x.con with plate := pl } }
        let x := if vol then setMark x d .volatile else if code = 3 then setMark x d (.res idx (resOffset a)) else x
        retire (noteAll (sawVas s x.reader ctx 8 (entWords rtab ++ entWords (rtab + 64 * idx))) ctx [rtab, (rtab + 64 * idx) % 2 ^ 64]) x 2)

end Sys2Proof.Machine
end

