-- ==== Sys2Proof/Machine/Chord.lean ====
section
/-! DEFINITION. The Chord unit: requests, tiles, passes and write-back (R157 to R170, R305). -/

namespace Sys2Proof.Machine

def pBADHANDLE : Nat := 0x10
def pNOTNET : Nat := 0x11
def pCHECK : Nat := 0x12
def pMALFORMED : Nat := 0x13
def pSHAPE : Nat := 0x14
def pPOISONIN : Nat := 0x15
def pXLATE : Nat := 0x16
def pMEMERR : Nat := 0x17

/-- Add to a 16-bit field of CHSTAT (R170). -/
def chBump (v : DWord) (field n : Nat) : DWord :=
  let old := bits v.toNat (16 * field) 16
  BitVec.ofNat 64 (v.toNat - old * 2 ^ (16 * field) + (old + n) % 2 ^ 16 * 2 ^ (16 * field))

/-- Count for a consort, when it is still there. -/
def chCount (s : State) (cid field n : Nat) : State := match conAt s cid with
  | some con => setCon s { con with chstat := chBump con.chstat field n }
  | none => s

/-! ## Descriptors (R160, R161) -/

/-- A layer: addresses, output width, weight kind, activation, bias, scales, and its input width. -/
structure Layer where
  waddr : Nat
  baddr : Nat
  saddr : Nat
  nout : Nat
  wk : Nat
  act : Nat
  bias : Bool
  osc : Nat
  qsc : Nat
  nin : Nat
  deriving DecidableEq, Repr

/-- Read a layer record after an input width; none when it is malformed. -/
def layerOf (rec : Nat) (nin : Nat) (last : Bool) : Option Layer :=
  let f := bits rec
  let l : Layer := ⟨f 0 64, f 64 64, f 160 64, f 128 8, f 136 2, f 138 2, f 140 1 == 1, f 144 8, f 152 8, nin⟩
  let ok := f 224 32 == 0 && f 141 3 == 0 && decide (1 ≤ l.nout ∧ l.nout ≤ 64) && decide (l.wk ≤ 1) && l.act != 3 &&
    l.waddr % 16 == 0 && (if l.bias then l.baddr % 4 == 0 else l.baddr == 0) &&
    (if l.wk = 1 then l.saddr % 4 == 0 && l.osc == 0 && nin % 16 == 0 else l.saddr == 0 && l.osc != 0xFF) &&
    (last || l.qsc != 0xFF)
  if ok then some l else none

/-- The layers of a descriptor's bytes: NIN and the records, none when malformed. -/
def layersFrom (desc : List Byte) (n : Nat) : Nat → Nat → Option (List Layer)
  | 0, _ => some []
  | left + 1, nin => do
    let l ← layerOf (ofBytes ((desc.drop (32 * (n - left))).take 32)) nin (left == 0)
    let r ← layersFrom desc n left l.nout
    some (l :: r)

/-- NIN and NL of a header, none when it is malformed. -/
def headerOf (h : Nat) : Option (Nat × Nat) :=
  let nl := bits h 0 3
  let nin := bits h 8 8
  if bits h 3 5 = 0 ∧ h / 2 ^ 16 = 0 ∧ 1 ≤ nl ∧ nl ≤ 4 ∧ 1 ≤ nin ∧ nin ≤ 64 then some (nin, nl) else none

def descLayers (desc : List Byte) : Option (List Layer) := do
  let (nin, nl) ← headerOf (ofBytes (desc.take 32))
  layersFrom desc nl nl nin

/-! ## Validation (R164, R168) -/

/-- A reason for a failed read. -/
def chordReason : MemErr × Nat → Nat
  | (.xlat _, _) => pXLATE
  | (.mem, _) => pMEMERR

/-- Turn a read error into its reason. -/
def why {α : Type} (f : MemErr × Nat → Nat) : AtVa α → Except Nat α
  | .ok a => .ok a
  | .error e => .error (f e)

/-- A valid request's key slot and descriptor bytes, as a reader finds them, or the reason of its poison, tested in the order of
R168. -/
def chordValid (s : State) (rd : Reader) (ctx : Nat × Nat) (rtab handle ni no : Nat) (hTag inTag : Bool) : Except Nat (Nat × List Byte) := do
  if hTag then throw pPOISONIN
  match ← why chordReason (readNamed s rd ctx rtab handle) with
  | .beyond => throw pBADHANDLE
  | .bad => throw pCHECK
  | .ent e =>
    if ResEnt.type e ≠ 2 then throw pNOTNET
    let base := ResEnt.base e
    if base % 32 ≠ 0 then throw pMALFORMED
    let h ← why chordReason (readKeyed s rd ctx (ResEnt.key e) base 32)
    match headerOf (ofBytes h) with
    | none => throw pMALFORMED
    | some (nin, nl) =>
      let r ← why chordReason (readKeyed s rd ctx (ResEnt.key e) (base + 32) (32 * nl))
      match descLayers (h ++ r) with
      | none => throw pMALFORMED
      | some ls =>
        if (nin + 3) / 4 ≠ ni ∨ (ls.getLast?.elim 0 (·.nout)) ≠ no then throw pSHAPE
        else if inTag then throw pPOISONIN
        else .ok (ResEnt.key e, h ++ r)

/-- The reads of a validation, by address and number of bytes. -/
def chordSpans (s : State) (rd : Reader) (ctx : Nat × Nat) (rtab handle : Nat) : List (Nat × Nat) :=
  entrySpans s rd ctx rtab handle ++ match readNamed s rd ctx rtab handle with
    | .ok (.ent e) =>
      if ResEnt.type e ≠ 2 ∨ ResEnt.base e % 32 ≠ 0 then []
      else (ResEnt.base e, 32) :: match (readKeyed s rd ctx (ResEnt.key e) (ResEnt.base e) 32).map fun h => headerOf (ofBytes h) with
        | .ok (some (_, nl)) => [(ResEnt.base e + 32, 32 * nl)]
        | .ok none | .error _ => []
    | .ok .bad | .ok .beyond | .error _ => []

/-! ## Gathering (R164, R165) -/

/-- Close an open tile: CHSTAT counts a padded one by the rows that joined. -/
def closeTile (s : State) (core : Nat) (t : ChordTile) : State :=
  let s := modCore s core fun k => { k with
    openTiles := k.openTiles.filter fun u => u.tid != t.tid, closedTiles := k.closedTiles ++ [t] }
  if 16 ≤ t.joined then s else chCount (chCount s t.owner 1 1) t.owner 2 (16 - t.joined)

/-- Has the gather window of a tile passed (R165)? A window of 0 ends with its instruction. -/
def windowOver (s : State) (t : ChordTile) : Bool := t.win != 0 && decide (t.opened + t.win ≤ s.cycles)

/-- Close the open tiles whose windows have passed, first the one whose window passed first. -/
def closeOver (s : State) (core : Nat) : State :=
  let passed := (coreAt s core).openTiles.filter (windowOver s)
  (passed.mergeSort fun t u => decide (t.opened + t.win ≤ u.opened + u.win)).foldl (fun s t => closeTile s core t) s

/-- CHSTAT in this cycle (R170, R306): the consort's open tiles whose windows have passed are closed and padded (R165). -/
def chstatNow (s : State) (con : Consort) : DWord :=
  ((coreAt s con.core).openTiles.filter fun t => windowOver s t && t.owner == con.cid && decide (t.joined < 16)).foldl
    (fun v t => chBump (chBump v 1 1) 2 (16 - t.joined)) con.chstat

/-- A valid request joins the open tile of its key, or opens one, closing the oldest of eight first. -/
def joinTile (s : State) (core pasid rtab handle nbv win : Nat) (r : ChordReq) : State :=
  let same := fun (t : ChordTile) => t.pasid == pasid && t.rtab == rtab && t.handle == handle && t.nbv == nbv
  match (coreAt s core).openTiles.find? same with
  | some t =>
    let t := { t with rows := t.rows ++ [r], joined := t.joined + 1 }
    let s := modCore s core fun k => { k with openTiles := putWhere k.openTiles (fun u => u.tid == t.tid) t }
    if 16 ≤ t.joined then closeTile s core t else s
  | none =>
    let s := match (coreAt s core).openTiles with
      | o :: rest => if 7 ≤ rest.length then closeTile s core o else s
      | [] => s
    let k := coreAt s core
    let t : ChordTile := { tid := k.nextTile, pasid := pasid, rtab := rtab, handle := handle, nbv := nbv, rows := [r], joined := 1
                           opened := s.cycles, win := win, owner := r.cid, layer := 0 }
    chCount (setCore s core { k with openTiles := k.openTiles ++ [t], nextTile := k.nextTile + 1 }) r.cid 0 1

/-- A poisoned request waits for its write-back. -/
def poisonReq (s : State) (core : Nat) (r : ChordReq) (reason : Nat) : State :=
  chCount (modCore s core fun k => { k with results := k.results ++ [{ r with poison := some reason }] }) r.cid 3 1

/-- R157 to R159, R164, R165, R305. A fault of an encoding field comes before one of a window: R158, R66 and R305 set no order
between them (DESIGN CHOICE, log 25). -/
def execChord (p : P) (fn : BitVec 4) (s : State) : Host.Outcome State Fault Refusal :=
  let ni := fn.toNat + 1
  let no := p.c.toNat
  let inW := (List.range ni).map (p.a.toNat + ·)
  let outW := (List.range no).map (p.d.toNat + ·)
  let reads := offReads p
  .next (onWord s (inW ++ outW ++ reads) (if p.bk = 1 then [p.b.toNat] else []) fun x =>
    let act := active x p
    if act = 0 then passWord s x
    else if !fieldsOk p { d := true, a := true, b := true, c := true, bk := true } || decide (no = 0 ∨ 16 < no)
        || !(p.bk == 0 || (p.bk == 1 && isS p.b)) then ill s x iFIELD
    else if !windowOk x p.a.toNat ni || !windowOk x p.d.toNat no || (p.bk == 0 && decide (p.b.toNat < 248) && !windowOk x p.b.toNat 1) then
      ill s x iREGRANGE
    else if !queuesReady x reads none then waitHere s x
    else
      let ls := lanesOf act x.c.width
      let ctx := ctxOf s x.con
      let rtab := (launchOf s x.con).rtab
      if ls.any fun l => namedWaits s ctx x.con.cid rtab ((offLane x p l).1 % 2 ^ 16) 160 then waitHere s x else
      let nbv := x.c.nbv.toNat % 256
      let win := x.c.chw.toNat % 2 ^ 16
      let pid := x.c.nextId
      let core := x.core
      let reqs := ls.map fun l =>
        let h := offLane x p l
        let xs := inW.map fun r => vGet x.c r l
        let req : ChordReq := ⟨x.con.cid, x.c.idx, pid, l, p.d.toNat, no, ctx.2, 0, [], xs.flatMap fun v => (List.range 4).map fun i => bits v.val.toNat (8 * i) 8,
          none, 0, none⟩
        (req, h.1 % 2 ^ 16, h.2 != 0, xs.any fun v => v.tag != 0)
      let s' := closeOver (beginLong (sawSpans s x.reader ctx (reqs.flatMap fun r => if r.2.2.1 then [] else chordSpans s x.reader ctx rtab r.2.1)) (popFor x reads) { pendInit with vregs := outW, reqs := ls.length }) core
      let s' := reqs.foldl (fun st r =>
        match chordValid s x.reader ctx rtab r.2.1 ni no r.2.2.1 r.2.2.2 with
        | .error reason => poisonReq st core r.1 reason
        | .ok v => joinTile st core ctx.1 rtab r.2.1 nbv win { r.1 with key := v.1, desc := v.2 }) s'
      ((coreAt s' core).openTiles.filter fun t => t.win == 0 &&
        (t.rows.head?.elim false fun r => r.cid == x.con.cid && r.ci == x.c.idx && r.pid == pid)).foldl
          (fun st t => closeTile st core t) s')

/-- CHORD_TILE_CLOSE (R165): the gather window of an open tile has passed. Tiles whose windows passed before it close first. -/
def execChordTileClose (tile : Nat) (s : State) : Host.Outcome State Fault Refusal :=
  let core := unitOf s
  .next (if (coreAt s core).openTiles.any fun t => t.tid == tile && windowOver s t then closeOver s core else s)

/-! ## Passes (R162, R166) -/

/-- Act of R162. -/
def chordAct (act nbv y : Nat) : Nat × Flags := match act with
  | 1 => (if fmtF32.signBit ≤ y ∧ !isNaN fmtF32 y then 0 else y, 0)
  | 2 => evalFn .tanh fmtF32 .rne nbv y
  | _ => (y, 0)

/-- Quant of R162: no flag. -/
def chordQuant (qsc wk y : Nat) : Nat :=
  match fmtF32.unpack y with
  | .nan _ => if wk = 0 then 0 else 0x7F
  | .inf n => if wk = 0 then (if n then 0x80 else 0x7F) else fmtE4M3.signed n fmtE4M3.maxFin
  | .fin n m e =>
    let e : Int := e + (qsc : Int) - 127
    if wk = 0 then wrapTo 8 (max (-128) (min 127 (dyToInt .rne n m e).1))
    else (roundDy fmtE4M3 .rne true (finDy n m e) n).1

/-- An output of a t2 layer: the exact sum scaled, plus the bias, rounded once. -/
def t2Out (s : Int) (osc : Nat) (bias : Option Nat) : Nat × Flags :=
  let x : Dy := ⟨s, (osc : Int) - 127⟩
  match bias with
  | none => roundDy fmtF32 .rne false x false
  | some b => match fmtF32.unpack b with
    | .fin n m e => roundDy fmtF32 .rne false (x.add (finDy n m e)) false
    | .inf n => (fmtF32.signed n (fmtF32.maxFin + 1), 0)
    | .nan sig => (fmtF32.canon, if sig then flIV else 0)

/-- Read output o's constants (R160): no element beyond the input width is read. -/
def readRow (s : State) (rd : Reader) (ctx : Nat × Nat) (key : Nat) (l : Layer) (o : Nat) : AtVa RowData := do
  let w ← if l.wk = 0 then do
      let b ← readKeyed s rd ctx key (l.waddr + 16 * o) ((l.nin + 3) / 4)
      .ok ((List.range l.nin).map fun k => bits (b.getD (k / 4) 0).toNat (2 * (k % 4)) 2)
    else do
      let b ← readKeyed s rd ctx key (l.waddr + 64 * o) l.nin
      .ok (b.map (·.toNat))
  let sc ← if l.wk = 0 then .ok [] else readKeyed s rd ctx key (l.saddr + 4 * o) (l.nin / 16)
  let bias ← if l.bias then do
      let b ← readKeyedNat s rd ctx key (l.baddr + 4 * o) 4
      .ok (some b)
    else .ok none
  .ok ⟨w, sc.map (·.toNat), bias⟩

/-- The constants of several outputs. The first read that fails, in the order of the outputs and of an output's weights,
scales and bias, gives the reason: R168 sets no order between 0x16 and 0x17 (DESIGN CHOICE, log 25). -/
def readRows (s : State) (rd : Reader) (ctx : Nat × Nat) (key : Nat) (l : Layer) : List Nat → AtVa (List RowData)
  | [] => .ok []
  | o :: os => do
    let r ← readRow s rd ctx key l o
    let rs ← readRows s rd ctx key l os
    .ok (r :: rs)

/-- One output of a layer for one request (R162). -/
def layerOut (nbv : Nat) (l : Layer) (x : List Nat) (r : RowData) : Nat × Flags :=
  let y := if l.wk = 0 then
      let ts := (r.w.zip x).map fun p => let w := t2Of p.1; (w.1 * signedOf 8 p.2, w.2)
      let v := t2Out (ts.map (·.1)).sum l.osc r.bias
      (v.1, ts.foldl (fun f t => f ||| t.2) v.2)
    else
      let blocks := (List.range (l.nin / 16)).map fun b =>
        (chunkSum fmtE4M3 (chunkRm nbv) (((r.w.drop (16 * b)).take 16).zip ((x.drop (16 * b)).take 16)), r.sc.getD b 0)
      let v := blocks.foldl (fun a b => let q := scaleAdd a.1 b.1.1 127 b.2; (q.1, a.2 ||| b.1.2 ||| q.2)) (0, 0)
      match r.bias with
      | none => v
      | some b => let q := fAdd fmtF32 .rne false v.1 b; (q.1, v.2 ||| q.2)
  let a := chordAct l.act nbv y.1
  (a.1, y.2 ||| a.2)

/-- A layer for one row of the tile: quantised for the next layer, or its outputs. -/
def rowPass (nbv : Nat) (l : Layer) (next : Option Layer) (rows : List RowData) (r : ChordReq) : ChordReq :=
  let outs := rows.map (layerOut nbv l r.x)
  let fl := outs.foldl (fun f o => f ||| o.2) r.flags
  { r with flags := fl, x := outs.map fun o => match next with
      | some n => chordQuant l.qsc n.wk o.1
      | none => o.1 }

/-- What a pass makes of a row: it goes on to a further layer, or is done. -/
inductive RowDone where
  | more (r : ChordReq)
  | done (r : ChordReq)
  deriving DecidableEq, Repr

/-- The layer of a row that a pass of a number runs, and the one after it: by the row's own descriptor (R167). -/
def rowLayer (n : Nat) (r : ChordReq) : Option (Layer × Option Layer) :=
  (descLayers r.desc).bind fun ls => (ls[n]?).map fun l => (l, ls[n + 1]?)

/-- A pass of one row of a tile. -/
def rowStep (t : ChordTile) (r : ChordReq) : RowDone :=
  match rowLayer t.layer r with
  | none => .done r
  | some (l, next) =>
    let r := rowPass t.nbv l next ((r.net.bind (·[t.layer]?)).getD []) r
    if next.isSome then .more r else .done r

/-- The reads of a layer's constants, by address and number of bytes. -/
def layerSpans (l : Layer) : List (Nat × Nat) := (List.range l.nout).flatMap fun o =>
  (if l.wk = 0 then [(l.waddr + 16 * o, (l.nin + 3) / 4)] else [(l.waddr + 64 * o, l.nin), (l.saddr + 4 * o, l.nin / 16)]) ++
  (if l.bias then [(l.baddr + 4 * o, 4)] else [])

/-- The constants of some layers as a reader finds them. -/
def readNet (s : State) (rd : Reader) (ctx : Nat × Nat) (key : Nat) : List Layer → AtVa (List (List RowData))
  | [] => .ok []
  | l :: ls => do
    let r ← readRows s rd ctx key l (List.range l.nout)
    let rs ← readNet s rd ctx key ls
    .ok (r :: rs)

/-- The layers of a row's network. -/
def rowLayers (r : ChordReq) : List Layer := (descLayers r.desc).getD []

/-- Does the fetch of a tile's network wait for a line that another consort has pinned (R126, R166)? -/
def fetchWaits (s : State) (t : ChordTile) : Bool := t.rows.any fun r =>
  waitsPinned s (t.pasid, r.root) r.cid ((rowLayers r).flatMap fun l => (layerSpans l).flatMap fun a => lineSpan a.1 a.2)

/-- Has the network of every row of a tile been fetched? -/
def fetched (t : ChordTile) : Bool := t.rows.all (·.net.isSome)

/-- Fetch the networks of a closed tile's rows, all layers at once: loads by each course with a row in the tile (R166). A row whose read fails is poisoned (R168), and a tile of none is gone. -/
def fetchTile (s : State) (core : Nat) (t : ChordTile) : State :=
  if fetched t || fetchWaits s t then s
  else
    let rd := Reader.rows (t.rows.map fun r => (r.cid, r.ci))
    let outs := t.rows.map fun r => (r, readNet s rd (t.pasid, r.root) r.key (rowLayers r))
    let rows := outs.filterMap fun o => o.2.toOption.map fun n => { o.1 with net := some n }
    let s := t.rows.foldl (fun s r => sawSpans s rd (t.pasid, r.root) ((rowLayers r).flatMap layerSpans)) s
    let s := modCore s core fun k => { k with
      closedTiles := if rows.isEmpty then k.closedTiles.filter (·.tid != t.tid)
        else putWhere k.closedTiles (fun u => u.tid == t.tid) { t with rows := rows } }
    outs.foldl (fun s o => match o.2 with
      | .ok _ => s
      | .error e => poisonReq s core o.1 (chordReason e)) s

/-- Fetch the networks of the closed tiles. -/
def fetchTiles (s : State) (core : Nat) : State := (coreAt s core).closedTiles.foldl (fun s t => fetchTile s core t) s

/-- Does a matrix command wait for the array's passes to end (R166)? Behind a peer add that waits none does (R152). -/
def passesFull (k : Core) : Bool := k.matq.head?.elim false (fun c => !c.begun) && decide (4 ≤ k.passes)

/-- CHORD_PASS (R166): the next layer of the oldest closed tile, on an array between matrix commands; at most four
passes run between two of them. Its network is fetched by then, in a core freeze too, and a tile whose window has passed is
closed (R165). -/
def execChordPass (s : State) : Host.Outcome State Fault Refusal :=
  let core := unitOf s
  let s := fetchTiles (closeOver s core) core
  let k := coreAt s core
  .next (match k.closedTiles with
    | [] => s
    | t :: rest =>
      if !fetched t || k.freeze.isSome || !arrayFree s k || passesFull k then s
      else
        let outs := t.rows.map (rowStep t)
        let left := outs.filterMap fun o => match o with
          | .more r => some r
          | _ => none
        let s := setCore s core { k with
          passes := k.passes + 1
          closedTiles := if left.isEmpty then rest else { t with rows := left, layer := t.layer + 1 } :: rest }
        outs.foldl (fun s o => match o with
          | .more _ => s
          | .done r => modCore s core fun k => { k with results := k.results ++ [r] }) s)

/-! ## Write-back (R159, R163, R168) -/

/-- One request of a pending instruction is done: the flags it set clear with the last (R37). A word that holds its
slot for it then retires. -/
def reqDone (c : Course) (pid : Nat) : Course :=
  { c with pend := (c.pend.map fun p => if p.id == pid then { p with reqs := p.reqs - 1 } else p).filter fun p =>
      !(p.id == pid && p.reqs == 0) }

/-- When the word in issue waited for a pending instruction that is gone, it retires. -/
def releaseHeld (s : State) (core cid ci : Nat) (held : Bool) : State :=
  if !held then s
  else match (coreAt s core).issue.find? fun i => i.2.cid == cid && i.2.ci == ci with
    | none => s
    | some i => match cur? { s with turn := .slot core i.1 } with
      | some x => if x.c.pend.any (·.holds) then s else retire s x 2
      | none => s

/-- Lanes that a debugger took while the write was pending keep its value (R232). -/
def skipped (c : Course) (pid key : Nat) : Bool := c.pend.any fun p => p.id == pid && p.skip.contains key

/-- CHORD_WRITEBACK: the k-th finished request goes to its lane's window, its flags to NSTAT. -/
def execChordWriteback (k : Nat) (s : State) : Host.Outcome State Fault Refusal :=
  let core := unitOf s
  .next (match (coreAt s core).results[k]? with
    | none => s
    | some r =>
      let held := ((conAt s r.cid).bind (crsAt · r.ci)).elim false fun c => c.pend.any fun p => p.id == r.pid && p.holds
      let s := modCore s core fun c => { c with results := c.results.eraseIdx k }
      let s := modCrs s r.cid r.ci fun c =>
        let c := (List.range r.no).foldl (fun c o =>
          if skipped c r.pid ((r.d + o) * 64 + r.lane) then c
          else vSet c (r.d + o) r.lane (match r.poison with
            | some t => ⟨0, BitVec.ofNat 8 t⟩
            | none => ⟨BitVec.ofNat 32 (r.x.getD o 0), 0⟩)) c
        reqDone (if r.poison.isSome then c else { c with nstat := c.nstat ||| r.flags.setWidth 64 }) r.pid
      releaseHeld s core r.cid r.ci held)

end Sys2Proof.Machine
end

