-- ==== Sys2Proof/Machine/IssueEvents.lean ====
section
/-! DEFINITION. Issue of clauses, the landing of long-latency writes, watchdog, pins and store errors
(R36, R37, R45, R49, R53 to R55, R127, R133, R134, R145, R175, R176, R209, R210, R217, R218, R224, R225, R230, R337). -/

namespace Sys2Proof.Machine

/-! ## The header (R53, R54) -/

def hLen (h : Word) : Nat := (h.extractLsb' 27 5).toNat
def hWait (h : Word) (n : Nat) : Bool := h.getLsbD (15 + n)
def hSetA (h : Word) : Nat := (h.extractLsb' 11 4).toNat
def hSetB (h : Word) : Nat := (h.extractLsb' 7 4).toNat
def hRc (h : Word) : Bool := h.getLsbD 5
def hDrv (h : Word) : Bool := h.getLsbD 4
def hPre (h : Word) : Bool := h.getLsbD 3
def hStg (h : Word) : Nat := (h.extractLsb' 0 3).toNat

/-- The reserved values and the stage rule. -/
def headerOk (h : Word) (loops : List LoopRec) : Bool :=
  decide (1 ≤ hLen h ∧ hLen h ≤ 24) && !(decide (12 ≤ hSetA h ∧ hSetA h ≤ 14)) && !(decide (12 ≤ hSetB h ∧ hSetB h ≤ 14)) &&
  (match loops with
    | l :: _ => decide (hStg h < l.stages)
    | [] => hStg h == 0)

/-- Is a clause at an address skipped in this step of the innermost loop (R337)? Only a clause of its body is: a handler or
a callee runs (R172, R218, R338). -/
def skips (h : Word) (pc : Nat) (loops : List LoopRec) : Bool := match loops with
  | l :: _ => decide (l.start ≤ pc ∧ pc < l.stop) && !runsIn l (hStg h)
  | [] => false

/-! ## The words of a clause -/

/-- Offsets of instructions in a run of words, from an offset on; a word 1 is none (R55). -/
def starts : Nat → List Word → List (Nat × List Word)
  | _, [] => []
  | k, w :: ws =>
    if w.msb then match ws with
      | [] => [(k, [w])]
      | w1 :: ws' => (k, [w, w1]) :: starts (k + 2) ws'
    else (k, [w]) :: starts (k + 1) ws

def opOf (w : Word) : Nat := (w.extractLsb' 25 7).toNat
def fnOf (ws : List Word) : Nat := ((ws.getD 1 0).extractLsb' 16 4).toNat

/-- The long-latency opcodes (R37). -/
def isLong (ws : List Word) : Bool := [0x5E, 0x60, 0x62, 0x64, 0x66, 0x67, 0x77, 0x78].contains (opOf (ws.getD 0 0))

/-- Queues that an instruction's commands enter (R133). -/
def enginePushes (ws : List Word) : List Nat :=
  let ch := ((ws.getD 1 0).extractLsb' 4 3).toNat
  match opOf (ws.getD 0 0) with
  | 0x6E => [ch]
  | 0x6F => [ch, 4]
  | 0x71 | 0x72 | 0x73 | 0x74 | 0x75 => [4]
  | _ => []

/-- The flag and threshold of a well-formed CFWAIT (R145). -/
def cfwaitOf (nflag : Nat) (ws : List Word) : Option (Nat × Nat) := match ws with
  | [w0, w1] => match decodeCore w0 w1 with
    | .ok (.cfwait p) =>
      if !guarded p && fieldsOk p { d := true, b := true, c := true, bk := true } && p.bk == 2 &&
        decide (1 ≤ imm16 p ∧ imm16 p < 2 ^ 15 ∧ p.d.toNat < nflag) then some (p.d.toNat, imm16 p) else none
    | _ => none
  | _ => none

/-- May a driver clause hold an instruction (R176)? -/
def driverMay (ws : List Word) : Bool :=
  let op := opOf (ws.getD 0 0)
  decide (op < 0x40) || [0x6C, 0x6D, 0x6E, 0x6F, 0x71, 0x72, 0x73, 0x74, 0x75].contains op ||
  (op == 0x76 && decide (fnOf ws ≤ 3)) || (op == 0x7B && decide (fnOf ws ≤ 1))

/-! ## Fetching (R107, R213, R239) -/

/-- The words at an address as memory held it when a LAUNCH of a PASID was last dispatched, and at times since; a line that failed
its check then gives none. -/
def dispatchWords (s : State) (pasid : Nat) (l : Leaf) (va : Nat) : List Word :=
  ((s.launches.find? fun x => x.pasid == pasid).elim [] (·.code)).filterMap fun p =>
    (loadLeaf { s with mem := p.mem, lines := p.lines, keyIds := p.keyIds, hostmem := p.hostmem } l va 4).toOption.map
      fun b => BitVec.ofNat 32 (ofBytes b)

/-- The word at an address for a core: what memory holds, or what the core's instruction cache held of it since a LAUNCH of
the context was dispatched, or what memory held then or at a time since. -/
def fetch (s : State) (k : Core) (ctx : Nat × Nat) (va : Nat) : Except (Nat × DWord) Word :=
  match translate s ctx.1 ctx.2 .fetch va with
  | .error e => .error (memTrap e va)
  | .ok l =>
    let pa := l.frame + va % 4096
    let old := k.icache.filter fun w => w.pasid == ctx.1 && w.host == l.host && w.pa == pa
    match chosen (old.map (·.word) ++ dispatchWords s ctx.1 l va) (Config.fetchCached s.tick va) with
    | some w => .ok w
    | none => match loadLeaf s l va 4 with
      | .ok b => .ok (BitVec.ofNat 32 (ofBytes b))
      | .error e => .error (memTrap e va)

def fetchWords (s : State) (k : Core) (ctx : Nat × Nat) (va : Nat) : Nat → Except (Nat × DWord) (List Word)
  | 0 => .ok []
  | n + 1 => do
    let w ← fetch s k ctx va
    let ws ← fetchWords s k ctx (va + 4) n
    .ok (w :: ws)

/-- The words of the line that holds an address, as a core caches them. -/
def lineWords (s : State) (ctx : Nat × Nat) (line : Nat) : List IcWord :=
  match translate s ctx.1 ctx.2 .fetch (64 * line) with
  | .error _ => []
  | .ok l => match loadLeaf s l (64 * line) 64 with
    | .error _ => []
    | .ok b => (List.range 16).map fun i =>
      ⟨ctx.1, l.host, l.frame + 64 * line % 4096 + 4 * i, BitVec.ofNat 32 (ofBytes ((b.drop (4 * i)).take 4))⟩

/-- Cache the lines of n words from an address. -/
def cacheCode (s : State) (ctx : Nat × Nat) (pc n : Nat) (k : Core) : Core :=
  let new := (List.range ((pc + 4 * n - 1) / 64 - pc / 64 + 1)).flatMap fun i => lineWords s ctx (pc / 64 + i)
  { k with icache := k.icache ++ new.filter fun w => !k.icache.contains w }

/-! ## Eligibility (R36, R49, R133, R134, R145, R217) -/

/-- Entries of a queue that clauses in issue and pending writes of the consort still pop and push. -/
def queueClaims (con : Consort) (k : Core) (q : Nat) : Nat × Nat :=
  let w := fun ci => ((crsAt con ci).map qWidth).getD 1
  let inIssue := (k.issue.filter (fun i => i.2.cid == con.cid)).map fun i =>
    let u := clauseUse (i.2.words.drop (i.2.off - 1))
    (u.1.count q * w i.2.ci, u.2.count q * w i.2.ci)
  let landing := con.courses.flatMap fun c => c.pend.filterMap fun p => p.push.bind fun u =>
    if u.1 + 248 = q then some u.2.length else none
  ((inIssue.map (·.1)).sum, (inIssue.map (·.2)).sum + landing.sum)

/-- Can the queues meet the accesses of a run of words (R49)? -/
def queuesMeet (con : Consort) (k : Core) (c : Course) (ws : List Word) : Bool :=
  let u := clauseUse ws
  (List.range 8).all fun i =>
    let q := 248 + i
    let claim := queueClaims con k q
    decide (u.1.count q = 0 ∨ u.1.count q * qWidth c + claim.1 ≤ queueReady con k i) &&
    decide (u.2.count q = 0 ∨ (queueOf con i).length + claim.2 + u.2.count q * qWidth c ≤ 16)

/-- Queues that the clauses in issue on a core still push commands to. -/
def engineClaims (k : Core) : List Nat :=
  k.issue.flatMap fun i => (starts i.2.off (i.2.words.drop (i.2.off - 1))).flatMap fun w => enginePushes w.2

/-- Thresholds of a run of instructions, by CFWAIT: flag, threshold, offset. -/
def thresholds (nflag : Nat) (ins : List (Nat × List Word)) : List (Nat × Nat × Nat) :=
  ins.filterMap fun i => (cfwaitOf nflag i.2).map fun t => (t.1, t.2, i.1)

def cfErrOf (con : Consort) (f : Nat) : Bool := (smGet 0 con.cf f).msb
def cfCount (con : Consort) (f : Nat) : Nat := (smGet 0 con.cf f).toNat % 2 ^ 15

/-- Does each flag have ERR, or a count of at least its sum (R145)? -/
def thresholdsMet (con : Consort) (ts : List (Nat × Nat × Nat)) : Bool :=
  ts.all fun t => cfErrOf con t.1 || decide (((ts.filter fun u => u.1 == t.1).map (·.2.1)).sum ≤ cfCount con t.1)

/-- Is a flag still set (R37)? -/
def flagSet (c : Course) (f : Nat) : Bool := c.pend.any fun p => p.flags.contains f

/-- What a split that is looked at for issue would do. -/
inductive Look where
  | no
  | trap (t : PendTrap)
  | skip (sp : Split)
  | issue (header : Word) (words : List Word)
  deriving DecidableEq, Repr

/-- The clause at a split's cursor, for a split that may issue. Where the spec leaves it open (DESIGN CHOICE, log 16): the header
is checked, and traps HEADER, before the flags of WAIT, SETA and SETB, the queues and the other conditions of R36 are waited for; at a
resume inside a clause its WAIT field applies whole (R36), the clause is neither counted in the run of PRE = 0 nor checked
against it (R54), and RC is not held against its first word (R66); a clause that is skipped leaves the run as it is. A fetch
from a pinned line waits (R126), and one that fails traps at offset 0 (R110, R213), wherever the split stands in the
clause. Between two steps of a loop a skipped clause is no point of R227: the iteration boundary before it is over. -/
def lookClause (s : State) (k : Core) (con : Consort) (c : Course) (sp : Split) : Look :=
  let ctx := ctxOf s con
  let t := fun (off cause : Nat) (v : DWord) => Look.trap ⟨cause, v, sp.pc, off, sp.pc + 4 * off⟩
  if waitsPinned s ctx con.cid [sp.pc] then .no
  else match fetch s k ctx sp.pc with
  | .error e => t 0 e.1 e.2
  | .ok h =>
    if !headerOk h sp.loops then t 0 cILL (BitVec.ofNat 64 iHEADER)
    else if sp.off = 0 ∧ skips h sp.pc sp.loops then
      match fallTo sp.pc (sp.pc + 4 * (hLen h + 1)) sp.loops with
      | some (pc, ls, b) => .skip { atBoundary { sp with point := sp.point && !sp.iter, iter := false } b with pc := pc, loops := ls }
      | none => t 0 cILL (BitVec.ofNat 64 iPLACE)
    else if sp.off = 0 ∧ !hPre h ∧ 4 ≤ sp.preRun then t 0 cILL (BitVec.ofNat 64 iHEADER)
    else if anyPins s && waitsPinned s ctx con.cid ((List.range (hLen h)).map fun i => sp.pc + 4 + 4 * i) then .no
    else match fetchWords s k ctx (sp.pc + 4) (hLen h) with
      | .error e => t 0 e.1 e.2
      | .ok ws =>
        let all := starts 1 ws
        let from' := max 1 sp.off
        let ins := all.filter fun i => decide (from' ≤ i.1)
        let ll := (all.filter fun i => decide (i.1 < from') && isLong i.2).length
        if sp.off ≠ 0 ∧ !(all.any fun i => i.1 == sp.off) then t sp.off cILL (BitVec.ofNat 64 iPLACE)
        else if (List.range 12).any (fun n => hWait h n && flagSet c n) || (ll == 0 && flagSet c (hSetA h)) ||
            (decide (ll ≤ 1) && flagSet c (hSetB h)) || !queuesMeet con k c (ins.flatMap (·.2)) ||
            !thresholdsMet con (thresholds con.nflag ins) ||
            (let mine := ins.flatMap fun i => enginePushes i.2
             !mine.isEmpty && !roomFor k (mine ++ engineClaims k)) then .no
        else if hRc h && sp.off = 0 && opOf (ws.getD 0 0) != 0x5C then t 1 cILL (BitVec.ofNat 64 iPLACE)
        else .issue h ws

/-- Does the split stand at an iteration boundary of a pipelined loop with iterations in flight (R227)? -/
def inFlight (sp : Split) : Bool := match sp.loops with
  | l :: _ => sp.iter && sp.off == 0 && sp.pc == l.start && decide (1 < l.stages ∧ l.fill < l.t)
  | [] => false

/-- Does a loop of the split drain (R227)? -/
def drains (sp : Split) : Bool := sp.loops.any fun l => l.upto.isSome

/-- Is the split at a point of R227, its pipeline drained? The boundary after a clause with PRE = 1 is one wherever that clause
leads, to a word inside a clause too (ERET). -/
def pointOf (sp : Split) : Bool := sp.point && !inFlight sp && !drains sp

/-- Is a pre-emption requested, and the split at a point of R227? -/
def atPoint (con : Consort) (sp : Split) : Bool := con.preReq.isSome && pointOf sp

/-- Begin the drain of the innermost loop: no further iteration begins (R227). -/
def startDrain (sp : Split) : Split := match sp.loops with
  | l :: ls => { sp with loops := { l with upto := some (min l.t l.count) } :: ls }
  | [] => sp

/-- What a split that has no trap to deliver does when it is looked at (R36, R45, R227, R228). -/
def lookSplit (s : State) (k : Core) (con : Consort) (c : Course) (spi : Nat) (sp : Split) : Look :=
  if c.inHandler.elim false (· != spi) || sp.park ≠ .ready || sp.wake.isSome || sp.yielded.isSome || atPoint con sp then .no
  else if con.preReq.isSome && inFlight sp && !drains sp then .skip (startDrain sp)
  else lookClause s k con c sp

/-- May a course issue at all? WDOG reaches one that waits for the Capo agent too. -/
def mayIssue (k : Core) (con : Consort) (c : Course) (wdog : Bool) : Bool :=
  !con.dying && !con.held && !c.ended && !c.atEnd && !c.halted && !c.haltReq && (!c.waitCapo || wdog) &&
  !(k.issue.any fun i => i.2.cid == con.cid && i.2.ci == c.idx)

/-- Is a work queue empty and closed? -/
def wqSpent (s : State) (num : Nat) : Bool := (wqAt s num).elim true fun w => w.count == 0 && !w.isOpen

/-- Is a course at the point at which it would end: no lane left, no CHORD or SMARCH request, and with refill a closed,
empty queue (R35, R46, R47)? It takes no issue slot from then on. -/
def endPoint (s : State) (con : Consort) (c : Course) : Bool :=
  let l := launchOf s con
  c.pend.all (fun p => p.reqs == 0) && c.splits.all (fun p => p.2.m == 0) && c.recs.isEmpty &&
  (c.splits.isEmpty || (l.refill && wqSpent s l.wq))

/-- The live course at whose boundary WDOG is raised (R230). One that waits for the next temporal iteration has none. -/
def wdCourse (con : Consort) : Option Nat := (con.courses.find? fun c => !c.ended && !c.atEnd).map (·.idx)

/-- Errors of a course's stores and loads that hold it until they are recorded, a handler of another split too (R224). -/
def errorsOf (k : Core) (con : Consort) (c : Course) : List StoreErr :=
  k.storeErrs.filter fun e => e.cid == con.cid && e.ci == c.idx && e.gen == c.gen

/-- Can a trap be delivered: to the user's handler, or with room for its record (R218, R223)? -/
def deliverable (s : State) (k : Core) (con : Consort) (c : Course) (t : PendTrap) : Bool :=
  fifoRoom k || ((t.cause == cSOFT || t.cause == cPOISON || t.cause == cFPX) && trapEntry s con != 0 && c.inHandler.isNone)

/-- What a course does when a slot looks at it: WDOG (R230), the trap of its lowest split (R225), or the first split in
table order from the round-robin place that has something to do (R45). With no room for its record a trap holds the
course (R223). -/
def lookCourse (s : State) (k : Core) (con : Consort) (c : Course) : Option (Nat × Split × Look) :=
  let wdog := con.wdDue && wdCourse con == some c.idx
  if !mayIssue k con c wdog then none
  else if wdog then
    if fifoRoom k then c.splits.head?.map fun p => (p.1, p.2, .trap ⟨cWDOG, 0, p.2.pc, p.2.off, p.2.pc + 4 * p.2.off⟩) else none
  else match trapPending c with
    | some (i, sp, t) =>
      if (errorsOf k con c).any (fun e => decide (e.sp ≤ i)) || !deliverable s k con c t then none else some (i, sp, .trap t)
    | none =>
      if !(errorsOf k con c).isEmpty || endPoint s con c then none
      else ((List.range 8).map fun i => (c.rr + i) % 8).findSome? fun i => match alGet c.splits i with
        | none => none
        | some sp => match lookSplit s k con c i sp with
          | .no => none
          | l => some (i, sp, l)

/-- The courses of a core but one that could issue now (R36). -/
def eligible (s : State) (core cid ci : Nat) : List (Nat × Nat) :=
  (s.consorts.filter fun con => con.core == core).flatMap fun con =>
    (con.courses.filter fun c => !(con.cid == cid && c.idx == ci) && (lookCourse s (coreAt s core) con c).isSome).map
      fun c => (con.cid, c.idx)

/-- R409: the split waits for the courses that were eligible when its clause ended. -/
def execYield (s : State) : Host.Outcome State Fault Refusal :=
  .next (match s.turn with
    | .burin _ => onBurin s (fun b x => slotDone s b x)
    | _ => lastWord s [] fun x =>
      endClause s { x with sp := { x.sp with yielded := some ⟨s.cycles, eligible s x.core x.con.cid x.c.idx⟩ } })

/-! ## Priority (R209, R210) -/

def basePrio (s : State) (con : Consort) : Nat := if con.capo then 23 else (launchOf s con).prio

def effPrio (s : State) (con : Consort) (c : Course) : Nat :=
  let b := basePrio s con
  if con.capo then b else min (min (b + c.age / 4096) (b + 3)) 22

/-- Does the first candidate win: higher priority, then greater T, then lower course slot? -/
def wins (s : State) (a b : Consort × Course) : Bool :=
  let pa := effPrio s a.1 a.2
  let pb := effPrio s b.1 b.2
  decide (pb < pa) || (pa == pb && (decide (b.2.age < a.2.age) || (a.2.age == b.2.age && decide (a.2.slot < b.2.slot))))

/-- The candidate that issues. -/
def bestCourse (s : State) (core : Nat) (want : Consort → Bool) : Option (Consort × Course × Nat × Split × Look) :=
  let k := coreAt s core
  let cands := (s.consorts.filter fun con => con.core == core && want con).flatMap fun con =>
    con.courses.filterMap fun c => (lookCourse s k con c).map fun l => (con, c, l)
  cands.foldl (fun (a : Option (Consort × Course × Nat × Split × Look)) x => match a with
    | none => some x
    | some b => if wins s (x.1, x.2.1) (b.1, b.2.1) then some x else some b) none

/-- T of R209 advances by the cycles in which a course is eligible, and the watchdog's count (R230): a consort counts as halted
for it when all its live courses are (DESIGN CHOICE, log 34: R230 does not say what one halted course of several does). -/
def passTime (s : State) (cycles : Nat) : State :=
  { s with consorts := s.consorts.map fun con =>
      let k := coreAt s con.core
      let live := con.courses.filter fun c => !c.ended
      { con with
        wdSpent := if !live.isEmpty && live.all (·.halted) then con.wdSpent else con.wdSpent + cycles
        courses := con.courses.map fun c => if con.capo || (lookCourse s k con c).isNone then c else { c with age := c.age + cycles } } }

/-! ## CLAUSE_ISSUE -/

/-- Abandon an etch at issue (R175, R176). MIXED is tested before INSTR: R176 sets no order between them (DESIGN CHOICE,
log 26). -/
def etchCheck (s : State) (con : Consort) (drv driver : Bool) (words : List Word) : State :=
  if con.plate.mode ≠ 1 then s
  else if drv ≠ driver then abandonEtch s con.cid 2
  else if drv && !((starts 1 words).all fun i => driverMay i.2) then abandonEtch s con.cid 1
  else s

/-- Courses that yield no longer wait for one that issues (R409). -/
def noteIssued (s : State) (core cid ci : Nat) : State :=
  { s with consorts := s.consorts.map fun con => if con.core != core then con else
      { con with courses := con.courses.map fun c => { c with splits := c.splits.map fun p =>
        (p.1, { p.2 with yielded := p.2.yielded.map fun y => { y with others := y.others.filter fun o => o != (cid, ci) } }) } } }

/-- Put a clause in an issue slot. -/
def issueClause (s : State) (core islot : Nat) (con : Consort) (c : Course) (spi : Nat) (sp : Split) (h : Word) (ws : List Word) : State :=
  let all := starts 1 ws
  let off := max 1 sp.off
  let ts := thresholds con.nflag (all.filter fun i => decide (off ≤ i.1))
  let errs := ((ts.map (·.1)).filter (cfErrOf con)).eraseDups
  let subs := ts.filter fun t => !errs.contains t.1
  let cf := subs.foldl (fun m t => smSet 0 m t.1 (smGet 0 m t.1 - BitVec.ofNat 16 t.2.1)) con.cf
  let driver := c.driver.getD (hDrv h)
  let sp := { sp with preRun := if hPre h then 0 else if sp.off = 0 then sp.preRun + 1 else sp.preRun, point := hPre h, iter := false }
  let c := { c with rr := (spi + 1) % 8, age := 0, driver := some driver, splits := alSet c.splits spi sp }
  let iss : Issue := { cid := con.cid, ci := c.idx, sp := spi, hdr := sp.pc, header := h, words := ws, off := off
                       ll := (all.filter fun i => decide (i.1 < off) && isLong i.2).length, ord := s.tick
                       cfErr := errs, cfSub := subs, await := none, waits := false }
  let code := cacheCode s (ctxOf s con) sp.pc (hLen h + 1)
  let s := setCon s (setCrs { con with cf := cf } c)
  let s := modCore s core fun k => code { k with issue := alSet k.issue islot iss }
  let s := noteIssued s core con.cid c.idx
  let s := noteAll s (ctxOf s con) [sp.pc]
  etchCheck s con (hDrv h) driver ws

/-- The offset at which a split goes on after a trap. One whose clause could not be fetched keeps its own, so that no word is
repeated once its page is there (R110, R216; DESIGN CHOICE, log 16). -/
def resumeOff (sp : Split) (t : PendTrap) : Nat :=
  if t.cause = cXLAT ∧ t.offset = 0 ∧ t.header = sp.pc then sp.off else t.offset

/-- Act on the candidate of an issue slot. -/
def takeCandidate (s : State) (core islot : Nat) (want : Consort → Bool) : State :=
  match bestCourse s core want with
  | none => s
  | some (con, c, spi, sp, l) => match l with
    | .no => s
    | .skip sp' => modCrs s con.cid c.idx fun c => { c with splits := alSet c.splits spi sp' }
    | .trap t =>
      let s := setCon s (setCrs { con with wdDue := con.wdDue && t.cause != cWDOG }
        { c with splits := alSet c.splits spi { sp with trap := none, pc := t.header, off := resumeOff sp t } })
      deliver s con.cid c.idx spi t
    | .issue h ws => issueClause s core islot con c spi sp h ws

/-- CLAUSE_ISSUE: issue slots 0 to 3 of the core that the unit names; the Capo agent issues on slot 0 alone, and there no
course clause begins amid one of its (R210). -/
def execClauseIssue (islot : Nat) (s : State) : Host.Outcome State Fault Refusal :=
  let core := unitOf s
  .next (if 4 ≤ islot ∨ (alGet (coreAt s core).issue islot).isSome ∨ (islot = 0 ∧ (alGet (coreAt s core).issue 4).isSome) then s
    else takeCandidate s core islot fun con => islot == 0 || !con.capo)

/-- CAPO_INTERLEAVE (R210): a Capo clause issues whole while the course clause on slot 0 waits at a word. -/
def execCapoInterleave (s : State) : Host.Outcome State Fault Refusal :=
  let core := unitOf s
  let k := coreAt s core
  .next (match alGet k.issue 0 with
    | none => s
    | some i =>
      if !i.waits || (alGet k.issue 4).isSome || (conAt s i.cid).elim true (·.capo) then s
      else takeCandidate s core 4 (·.capo))

/-! ## LONG_LATENCY_WRITEBACK (R37, R221, R224, R232) -/

/-- The key of a scalar register among the lanes that a debugger took. -/
def scalarKey (r : Nat) : Nat := 64 * 256 + r

/-- Land a pending write. -/
def landWrite (con : Consort) (c : Course) (p : PendWrite) : Consort :=
  let c := p.lanes.foldl (fun c l => if p.skip.contains l.1 then c else vSet c (l.1 / 64) (l.1 % 64) l.2) c
  let c := p.scalars.foldl (fun c w => if p.skip.contains (scalarKey w.1) then c else sSet c w.1 w.2) c
  let c := { c with nstat := c.nstat ||| p.fl.setWidth 64, pend := c.pend.filter fun q => q.id != p.id }
  let con := match p.push with
    | some (q, es) => enqueueAt con q p.turn es
    | none => con
  setCrs con c

/-- The k-th pending write of a course of the consort that the unit names. -/
def execLongLatencyWriteback (ci k : Nat) (s : State) : Host.Outcome State Fault Refusal :=
  .next (match conAt s (unitOf s) with
    | none => s
    | some con => match crsAt con ci with
      | none => s
      | some c => match c.pend[k]? with
        | none => s
        | some p =>
          if p.reqs ≠ 0 then s
          else
            let s := releaseHeld (setCon s (landWrite con c p)) con.core con.cid ci p.holds
            match p.record with
            | some e => reap (imprecise s con.core e) con.cid
            | none => s)

/-! ## Watchdog, pins and store errors -/

/-- WDOG (R230): the count of the consort that the unit names has reached its limit. With no live course left, while the
consort still feeds a plate or runs commands, the agent is told as of an engine's fault and kills the context (R187;
DESIGN CHOICE, log 34). -/
def execWdog (s : State) : Host.Outcome State Fault Refusal :=
  .next (match conAt s (unitOf s) with
    | none => s
    | some con =>
      if con.wdLimit = 0 ∨ (con.wdRaised ∧ !con.wdDue) ∨ con.wdSpent < 1024 * con.wdLimit then s
      else if con.courses.all (·.ended) then
        if !fifoRoom (coreAt s con.core) then s
        else
          let (slot, gen, ended, none?) := faultCourse con none
          let r := faultRec cWDOG 0 0 6 0 slot 0 gen false ended false none?
          let s := modCore (setCon s { con with wdRaised := true, wdDue := false }) con.core fun k => { k with fifo := k.fifo ++ [r] }
          killLaunch s con.launch con.cid (killStatus cWDOG 0 ((launchOf s con).gangSize != 0)) (BitVec.ofNat 64 (r.toNat % 2 ^ 64))
      else setCon s { con with wdRaised := true, wdDue := true })

/-- PIN_TIMEOUT (R127): of a line; pins as old as it have ended too. -/
def execPinTimeout (line : Nat) (s : State) : Host.Outcome State Fault Refusal :=
  let core := unitOf s
  .next (if (coreAt s core).pins.any fun p => p.line == line && decide (p.since + 2 ^ 16 ≤ s.cycles) then
      modCore s core (expirePins s.cycles)
    else s)

/-- STORE_ERROR (R224, R225): the oldest store error of the core that need not wait. -/
def execStoreError (s : State) : Host.Outcome State Fault Refusal :=
  let core := unitOf s
  let k := coreAt s core
  .next (match k.storeErrs.find? fun e => !impWaits s core e with
    | none => s
    | some e => reap (imprecise (setCore s core { k with storeErrs := k.storeErrs.erase e }) core e) e.cid)

end Sys2Proof.Machine
end

