-- ==== Sys2Proof/Machine/PlateEvents.lean ====
section
/-! DEFINITION. Plates in memory, the end of an etch, the print check, feeding, and the end of courses and of temporal
iterations (R35, R46, R95, R181 to R187, R412). -/

namespace Sys2Proof.Machine

/-! ## The plate store (R174, R182) -/

/-- A field of bytes. -/
def fieldB (bs : List Byte) (at' n : Nat) : Nat := ofBytes ((bs.drop at').take n)

def plateAddr (l : Launch) (index : Nat) : Nat := (l.pstore + index * l.pstride) % 2 ^ 64

/-- SIG (R412): the first eight digest bytes, the first of them lowest. -/
def plateSig (l : Launch) (index : Nat) : Nat :=
  let kd := fun a n => (l.kdesc.drop a).take n
  let msg := kd 96 8 ++ kd 104 2 ++ kd 0 8 ++ l.lt.flatMap (fun w => toBytes 4 w.toNat) ++ toBytes 1 l.nbv ++ toBytes 4 index
  ofBytes ((sha512 msg).take 8)

/-- Store bytes from an 8-byte aligned address, a doubleword at a time. -/
def storeMany (s : State) (ctx : Nat × Nat) (va : Nat) : Nat → List Byte → Except MemErr State
  | 0, _ => .ok s
  | n + 1, bs => do
    let s ← store s ctx.1 ctx.2 va (bs.take 8)
    storeMany s ctx (va + 8) n (bs.drop 8)

/-- The header's bytes (R182). -/
def plateHeader (l : Launch) (index nent nguard ntpl npatch : Nat) (dmask : BitVec 16) (check : Nat) : List Byte :=
  toBytes 4 check ++ toBytes 1 l.nbv ++ toBytes 1 1 ++ toBytes 1 npatch ++ toBytes 1 ntpl ++ toBytes 4 nguard ++ toBytes 4 nent ++
  toBytes 4 l.plateId ++ toBytes 2 0 ++ toBytes 2 dmask.toNat ++ toBytes 8 (plateSig l index)

/-- Bytes of entries. -/
def entryBytes (es : List (BitVec 128)) : List Byte := es.flatMap fun e => toBytes 16 e.toNat

/-- Pad with zeros to a length. -/
def padTo (n : Nat) (bs : List Byte) : List Byte := bs ++ List.replicate (n - bs.length) 0

/-- The image up to its last entry after the header: patch table, template block, entries; gaps are 0. -/
def plateBody (pl : Plate) : List Byte :=
  padTo (0x100 - 32) [] ++ padTo (0x1000 - 0x100) (entryBytes pl.patches) ++
  padTo 0x1000 (pl.tpls.flatMap fun t => toBytes 64 t.toNat) ++ entryBytes pl.entries

def isGuard (e : BitVec 128) : Bool := bits e.toNat 124 4 == 11

/-- The entries that are no operand entries, with their indices. -/
def commandsOf : Nat → List (BitVec 128) → List (Nat × BitVec 128)
  | _, [] => []
  | i, e :: es =>
    if bits e.toNat 124 4 = 1 ∨ bits e.toNat 124 4 = 2 then match es with
      | [] => [(i, e)]
      | _ :: rest => (i, e) :: commandsOf (i + 2) rest
    else (i, e) :: commandsOf (i + 1) es

/-- How many guard records entries hold: an operand entry is none, whatever its bits (R182, R183). -/
def guardCount (es : List (BitVec 128)) : Nat := ((commandsOf 0 es).filter fun e => isGuard e.2).length

/-- The guards and END that finish an etch (R181). -/
def finalEntries (l : Launch) (pl : Plate) : List (BitVec 128) :=
  let args := (List.range 32).filter fun n => pl.argsRead.contains n && !pl.patched.contains n
  let arg := fun n => entryOf 11 (n * 2 ^ 112 + (l.args.getD n 0).toNat)
  let res := fun (r : Nat × List DWord) =>
    let f := fun i => (r.2.getD i 0).toNat
    [entryOf 11 (1 * 2 ^ 120 + r.1 * 2 ^ 96 + f 0 * 2 ^ 88 + f 1 * 2 ^ 80 + f 2), entryOf 11 (2 * 2 ^ 120 + r.1 * 2 ^ 96 + f 3)]
  args.map arg ++ pl.resGuards.flatMap res ++ [entryOf 0 0]

/-- Mask of the driver courses (R175). -/
def driverMask (con : Consort) : BitVec 16 :=
  BitVec.ofNat 16 (con.courses.foldl (fun a c => if c.driver = some true then a + 2 ^ c.idx else a) 0)

/-- Does an access of the plate unit to n bytes of a plate store wait for a pinned line (R126)? -/
def platePinned (s : State) (ctx : Nat × Nat) (addr n : Nat) : Bool :=
  anyPins s && waitsPins s ctx ((List.range (n / 64 + 1)).map fun i => addr + 64 * i)

/-- Begin an etch: STATE = 2 before anything else (R181). -/
def etchStart (s : State) (cid : Nat) : State :=
  match conAt s cid with
  | none => s
  | some con =>
    let ctx := ctxOf s con
    match store s ctx.1 ctx.2 (con.plate.addr + 5) [2] with
    | .ok s => s
    | .error _ => abandonEtch s cid 9

/-- Write the finished plate: everything else first, the doubleword with STATE last. Entries beyond the plate window, which R181
has stream to the store at a time it does not give, are written here with the rest, so that a failing write of one abandons the
etch when it ends (DESIGN CHOICE, log 26). -/
def writePlate (s : State) (ctx : Nat × Nat) (l : Launch) (con : Consort) (pl : Plate) : Except MemErr State := do
  let nent := pl.entries.length
  let head := plateHeader l con.index nent (guardCount pl.entries) pl.tpls.length pl.patches.length (driverMask con)
  let body := plateBody pl
  let check := (crc32c (head 0 ++ body)).toNat
  let s ← storeMany s ctx (con.plate.addr + 32) (body.length / 8) body
  let s ← storeMany s ctx (con.plate.addr + 8) 3 ((head check).drop 8)
  storeMany s ctx con.plate.addr 1 (head check)

/-- PLATE_ETCH_FINISH (R181): once every course has shown whether it is a driver and the drivers have ended, and no line of the
store is pinned. -/
def etchFinish (s : State) (cid : Nat) : State :=
  match conAt s cid with
  | none => s
  | some con =>
    if con.plate.mode ≠ 1 ∨ con.plate.finished ∨ !con.courses.all (fun c => c.driver.isSome && (c.driver == some false || c.ended)) then s
    else
      let l := launchOf s con
      let pl := { con.plate with entries := con.plate.entries ++ finalEntries l con.plate }
      if plateCap l < pl.entries.length then abandonEtch s cid 7
      else if platePinned s (ctxOf s con) pl.addr (0x2000 + 16 * pl.entries.length) then s
      else match writePlate s (ctxOf s con) l con pl with
        | .error _ => abandonEtch s cid 9
        | .ok s => setCon s { con with plate := { pl with finished := true } }

/-! ## The print check (R184) -/

/-- The tiles of a product among entries: handles of A and B of MMA, MBLK and copy+MMA. -/
def productOf (e op : BitVec 128) : Option (Nat × Nat) :=
  let v := e.toNat
  match bits v 124 4 with
  | 3 | 4 => some (bits v 9 8, bits v 1 8)
  | 2 =>
    let s2 := bits v 83 35
    let mine := bits v 69 6
    let other := bits s2 24 6
    let _ := op
    some (if s2.testBit 30 then (other, mine) else (mine, other))
  | _ => none

/-- Are the reserved bits of an entry 0 (R183)? -/
def entryOk (v : Nat) : Bool :=
  match bits v 124 4 with
  | 0 => v == 0
  | 1 | 2 => bits v 64 5 == 0
  | 3 | 4 | 5 | 7 | 8 | 9 | 10 => bits v 64 60 == 0
  | 6 => bits v 87 37 == 0 && (bits v 48 4 == 1 || bits v 48 4 == 2 || bits v 64 23 == 0)
  | 11 => match bits v 120 4 with
    | 0 => bits v 117 3 == 0 && bits v 64 48 == 0
    | 1 => bits v 112 8 == 0 && bits v 64 16 == 0
    | 2 => bits v 112 8 == 0 && bits v 64 32 == 0
    | 3 => bits v 102 18 == 0 && bits v 92 4 == 0 && bits v 21 67 == 0 && bits v 15 1 == 0 && bits v 7 1 == 0
    | _ => false
  | _ => false

/-- Indices of operand entries, from the entries in order. -/
def operandIdx : Nat → List (BitVec 128) → List Nat
  | _, [] => []
  | i, e :: es =>
    if bits e.toNat 124 4 = 1 ∨ bits e.toNat 124 4 = 2 then match es with
      | [] => [i + 1]
      | _ :: rest => (i + 1) :: operandIdx (i + 2) rest
    else operandIdx (i + 1) es

/-- The group of the last TILE guard of a handle before an index. -/
def guardGroup (cmds : List (Nat × BitVec 128)) (i h : Nat) : Option Nat :=
  ((cmds.filter fun e => decide (e.1 < i) && isGuard e.2 && bits e.2.toNat 120 4 == 3 && bits e.2.toNat 96 6 == h).getLast?).map
    fun e => bits e.2.toNat 16 4

/-- Do the guards of arguments and resources hold now? -/
def guardHolds (s : State) (ctx : Nat × Nat) (l : Launch) (v : Nat) : Bool :=
  match bits v 120 4 with
  | 0 => (l.args.getD (bits v 112 5) 0).toNat == bits v 0 64
  | 1 => match readNamed s .present ctx l.rtab (bits v 96 16) with
    | .ok (.ent e) => ResEnt.type e == bits v 88 8 && ResEnt.f e 16 8 == bits v 80 8 && ResEnt.shape0 e == bits v 0 64
    | _ => false
  | 2 => match readNamed s .present ctx l.rtab (bits v 96 16) with
    | .ok (.ent e) => ResEnt.shape1 e == bits v 0 64
    | _ => false
  | _ => true

/-- Replace a half of an operand entry. -/
def setHalf (e : BitVec 128) (half v : Nat) : BitVec 128 :=
  BitVec.ofNat 128 (if half = 0 then bits e.toNat 64 64 * 2 ^ 64 + v % 2 ^ 64 else v % 2 ^ 64 * 2 ^ 64 + bits e.toNat 0 64)

/-- Apply a patch slot: field := %argN + offset. -/
def applyPatch (l : Launch) (es : List (BitVec 128)) (p : BitVec 128) : List (BitVec 128) :=
  let v := p.toNat
  let i := bits v 108 20
  es.set i (setHalf (es.getD i 0) (bits v 100 3) ((l.args.getD (bits v 103 5) 0).toNat + bits v 0 64))

/-- Put the current base into an operand entry's resource-relative address fields. -/
def rebase (s : State) (ctx : Nat × Nat) (l : Launch) (kind : Nat) (e : BitVec 128) : Option (BitVec 128) :=
  let one := fun (e : BitVec 128) (half : Nat) =>
    let v := bits e.toNat (64 * half) 64
    if v < 2 ^ 63 then some e
    else match readNamed s .present ctx l.rtab (bits v 47 16) with
      | .ok (.ent r) => some (setHalf e half (ResEnt.base r + bits v 0 47))
      | _ => none
  match kind with
  | 0 | 1 => one e 0
  | 3 => (one e 0).bind fun e => one e 1
  | _ => some e

/-- Rebase every operand entry. Where one names an absent or a bad resource entry, and no RES guard has failed, the consort
etches (DESIGN CHOICE, log 26: R184 does not say). -/
def rebaseAll (s : State) (ctx : Nat × Nat) (l : Launch) (tpls : List Tpl) : List (BitVec 128) → Option (List (BitVec 128))
  | [] => some []
  | e :: es =>
    if bits e.toNat 124 4 = 1 ∨ bits e.toNat 124 4 = 2 then match es with
      | [] => none
      | o :: rest => do
        let o ← rebase s ctx l (Tpl.kind (tpls.getD (bits e.toNat 118 6) 0)) o
        let r ← rebaseAll s ctx l tpls rest
        some (e :: o :: r)
    else do
      let r ← rebaseAll s ctx l tpls es
      some (e :: r)

/-- The resource entries that the print check of some entries may read: those of RES guards and of operands' addresses. -/
def resIndices (es : List (BitVec 128)) : List Nat := es.flatMap fun e =>
  (if bits e.toNat 124 4 = 11 then [bits e.toNat 96 16] else []) ++
  ([0, 1].filter fun half => e.toNat.testBit (64 * half + 63)).map fun half => bits e.toNat (64 * half + 47) 16

/-- n values of a width in bytes. -/
def chunks (w : Nat) (bs : List Byte) (n : Nat) : List Nat := (List.range n).map fun i => fieldB bs (w * i) w

/-- Read and check a plate for a print; none when the consort must etch. -/
def printCheck (s : State) (ctx : Nat × Nat) (l : Launch) (index : Nat) (pl : Plate) : Option Plate := do
  let a := pl.addr
  let head ← (loadMany s ctx.1 ctx.2 a 4).toOption
  let h := fieldB head
  let nent := h 12 4
  if !(h 4 1 == l.nbv && h 5 1 == 1 && decide (h 6 1 ≤ 32) && decide (h 7 1 ≤ 64) && decide (1 ≤ nent ∧ nent ≤ 2 ^ 20) &&
      h 16 4 == l.plateId && h 20 2 == 0 && h 24 8 == plateSig l index) then none
  else
    let rest ← (loadMany s ctx.1 ctx.2 (a + 32) ((0x2000 - 32) / 8 + 2 * nent)).toOption
    let es := (chunks 16 (rest.drop (0x2000 - 32)) nent).map (BitVec.ofNat 128)
    let ops := operandIdx 0 es
    let cmds := commandsOf 0 es
    let tpls : List Tpl := (chunks 64 (rest.drop (0x1000 - 32)) (h 7 1)).map (BitVec.ofNat 512)
    let patches := (chunks 16 (rest.drop (0x100 - 32)) (h 6 1)).map (BitVec.ofNat 128)
    let ok := (crc32c (toBytes 4 0 ++ head.drop 4 ++ rest)).toNat == h 0 4 &&
      ops.all (fun i => decide (i < nent)) && cmds.all (fun e => entryOk e.2.toNat) &&
      ((cmds.filter fun e => bits e.2.toNat 124 4 == 0).map (·.1)) == [nent - 1] && guardCount es == h 8 4 &&
      cmds.all (fun e => !(bits e.2.toNat 124 4 == 1 || bits e.2.toNat 124 4 == 2) || decide (bits e.2.toNat 118 6 < h 7 1)) &&
      patches.all (fun p => bits p.toNat 64 36 == 0 && decide (bits p.toNat 100 3 ≤ 1) && ops.contains (bits p.toNat 108 20)) &&
      cmds.all (fun e => !isGuard e.2 || guardHolds s ctx l e.2.toNat) &&
      cmds.all (fun e => match productOf e.2 (es.getD (e.1 + 1) 0) with
        | none => true
        | some (x, y) => match guardGroup cmds e.1 x, guardGroup cmds e.1 y with
          | some g, some g' => g != g'
          | _, _ => true)
    if !ok then none
    else
      let es ← rebaseAll s ctx l tpls (patches.foldl (applyPatch l) es)
      some { pl with mode := 2, dmask := BitVec.ofNat 16 (h 22 2), entries := es, tpls := tpls, patches := patches, feed := 0, feedDone := false
                     ue := Config.plateErrors s.tick }

/-! ## Feeding (R185, R186) -/

/-- The course that a fault of a fed entry halts under a debugger, if it still runs (R84, R214). -/
def plateCourse (con : Consort) : Option Course := ((flagCourse con none).bind (crsAt con)).bind fun c => if c.ended then none else some c

/-- A course halts at its cursor with the trap's registers written (R214). -/
def haltAt (c : Course) (cause : Nat) (v : DWord) : Course :=
  let at' := c.splits.head?
  { c with
    trapc := BitVec.ofNat 64 cause, trapv := v, trappc := at'.elim 0 fun p => cursor p.2.pc p.2.off
    halted := true, trapHalt := at'.map (·.1), splits := endSleeps (at'.elim c.splits fun p => resetRun c.splits p.1) }

/-- A failure of a print: feeding stops, the record names the entry, and the launch ends (R186), or with a debugger attached
the course that it reports to halts (R214). With no room for the record, or a clause of that course in issue, it waits. -/
def plateEvent (s : State) (con : Consort) (cause : Nat) (value : Nat) : State :=
  let k := coreAt s con.core
  let halts := if debugged s (ctxOf s con).1 then plateCourse con else none
  if !fifoRoom k || halts.elim false (fun c => k.issue.any fun i => i.2.cid == con.cid && i.2.ci == c.idx) then s
  else
    let (slot, gen, ended, none?) := faultCourse con none
    let v : DWord := BitVec.ofNat 64 value
    let r := faultRec cause v 0 5 con.plate.feed slot 0 gen false ended false none?
    let s := setCore s con.core { k with fifo := k.fifo ++ [r] }
    let con := { con with plate := { con.plate with feedDone := true } }
    match halts with
    | some c => setCon s (setCrs con (haltAt c cause v))
    | none =>
    let s := setCon s con
    let ctx := ctxOf s con
    let s := if cause = cPLATE then plateInvalid s ctx.1 ctx.2 con.plate.addr else s
    let gang := (launchAt s con.launch).elim false fun l => decide (l.gangSize ≠ 0)
    killLaunch s con.launch con.cid (killStatus cause v gang) (BitVec.ofNat 64 (r.toNat % 2 ^ 64))

/-- Advance the feed by n entries. -/
def fedOn (con : Consort) (n : Nat) : Consort := { con with plate := { con.plate with feed := con.plate.feed + n, feedAwait := none } }

/-- Feed commands that their checks planned, once the queues that they name have room: the checks are those of that moment
(R134, R185). -/
def feedPlans (s : State) (con : Consort) (n : Nat) (queues : List Nat) (plans : Chk (List Plan)) : State :=
  let k := coreAt s con.core
  if !roomFor k (queues ++ engineClaims k) then s
  else match plans with
    | .error _ => plateEvent s con cPLATE 2
    | .ok ps => setCon (setCore s con.core (enqueue s.tick k con.cid none (launchOf s con).nbv (some con.plate.feed) ps)) (fedOn con n)

/-- The instruction of a recorded command. -/
def entryInstr (v : Nat) : Option Instr :=
  (decodeCore (BitVec.ofNat 32 (bits v 0 32)) (BitVec.ofNat 32 (bits v 32 32))).toOption

/-- The checks of guard, fields and BK that a fed word passes as an issued one does (R185, R186). -/
def fedOk (p : P) (f : Free) (legal : Bool) : Bool := !guarded p && fieldsOk p f && legal

/-- Feed a count-flag or owner entry. -/
def feedFlag (s : State) (con : Consort) (i : Instr) : State :=
  let issue := plateEvent s con cPLATE 2
  let go := fun (con : Consort) => setCon s (fedOn con 1)
  let flagOk := fun (p : P) (legal : Bool) => fedOk p immFree (p.bk == 2 && legal) && decide (p.d.toNat < con.nflag)
  let tileOk := fun (p : P) => fedOk p { d := true } (isS p.d) && (tileAt con p.d.toNat).isSome
  match i with
  | .cfwait p =>
    let f := p.d.toNat
    let n := imm16 p
    if !flagOk p (decide (1 ≤ n ∧ n < 2 ^ 15)) then issue
    else if cfErrOf con f then plateEvent s con cCFERR f
    else if cfCount con f < n then s
    else go { con with cf := smSet 0 con.cf f (smGet 0 con.cf f - BitVec.ofNat 16 n) }
  | .cfadd p => if flagOk p (decide (imm16 p < 2 ^ 15)) then go (cfAdd con p.d.toNat (imm16 p)) else issue
  | .cfset p =>
    if flagOk p true then go { con with cf := smSet 0 con.cf p.d.toNat (BitVec.ofNat 16 (imm16 p)) } else issue
  | .cfrd p => if fedOk p { d := true, a := true } (isS p.d) ∧ p.a.toNat < con.nflag then go con else issue
  | .tgive p => if tileOk p then go (setOwn con p.d.toNat true) else issue
  | .ttake p =>
    if !tileOk p then issue
    else
      let before := con.plate.feedAwait.getD s.tick
      let waits := match con.plate.feedAwait with
        | some before => tilePending s con.cid p.d.toNat before
        | none => takeWaits s con p.d.toNat before
      if waits then setCon s { con with plate := { con.plate with feedAwait := some before } }
      else go (setOwn con p.d.toNat false)
  | _ => issue

/-- The queue of a copy's channel; a channel that is not there has none. -/
def copyQueue (p : P) : List Nat := if p.x3.toNat < 4 then [p.x3.toNat] else []

/-- Feed an engine command. Where the entry's kind is not that of the instruction its words hold, which no rule settles, the words
say what is fed (DESIGN CHOICE, log 26). -/
def feedEngine (s : State) (con : Consort) (v op : Nat) (i : Instr) : State :=
  let l := launchOf s con
  let dw := fun (n : Nat) => (BitVec.ofNat 64 n : DWord)
  let tpl := con.plate.tpls.getD (bits v 118 6) 0
  let copy := fun (p : P) (mma : Option (Nat × Nat)) => feedPlans s con 2 (copyQueue p ++ if mma.isSome then [4] else [])
    (planCopy con p mma tpl (dw (bits op 0 64)) (dw (bits v 69 14)) (dw (bits v 83 35)) (dw (bits op 64 64)))
  let mat := fun m p => feedPlans s con 1 [4] (planMatrix l con m p (dw (bits v 64 23)))
  match i with
  | .xcopy p => copy p none
  | .xcopym p fn => copy p (some (fn.toNat, 0))
  | .mma p fn => mat (.mma fn.toNat) p
  | .mblk p => mat .mblk p
  | .scla p => mat .scla p
  | .mzero p => mat .mzero p
  | .mdrain p => mat .mdrain p
  | .mdrainPeer p => mat (.peer false) p
  | .mdrainOpeer p => mat (.peer true) p
  | _ => plateEvent s con cPLATE 2

/-- Does the TILE guard of an entry hold (R185)? -/
def tileGuardOk (con : Consort) (v : Nat) : Bool := match tileAt con (bits v 96 6) with
  | some t => t.ty == bits v 88 4 && bits (tileDesc t) 0 20 == bits v 0 20
  | none => false

/-- Can the entry at an index be read: correct in the plate window, or beyond it streamed in, with a valid kind unless it is
an operand entry (R186)? One whose read fails translation cannot either, where no rule names its sub-code (DESIGN CHOICE, log 26). -/
def entryReads (s : State) (con : Consort) (i : Nat) (operand : Bool) : Bool :=
  let ctx := ctxOf s con
  if i < 256 * con.plate.window then !con.plate.ue.contains i
  else match loadMany s ctx.1 ctx.2 (con.plate.addr + 0x2000 + 16 * i) 2 with
    | .ok b => operand || decide (fieldB b 0 16 / 2 ^ 124 < 12)
    | .error _ => false

/-- Does the read of the next entry from the plate store wait for a pinned line? -/
def streamPinned (s : State) (con : Consort) : Bool :=
  decide (256 * con.plate.window ≤ con.plate.feed + 1) && platePinned s (ctxOf s con) (con.plate.addr + 0x2000 + 16 * con.plate.feed) 31

/-- Can the next entry be read, with its operand entry if it is a copy? -/
def streamOk (s : State) (con : Consort) : Bool :=
  let i := con.plate.feed
  let kind := bits (con.plate.entries.getD i 0).toNat 124 4
  entryReads s con i false && (!(kind == 1 || kind == 2) || entryReads s con (i + 1) true)

/-- PLATE_FEED (R185): the next entry of the consort that the unit names; of an etch, its end where that waited for a pin
(R126). Feeding stops once a pre-emption is requested, where R187 only has its cursor saved (DESIGN CHOICE, log 23). -/
def execPlateFeed (s : State) : Host.Outcome State Fault Refusal :=
  .next (match conAt s (unitOf s) with
    | none => s
    | some con =>
      if con.plate.mode = 1 then reap (etchFinish s con.cid) con.cid
      else if con.plate.mode ≠ 2 ∨ con.plate.feedDone ∨ con.dying ∨ con.held ∨ con.preReq.isSome ∨ (coreAt s con.core).freeze.isSome ∨
          streamPinned s con then s
      else
        let v := (con.plate.entries.getD con.plate.feed 0).toNat
        let op := (con.plate.entries.getD (con.plate.feed + 1) 0).toNat
        let stop := reap (setCon s { con with plate := { con.plate with feedDone := true } }) con.cid
        if !streamOk s con then plateEvent s con cPLATE 3
        else match bits v 124 4 with
          | 0 => stop
          | 11 =>
            if bits v 120 4 ≠ 3 then stop
            else if tileGuardOk con v then setCon s (fedOn con 1) else plateEvent s con cPLATE 1
          | k => match entryInstr v with
            | none => plateEvent s con cPLATE 2
            | some i => if k = 8 ∨ k = 9 ∨ k = 10 then feedFlag s con i else feedEngine s con v op i)

/-! ## The end of courses and iterations (R35, R46) -/

/-- Extents of the temporal levels, and whether an iteration remains after the current one. -/
def iterationsLeft (l : Launch) (tix : List Nat) : Bool :=
  (List.range 4).any fun n => extentOf l n != 0 && kindOf l n == 0 && decide (tix.getD n 0 + 1 < extentOf l n)

/-- The next temporal indices: level 0 changes fastest. -/
def nextTix (l : Launch) (tix : List Nat) : Nat → List Nat
  | 0 => tix
  | fuel + 1 =>
    let n := 3 - fuel
    if extentOf l n = 0 ∨ kindOf l n ≠ 0 then nextTix l tix fuel
    else if tix.getD n 0 + 1 < extentOf l n then tix.set n (tix.getD n 0 + 1)
    else nextTix l (tix.set n 0) fuel

/-- Has a course reached its end (R35, R46)? -/
def courseDone (s : State) (con : Consort) (c : Course) : Bool :=
  !con.held && !c.ended && !c.atEnd && !((coreAt s con.core).issue.any fun i => i.2.cid == con.cid && i.2.ci == c.idx) &&
  endPoint s con c

/-- COURSE_END (R35, R46): of the consort that the unit names. -/
def execCourseEnd (ci : Nat) (s : State) : Host.Outcome State Fault Refusal :=
  .next (match conAt s (unitOf s) with
    | none => s
    | some con => match crsAt con ci with
      | none => s
      | some c =>
        if con.capo || !courseDone s con c then s
        else
          let c := if iterationsLeft (launchOf s con) con.tix then { c with atEnd := true } else { c with ended := true, splits := [] }
          reap (etchFinish (noteStep (setCon s (setCrs con c)) con.cid) con.cid) con.cid)

/-- The lanes that live when a course starts (R33). -/
def liveLanes (l : Launch) : Mask := match kdByte l 16 with
  | 1 => fullMask 16
  | 3 => fullMask 64
  | _ => fullMask 32

/-- A split at a course's entry. -/
def entrySplit (pc : Nat) (m : Mask) : Split :=
  { pc := pc, off := 0, m := m, exec := m, park := .ready, jrec := none, loops := [], preRun := 0, point := false, iter := false, wake := none
    yielded := none, trap := none }

/-- TEMPORAL_ITERATION (R35): of the consort that the unit names. -/
def execTemporalIteration (s : State) : Host.Outcome State Fault Refusal :=
  .next (match conAt s (unitOf s) with
    | none => s
    | some con =>
      let l := launchOf s con
      if con.courses.isEmpty || !con.courses.all (·.atEnd) || !iterationsLeft l con.tix then s
      else setCon s { con with
        tix := nextTix l con.tix 4
        courses := con.courses.map fun c => { c with
          atEnd := false, splits := [(0, entrySplit c.entry (liveLanes l))], recs := [], rr := 0
          pend := c.pend.map fun p => { p with flags := [] } } })

end Sys2Proof.Machine
end

