-- ==== Sys2Proof/Machine/FrontEnd.lean ====
section
/-! DEFINITION. The Krehan front end: queue control blocks, wakes, fetching and dispatching commands, completion
records, FEED, SIGNAL and WAIT (R188 to R202, R413). The unit of each event but WAKE_WRITE and COMMAND_FETCH
is the physical address of the queue's QCB. -/

namespace Sys2Proof.Machine

/-! ## Queue control blocks (R188, R189) -/

/-- A QCB's fields, in bytes 0 to 55. -/
def qcbBytes (s : State) (qcb : Nat) : Option (List Byte) := (physRead s qcb 64 0).toOption

structure Qcb where
  ring : Nat
  rsize : Nat
  tail : Nat
  head : Nat
  csize : Nat
  cring : Nat
  ctail : Nat
  chead : Nat
  root : Nat
  pasid : Nat
  gen : Nat
  prio : Nat
  state : Nat
  gwait : Nat
  gmax : Nat
  deriving DecidableEq, Repr

def parseQcb (bs : List Byte) : Qcb :=
  let f := fieldB bs
  let w := f 48 8
  { ring := f 0 8, rsize := f 8 4, tail := f 12 4, head := f 16 4, csize := f 20 4, cring := f 24 8, ctail := f 32 4
    chead := f 36 4, root := f 40 8, pasid := bits w 0 20, gen := bits w 20 4, prio := bits w 24 5, state := bits w 29 3
    gwait := bits w 32 16, gmax := bits w 48 16 }

/-- The QCB at an address; one that cannot be read reads as zeros, which break its limits. A write to a live QCB is seen at once:
R189 lets each field be seen or not (DESIGN CHOICE, log 19). -/
def qcbOf (s : State) (qcb : Nat) : Qcb := parseQcb ((qcbBytes s qcb).getD (List.replicate 64 0))

/-- Write bytes of a QCB. -/
def qcbPut (s : State) (qcb off : Nat) (bs : List Byte) : State := match physWrite s (qcb + off) 0 bs with
  | .ok s' => s'
  | .error _ => s

def isPow2 (n : Nat) : Bool := n != 0 && n == 2 ^ Nat.log2 n

/-- The limits of R188. -/
def qcbOk (q : Qcb) : Bool :=
  let size := fun (n : Nat) => isPow2 n && decide (64 ≤ n ∧ n ≤ 2 ^ 20)
  size q.rsize && size q.csize && q.ring % 4096 == 0 && q.cring % 4096 == 0 && q.root % 4096 == 0 &&
  decide (q.prio ≤ 22 ∧ q.gwait ≤ q.gmax)

/-- Set STATE: bits [415:413]. -/
def setQState (s : State) (qcb v : Nat) : State :=
  let q := qcbOf s qcb
  qcbPut s qcb 51 (toBytes 1 (q.prio + v * 32))

/-- Does an access to a QCB wait for a pinned line (R126)? -/
def qcbPinned (s : State) (qcb : Nat) : Bool := spanPinned s qcb 64

def queueFor (s : State) (qcb : Nat) : Option Queue := s.queues.find? fun q => q.qcb == qcb
def setQueueRec (s : State) (q : Queue) : State := { s with queues := putWhere s.queues (fun r => r.qcb == q.qcb) q }
def newQueue (qcb : Nat) : Queue :=
  { qcb := qcb, cached := false, spans := [], cmds := [], served := 0, bind := none, broken := false, pri := false, granted := []
    owed := [], retiring := none }

/-- A queue's record, made when the front end first learns of the QCB. R7 gives the module 4,096 host queues and no rule says
what one more does: any number is kept and served (DESIGN CHOICE, log 19). -/
def withQueue (s : State) (qcb : Nat) : State :=
  if (queueFor s qcb).isSome then s else { s with queues := s.queues ++ [newQueue qcb] }

/-- The queue is idle once nothing is left to fetch or to complete; its QCB is then dropped (R189, R413), when its line is not
pinned (R126). -/
def settle (s : State) (qcb : Nat) : State :=
  match queueFor s qcb with
  | none => s
  | some q =>
    let b := qcbOf s qcb
    if !q.cmds.isEmpty || !q.owed.isEmpty || q.retiring.isSome || qcbPinned s qcb then s
    else if q.broken then setQueueRec s { newQueue qcb with served := q.served }
    else if b.head = b.tail ∧ (b.state = 1 ∨ b.state = 2) then
      setQueueRec (setQState s qcb 0) { newQueue qcb with bind := q.bind, served := q.served }
    else s

/-- Does the front end serve work? Not before READY, nor in the safe state (R286). -/
def serving (s : State) : Bool := s.mbox.ready && !s.mbox.safe

/-! ## Wakes (R190, R191) -/

def inc32 (a b : Nat) : Nat := (a + 2 ^ 32 - b) % 2 ^ 32

/-- The first check of R191 that a wake fails, by its number, or none. -/
def wakeFails (s : State) (off : Nat) (bs : List Byte) (pasid : Option Nat) : Option Nat :=
  let f := fieldB bs
  let qcb := f 0 8
  let owner := f 14 3
  let rights := f 12 2
  let b := qcbOf s qcb
  if bs.length ≠ 64 ∨ off % 64 ≠ 0 ∨ pasid.isNone ∨ f 36 28 ≠ 0 then some 1
  else if f 24 8 ≠ (Config.capSeal (f 0 24)).toNat ∨ f 17 1 ≠ 0 ∨ f 18 6 ≠ 0 ∨ 64 ≤ rights then some 2
  else if some (bits owner 4 20) ≠ pasid then some 3
  else if !rights.testBit 0 then some 4
  else if bits owner 0 4 ≠ b.gen ∨ b.state = 4 ∨ f 8 4 ≠ b.rsize then some 5
  else if b.rsize < inc32 b.tail b.head ∨ b.rsize - inc32 b.tail b.head < inc32 (f 32 4) b.tail then some 6
  else none

/-- WAKE_WRITE (R191): a write at an offset of BAR0; one that does not begin in the wake window is no wake write, and
one whose QCB is in a pinned line comes later. -/
def execWakeWrite (off : Nat) (bytes : List Byte) (pasid : Option Nat) (s : State) : Host.Outcome State Fault Refusal :=
  .next (if !serving s ∨ off < 0x10000 ∨ 0x20000 ≤ off ∨ qcbPinned s (fieldB bytes 0 8) then s
    else match wakeFails s off bytes pasid with
      | some k => { s with wakeDiscards := s.wakeDiscards.set (k - 1) (s.wakeDiscards.getD (k - 1) 0 + 1) }
      | none =>
        let f := fieldB bytes
        let qcb := f 0 8
        let b := qcbOf s qcb
        let s := withQueue s qcb
        match queueFor s qcb with
        | none => s
        | some q =>
          if b.state = 3 then qcbPut s qcb 12 (toBytes 4 (f 32 4))
          else if !q.cached && !qcbOk b then setQState (qcbPut s qcb 12 (toBytes 4 (f 32 4))) qcb 3
          else
            let n := inc32 (f 32 4) b.tail
            let s := setQueueRec s { q with cached := true, spans := q.spans ++ [(n, BitVec.ofNat 16 (f 12 2))] }
            let s := qcbPut s qcb 12 (toBytes 4 (f 32 4))
            settle (if b.state = 0 then setQState s qcb 1 else s) qcb)

/-! ## Completion records (R196, R413) -/

/-- Statuses of R196. -/
def stOK : Nat := 0
def stBADCMD : Nat := 1
def stDENIED : Nat := 2
def stLOOPTABLE : Nat := 3
def stXLAT : Nat := 4
def stWQ : Nat := 5
def stFULL : Nat := 6
def stUNPLACEABLE : Nat := 7
def stLATE : Nat := 8
def stFAILED : Nat := 9
def stRETIRED : Nat := 14
def stMEMERR : Nat := 15

def doneOf (c : QCmd) (status detail : Nat) : Done := ⟨status, detail, fieldB c.bytes 4 4, 0, 0, 0⟩

def recordBytes (d : Done) (phase : Bool) (time : Nat) : List Byte :=
  toBytes 4 d.tag ++ toBytes 1 d.status ++ toBytes 1 d.abandon ++ toBytes 2 (d.plate + if phase then 0x8000 else 0) ++
  toBytes 8 d.count ++ toBytes 8 time ++ toBytes 8 d.detail

/-- Is the completion ring full (R193)? -/
def ringFull (b : Qcb) : Bool := decide (b.csize ≤ inc32 b.ctail b.chead)

/-- Is a GANG waiting for its LAUNCH (R208)? -/
def gangBound (c : QCmd) : Bool := fieldB c.bytes 0 1 == 5 && c.stage == 1

/-- A ring access failed for good: STATE 3, and a ring-fault record; no record is written any more (R413). What was not
dispatched goes, and with it a GANG whose LAUNCH does not come any more. -/
def ringFault (s : State) (qcb va : Nat) : State :=
  match queueFor s qcb with
  | none => s
  | some q =>
    let s := setQState (setQueueRec s { q with
      broken := true, owed := [], cmds := q.cmds.filter (fun c => c.stage ≠ 0 && !gangBound c), spans := [], bind := none }) qcb 3
    { s with ringFaults := s.ringFaults ++ [⟨va, qcb⟩] }

/-- Ask for the page that a ring access lacks; one whose page was granted and still is not there has failed. -/
def ringPri (s : State) (qcb va : Nat) : State :=
  match queueFor s qcb with
  | none => s
  | some q =>
    if va ∈ q.granted then ringFault s qcb va
    else
      let s := setQueueRec s { q with pri := true }
      { s with pris := s.pris ++ [⟨s.tick, (qcbOf s qcb).pasid, va, .queue qcb⟩] }

/-- A ring access has succeeded. -/
def grantUsed (s : State) (qcb va : Nat) : State := match queueFor s qcb with
  | none => s
  | some q => setQueueRec s { q with granted := q.granted.filter (· != va) }

def dropCmd (s : State) (qcb n : Nat) : State := match queueFor s qcb with
  | none => s
  | some q => setQueueRec s { q with cmds := q.cmds.filter fun c => c.n != n }

/-- Where the next record of a completion ring goes. -/
def recordVa (b : Qcb) : Nat := (b.cring + 32 * (b.ctail % b.csize)) % 2 ^ 64

/-- Try to write a record, and say whether it is written. Not while the ring is full or a page is awaited, nor while its line
is pinned; a page that is not present is asked for, and any other failure puts the queue in STATE 3 (R193, R413). -/
def tryRecord (s : State) (qcb : Nat) (d : Done) : State × Bool :=
  let b := qcbOf s qcb
  let va := recordVa b
  if (queueFor s qcb).elim true (fun q => q.broken || q.pri) || ringFull b || qcbPinned s qcb ||
      waitsPins s (b.pasid, b.root) [va] then (s, false)
  else match storeMany s (b.pasid, b.root) va 4 (recordBytes d (b.ctail / b.csize % 2 == 0) s.fabtime) with
  | .ok s => (qcbPut (grantUsed s qcb va) qcb 32 (toBytes 4 ((b.ctail + 1) % 2 ^ 32)), true)
  | .error (.xlat r) => (if r = rNotPresent then ringPri s qcb va else ringFault s qcb va, false)
  | .error .mem => (ringFault s qcb va, false)

/-- Write the records a queue owes, oldest first, as far as they can be written; `fuel` bounds their number. -/
def flushOwed (s : State) (qcb : Nat) : Nat → State
  | 0 => s
  | fuel + 1 => match queueFor s qcb with
    | none => s
    | some q => match q.owed with
      | [] => s
      | d :: rest =>
        let r := tryRecord s qcb d
        if r.2 then flushOwed ((queueFor r.1 qcb).elim r.1 fun q => setQueueRec r.1 { q with owed := rest }) qcb fuel else r.1

/-- The record of a command that has ended, after those the queue still owes; a queue in STATE 3 writes none (R413). -/
def putRecord (s : State) (qcb : Nat) (d : Done) : State := match queueFor s qcb with
  | none => s
  | some q =>
    if q.broken then s else flushOwed (setQueueRec s { q with owed := q.owed ++ [d] }) qcb (q.owed.length + 1)

/-- Complete a command. -/
def finish (s : State) (qcb : Nat) (c : QCmd) (status detail : Nat) : State :=
  settle (putRecord (dropCmd s qcb c.n) qcb (doneOf c status detail)) qcb

/-- The status and DETAIL of a command whose own access failed. -/
def finishErr (s : State) (qcb : Nat) (c : QCmd) (e : MemErr) (va : Nat) : State :=
  finish s qcb c (match e with | .xlat _ => stXLAT | .mem => stMEMERR) va

/-! ## Fetch and dispatch (R192, R193) -/

def cmdOp (c : QCmd) : Nat := fieldB c.bytes 0 1
def cmdFlags (c : QCmd) : Nat := fieldB c.bytes 1 1

/-- BADCMD and DENIED of R193. -/
def cmdBad (c : QCmd) : Option Nat :=
  let fl := cmdFlags c
  let ok := match cmdOp c with
    | 1 => decide (fl < 32)
    | 2 => decide (fl < 16)
    | 3 => decide (fl < 2)
    | 4 | 5 => fl == 0
    | _ => false
  if !ok then some stBADCMD else if !c.rights.getLsbD (cmdOp c) then some stDENIED else none

/-- The first fetched command that is not dispatched, if nothing holds it. -/
def nextCmd (s : State) (qcb : Nat) : Option QCmd :=
  match queueFor s qcb with
  | none => none
  | some q =>
    if q.broken || q.pri || !q.owed.isEmpty || q.retiring.isSome || ringFull (qcbOf s qcb) ||
        qcbPinned s qcb then none
    else match q.cmds.find? fun c => c.stage == 0 with
      | none => none
      | some c => if q.cmds.any fun d => d.stage != 0 && cmdOp d == 4 then none else some c

/-- What becomes of the GANG that bound a LAUNCH which completes with a status (R208): BADCMD with it, else OK. -/
def gangStatus (st : Nat) : Nat := if st = stBADCMD then stBADCMD else stOK

/-- Complete the GANG commands that bound a launch. -/
def finishGangs (qcb status : Nat) : Nat → State → State
  | 0, s => s
  | fuel + 1, s => match queueFor s qcb with
    | none => s
    | some q => match q.cmds.find? gangBound with
      | none => setQueueRec s { q with bind := none }
      | some d => finishGangs qcb status fuel (finish s qcb d status 0)

/-- Complete the commands at the front that are refused for their OP, flags or right, a LAUNCH with the GANG that bound it;
`fuel` bounds their number. -/
def pump (s : State) (qcb : Nat) : Nat → State
  | 0 => s
  | fuel + 1 => match nextCmd s qcb with
    | none => s
    | some c => match cmdBad c with
      | none => s
      | some st =>
        let s' := finish s qcb c st 0
        let bound := (queueFor s qcb).elim 0 (·.cmds.length)
        pump (if cmdOp c = 1 then finishGangs qcb (gangStatus st) bound s' else s') qcb fuel

/-- Run a dispatch rule on the next command of the unit's queue when it is of the kind named. -/
def dispatch (s : State) (want : QCmd → Bool) (f : Nat → Queue → QCmd → State) : State :=
  let qcb := unitOf s
  match queueFor s qcb, nextCmd s qcb with
  | some q, some c => if (cmdBad c).isNone && want c then
      let s := f qcb q c
      pump s qcb (((queueFor s qcb).map (·.cmds.length)).getD 0)
    else s
  | _, _ => s

/-- Mark a command as dispatched and running, or as waiting. -/
def setStage (s : State) (qcb : Nat) (c : QCmd) (stage : Nat) : State := match queueFor s qcb with
  | none => s
  | some q => setQueueRec s { q with cmds := putWhere q.cmds (fun d => d.n == c.n) { c with stage := stage, since := s.cycles } }

/-- May the front end fetch for a queue? -/
def fetchable (s : State) (q : Queue) : Bool :=
  let b := qcbOf s q.qcb
  q.cached && !q.broken && !q.pri && !qcbPinned s q.qcb && q.retiring.isNone && b.state == 1 && b.head != b.tail

/-- The queue to serve: highest PRIO, then the one served longest ago. -/
def fetchFrom (s : State) : Option Queue :=
  (s.queues.filter (fetchable s)).foldl (fun a q => match a with
    | none => some q
    | some p =>
      let pq := (qcbOf s q.qcb).prio
      let pp := (qcbOf s p.qcb).prio
      if pp < pq ∨ (pp = pq ∧ q.served < p.served) then some q else some p) none

/-- Take one command off the front of the spans of rights. -/
def takeSpan : List (Nat × BitVec 16) → BitVec 16 × List (Nat × BitVec 16)
  | [] => (0, [])
  | (0, _) :: t => takeSpan t
  | (n + 1, r) :: t => (r, (n, r) :: t)

/-- Retirement's records (R196, R211): RETIRED, with the dropped count, for each command still dispatched but for LAUNCHes,
which complete when their consorts are gone; and at the end the one with the dropped count, with STATE = 4. -/
def flushRetired (s : State) (qcb : Nat) : Nat → State
  | 0 => s
  | fuel + 1 => match queueFor s qcb with
    | none => s
    | some q => match q.retiring with
      | none => s
      | some dropped =>
        match q.cmds.find? fun c => cmdOp c != 1 with
        | some c => flushRetired (finish s qcb c stRETIRED dropped) qcb fuel
        | none =>
          if !q.cmds.isEmpty || !q.owed.isEmpty || qcbPinned s qcb then s
          else
            let r := tryRecord s qcb ⟨stRETIRED, dropped, 0, 0, 0, 0⟩
            if r.2 || (queueFor r.1 qcb).elim true (·.broken) then setQueueRec (setQState r.1 qcb 4) (newQueue qcb) else r.1

/-- COMMAND_FETCH (R192, R413), for the whole front end. -/
def execCommandFetch (s : State) : Host.Outcome State Fault Refusal :=
  .next (if !serving s then s
    else
      let s := s.queues.foldl (fun s q => flushRetired (pump (settle (flushOwed s q.qcb q.owed.length) q.qcb) q.qcb q.cmds.length) q.qcb
        (q.cmds.length + 1)) s
      match fetchFrom s with
      | none => s
      | some q =>
        let b := qcbOf s q.qcb
        let va := (b.ring + 64 * (b.head % b.rsize)) % 2 ^ 64
        if waitsPins s (b.pasid, b.root) [va] then s
        else match loadMany s b.pasid b.root va 8 with
        | .error (.xlat r) => settle (if r = rNotPresent then ringPri s q.qcb va else ringFault s q.qcb va) q.qcb
        | .error .mem => settle (ringFault s q.qcb va) q.qcb
        | .ok bs =>
          let (rights, spans) := takeSpan q.spans
          let c : QCmd := ⟨b.head, bs, rights, 0, s.cycles⟩
          let s := setQueueRec s { q with
            cmds := q.cmds ++ [c], spans := spans, served := s.tick, granted := q.granted.filter (· != va) }
          let s := qcbPut s q.qcb 16 (toBytes 4 ((b.head + 1) % 2 ^ 32))
          pump s q.qcb (q.cmds.length + 1))

/-! ## FEED (R198, R199) -/

def feedNum (c : QCmd) : Nat := fieldB c.bytes 2 2
def feedSrc (c : QCmd) : Nat := fieldB c.bytes 8 8
def feedCount (c : QCmd) : Nat := fieldB c.bytes 16 4
def isFeed (c : QCmd) : Bool := cmdOp c == 2
def isCreate (c : QCmd) : Bool := isFeed c && (cmdFlags c).testBit 0
def isDestroy (c : QCmd) : Bool := isFeed c && !(cmdFlags c).testBit 0 && (cmdFlags c).testBit 3
def isAppend (c : QCmd) : Bool := isFeed c && !(cmdFlags c).testBit 0 && !(cmdFlags c).testBit 3

/-- FEED_CREATE. -/
def execFeedCreate (s : State) : Host.Outcome State Fault Refusal :=
  .next (dispatch s isCreate fun qcb _ c =>
    let b := qcbOf s qcb
    let n := feedCount c
    if feedSrc c % 16 ≠ 0 then finish s qcb c stBADCMD 0
    else if (wqAt s (feedNum c)).isSome || !(isPow2 n && decide (16 ≤ n ∧ n ≤ 2 ^ 20)) then finish s qcb c stWQ 0
    else
      let w : WorkQ := ⟨feedNum c, b.pasid, b.root, feedSrc c, n, 0, 0, true⟩
      finish { s with workqs := s.workqs ++ [w] } qcb c stOK 0)

/-- Does a REFILL sleep on a work queue? -/
def refillAsleep (s : State) (num : Nat) : Bool :=
  (s.consorts ++ s.saved.map (·.consort)).any fun con => con.courses.any fun c => c.splits.any fun p => p.2.park == .refill num

/-- FEED_DESTROY. R199 lists three reasons for WQ; a number that names no queue and a queue of another PASID complete WQ too
(DESIGN CHOICE, log 20: no rule says what they give). -/
def execFeedDestroy (s : State) : Host.Outcome State Fault Refusal :=
  .next (dispatch s isDestroy fun qcb _ c => match wqAt s (feedNum c) with
    | none => finish s qcb c stWQ 0
    | some w =>
      if w.isOpen || w.count != 0 || w.owner != (qcbOf s qcb).pasid || refillAsleep s w.num then finish s qcb c stWQ 0
      else finish { s with workqs := s.workqs.filter fun v => v.num != w.num } qcb c stOK 0)

/-- Append records of 16 bytes. -/
def pushAll (s : State) (num : Nat) : List Byte → Nat → Except (MemErr × Nat) State
  | _, 0 => .ok s
  | bs, n + 1 => match wqAt s num with
    | none => .ok s
    | some w => match wqPush s w (bs.take 16) with
      | .error e => .error (e, wqAddr w w.count)
      | .ok s => pushAll s num (bs.drop 16) n

/-- A FEED of a queue waits no longer: STATE 2 ends unless another of its appends waits (R199). -/
def unwait (s : State) (qcb n : Nat) : State :=
  let waits := (queueFor s qcb).elim false fun q => q.cmds.any fun c => isAppend c && c.stage == 2 && c.n != n
  if (qcbOf s qcb).state = 2 ∧ !waits then setQState s qcb 1 else s

/-- Append, once there is room. -/
def feedAppend (s : State) (qcb : Nat) (c : QCmd) (w : WorkQ) : State :=
  let b := qcbOf s qcb
  let n := feedCount c
  let close := (cmdFlags c).testBit 1
  let src := (List.range (2 * n)).map fun i => (feedSrc c + 8 * i) % 2 ^ 64
  let failed := src.findSome? fun va => match load s b.pasid b.root va 8 with
    | .ok _ => none
    | .error e => some (e, va)
  if waitsPins s (b.pasid, b.root) src || waitsPins s (w.owner, w.root) (wqSpan w w.count n) then s
  else match failed with
  | some (e, va) => finishErr (unwait s qcb c.n) qcb c e va
  | none =>
    let recs := src.flatMap fun va => ((load s b.pasid b.root va 8).toOption).getD []
    match pushAll s w.num recs n with
    | .error (e, va) => finishErr (unwait s qcb c.n) qcb c e va
    | .ok s' =>
      let s' := match wqAt s' w.num with
        | some w' => if close then setWq s' { w' with isOpen := false } else s'
        | none => s'
      let s' := if n = 0 ∧ !close then s' else wakeRefills s' w.num
      finish (unwait s' qcb c.n) qcb c stOK 0

/-- Is an earlier FEED of the queue still waiting for room in the same work queue? -/
def feedBehind (q : Queue) (c : QCmd) : Bool :=
  (q.cmds.takeWhile fun d => d.n != c.n).any fun d => isAppend d && d.stage == 2 && feedNum d == feedNum c

/-- Does an append of a queue fail with WQ: its work queue is absent, closed, of another owner or too small (R199)? -/
def appendFails (s : State) (qcb : Nat) (c : QCmd) : Bool :=
  (wqAt s (feedNum c)).elim true fun w => !w.isOpen || w.owner != (qcbOf s qcb).pasid || decide (w.cap < feedCount c)

/-- FEED_APPEND. -/
def execFeedAppend (s : State) : Host.Outcome State Fault Refusal :=
  .next (dispatch s (fun c => isAppend c) fun qcb q c =>
    let n := feedCount c
    match wqAt s (feedNum c) with
    | none => finish s qcb c stWQ 0
    | some w =>
      if feedSrc c % 16 ≠ 0 then finish s qcb c stBADCMD 0
      else if appendFails s qcb c then finish s qcb c stWQ 0
      else if (cmdFlags c).testBit 2 then if w.cap < w.count + n then finish s qcb c stFULL 0 else feedAppend s qcb c w
      else if decide (w.cap < w.count + n) || feedBehind q c then setQState (setStage s qcb c 2) qcb 2
      else feedAppend s qcb c w)

/-- Can a waiting append be served: it fails by now, or its work queue has room, and none before it waits for the same? -/
def feedReady (s : State) (q : Queue) (c : QCmd) : Bool :=
  isAppend c && c.stage == 2 && !feedBehind q c && !qcbPinned s q.qcb &&
  (appendFails s q.qcb c || (wqAt s (feedNum c)).any fun w => decide (w.count + feedCount c ≤ w.cap))

/-- FEED_ROOM: the first waiting append of the queue that can be served, once its QCB's line is not pinned (R126). -/
def execFeedRoom (s : State) : Host.Outcome State Fault Refusal :=
  let qcb := unitOf s
  .next (match (queueFor s qcb).bind fun q => q.cmds.find? (feedReady s q) with
    | none => s
    | some c =>
      let gone := finish (unwait s qcb c.n) qcb c stWQ 0
      match wqAt s (feedNum c) with
      | none => gone
      | some w => if appendFails s qcb c then gone else feedAppend s qcb c w)

/-! ## SIGNAL and WAIT (R202) -/

def syncAddr (c : QCmd) : Nat := fieldB c.bytes 8 8
def syncValue (c : QCmd) : Nat := fieldB c.bytes 16 8

/-- SIGNAL, once every earlier command of the queue has completed. -/
def signal (s : State) (add : Bool) : State :=
  dispatch s (fun c => cmdOp c == 3 && (cmdFlags c).testBit 0 == add) fun qcb q c =>
    let b := qcbOf s qcb
    let a := syncAddr c
    if (q.cmds.head?).elim true (fun d => d.n != c.n) then s
    else if a % 8 ≠ 0 then finish s qcb c stBADCMD 0
    else if waitsPins s (b.pasid, b.root) [a] then s
    else
      let old := if add then load s b.pasid b.root a 8 else .ok []
      match old with
      | .error e => finishErr s qcb c e a
      | .ok o => match store s b.pasid b.root a (toBytes 8 ((ofBytes o + syncValue c) % 2 ^ 64)) with
        | .error e => finishErr s qcb c e a
        | .ok s' => finish s' qcb c stOK 0

/-- SIGNAL_STORE. -/
def execSignalStore (s : State) : Host.Outcome State Fault Refusal := .next (signal s false)

/-- SIGNAL_ADD. -/
def execSignalAdd (s : State) : Host.Outcome State Fault Refusal := .next (signal s true)

/-- The load of a WAIT: it completes once satisfied, an acquire of what it read (R202), or waits on. -/
def waitRead (s : State) (qcb : Nat) (c : QCmd) : State :=
  let b := qcbOf s qcb
  if waitsPins s (b.pasid, b.root) [syncAddr c] then s
  else match load s b.pasid b.root (syncAddr c) 8 with
  | .error e => finishErr s qcb c e (syncAddr c)
  | .ok v => 
    if syncValue c ≤ ofBytes v then finish (forgetVas s (b.pasid, b.root) 8 [syncAddr c]) qcb c stOK 0 else setStage s qcb c 2

/-- WAIT. -/
def execWait (s : State) : Host.Outcome State Fault Refusal :=
  .next (dispatch s (fun c => cmdOp c == 4) fun qcb _ c =>
    if syncAddr c % 8 ≠ 0 then finish s qcb c stBADCMD 0 else waitRead s qcb c)

/-- WAIT_REREAD. -/
def execWaitReread (s : State) : Host.Outcome State Fault Refusal :=
  let qcb := unitOf s
  .next (match queueFor s qcb with
    | none => s
    | some q => match q.cmds.find? fun c => cmdOp c == 4 && c.stage == 2 with
      | none => s
      | some c =>
        let s := waitRead s qcb c
        pump s qcb q.cmds.length)

/-! ## GANG (R208) -/

/-- Bytes at any alignment, with the address of the first that fails. -/
def loadBytes (s : State) (ctx : Nat × Nat) (va : Nat) : Nat → Except (MemErr × Nat) (List Byte)
  | 0 => .ok []
  | n + 1 => match load s ctx.1 ctx.2 (va % 2 ^ 64) 1 with
    | .error e => .error (e, va % 2 ^ 64)
    | .ok b => match loadBytes s ctx (va + 1) n with
      | .error e => .error e
      | .ok r => .ok (b ++ r)

/-- GANG: it binds the next LAUNCH and completes with it. What is bound is the command's bytes 8 to 23, then MAP's. After a GANG
that completes BADCMD, XLAT or MEMERR nothing is bound, and the next LAUNCH is an ordinary one (DESIGN CHOICE, log 20: R208 does
not say). -/
def execGang (s : State) : Host.Outcome State Fault Refusal :=
  .next (dispatch s (fun c => cmdOp c == 5) fun qcb _ c =>
    let b := qcbOf s qcb
    let total := fieldB c.bytes 18 2
    let map := (List.range (2 * total)).map fun i => (fieldB c.bytes 24 8 + i) % 2 ^ 64
    if total = 0 ∨ 256 < total then finish s qcb c stBADCMD 0
    else if waitsPins s (b.pasid, b.root) map then s
    else match loadBytes s (b.pasid, b.root) (fieldB c.bytes 24 8) (2 * total) with
      | .error (e, va) => finishErr s qcb c e va
      | .ok map =>
        let s := setStage s qcb c 1
        match queueFor s qcb with
        | none => s
        | some q => setQueueRec s { q with bind := some ((c.bytes.drop 8).take 16 ++ map) })

/-- The span of a bound GANG. -/
def spanOf (bs : List Byte) : Span :=
  let f := fieldB bs
  { start := f 0 8, base := f 8 2, total := f 10 2, gid := f 12 4, pkgs := (List.range (f 10 2)).map fun i => f (16 + 2 * i) 2
    sent := false, decided := false, going := false, aborted := false }

end Sys2Proof.Machine
end

