-- ==== Sys2Proof/Machine/LaunchEvents.lean ====
section
/-! DEFINITION. Launches: dispatch, die shares, tickets and steals, gangs on one package and across packages, and
completion (R30 to R35, R95, R132, R174, R194 to R197, R203 to R208, R237, R238). The unit of LAUNCH is the
QCB's address, of TICKET_CLAIM the core, of LAUNCH_COMPLETE and of the events of a spanning gang the launch, and of
TICKET_STEAL, GANG_PLACE, GANG_RESERVE, GANG_PREEMPT and GANG_TIMEOUT 4 × the launch + the die. -/

namespace Sys2Proof.Machine

/-! ## Checks of a LAUNCH (R194, R195, R238, R34) -/

/-- The limits of R194. A kernel descriptor that is not 64-byte aligned, as R237 has it, is not refused: no row of R195 says what
one gives (DESIGN CHOICE, log 19). -/
def launchOk (bs : List Byte) : Bool :=
  let f := fieldB bs
  let fl := f 1 1
  let mode := bits fl 1 2
  let lts := (List.range 4).map fun i => f (32 + 4 * i) 4
  let present := lts.map fun w => w.testBit 27
  decide (mode ≠ 3) && (f 2 1 == 2 || f 2 1 == 3) && (fl.testBit 3 || f 3 1 == 0) && f 16 8 % 64 == 0 &&
  lts.all (fun w => decide (w < 2 ^ 28)) && (present.dropWhile id).all (fun p => !p) && f 48 8 % 4096 == 0 &&
  (if mode = 0 then f 48 8 == 0 && f 56 2 == 0 else decide (3 ≤ f 56 2)) && (fl.testBit 0 || f 58 2 == 0)

/-- The limits of a kernel descriptor (R237, R238). -/
def kernelOk (kd : List Byte) : Bool :=
  let f := fieldB kd
  let nc := f 17 1
  decide (f 16 1 ≤ 3 ∧ 1 ≤ nc ∧ nc ≤ (if f 16 1 = 3 then 8 else 16) ∧ 1 ≤ f 18 1 ∧ f 18 1 ≤ 31 ∧ f 19 1 ≤ 64 ∧ f 20 1 ≤ 64 ∧
    f 21 1 ≤ 64 ∧ f 22 1 ≤ 8 ∧ f 23 1 ≤ 16) &&
  f 30 2 == 0 && (List.range 8).all (fun g => decide (bits (f 24 8) (6 * g) 6 ≤ 32)) && f 0 8 % 4 == 0 && f 8 8 % 4 == 0 &&
  (List.range 16).all (fun n => f (32 + 4 * n) 4 % 4 == 0 && (decide (n < nc) || f (32 + 4 * n) 4 == 0)) &&
  (kd.drop 106).all (fun b => b == 0)

/-- The present levels: extent and kind. -/
def levels (l : Launch) : List (Nat × Nat) :=
  ((List.range 4).filter fun n => (l.lt.getD n 0).getLsbD 27).map fun n => (extentOf l n, kindOf l n)

/-- The limits of R34. -/
def tableOk (l : Launch) : Bool :=
  let ls := levels l
  let kinds := ls.map (·.2)
  let checks := (List.range 4).filter fun n => kinds.getD n 0 == 3
  !ls.isEmpty && ls.all (fun e => decide (1 ≤ e.1 ∧ e.1 ≤ 2 ^ 24)) && decide ((ls.map (·.1)).prod ≤ 2 ^ 32) &&
  (match checks with
    | [] => decide (kinds.count 2 ≤ 1)
    | [a, b] => b == a + 1 && kinds.count 2 == 0
    | _ => false)

/-- The number of consorts (R34). -/
def consortCount (l : Launch) : Nat := (((levels l).filter fun e => e.2 != 0).map (·.1)).prod

/-- Has the launch a dies level? -/
def hasDies (l : Launch) : Bool := (levels l).any fun e => e.2 == 2 || e.2 == 3

/-- The die of a consort (R34, R203). -/
def dieOf (l : Launch) (index : Nat) : Nat :=
  let ns := List.range 4
  match ns.find? fun n => kindOf l n == 2 with
  | some n => digitOf l index n / 256 % 4
  | none => match ns.find? fun n => kindOf l n == 3 with
    | some n => digitOf l index n % 2 + 2 * (digitOf l index (n + 1) % 2)
    | none => index / 256 % 4

/-- Add a unit to a share, extending its last range when it follows it. -/
def addUnit (sh : List (Nat × Nat)) (u : Nat) : List (Nat × Nat) := match sh.getLast? with
  | some (a, b) => if b = u then sh.dropLast ++ [(a, u + 1)] else sh ++ [(u, u + 1)]
  | none => [(u, u + 1)]

/-- Consorts per unit: a gang, or one. -/
def unitSize (l : Launch) : Nat := if l.gangSize = 0 then 1 else l.gangSize

/-- The shares of the four dies, as ranges of units (R203). -/
def dealShares (l : Launch) : List (List (Nat × Nat)) :=
  (List.range 4).map fun d =>
    ((List.range (l.total / unitSize l)).filter fun u => dieOf l (u * unitSize l) == d).foldl addUnit []

/-- How many units a share holds. -/
def shareSize (sh : List (Nat × Nat)) : Nat := (sh.map fun r => r.2 - r.1).sum

/-- The next unit of a share. -/
def nextUnit (sh : List (Nat × Nat)) : Option Nat := (sh.head?).map (·.1)

/-- A share without its next unit. -/
def restUnits : List (Nat × Nat) → List (Nat × Nat)
  | [] => []
  | (a, b) :: t => if a + 1 < b then (a + 1, b) :: t else t

/-- The launch that a command describes, before it is accepted. -/
def launchFrom (s : State) (qcb : Nat) (b : Qcb) (c : QCmd) (kd args : List Byte) (bind : Option (List Byte)) : Launch :=
  let f := fieldB c.bytes
  let fl := f 1 1
  let l : Launch :=
    { lid := s.launches.foldl (fun m l => max m (l.lid + 1)) 1, qcb := qcb, n := c.n, tag := BitVec.ofNat 32 (f 4 4), pasid := b.pasid
      root := b.root, prio := b.prio, kdesc := kd, args := (List.range 32).map fun i => BitVec.ofNat 64 (fieldB args (8 * i) 8)
      rtab := f 24 8, lt := (List.range 4).map fun i => BitVec.ofNat 32 (f (32 + 4 * i) 4), nbv := f 2 1, refill := fl.testBit 0
      plateMode := bits fl 1 2, gangSize := if fl.testBit 3 then f 3 1 + 1 else 0, pstore := f 48 8, pstride := f 56 2 * 4096
      wq := f 58 2, plateId := f 60 4, lidValue := Config.launchIdent s.tick, total := 0, ended := 0, shares := [], waits := []
      failed := [], span := bind.map spanOf, status := 0, detail := 0, printed := false, etched := false, abandon := 0, order := s.tick
      code := [pastOf s] }
  { l with total := consortCount l }

/-- The first address of n bytes whose translation fails. -/
def probe (s : State) (ctx : Nat × Nat) (va n : Nat) : Option Nat :=
  ((List.range n).map fun i => (va + i) % 2 ^ 64).find? fun a => match translate s ctx.1 ctx.2 .read a with
    | .error (.xlat _) => true
    | _ => false

/-- The checks of R195 in the order of its rows: the launch, or status and DETAIL. -/
def checkLaunch (s : State) (qcb : Nat) (q : Queue) (c : QCmd) : Except (Nat × Nat) Launch :=
  let b := qcbOf s qcb
  let ctx := (b.pasid, b.root)
  let f := fieldB c.bytes
  if !launchOk c.bytes then .error (stBADCMD, 0)
  else match [(f 8 8, 256), (f 16 8, 256), (f 24 8, 64)].findSome? fun r => probe s ctx r.1 r.2 with
    | some va => .error (stXLAT, va)
    | none => match loadBytes s ctx (f 8 8) 256, loadBytes s ctx (f 16 8) 256 with
      | .error (_, va), _ => .error (stMEMERR, va)
      | _, .error (_, va) => .error (stMEMERR, va)
      | .ok kd, .ok args =>
        let l := launchFrom s qcb b c kd args q.bind
        if !kernelOk kd then .error (stBADCMD, 0)
        else if !tableOk l then .error (stLOOPTABLE, 0)
        else if l.gangSize ≠ 0 ∧ l.total % l.gangSize ≠ 0 then .error (stBADCMD, 0)
        else if q.bind.isSome && l.gangSize != l.total then .error (stBADCMD, 0)
        else if l.refill && (wqAt s l.wq).elim true (fun w => !w.isOpen || w.owner != l.pasid) then .error (stWQ, 0)
        else .ok { l with shares := dealShares l }

/-- May this LAUNCH be dispatched: every earlier LAUNCH of the queue has completed, or OVERLAP (R193)? -/
def launchFree (q : Queue) (c : QCmd) : Bool :=
  (cmdFlags c).testBit 4 || (q.cmds.takeWhile fun d => d.n != c.n).all fun d => cmdOp d != 1

/-- Do the loads of a LAUNCH wait for pins (R126)? -/
def launchWaits (s : State) (qcb : Nat) (c : QCmd) : Bool :=
  let b := qcbOf s qcb
  let span : Nat → List Nat := fun va => (List.range 256).map fun i => (va + i) % 2 ^ 64
  waitsPins s (b.pasid, b.root) (span (fieldB c.bytes 8 8) ++ span (fieldB c.bytes 16 8))

/-- The instruction caches drop the lines of a context, which then issues nothing older than what memory holds now (R239). -/
def dropCode (s : State) (pasid : Nat) : State :=
  { s with
    cores := s.cores.map fun k => (k.1, { k.2 with icache := k.2.icache.filter fun w => w.pasid != pasid })
    launches := s.launches.map fun l => if l.pasid = pasid then { l with code := [pastOf s] } else l }

/-- LAUNCH. -/
def execLaunch (s : State) : Host.Outcome State Fault Refusal :=
  .next (dispatch s (fun c => cmdOp c == 1) fun qcb q c =>
    if !launchFree q c || launchWaits s qcb c then s
    else
      let u := dropCode s (qcbOf s qcb).pasid
      match checkLaunch s qcb q c with
      | .ok l => finishGangs qcb stOK q.cmds.length (setStage { u with launches := u.launches ++ [l] } qcb c 1)
      | .error (st, detail) => finishGangs qcb (gangStatus st) q.cmds.length (finish u qcb c st detail))

/-! ## Residence (R30, R31, R95, R132) -/

/-- What a consort is given on a core. -/
structure Fit where
  slots : List Nat
  resv : List (Nat × Nat)
  tplBase : Nat
  cfBase : Nat
  accBase : Nat
  deriving DecidableEq, Repr

/-- The lowest place of n consecutive free cells out of cap. -/
def firstFit (taken : List (Nat × Nat)) (cap n : Nat) : Option Nat :=
  (List.range (cap + 1)).find? fun b =>
    decide (b + n ≤ cap) && taken.all fun t => decide (t.2 = 0 ∨ n = 0 ∨ t.1 + t.2 ≤ b ∨ b + n ≤ t.1)

/-- Slots of a course: two of a lockstep pair. -/
def slotsOf (c : Course) : List Nat := if c.width = 64 then [c.slot, c.slot + 1] else [c.slot]

/-- What a consort of n courses takes beside its slots: width 64, granules per course, windows and reservation lengths. -/
structure Want where
  n : Nat
  pair : Bool
  vgran : Nat
  ntpl : Nat
  nflag : Nat
  nacc : Nat
  window : Nat
  res : List Nat
  deriving DecidableEq, Repr

/-- Does a consort of these wants fit beside the consorts of a core, and where? -/
def fitOn (cons : List Consort) (w : Want) : Option Fit := do
  let cons := cons.filter fun c => !c.capo
  let used := cons.flatMap fun c => c.courses.flatMap slotsOf
  let free := (List.range 64).filter fun k => !used.contains k
  let free := if w.pair then free.filter fun k => k % 2 == 0 && free.contains (k + 1) else free
  let regs := fun (c : Consort) => c.vgran * 8 * (c.courses.flatMap slotsOf).length
  let mine := w.vgran * 8 * (if w.pair then 2 * w.n else w.n)
  if free.length < w.n ∨ 4096 < (cons.map regs).sum + mine ∨ 16 < (cons.map fun c => c.plate.window).sum + w.window then none
  else
    let tpl ← firstFit (cons.map fun c => (c.tplBase, c.ntpl)) 64 w.ntpl
    let cf ← firstFit (cons.map fun c => (c.cfBase, c.nflag)) 64 w.nflag
    let acc ← firstFit (cons.map fun c => (c.accBase, c.nacc)) 8 w.nacc
    let res ← (List.range 8).mapM fun g =>
      let n := w.res.getD g 0
      (firstFit (cons.map fun c => c.resv.getD g (0, 0)) 32 n).map fun b => (b, n)
    some ⟨free.take w.n, res, tpl, cf, acc⟩

/-- What a consort of a launch wants when its courses outside a mask start. -/
def wantOf (l : Launch) (n : Nat) : Want :=
  { n := n, pair := kdByte l 16 == 3, vgran := kdByte l 18, ntpl := kdByte l 20, nflag := kdByte l 21, nacc := kdByte l 22
    window := kdByte l 23, res := (List.range 8).map fun g => bits (fieldB l.kdesc 24 8) (6 * g) 6 }

def onCore (s : State) (core : Nat) : List Consort := s.consorts.filter fun c => c.core == core

/-- A course at its start (R32, R33, R81, R169, R234, R238, R272). -/
def courseStart (l : Launch) (gen : BitVec 16) (idx slot : Nat) : Course :=
  let entry := (fieldB l.kdesc 0 8 + fieldB l.kdesc (32 + 4 * idx) 4) % 2 ^ 64
  { idx := idx, slot := slot, width := (match kdByte l 16 with | 1 => 16 | 3 => 64 | _ => 32), entry := entry
    v := [], p := [], s := [], marks := [], ncr := 0, nstat := 0, nbv := BitVec.ofNat 64 l.nbv, chw := 0x0100, msteps := 0x10000
    trapc := 0, trappc := 0, trapv := 0, splits := [(0, entrySplit entry (liveLanes l))], recs := [], rr := 0, pend := []
    nextId := 0, inHandler := none, trapHalt := none, waitCapo := false, halted := false, haltReq := false, stepOne := false
    atEnd := false, ended := false, gen := gen, age := 0, driver := none }

def plateStart (l : Launch) (index : Nat) : Plate :=
  { mode := l.plateMode, reason := 0, addr := plateAddr l index, window := kdByte l 23, finished := false, dmask := 0, entries := [], tpls := []
    patches := [], tileGuards := [], argsRead := [], patched := [], resGuards := [], feed := 0, feedAwait := none, feedDone := false, ue := [] }

/-- The plate state with which a consort starts: in mode 2 the print check decides (R184). -/
def platePlan (s : State) (l : Launch) (index : Nat) : Plate :=
  let pl := plateStart l index
  if l.plateMode = 2 then (printCheck s (l.pasid, l.root) l index pl).getD { pl with mode := 1 } else pl

/-- Does the plate unit's start of a consort wait for a pinned line: of the plate's header, and in mode 2 of the plate or of the
resource entries that its check reads (R126)? -/
def plateWaits (s : State) (l : Launch) (index : Nat) : Bool :=
  let a := plateAddr l index
  let ctx := (l.pasid, l.root)
  let nent := min (2 ^ 20) (((loadMany s l.pasid l.root a 4).toOption.map fun h => fieldB h 12 4).getD 0)
  let es := fun (_ : Unit) => (chunks 16 (((loadMany s l.pasid l.root (a + 0x2000) (2 * nent)).toOption).getD []) nent).map (BitVec.ofNat 128)
  l.plateMode != 0 && anyPins s && (platePinned s ctx a (if l.plateMode = 1 then 31 else 0x2000 + 16 * nent) ||
    (l.plateMode == 2 && waitsPins s ctx (l.rtab :: (resIndices (es ())).map fun i => (l.rtab + 64 * i) % 2 ^ 64)))

/-- Courses that start: those outside DMASK. -/
def startIdx (l : Launch) (pl : Plate) : List Nat := (List.range (ncourses l)).filter fun i => !pl.dmask.getLsbD i

/-- Make a consort resident where it fits (R30, R32). -/
def enter (s : State) (l : Launch) (core index : Nat) (pl : Plate) (fit : Fit) : State :=
  let cid := s.nextCid
  let gen := Config.courseGen
  let cs := (startIdx l pl).zip fit.slots
  let con : Consort :=
    { cid := cid, launch := l.lid, index := index, core := core, capo := false
      courses := cs.map fun c => courseStart l (gen (65536 * s.tick + cid)) c.1 c.2
      tiles := [], tmem := [], resv := fit.resv, tpls := [], ntpl := kdByte l 20, tplBase := fit.tplBase, cf := [], nflag := kdByte l 21
      cfBase := fit.cfBase, acc := [], nacc := kdByte l 22, accBase := fit.accBase, nextSlot := [], vgran := kdByte l 18, queues := [], turns := []
      chstat := 0, tix := [0, 0, 0, 0], gbarFail := false, stepSeq := none, wdSpent := 0, wdLimit := (coreAt s core).wdogl.toNat
      wdRaised := false, wdDue := false, failAt := none, preReq := none, dying := false, held := l.span.isSome, plate := pl }
  let s := { s with consorts := s.consorts ++ [con], nextCid := cid + 1 }
  let s := match launchAt s l.lid with
    | some l => setLaunch s { l with printed := l.printed || pl.mode == 2, etched := l.etched || pl.mode == 1 }
    | none => s
  reap (if pl.mode = 1 then etchStart s cid else s) cid

/-- Is a core reserved for a gang of higher PRIO (R207)? -/
def reservedOver (s : State) (core prio : Nat) : Bool :=
  s.launches.any fun l => decide (prio < l.prio) && l.waits.any fun w => w.2.reserved.contains core

/-! ## Tickets and steals (R204, R205) -/

/-- Change a die's share of a launch. -/
def setShare (s : State) (l : Launch) (die : Nat) (sh : List (Nat × Nat)) : State := setLaunch s { l with shares := l.shares.set die sh }

/-- Launches of single consorts with tickets on a die, in the order of R204. -/
def claimOrder (s : State) (die : Nat) : List Launch :=
  (s.launches.filter fun l => l.gangSize == 0 && !(l.shares.getD die []).isEmpty).mergeSort
    fun a b => decide (b.prio < a.prio ∨ (a.prio = b.prio ∧ a.order ≤ b.order))

/-- Where the next ticket of a launch on a die would run on a core. -/
def claimFit (s : State) (core : Nat) (l : Launch) : Option (Nat × Plate × Fit) := do
  if reservedOver s core l.prio then none
  else
    let u ← nextUnit (l.shares.getD (core / 64) [])
    if plateWaits s l u then none
    let pl := platePlan s l u
    let fit ← fitOn (onCore s core) (wantOf l (startIdx l pl).length)
    some (u, pl, fit)

/-- TICKET_CLAIM (R204). -/
def execTicketClaim (s : State) : Host.Outcome State Fault Refusal :=
  let core := unitOf s
  let die := core / 64
  .next (if 256 ≤ core then s
    else match (claimOrder s die).findSome? fun l => (claimFit s core l).map fun f => (l, f) with
      | none => s
      | some (l, u, pl, fit) => enter (setShare s l die (restUnits (l.shares.getD die []))) l core u pl fit)

/-- A share without its upper n units, and those units. -/
def splitShare : List (Nat × Nat) → Nat → List (Nat × Nat) × List (Nat × Nat)
  | [], _ => ([], [])
  | (a, b) :: t, keep =>
    if b - a ≤ keep then ((a, b) :: (splitShare t (keep - (b - a))).1, (splitShare t (keep - (b - a))).2)
    else if keep = 0 then ([], (a, b) :: t)
    else ([(a, a + keep)], (a + keep, b) :: t)

/-- TICKET_STEAL (R205). -/
def execTicketSteal (s : State) : Host.Outcome State Fault Refusal :=
  let die := unitOf s % 4
  .next (match launchAt s (unitOf s / 4) with
    | none => s
    | some l =>
      if hasDies l || !(l.shares.getD die []).isEmpty then s
      else
        let victim := (List.range 4).foldl (fun v d => if shareSize (l.shares.getD v []) < shareSize (l.shares.getD d []) then d else v) 0
        let r := shareSize (l.shares.getD victim [])
        if r ≤ 1 then s
        else
          let p := splitShare (l.shares.getD victim []) ((r + 1) / 2)
          setLaunch s { l with shares := (l.shares.set victim p.1).set die p.2 })

/-! ## Gangs on one package (R206, R207) -/

/-- Is the next gang of a launch the oldest unplaced one of its die at its PRIO? A younger one that fits is not placed before it
(DESIGN CHOICE, log 21: R206 does not say). -/
def oldestGang (s : State) (l : Launch) (die : Nat) : Bool :=
  l.gangSize != 0 && !(l.shares.getD die []).isEmpty &&
  s.launches.all fun m => m.gangSize == 0 || m.prio != l.prio || (m.shares.getD die []).isEmpty || decide (l.order ≤ m.order)

/-- Start the time of R207 for every gang that has become the oldest of its die at its PRIO. -/
def noteWaits (s : State) : State :=
  { s with launches := s.launches.map fun l => if l.gangSize = 0 then l else
      { l with waits := (List.range 4).filterMap fun d =>
          if !oldestGang s l d then none
          else
            let g := (nextUnit (l.shares.getD d [])).getD 0
            match alGet l.waits d with
            | some w => if w.gang = g then some (d, w) else some (d, ⟨g, s.cycles, [], false⟩)
            | none => some (d, ⟨g, s.cycles, [], false⟩) } }

/-- The launch and die that the unit names, with the gang that waits there. -/
def gangOf (s : State) : Option (Launch × Nat × GangWait) := do
  let l ← launchAt s (unitOf s / 4)
  let w ← alGet l.waits (unitOf s % 4)
  some (l, unitOf s % 4, w)

/-- A phase of a gang's wait: GWAIT or GMAX of its queue, in core cycles. -/
def gangDelay (s : State) (l : Launch) (f : Qcb → Nat) : Nat := 1024 * f (qcbOf s l.qcb)

/-- Place the consorts of a gang in turn, on the cores named; each is judged against what the others leave. -/
def placeAll (l : Launch) : List (Nat × Nat) → State → Option State
  | [], s => some s
  | (core, index) :: t, s =>
    if 256 ≤ core ∨ reservedOver s core l.prio ∨ plateWaits s l index then none
    else
      let pl := platePlan s l index
      match fitOn (onCore s core) (wantOf l (startIdx l pl).length) with
      | none => none
      | some fit => placeAll l t (enter s l core index pl fit)

/-- GANG_PLACE (R206): all consorts of the gang, or none. -/
def execGangPlace (cores : List Nat) (s : State) : Host.Outcome State Fault Refusal :=
  .next (match gangOf s with
    | none => s
    | some (l, die, w) =>
      if cores.length ≠ l.gangSize then s
      else
        let base := w.gang * l.gangSize
        let l' := { l with shares := l.shares.set die (restUnits (l.shares.getD die [])), waits := smDel l.waits die }
        (placeAll l' (cores.zip ((List.range l.gangSize).map (base + ·))) (setLaunch s l')).getD s)

/-- A consort of which only the place matters. -/
def blankConsort : Consort :=
  { cid := 0, launch := 0, index := 0, core := 0, capo := false, courses := [], tiles := [], tmem := [], resv := [], tpls := [], ntpl := 0
    tplBase := 0, cf := [], nflag := 0, cfBase := 0, acc := [], nacc := 0, accBase := 0, nextSlot := [], vgran := 0, queues := [], turns := []
    chstat := 0, tix := [], gbarFail := false, stepSeq := none, wdSpent := 0, wdLimit := 0, wdRaised := false, wdDue := false, failAt := none
    preReq := none, dying := false, held := false, plate := plateStart noLaunch 0 }

/-- What a consort of given wants takes of a core where it fits. -/
def placed (w : Want) (fit : Fit) : Consort :=
  { blankConsort with
    courses := fit.slots.map fun k => { (courseStart noLaunch 0 0 k) with width := if w.pair then 64 else 32 }
    resv := fit.resv, ntpl := w.ntpl, tplBase := fit.tplBase, nflag := w.nflag, cfBase := fit.cfBase, nacc := w.nacc, accBase := fit.accBase
    vgran := w.vgran, plate := { (plateStart noLaunch 0) with window := w.window } }

/-- How many consorts of the same wants a core takes, up to a number. -/
def howMany (w : Want) : Nat → List Consort → Nat
  | 0, _ => 0
  | n + 1, cons => match fitOn cons w with
    | none => 0
    | some fit => 1 + howMany w n (placed w fit :: cons)

/-- Can the consorts of these wants be placed on cores that hold these consorts: each in turn on some core? -/
def packs : List Want → List (List Consort) → Bool
  | [], _ => true
  | w :: t, held => (List.range held.length).any fun i => (fitOn (held.getD i []) w).elim false fun fit =>
      packs t (held.set i (placed w fit :: held.getD i []))

def conPrio (s : State) (c : Consort) : Nat := basePrio s c

/-- What each consort of a gang wants, its masked courses left out (R184). -/
def gangWants (s : State) (l : Launch) (gang : Nat) : List Want :=
  (List.range l.gangSize).map fun i => wantOf l (startIdx l (platePlan s l (gang * l.gangSize + i))).length

/-- Would cores take a gang once some of their consorts were gone? Consorts that want the same are counted core by core. -/
def roomOnce (s : State) (l : Launch) (gang : Nat) (cores : List Nat) (gone : Consort → Bool) : Bool :=
  let ws := gangWants s l gang
  let held := cores.map fun k => (onCore s k).filter fun c => !gone c
  let w := ws.headD (wantOf l (ncourses l))
  if ws.all (· == w) then decide (l.gangSize ≤ (held.map (howMany w l.gangSize)).sum) else packs ws held

/-- GANG_RESERVE (R207). -/
def execGangReserve (cores : List Nat) (s : State) : Host.Outcome State Fault Refusal :=
  .next (match gangOf s with
    | none => s
    | some (l, die, w) =>
      let lower := fun (c : Consort) => !c.capo && decide (conPrio s c < l.prio)
      if s.cycles < w.since + gangDelay s l (·.gwait) ∨ !w.reserved.isEmpty ∨ cores.any (fun k => decide (256 ≤ k)) ∨ cores.eraseDups ≠ cores ∨
          !roomOnce s l w.gang cores lower then s
      else setLaunch s { l with waits := alSet l.waits die { w with reserved := cores } })

/-- A gang fails: no further gang of its launch is placed (R207). -/
def gangFails (s : State) (l : Launch) : State :=
  setLaunch s { l with shares := [], waits := [], status := if l.status = 0 then stUNPLACEABLE else l.status }

/-- Is every course of a consort at a pre-emption point (R227)? A split parked at a barrier or asleep in REFILL is saved as it
is (R294, R357), and so is a halted course (R231). -/
def atPoints (s : State) (con : Consort) : Bool :=
  let k := coreAt s con.core
  con.courses.all fun c => c.ended || c.atEnd || (!c.waitCapo && !(k.issue.any fun i => i.2.cid == con.cid && i.2.ci == c.idx) &&
    (c.halted || c.splits.all fun p => p.2.park != .ready || pointOf p.2))

/-- Request pre-emption of a consort (R228): a sleep ends at once. -/
def askPreempt (s : State) (c : Consort) : Consort :=
  if c.preReq.isSome then c else { c with preReq := some s.cycles, courses := c.courses.map fun d => { d with splits := endSleeps d.splits } }

/-- GANG_PREEMPT (R207). -/
def execGangPreempt (s : State) : Host.Outcome State Fault Refusal :=
  .next (match gangOf s with
    | none => s
    | some (l, die, w) =>
      if s.cycles < w.since + gangDelay s l (·.gmax) ∨ w.preempted then s
      else
        let yields := fun (c : Consort) => !c.capo && decide (conPrio s c < l.prio) && w.reserved.contains c.core && atPoints s c
        if !roomOnce s l w.gang w.reserved yields then gangFails s l
        else
          let s := setLaunch s { l with waits := alSet l.waits die { w with preempted := true } }
          { s with consorts := s.consorts.map fun c => if yields c then askPreempt s c else c })

/-- GANG_TIMEOUT (R207). -/
def execGangTimeout (s : State) : Host.Outcome State Fault Refusal :=
  .next (match gangOf s with
    | none => s
    | some (l, _, w) => if s.cycles < w.since + 2 * gangDelay s l (·.gmax) then s else gangFails s l)

/-! ## Gangs across packages (R208) -/

/-- The spanning gang that the unit names. -/
def spanAt (s : State) : Option (Launch × Span) := do
  let l ← launchAt s (unitOf s)
  let g ← l.span
  some (l, g)

/-- Are the launch's consorts resident? -/
def spanPlaced (s : State) (l : Launch) : Bool := (s.consorts.filter fun c => c.launch == l.lid).length == l.total

/-- GANG_READY_SEND. -/
def execGangReadySend (s : State) : Host.Outcome State Fault Refusal :=
  .next (match spanAt s with
    | none => s
    | some (l, g) =>
      if g.sent || g.decided || !spanPlaced s l || decide (g.start < s.fabtime + 2 ^ 17) then s
      else
        let s := setLaunch s { l with span := some { g with sent := true } }
        { s with
          ready := s.ready ++ if g.pkgs.contains s.pkg then [(g.gid, s.pkg)] else []
          readyOut := s.readyOut ++ (g.pkgs.filter (· != s.pkg)).map fun p => (g.gid, p) })

/-- A package has been heard from (R280). -/
def hear (s : State) (pkg : Nat) : State := { s with heard := alSet s.heard pkg s.cycles }

/-- GANG_READY: a message for a gang, from a package that can be reached. -/
def execGangReady (gid pkg : Nat) (s : State) : Host.Outcome State Fault Refusal :=
  .next (if !reaches s pkg then s
  else
    let s := hear s pkg
    if s.ready.contains (gid, pkg) then s else { s with ready := s.ready ++ [(gid, pkg)] })

/-- GANG_ABORT: a message for a gang, from a package that can be reached. -/
def execGangAbort (gid pkg : Nat) (s : State) : Host.Outcome State Fault Refusal :=
  .next (if !reaches s pkg then s
  else
    let s := hear s pkg
    if s.aborts.contains (gid, pkg) then s else { s with aborts := s.aborts ++ [(gid, pkg)] })

/-- Tear the unstarted consorts of a launch down: it completes GANG_LATE. -/
def gangLate (s : State) (l : Launch) : State :=
  let s := setLaunch s { l with shares := [], waits := [], status := if l.status = 0 then stLATE else l.status }
  (s.consorts.filter fun c => c.launch == l.lid).foldl (fun s c => dropConsort s c.cid) s

/-- GANG_READY_UNDELIVERABLE: the READY to a package. -/
def execGangReadyUndeliverable (pkg : Nat) (s : State) : Host.Outcome State Fault Refusal :=
  .next (match spanAt s with
    | none => s
    | some (l, g) =>
      if !g.sent || g.aborted || g.decided || !s.readyOut.contains (g.gid, pkg) then s
      else
        let out := g.pkgs.filter fun p => p != s.pkg && p != pkg && !s.lostPkgs.contains p
        let s := gangLate s { l with span := some { g with aborted := true, decided := true } }
        { s with readyOut := s.readyOut.filter (· != (g.gid, pkg)), abortsOut := s.abortsOut ++ out.map fun p => (g.gid, p) })

/-- GANG_DECIDE. -/
def execGangDecide (s : State) : Host.Outcome State Fault Refusal :=
  .next (match spanAt s with
    | none => s
    | some (l, g) =>
      if g.decided ∨ s.fabtime + 2 ^ 15 < g.start then s
      else
        let go := spanPlaced s l && g.pkgs.all (fun p => s.ready.contains (g.gid, p)) && !s.aborts.any (fun a => a.1 == g.gid)
        let l := { l with span := some { g with decided := true, going := go } }
        if go then setLaunch s l else gangLate s l)

/-- GANG_START: the consorts start at START. -/
def execGangStart (s : State) : Host.Outcome State Fault Refusal :=
  .next (match spanAt s with
    | none => s
    | some (l, g) =>
      if !g.going ∨ s.fabtime < g.start then s
      else { s with consorts := s.consorts.map fun c => if c.launch = l.lid then { c with held := false } else c })

/-! ## Completion (R196, R197) -/

/-- PLATE of the record. -/
def platesDone (l : Launch) : Nat := (if l.printed then 1 else 0) + (if l.etched then 2 else 0)

/-- Is nothing of a launch left to place, to run or to restore? -/
def launchOver (s : State) (l : Launch) : Bool :=
  l.shares.all (·.isEmpty) && s.consorts.all (fun c => c.capo || c.launch != l.lid) && s.saved.all fun v => v.consort.launch != l.lid

/-- Forget a launch, with the messages of its gang. -/
def dropLaunch (s : State) (l : Launch) : State :=
  let gid := l.span.map (·.gid)
  { s with
    launches := s.launches.filter fun m => m.lid != l.lid
    ready := s.ready.filter (fun r => some r.1 != gid), aborts := s.aborts.filter (fun r => some r.1 != gid)
    readyOut := s.readyOut.filter fun r => some r.1 != gid }

/-- LAUNCH_COMPLETE. -/
def execLaunchComplete (s : State) : Host.Outcome State Fault Refusal :=
  .next (match launchAt s (unitOf s) with
    | none => s
    | some l =>
      if !launchOver s l then s
      else
        let detail := if l.status = stRETIRED then ((queueFor s l.qcb).bind (·.retiring)).getD 0 else l.detail.toNat
        let d : Done := ⟨l.status, detail, l.tag.toNat, l.ended, platesDone l, l.abandon⟩
        let s := settle (putRecord (dropLaunch (dropCmd s l.qcb l.n) l) l.qcb d) l.qcb
        flushRetired s l.qcb (((queueFor s l.qcb).map (·.cmds.length)).getD 0 + 1))

end Sys2Proof.Machine
end

