-- ==== Sys2Proof/Machine/Preempt.lean ====
section
/-! DEFINITION. Pre-emption, restoration, gang peer failure, PRI responses and ATS invalidations
(R101, R111, R187, R214, R226 to R229, R413). The unit is the consort, saved or resident; of PRI_RESPONSE the request. -/

namespace Sys2Proof.Machine

/-! ## Saving (R228, R229) -/

/-- The commands of a consort, by queue, in order of issue. -/
def cmdsOf (k : Core) (cid : Nat) : List (Nat × Cmd) :=
  ((List.range 5).flatMap fun q => ((queueAt k q).filter fun c => c.cid == cid).map fun c => (q, c)).mergeSort
    fun a b => decide (a.2.seq ≤ b.2.seq)

/-- Have the in-flight writes of a consort landed, and is no error of its stores outstanding? -/
def drained (k : Core) (con : Consort) : Bool :=
  con.courses.all (·.pend.isEmpty) && k.storeErrs.all fun e => e.cid != con.cid

/-- A consort as it is saved: the run of PRE = 0 of each split ends (R54). -/
def asSaved (con : Consort) : Consort :=
  { con with
    preReq := none
    courses := con.courses.map fun c => { c with splits := c.splits.map fun p => (p.1, { p.2 with preRun := 0 }) } }

/-- The key slot of a context's save image (R228): that of some leaf of its page table, freely, and slot 0 where there is none. A
context may have several (R215), and R281 has save areas use slot 0 (log 23). -/
def saveSlot (s : State) (ctx : Nat × Nat) : Nat :=
  ((translate s ctx.1 ctx.2 .read (Config.saveLeaf s.tick)).toOption.map fun l => if l.host then 0 else l.key).getD 0

/-- Write the save image (R228). No rule gives its bytes, which are free. -/
def writeImage (s : State) (ctx : Nat × Nat) : State :=
  let image := Config.saveImage s.tick
  let slot := saveSlot s ctx
  writeLines (fun _ _ => slot) (image.length + 1) s (Config.saveArea s.tick) image

/-- PREEMPT_SAVE: open Chord tiles with a row of the consort close first; the save follows once everything has drained. -/
def execPreemptSave (s : State) : Host.Outcome State Fault Refusal :=
  .next (match conAt s (unitOf s) with
    | none => s
    | some con =>
      if con.preReq.isNone || con.capo || con.dying || con.held || !atPoints s con then s
      else
        let s := closeOver s con.core
        let k := coreAt s con.core
        let con := (conAt s con.cid).getD con
        match k.openTiles.find? fun t => t.rows.any fun r => r.cid == con.cid with
        | some t => closeTile s con.core t
        | none =>
          if k.freeze.isSome || !drained k con || spanPinned s (Config.saveArea s.tick) (Config.saveImage s.tick).length then s
          else
            let v : Saved := ⟨asSaved con, cmdsOf k con.cid, Config.saveArea s.tick⟩
            writeImage { dropConsort s con.cid with saved := s.saved ++ [v], unseen := s.unseen } (ctxOf s con))

/-- PREEMPT_WITHDRAW. -/
def execPreemptWithdraw (s : State) : Host.Outcome State Fault Refusal :=
  .next (match conAt s (unitOf s) with
    | none => s
    | some con => match con.preReq with
      | none => s
      | some t => if t + 2 ^ 16 ≤ s.cycles ∧ !atPoints s con then setCon s { con with preReq := none } else s)

/-! ## Restoring (R229) -/

/-- Move the tiles of a consort to a new reservation. -/
def moveTiles (con : Consort) (resv : List (Nat × Nat)) : Consort :=
  let old := fun (g : Nat) => (con.resv.getD g (0, 0)).1
  let new := fun (g : Nat) => (resv.getD g (0, 0)).1
  { con with
    resv := resv
    tiles := con.tiles.map fun t => (t.1, { t.2 with base := t.2.base - old t.2.grp + new t.2.grp })
    tmem := con.tmem.map fun c => (c.1 - 4096 * old (c.1 / 131072) + 4096 * new (c.1 / 131072), c.2) }

/-- A command as it re-enters a queue: a matrix command not yet performed starts again. -/
def reEnter (seqs : List (Nat × Nat)) (q : Nat) (c : Cmd) : Cmd :=
  let seq := fun n => (alGet seqs n).getD n
  { c with seq := seq c.seq, follows := c.follows.map seq, begun := if q = 4 then c.begun && c.done else c.begun }

/-- A split as it is restored: one that slept in REFILL executes it again (R357). -/
def wakeRefill (sp : Split) : Split := match sp.park with
  | .refill _ => { sp with park := .ready }
  | _ => sp

/-- Put a saved consort on a core: its commands take the next places of issue, in their old order. -/
def restore (s : State) (v : Saved) (core : Nat) (fit : Fit) : State :=
  let k := coreAt s core
  let seqs := (v.cmds.map (·.2.seq)).zip ((List.range v.cmds.length).map (k.seq + ·))
  let bound := fun (n : Nat) => k.seq + (v.cmds.filter fun c => decide (c.2.seq < n)).length
  let k := v.cmds.foldl (fun k c => setQueue k c.1 (queueAt k c.1 ++ [reEnter seqs c.1 c.2])) k
  let k := { k with seq := k.seq + v.cmds.length }
  let con := moveTiles v.consort fit.resv
  let con := { con with
    core := core, tplBase := fit.tplBase, cfBase := fit.cfBase, accBase := fit.accBase, stepSeq := con.stepSeq.map bound
    courses := (con.courses.zip fit.slots).map fun c => { c.1 with
      slot := c.2, splits := c.1.splits.map fun p => (p.1, wakeRefill p.2) } }
  let s := setCore s core k
  { s with consorts := s.consorts ++ [con], saved := s.saved.filter fun w => w.consort.cid != con.cid }

/-- CONSORT_RESTORE on a core of the package with room for the consort and its commands. -/
def execConsortRestore (core : Nat) (s : State) : Host.Outcome State Fault Refusal :=
  .next (match s.saved.find? fun v => v.consort.cid == unitOf s with
    | none => s
    | some v =>
      let con := v.consort
      let w := { wantOf (launchOf s con) con.courses.length with window := con.plate.window }
      if 256 ≤ core ∨ reservedOver s core (conPrio s con) ∨ !roomFor (coreAt s core) (v.cmds.map (·.1) ++ engineClaims (coreAt s core)) then s
      else match fitOn (onCore s core) w with
        | none => s
        | some fit => restore s v core fit)

/-! ## Gang peer failure (R101, R226) -/

/-- Freeze the level-1 tiles of a survivor, and note when the notice came. -/
def noticeOf (s : State) (con : Consort) : Consort :=
  { con with failAt := some s.cycles, tiles := con.tiles.map fun t => (t.1, if t.2.lvl then { t.2 with frz := true } else t.2) }

/-- TRAPC and TRAPV of the course that a survivor's notice names: cause PEER, sub-code FAILED. The runs of PRE = 0 of its splits
stay: R54 does not say whether this trap resets one (DESIGN CHOICE, log 22). -/
def peerTrap (con : Consort) : Consort := match (flagCourse con none).bind (crsAt con) with
  | some c => setCrs con { c with trapc := BitVec.ofNat 64 cPEER, trapv := 2 }
  | none => con

/-- A command that reaches a peer. -/
def peerAccess (c : Cmd) : Bool := match c.kind with
  | .peer _ _ _ _ => true
  | .copy tpl _ _ _ _ => Tpl.kind tpl == 2
  | _ => false

/-- Has the failure of a peer come to light: at once, or for a package that did not start at the gang's first GBAR, SSTEP or
peer access (R208)? -/
def failureKnown (s : State) (l : Launch) (con : Consort) : Bool :=
  let g := gangMembers s con
  l.failed.contains (con.index / l.gangSize) || l.span.elim false (fun g => g.pkgs.any fun p => p != s.pkg && !reaches s p) ||
  g.any (fun d => someParked d .gbar || someParked d .sstep) ||
  g.any fun d => (allCmds (coreAt s d.core)).any fun c => c.cid == d.cid && peerAccess c

/-- GANG_PEER_FAILURE: the notice reaches the core of a survivor, as a fault record with cause PEER, sub-code FAILED, which TRAPC and
TRAPV tell too (R213). The record names the lowest course and no word, whose TRAPC and TRAPV are written, and stops no course
(DESIGN CHOICE, log 22). -/
def execGangPeerFailure (s : State) : Host.Outcome State Fault Refusal :=
  .next (match conAt s (unitOf s) with
    | none => s
    | some con => match launchAt s con.launch with
      | none => s
      | some l =>
        if con.capo || con.dying || con.failAt.isSome || !peerFailed s l con || !failureKnown s l con || !fifoRoom (coreAt s con.core) then s
        else
          let (slot, gen, ended, none?) := faultCourse con none
          let r := faultRec cPEER 2 0 6 0 slot 0 gen false ended false none?
          let s := modCore s con.core fun k => { k with fifo := k.fifo ++ [r] }
          let g := con.index / l.gangSize
          let l := { l with
            status := if l.status = 0 then stFAILED else l.status
            failed := if l.failed.contains g then l.failed else g :: l.failed, shares := [], waits := [] }
          setCon (setLaunch s l) (noticeOf s (peerTrap con)))

/-- SURVIVOR_TEARDOWN: the survivor has ended, or 2^20 core cycles have passed since its notice. -/
def execSurvivorTeardown (s : State) : Host.Outcome State Fault Refusal :=
  .next (match conAt s (unitOf s) with
    | none => s
    | some con => match con.failAt with
      | none => s
      | some t =>
        if consortOver s { con with failAt := none } then reap (setCon s { con with failAt := none }) con.cid
        else if s.cycles < t + 2 ^ 20 then s
        else if inIssue s con then setCon s { con with dying := true } else tearDown s con.cid)

/-! ## PRI and ATS (R111, R214, R413) -/

/-- Doubleword 0 of the fault record of a course whose page was refused. -/
def refusedDetail (c : Course) (spi : Nat) : DWord :=
  BitVec.ofNat 64 ((faultRec cXLAT 0 0 6 0 c.slot spi c.gen false c.ended false false).toNat % 2 ^ 64)

/-- Kill a launch for XLAT. -/
def killXlat (s : State) (con : Consort) (detail : DWord) : State :=
  let gang := (launchAt s con.launch).elim false fun l => decide (l.gangSize ≠ 0)
  killLaunch s con.launch con.cid (killStatus cXLAT 0 gang) detail

/-- A response for a course: Success lets it go on at its cursor; otherwise a debugger holds it, or its launch goes. -/
def priCourse (s : State) (success : Bool) (cid ci : Nat) : State :=
  match conAt s cid with
  | none => s
  | some con => match crsAt con ci with
    | none => s
    | some c =>
      if success then modCrs s cid ci fun c => { c with waitCapo := false, trapHalt := none }
      else if debugged s (ctxOf s con).1 then modCrs s cid ci fun c => { c with waitCapo := false, halted := true, splits := endSleeps c.splits }
      else killXlat s con (refusedDetail c (c.trapHalt.getD 0))

/-- A response for a frozen core: FREEZE_RESUME follows on Success; otherwise the launch of the copy goes, unless a
debugger is attached. -/
def priFreeze (s : State) (success : Bool) (core : Nat) : State :=
  match (coreAt s core).freeze with
  | none => s
  | some f => match (queueAt (coreAt s core) f.chan).find? fun c => c.seq == f.seq with
    | none => s
    | some c => match conAt s c.cid with
      | none => s
      | some con =>
        if success || debugged s (ctxOf s con).1 then s
        else
          let (slot, gen, ended, none?) := faultCourse con c.ci
          let r := faultRec f.trap.cause f.trap.value 0 f.chan 0 slot 0 gen false ended true none?
          killXlat s con (BitVec.ofNat 64 (r.toNat % 2 ^ 64))

/-- PRI_RESPONSE. -/
def execPriResponse (success : Bool) (s : State) : Host.Outcome State Fault Refusal :=
  .next (match s.pris.find? fun p => p.id == unitOf s with
    | none => s
    | some p =>
      let later := match p.who with
        | .queue qcb => qcbPinned s qcb
        | _ => false
      if later then s
      else
      let s := { s with pris := s.pris.filter fun r => r != p }
      match p.who with
      | .course cid ci => priCourse s success cid ci
      | .freeze core => priFreeze s success core
      | .queue qcb => match queueFor s qcb with
        | none => s
        | some q =>
          if success then settle (flushOwed (setQueueRec s { q with pri := false, granted := p.va :: q.granted }) qcb q.owed.length) qcb
          else settle (ringFault (setQueueRec s { q with pri := false }) qcb p.va) qcb)

/-- ATS_INVALIDATION: cached translations of host memory whose page holds the address go, whatever its size. -/
def execAtsInvalidation (pasid va : Nat) (s : State) : Host.Outcome State Fault Refusal :=
  .next { s with tlb := s.tlb.filter fun e => !(e.covers pasid e.root (va / 4096) && e.leaf.host) }

end Sys2Proof.Machine
end

