-- ==== Sys2Proof/Machine/HostLink.lean ====
section
/-! DEFINITION. Power-up, host memory traffic, the fabric, the power controller and register writes
(R6, R278 to R283, R286, R287). The unit of FABRIC_TIMEOUT is the package, of LINK_FAIL the link. -/

namespace Sys2Proof.Machine

/-! ## Power-up (R279, R281, R286) -/

/-- The Capo agent of a core, in slot 64 (R30, R204). -/
def capoConsort (core cid : Nat) : Consort :=
  let c := courseStart noLaunch 0 0 64
  { blankConsort with
    cid := cid, core := core, capo := true, vgran := 31
    courses := [{ c with entry := Config.capoEntry core, splits := [(0, entrySplit (Config.capoEntry core) (fullMask 32))] }] }

/-- What a configuration image fixes; none where it carries no value within its limits (R285). -/
def boardOf (cfg : List Byte) : Option Board :=
  match if cfg.isEmpty then some Config.shipped else Config.imageConfig cfg with
  | some ⟨some n, hdmi, floor⟩ => if 1 ≤ n ∧ n ≤ 6 ∧ 600 ≤ floor ∧ floor ≤ 1500 then some ⟨n, hdmi, floor⟩ else none
  | _ => none

/-- The module as power comes on: right after reset, with the host's memory and what the host has read as they were, and the
staged images in the flash (R285, R286). -/
def powerOn (s : State) : State :=
  let last := fun (cfg : Bool) (old : List Byte) =>
    ((s.staged.filter fun i => (Config.imageConfig i).isSome == cfg).getLast?).getD old
  { State.reset with
    turn := s.turn, tick := s.tick, hostmem := s.hostmem, hostReads := s.hostReads
    fwImage := if s.staged.isEmpty then s.fwImage else last false s.fwImage
    cfgImage := if s.staged.isEmpty then s.cfgImage else last true s.cfgImage }

/-- The first power-up step that fails (R286): what the outside brings, or step 3 for a configuration image outside its limits. -/
def failsAt (failStep : Nat) (board : Option Board) : Nat :=
  if board.isNone ∧ (failStep = 0 ∨ 3 < failStep) then 3 else failStep

/-- POWER_UP, the first time or once more: the first step that fails, 0 for none, with its sub-code; the device's identity,
those of the packages that the links reach, and the links that trained. -/
def execPowerUp (failStep failSub ident : Nat) (peerIdents : List Nat) (up : BitVec 18) (s : State) : Host.Outcome State Fault Refusal :=
  let s := powerOn s
  let board := boardOf s.cfgImage
  let first := failsAt failStep board
  let done := fun (k : Nat) => first = 0 ∨ k < first
  let s := if done 3 then { s with board := board.getD s.board } else s
  let s := if done 6 then
      let own := (peerIdents.filter fun p => decide (p < ident)).length
      let peers := (List.range (peerIdents.length + 1)).filter (· != own)
      { s with pkg := own, peers := peers, heard := peers.map fun p => (p, s.cycles), links := up }
    else s
  let s := { s with ident := ident, keys := if done 7 then [0] else [] }
  .next (if 1 ≤ first ∧ first ≤ 7 then
      { s with mbox := { s.mbox with ready := true, safe := true, stcode := BitVec.ofNat 16 (first * 256 + failSub % 256) } }
    else
      { s with
        mbox := { s.mbox with ready := true }
        consorts := (List.range 256).map capoOf, nextCid := 256 })
where
  capoOf (k : Nat) : Consort := capoConsort k k

/-! ## Traffic from outside (R278 to R282) -/

/-- HOST_MEMORY_WRITE. Host accesses by physical address use key slot 0. -/
def execHostMemoryWrite (pa : Nat) (bytes : List Byte) (s : State) : Host.Outcome State Fault Refusal :=
  .next (if spanPinned s pa bytes.length then s else writeLines (fun _ _ => 0) (bytes.length + 1) s pa bytes)

/-- Read bytes at a physical address, line by line: what was read, and whether a check failed. -/
def readLines (s : State) : Nat → Nat → Nat → List Byte × Bool
  | 0, _, _ => ([], false)
  | fuel + 1, pa, n =>
    if n = 0 then ([], false)
    else
      let k := min n (64 - pa % 64)
      let rest := readLines s fuel (pa + k) (n - k)
      match physRead s pa k 0 with
      | .ok b => (b ++ rest.1, rest.2)
      | .error _ => (List.replicate k 0 ++ rest.1, true)

/-- The longest request and response (R283). -/
def requestRoom : Nat := 0x700
def responseRoom : Nat := 0x800

/-- MBSTAT (R283). -/
def mbstat (m : Mailbox) : Nat :=
  let b := fun (x : Bool) (i : Nat) => if x then 2 ^ i else 0
  b m.ready 0 + b m.busy 1 + b m.safe 2 + m.result.toNat * 2 ^ 8 + m.stcode.toNat * 2 ^ 16

/-- A byte of BAR0 (R278, R283): the mailbox, the pose mailboxes, and 0 elsewhere. -/
def bar0Byte (s : State) (o : Nat) : Byte :=
  if o < 8 then byteAt (mbstat s.mbox) o
  else if 0x100 ≤ o ∧ o < 0x800 then s.mbox.request.getD (o - 0x100) 0
  else if 0x800 ≤ o ∧ o < 0x1000 then s.mbox.response.getD (o - 0x800) 0
  else if 0x20000 ≤ o ∧ o < 0x20100 then (regRead s s.pkg (o - 0x20000) 1).getD 0 0
  else 0

/-- HOST_MEMORY_READ: of BAR0 at an offset, or of device memory at an address; the completion, and whether it is poisoned. -/
def execHostMemoryRead (addr : HostAddr) (n : Nat) (s : State) : Host.Outcome State Fault Refusal :=
  .next (match addr with
    | .bar0 off => { s with hostReads := s.hostReads ++ [((List.range n).map fun i => bar0Byte s (off + i), false)] }
    | .mem pa => if spanPinned s pa n then s else { s with hostReads := s.hostReads ++ [readLines s (n + 1) pa n] })

/-- FABRIC_ACCESS: from a package, to a local offset of this package, under the key slot of the leaf that mapped it there
(R281); a read changes no memory here. An access under a slot without a key does not arrive. A contribution to a consort here
waits to be applied (R152). Nothing comes while no link is up (R280). -/
def execFabricAccess (pkg pa : Nat) (req : FabricReq) (s : State) : Host.Outcome State Fault Refusal :=
  .next (if !reaches s pkg || !s.peers.contains pkg then s
    else match req with
      | .read => hear s pkg
      | .add a => { (hear s pkg) with adds := s.adds ++ [a] }
      | .write slot bs =>
        let pa := pa % 2 ^ 39
        if !s.keys.contains slot then hear s pkg
        else if spanPinned s pa bs.length then s
        else writeLines (fun _ _ => slot) (bs.length + 1) (hear s pkg) pa bs)

/-- FABRIC_TIMEOUT (R280): the package that the unit names has not been reached within 2^20 core cycles of its last sign of
life; accesses to it meet an uncorrectable memory error. -/
def execFabricTimeout (s : State) : Host.Outcome State Fault Refusal :=
  let p := unitOf s
  .next (if s.peers.contains p && !s.lostPkgs.contains p && decide ((alGet s.heard p).getD 0 + 2 ^ 20 ≤ s.cycles) then
      { s with lostPkgs := s.lostPkgs ++ [p] }
    else s)

/-- LINK_FAIL (R280): the link goes down, and the event log tells of it. -/
def execLinkFail (s : State) : Host.Outcome State Fault Refusal :=
  let n := unitOf s
  .next (if s.links.getLsbD n then
      { s with links := s.links &&& ~~~(BitVec.ofNat 18 (2 ^ n)), fabricLog := s.fabricLog ++ [⟨0, 0, n, 0, 0⟩] }
    else s)

/-- POWER_THROTTLE (R6, R287): the core clock, in kHz. -/
def execPowerThrottle (khz : Nat) (s : State) : Host.Outcome State Fault Refusal :=
  .next (if 1 ≤ khz ∧ khz ≤ 1500000 then { s with khz := khz } else s)

/-! ## BAR0 (R278, R283) -/

/-- A write to MBDOOR; a request longer than the buffer starts command 0, which does not exist. -/
def doorbell (s : State) (v : DWord) : State :=
  if s.mbox.busy ∨ !s.mbox.ready then s
  else
    let n := bits v.toNat 8 11
    let op : Byte := BitVec.ofNat 8 (if requestRoom < n then 0 else v.toNat)
    { s with mbox := { s.mbox with busy := true, waiting := some (op, s.mbox.request.take n) } }

/-- REGISTER_WRITE: a doubleword at a BAR0 offset. -/
def execRegisterWrite (off : Nat) (value : DWord) (s : State) : Host.Outcome State Fault Refusal :=
  let bs := toBytes 8 value.toNat
  .next (if off = 8 then doorbell s value
    else if 0x100 ≤ off ∧ off + 8 ≤ 0x800 then
      { s with mbox := { s.mbox with request := overlay (padTo requestRoom s.mbox.request) (off - 0x100) bs } }
    else if 0x10000 ≤ off ∧ off < 0x20000 then
      if serving s then { s with wakeDiscards := s.wakeDiscards.set 0 (s.wakeDiscards.getD 0 0 + 1) } else s
    else if 0x20000 ≤ off ∧ off < 0x20100 then poseWrite s ((off - 0x20000) / 0x40) (off % 0x40) bs
    else s)

end Sys2Proof.Machine
end

