-- ==== Sys2Proof/Machine/System.lean ====
section
/-! DEFINITION. TRAP, ERET, TLBINV, DBGBRK, the CSRs and the fault record FIFO
(R64, R81, R169, R216, R219, R220, R223, R266, R272, R306 to R308, R310). -/

namespace Sys2Proof.Machine

/-! ## CSRs -/

/-- The defined CSR numbers (R64). -/
def csrDefined (n : Nat) : Bool :=
  [0, 1, 2, 0x10, 0x11, 0x18, 0x100, 0x101, 0x102, 0x800, 0x801, 0xC00, 0xC01, 0xC02, 0xC03, 0xC04].contains n

/-- Reached only from the Capo slot. -/
def csrCapo (n : Nat) : Bool := decide (0x800 ≤ n)

/-- A read of FLTREC (R223): the next doubleword of the head record; the fourth retires it. -/
def readFltrec (k : Core) : DWord × Core :=
  match k.fifo with
  | [] => (0, k)
  | r :: rest => (BitVec.ofNat 64 (bits r.toNat (64 * k.fdw) 64),
      if 3 ≤ k.fdw then { k with fifo := rest, fdw := 0 } else { k with fdw := k.fdw + 1 })

/-- A read of a display CSR (R266). -/
def readDisp (s : State) (n : Nat) : DWord := match n with
  | 0xC00 => s.poselead
  | 0xC01 => s.dlguard
  | 0xC02 => s.dres
  | 0xC03 => BitVec.ofNat 64 s.board.fp
  | _ => s.bandmiss

/-- A read of any other CSR. -/
def readCsr (s : State) (x : Cur) (n : Nat) : DWord := match n with
  | 0 => x.c.ncr
  | 1 => x.c.nstat
  | 2 => x.c.nbv
  | 0x10 => x.c.chw
  | 0x11 => chstatNow s x.con
  | 0x18 => x.c.msteps
  | 0x100 => x.c.trapc
  | 0x101 => x.c.trappc
  | 0x102 => x.c.trapv
  | 0x801 => x.k.wdogl
  | n => readDisp s n

/-- Replace the bits of a mask. -/
def mergeBits (old new mask : DWord) : DWord := (old &&& ~~~mask) ||| (new &&& mask)

/-- A field of 16 bits of each head. -/
def perHead (v : DWord) (h lo n : Nat) : Nat := bits v.toNat (16 * h + lo) n

/-- Are leads and guards within their limits (R266)? -/
def displayOk (s : State) (lead guard : DWord) : Bool :=
  (List.range 4).all fun h =>
    let l := perHead lead h 0 10
    let g := perHead guard h 0 8
    let m := (headAt s h).mode
    decide (8 ≤ l ∧ l ≤ 512 ∧ 1 ≤ g ∧ g + 4 ≤ l) && (!(headAt s h).on || decide (l < m.vtotal - m.hheight))

/-- The frame of a head from which a value written now applies: the first that begins VTOTAL lines on or later. -/
def applyFrom (x : Head) : Nat := if x.line = 0 then x.frame + 1 else x.frame + 2

/-- Schedule a head's lead and guard. -/
def schedule (x : Head) (lead guard : Nat) : Head :=
  if x.on then { x with leadFrom := x.leadFrom ++ [(applyFrom x, lead)], guardFrom := x.guardFrom ++ [(applyFrom x, guard)] }
  else { x with lead := lead, guard := guard, leadFrom := [], guardFrom := [] }

def scheduleAll (s : State) : State :=
  (List.range 4).foldl (fun s h =>
    setHead s h (schedule (headAt s h) (perHead s.poselead h 0 10) (perHead s.dlguard h 0 8))) s

/-- A write of a display CSR; none when a field is outside its limits (R266). -/
def writeDisp (s : State) (n : Nat) (v : DWord) : Option State := match n with
  | 0xC00 =>
    let new := v &&& 0x03FF03FF03FF03FF
    if displayOk s new s.dlguard then some (scheduleAll { s with poselead := new }) else none
  | 0xC01 =>
    let new := mergeBits s.dlguard v 0x00FF00FF00FF00FF
    if displayOk s s.poselead new then some (scheduleAll { s with dlguard := new }) else none
  | 0xC02 => if bits v.toNat 0 5 ≤ 25 then some { s with dres := v &&& 0x1F } else none
  | 0xC04 => some { s with bandmiss := s.bandmiss &&& ~~~v }
  | _ => some s

/-- A write of a course's CSR; none when a value is refused (R81, R272, R307). -/
def writeCourseCsr (c : Course) (n : Nat) (v : DWord) : Option Course := match n with
  | 0 => some { c with ncr := mergeBits c.ncr v (if 5 ≤ bits v.toNat 0 3 then 0x3F00 else 0x3F07) }
  | 1 => some { c with nstat := v &&& 0x3F }
  | 2 => if bits v.toNat 0 8 = 2 ∨ bits v.toNat 0 8 = 3 then some { c with nbv := v &&& 0xFF } else none
  | 0x10 => some { c with chw := v &&& 0xFFFF }
  | 0x18 => if bits v.toNat 0 24 = 0 then none else some { c with msteps := mergeBits c.msteps v 0xFFFFFF }
  | 0x101 => some { c with trappc := v &&& 0xF9FFFFFFFFFFFFFF }
  | _ => some c

/-- The CSR that BK and {C,B} name, in the order of checks of R219. -/
def csrWord (s : State) (p : P) (f : Free) (legal : Bool) (sregs : List Nat) (k : Cur → Nat → State) : State :=
  let n := imm16 p
  onWord s [] sregs fun x =>
    if guarded p then ill s x iGUARD
    else if !csrDefined n then ill s x iFIELD
    else if csrCapo n && !x.con.capo then trap s x cPRIV (BitVec.ofNat 64 n)
    else if !fieldsOk p f || !legal || p.bk != 2 then ill s x iFIELD
    else k x n

/-- May flags of lane instructions of a course still come (R306)? -/
def flagsDue (c : Course) : Bool := c.pend.any fun p => p.fl != 0 || p.reqs != 0

/-- Read a CSR into a scalar register. NSTAT waits for the flags of the lane instructions before it (R306). -/
def csrRead (s : State) (x : Cur) (d n : Nat) : State :=
  if n = 1 ∧ flagsDue x.c then waitHere s x
  else if n = 0x800 then
    let r := readFltrec x.k
    retire s { x with k := r.2, c := sSet x.c d r.1 } 2
  else retire s { x with c := sSet x.c d (readCsr s x n) } 2

/-- R64, R306. -/
def execCsrr (p : P) (s : State) : Host.Outcome State Fault Refusal :=
  .next (csrWord s p { d := true, b := true, c := true, bk := true } (isS p.d) [p.d.toNat] fun x n => csrRead s x p.d.toNat n)

/-- R64, R307. -/
def execCsrw (p : P) (s : State) : Host.Outcome State Fault Refusal :=
  .next (csrWord s p { a := true, b := true, c := true, bk := true } (isS p.a) [p.a.toNat] fun x n =>
    let v := sGet x.c p.a.toNat
    if n = 0x801 then retire s { x with k := { x.k with wdogl := v &&& 0xFFFFFFFFFFFF } } 2
    else if 0xC00 ≤ n then match writeDisp s n v with
      | some s => retire s x 2
      | none => ill s x iFIELD
    else match writeCourseCsr x.c n v with
      | some c => retire s { x with c := c } 2
      | none => ill s x iFIELD)

/-- The two words of a CSRR of FLTREC into a register (R306). -/
def fltrecWords (sd : Nat) : List Word := [BitVec.ofNat 32 (0x7A * 2 ^ 25 + sd * 2 ^ 17), BitVec.ofNat 32 (8 * 2 ^ 24 + 2 * 2 ^ 16 + 2 * 2 ^ 7)]

/-- FLTREC_READ (R223): the Capo clause of the core stands at a CSRR of FLTREC, which executes. -/
def execFltrecRead (sd : BitVec 6) (s : State) : Host.Outcome State Fault Refusal :=
  let core := unitOf s
  let word := fun (i : Nat × Issue) => ((conAt s i.2.cid).elim false (·.capo)) &&
    (i.2.words.drop (i.2.off - 1)).take 2 == fltrecWords sd.toNat && decide (1 ≤ i.2.off)
  .next (match (coreAt s core).issue.find? word with
    | none => s
    | some i => onWord { s with turn := .slot core i.1 } [] [sd.toNat] fun x => csrRead s x sd.toNat 0x800)

/-! ## TRAP, ERET, TLBINV, DBGBRK -/

/-- The clause position after the word in issue of n words: header and offset, and the split's loops (R216). -/
def afterWord (x : Cur) (n : Nat) : Split :=
  if isLast x n then match fallTo x.iss.hdr (nextClause x) x.sp.loops with
    | some (pc, ls, b) => { atBoundary x.sp b with pc := pc, off := 0, loops := ls }
    | none => { x.sp with pc := nextClause x, off := 0 }
  else { x.sp with pc := x.iss.hdr, off := x.iss.off + n, point := false }

/-- R219, R220: SOFT, with the cursor on the next word. -/
def execTrap (p : P) (s : State) : Host.Outcome State Fault Refusal :=
  .next (courseWord s p { b := true, c := true, bk := true } (p.bk == 2) [] fun x =>
    let sp := afterWord x 2
    let t : PendTrap := ⟨cSOFT, BitVec.ofNat 64 (imm16 p), sp.pc, sp.off, x.iss.hdr + 4 * x.iss.off⟩
    sweepDying (deliver (freeSlot { x with sp := sp } s) x.con.cid x.c.idx x.spi t) x.con.cid)

/-- R219, R220, R310. The checks of R219 come before that of its place (DESIGN CHOICE, log 16: R55 and R219 set no order between
the place and the fields). -/
def execEret (p : P) (s : State) : Host.Outcome State Fault Refusal :=
  .next (onWord s [] [] fun x =>
    let target := bits x.c.trappc.toNat 0 57
    if guarded p then ill s x iGUARD
    else if !fieldsOk p {} then ill s x iFIELD
    else if !isLast x 2 || x.c.inHandler.isNone then ill s x iPLACE
    else if target % 4 ≠ 0 then trap s x cALIGN (BitVec.ofNat 64 target)
    else
      let sp := { x.sp with pc := target, off := bits x.c.trappc.toNat 59 5 }
      sweepDying (freeSlot { x with c := { x.c with inHandler := none }, sp := sp } s) x.con.cid)

/-- R111, R219, R220: every access that used a removed translation has completed when it does (tlbDrop). -/
def execTlbinv (p : P) (s : State) : Host.Outcome State Fault Refusal :=
  .next (onWord s [] [p.d.toNat, p.a.toNat] fun x =>
    if guarded p then ill s x iGUARD
    else if !x.con.capo then trap s x cPRIV 0
    else if !fieldsOk p { d := true, a := true, b := true, c := true, bk := true } || !isS p.d || !isS p.a || p.bk != 2
        || decide (2 < imm16 p) then ill s x iFIELD
    else retire (tlbDrop s (imm16 p) (bits (sGet x.c p.d.toNat).toNat 0 20) (sGet x.c p.a.toNat).toNat) x 2)

/-- R220, R308. -/
def execDbgbrk (p : P) (s : State) : Host.Outcome State Fault Refusal :=
  .next (courseWord s p {} true [] fun x =>
    if !debugged s (ctxOf s x.con).1 then retire s x 2
    else sweepDying (freeSlot { x with sp := afterWord x 2, c := { x.c with haltReq := true } } s) x.con.cid)

end Sys2Proof.Machine
end

