-- ==== Sys2Proof/Machine/Display.lean ====
section
/-! DEFINITION. Heads, bands, invocations and the reprojection path (R9, R252 to R267). The unit is the head; of
BURIN_INVOCATION_START, BURIN_WRITEBACK and LOUT_ROW_READ the Burin core. -/

namespace Sys2Proof.Machine

/-! ## Mode sets (R9, R256, R267) -/

/-- Is a link one that a port runs, and what payload in Mbit/s does it carry, as a fraction? -/
def linkRate (hdmi : Bool) : LinkMode → Option (Nat × Nat)
  | .dp128 n r => if !hdmi && [1, 2, 4].contains n && [10000, 13500, 20000].contains r then some (n * r * 128, 132) else none
  | .dp8 n r => if !hdmi && [1, 2, 4].contains n && decide (r ≤ 8100) then some (n * r * 8, 10) else none
  | .frl n r => if hdmi && [3, 4].contains n && [3000, 6000, 8000, 10000, 12000].contains r then some (Config.hdmiPayload n r, 1) else none
  | .tmds r => if hdmi then some (Config.hdmiPayload 0 r, 1) else none

/-- Pixels per second that a head scans out, as a fraction. -/
def pixelRate (m : HeadMode) : Nat × Nat := (m.hwidth * m.hheight * m.pixclk, m.htotal * m.vtotal)

/-- Does a span of bytes lie in GDDR in a display context, as its page table stands? -/
def spanGddr (s : State) (ctx : Nat × Nat) (va n : Nat) : Bool :=
  (List.range ((n + 4095) / 4096 + 1)).all fun i => inGddr s ctx ((va + min (4096 * i) (n - 1)) % 2 ^ 64)

/-- The limits of R256 and R267 for one head. That the presented buffers and the slot descriptors lie in GDDR is judged by the
display context's translation at the mode set (DESIGN CHOICE, log 28). -/
def modeOk (s : State) (h : Nat) (m : HeadMode) : Bool :=
  let r := pixelRate m
  decide (h < 4 ∧ 16 ≤ m.hwidth ∧ m.hwidth ≤ 7680 ∧ 16 ≤ m.hheight ∧ m.hheight ≤ 4320 ∧ m.hheight % 16 = 0 ∧ m.hwidth < m.htotal ∧
    m.hheight + perHead s.poselead h 0 10 < m.vtotal ∧ 0 < m.pixclk ∧ m.pixclk ≤ 240 * m.htotal * m.vtotal ∧ m.cores ≠ 0 ∧
    m.entry % 16 = 0 ∧ m.slots.length = 4 ∧ m.pbuf0 % 256 = 0 ∧ m.pbuf1 % 256 = 0 ∧ m.image.length ≤ 2 ^ 16 ∧ m.pasid < 2 ^ 20) &&
  m.slots.all (fun a => a % 64 == 0 && inGddr s (m.pasid, m.root) a) &&
  [m.pbuf0, m.pbuf1].all (fun a => spanGddr s (m.pasid, m.root) a (m.hwidth * m.hheight * 4)) &&
  (match linkRate (s.board.hdmi.getLsbD h) m.link with
    | none => false
    | some (n, d) => decide (r.1 * m.bpp * d ≤ n * 1000000 * r.2))

/-- The modes of all heads once a mode set is made. -/
def modesAfter (s : State) (modes : List (Nat × HeadMode)) : List (Nat × HeadMode) :=
  (List.range 4).filterMap fun h => match alGet modes h with
    | some m => some (h, m)
    | none => if (headAt s h).on then some (h, (headAt s h).mode) else none

/-- Is a mode set accepted? -/
def modesOk (s : State) (modes : List (Nat × HeadMode)) : Bool :=
  let all := modesAfter s modes
  let sum := (all.map fun m => pixelRate m.2).foldl (fun (a : Nat × Nat) r => (a.1 * r.2 + r.1 * a.2, a.2 * r.2)) (0, 1)
  (modes.map (·.1)).eraseDups == modes.map (·.1) && modes.all (fun m => modeOk s m.1 m.2) &&
  all.all (fun a => all.all fun b => a.1 == b.1 || a.2.cores &&& b.2.cores == 0) && decide (sum.1 ≤ 16000000000 * sum.2)

/-- Burin cores of a mask, in order. -/
def coresOf (m : BitVec 16) : List Nat := (List.range 16).filter fun b => m.getLsbD b

/-- A Burin core as the mode set leaves it (R252). -/
def clearBurin (s : State) (image : List Byte) (b : Nat) : State :=
  let cells := (List.range image.length).map fun i => (0x70000 + i, image.getD i 0)
  setBurin (endInvocation (releaseHold s b) b true) b { burinInit with lb := smSets 0 [] cells }

/-- Set one head's mode: its lead-in begins (R257). -/
def setMode (s : State) (h : Nat) (m : HeadMode) : State :=
  let cores := coresOf m.cores
  let x := headAt s h
  let bands := m.hheight / 16
  let next := (cores.zipIdx.filter fun c => decide (c.2 < bands))
  let stop := fun (s : State) (b : Nat) => if (burinAt s b).head = h then
      (let s := endInvocation (releaseHold s b) b true
       setBurin s b { (burinAt s b) with louts := [] }) else s
  let s := (coresOf x.mode.cores).foldl stop s
  let s := cores.foldl (fun s b => clearBurin s m.image b) s
  setHead s h { headInit with
    on := true, mode := m, nextBand := next, committed := x.committed, staged := x.staged
    lead := perHead s.poselead h 0 10, guard := perHead s.dlguard h 0 8 }

/-! ## Band starts and deadlines (R257, R260, R265) -/

def bandCount (x : Head) : Nat := x.mode.hheight / 16

/-- Has the beam reached the line of an instant of a band, numbered over all frames? -/
def instantDue (x : Head) (k : Nat) (lead : Head → Nat → Nat) : Bool :=
  let f := k / bandCount x
  x.on && decide (bandLine x f (k % bandCount x) (lead x f) ≤ beamLine x)

/-- BAND_START. -/
def execBandStart (s : State) : Host.Outcome State Fault Refusal :=
  let h := unitOf s
  let x := headAt s h
  let f := x.nextStart / bandCount x
  let b := x.nextStart % bandCount x
  .next (if !instantDue x x.nextStart leadOf then s
    else
      let x := putBand x { (bandAt x f b) with pose := some x.committed }
      setHead s h { x with nextStart := x.nextStart + 1, poses := x.poses ++ [(f, b, x.committed)] })

/-- Count a missed band (R266). -/
def missed (s : State) (h b : Nat) : State :=
  let n := perHead s.dlguard h 8 8
  let field : DWord := BitVec.ofNat 64 (0xFF * 2 ^ (16 * h + 8))
  { s with
    bandmiss := s.bandmiss ||| BitVec.ofNat 64 (2 ^ (16 * h + b % 16))
    dlguard := mergeBits s.dlguard (BitVec.ofNat 64 ((n + 1) % 256 * 2 ^ (16 * h + 8))) field }

/-- BAND_DEADLINE. -/
def execBandDeadline (s : State) : Host.Outcome State Fault Refusal :=
  let h := unitOf s
  let x := headAt s h
  let f := x.nextDeadline / bandCount x
  let b := x.nextDeadline % bandCount x
  .next (if x.nextStart ≤ x.nextDeadline || !instantDue x x.nextDeadline guardOf then s
    else
      let d := bandAt x f b
      let open' := (List.range 16).filter fun i => (alGet d.lines i).isNone
      let d := { d with closed := true, lines := open'.foldl (fun l i => alSet l i .reproj) d.lines }
      let s := setHead s h { (putBand x d) with nextDeadline := x.nextDeadline + 1 }
      let s := if open'.isEmpty then s else missed s h b
      { s with burins := s.burins.map fun c =>
          if c.2.running && c.2.head == h && c.2.frame == f && c.2.band == b then (c.1, { c.2 with late := true }) else c })

/-! ## Invocations and results (R253, R258, R259) -/

/-- BURIN_INVOCATION_START. A hold that the core still keeps is released first (R263). -/
def execBurinInvocationStart (s : State) : Host.Outcome State Fault Refusal :=
  let b := unitOf s
  let s := if (burinAt s b).running then s else tryRelease s b
  let c := burinAt s b
  .next (match (List.range 4).find? fun h => (headAt s h).on && (alGet (headAt s h).nextBand b).isSome with
    | none => s
    | some h =>
      let x := headAt s h
      let g := (alGet x.nextBand b).getD 0
      let n := bandCount x
      let step := (coresOf x.mode.cores).length
      if c.running || c.hold.isSome then s
      else
        let f := g / n
        let band := g % n
        let next := if band + step < n then g + step else (f + 1) * n + band % step
        let s := setHead s h { x with nextBand := alSet x.nextBand b next }
        setBurin s b { c with
          running := true, exiting := false, pc := x.mode.entry, npc := none, loops := [], bundle := [], pos := 0, head := h, band := band
          frame := f, late := decide (g < x.nextDeadline), acq := none, src := c.regs })

/-- BURIN_WRITEBACK: the oldest outstanding result. -/
def execBurinWriteback (s : State) : Host.Outcome State Fault Refusal :=
  let b := unitOf s
  let c := burinAt s b
  .next (match c.landing with
    | [] => s
    | l :: rest =>
      let src := { c.src with w := smSet 0 c.src.w l.reg l.val }
      setBurin s b { (bwSet c l.reg l.val.toNat) with landing := rest, src := src })

/-- LOUT_ROW_READ: the oldest row that the scan-out controller has not read. -/
def execLoutRowRead (s : State) : Host.Outcome State Fault Refusal :=
  let b := unitOf s
  let c := burinAt s b
  .next (match c.louts with
    | [] => s
    | l :: rest =>
      let s := setBurin s b { c with louts := rest }
      let x := headAt s c.head
      let d := bandAt x l.frame l.band
      let bs := lbRead c l.addr (4 * x.mode.hwidth)
      let px := (List.range x.mode.hwidth).map fun i => BitVec.ofNat 32 (fieldB bs (4 * i) 4)
      match alGet d.lines l.line with
      | none | some .reproj => s
      | _ => setHead s c.head (putBand x { d with lines := alSet d.lines l.line (.row px) }))

/-- POSE_COMMIT (R265). -/
def execPoseCommit (s : State) : Host.Outcome State Fault Refusal :=
  let h := unitOf s
  .next (if h < 4 then setHead s h { (headAt s h) with committed := (headAt s h).staged } else s)

/-! ## Reprojection (R261) -/

/-- f32 constants, and exact widening. -/
def f32Of (n : Nat) : Nat := (intToF fmtF32 .rne false n).1
def f32Half : Nat := 0x3F000000
def quatOf (p : Pose) : Nat × Nat × Nat × Nat :=
  let q := fun i => (fCvt fmtF16 fmtF32 .rne false (fieldB p (12 + 2 * i) 2)).1
  (q 0, q 1, q 2, q 3)

/-- The rows of Rot(q). -/
def rotOf (q : Nat × Nat × Nat × Nat) : List (List Nat) :=
  let (w, x, y, z) := q
  let s := rDiv (f32Of 2) (rAdd (rAdd (rAdd (rMul w w) (rMul x x)) (rMul y y)) (rMul z z))
  let one := fun a b => rSub (f32Of 1) (rMul s (rAdd (rMul a a) (rMul b b)))
  let sub := fun a b c d => rMul s (rSub (rMul a b) (rMul c d))
  let add := fun a b c d => rMul s (rAdd (rMul a b) (rMul c d))
  [[one y z, sub x y w z, add x z w y], [add x y w z, one x z, sub y z w x], [sub x z w y, add y z w x, one x y]]

def transpose3 (m : List (List Nat)) : List (List Nat) := (List.range 3).map fun i => m.map fun r => r.getD i 0

def matVec (m : List (List Nat)) (v : List Nat) : List Nat := m.map fun r =>
  let p := fun i => rMul (r.getD i 0) (v.getD i 0)
  rAdd (rAdd (p 0) (p 1)) (p 2)

/-- The floor of a finite f32. -/
def floorF (v : Nat) : Option Int := match fmtF32.unpack v with
  | .fin neg m e => some (dyToInt .rdn neg m e).1
  | _ => none

/-- Which pixel of the other buffer an output pixel takes. -/
def sourceOf (m : HeadMode) (rot rot0T : List (List Nat)) (x y : Nat) : Option (Nat × Nat) := do
  let c := fun (n : Nat) (k f : Word) => rDiv (rSub (rAdd (f32Of n) f32Half) k.toNat) f.toNat
  let d := matVec rot0T (matVec rot [c x m.kcx m.kfx, c y m.kcy m.kfy, f32Of 1])
  let z := d.getD 2 0
  if fCmp fmtF32 z 0 ≠ some .gt then none
  else
    let q := fun (f : Word) i => rDiv (rMul f.toNat (d.getD i 0)) z
    let _ ← floorF (q m.kfx 0)
    let _ ← floorF (q m.kfy 1)
    let u ← floorF (rAdd (q m.kfx 0) m.kcx.toNat)
    let v ← floorF (rAdd (q m.kfy 1) m.kcy.toNat)
    if 0 ≤ u ∧ u < m.hwidth ∧ 0 ≤ v ∧ v < m.hheight then some (u.toNat, v.toNat) else none

/-- A presented buffer's address: PBUF0 in even frames. -/
def pbufOf (m : HeadMode) (frame : Nat) : Nat := if frame % 2 = 0 then m.pbuf0 else m.pbuf1

/-- One reprojected pixel; a read that fails gives 0 and a record. -/
def reprojPixel (s : State) (h f b y : Nat) (rot rot0T : List (List Nat)) (x : Nat) : Word × State :=
  let m := (headAt s h).mode
  match sourceOf m rot rot0T x y with
  | none => (0, s)
  | some (u, v) =>
    let va := (pbufOf m (f + 1) + 4 * (v * m.hwidth + u)) % 2 ^ 64
    match load s (dispCtx s h).1 (dispCtx s h).2 va 4 with
    | .ok bs => (BitVec.ofNat 32 (ofBytes bs), s)
    | .error e => (0, logHead s ⟨(errCause e).1, (errCause e).2, va, h, b⟩)

/-- A reprojected line: 0 in frame 0. -/
def reprojLine (s : State) (h f b y : Nat) : List Word × State :=
  let x := headAt s h
  let pose := fun (g : Nat) => ((x.poses.find? fun p => p.1 == g && p.2.1 == b).map (·.2.2)).getD []
  if f = 0 then (List.replicate x.mode.hwidth 0, s)
  else
    let rot := rotOf (quatOf (pose f))
    let rot0T := transpose3 (rotOf (quatOf (pose (f - 1))))
    (List.range x.mode.hwidth).foldl (fun (a : List Word × State) i =>
      let p := reprojPixel a.2 h f b y rot rot0T i
      (a.1 ++ [p.1], p.2)) ([], s)

/-- Write a line to the presented buffer, up to the first pixel whose write fails, which a record tells of. -/
def presentLine (h b : Nat) : Nat → List Word → State → State
  | _, [], s => s
  | va, p :: ps, s => match store s (dispCtx s h).1 (dispCtx s h).2 (va % 2 ^ 64) (toBytes 4 p.toNat) with
    | .ok s => presentLine h b (va + 4) ps s
    | .error e => logHead s ⟨(errCause e).1, (errCause e).2, va % 2 ^ 64, h, b⟩

/-- The beam goes on to the next line; poses older than a frame, and bands that are scanned, are forgotten. -/
def nextLine (x : Head) : Head :=
  if x.line + 1 < x.mode.vtotal then { x with line := x.line + 1 }
  else { x with
    line := 0, frame := x.frame + 1, poses := x.poses.filter (fun p => decide (x.frame ≤ p.1 + 2))
    bands := x.bands.filter fun d => decide (x.frame ≤ d.frame) }

/-- Do band instants of a head wait to take effect (R257)? -/
def instantsDue (x : Head) : Bool := instantDue x x.nextStart leadOf || (decide (x.nextDeadline < x.nextStart) && instantDue x x.nextDeadline guardOf)

/-- Is a bundle of one of a head's cores in progress? -/
def bundleRuns (s : State) (h : Nat) : Bool := s.burins.any fun c => c.2.running && c.2.head == h && !c.2.bundle.isEmpty

/-- Does the scan-out of a line wait for a pinned line of memory (R126)? -/
def scanPinned (s : State) (h f : Nat) : Bool :=
  let x := headAt s h
  let row := fun (va y : Nat) => (List.range x.mode.hwidth).map fun i => (va + 4 * (y * x.mode.hwidth + i)) % 2 ^ 64
  waitsPins s (dispCtx s h) (row (pbufOf x.mode f) x.line ++ (List.range x.mode.hheight).flatMap (row (pbufOf x.mode (f + 1))))

/-- SCANOUT_LINE: the beam's line is scanned out, after the band instants that fall at or before it, and between the bundles
of the head's cores. -/
def execScanoutLine (s : State) : Host.Outcome State Fault Refusal :=
  let h := unitOf s
  let x := headAt s h
  .next (if !x.on || instantsDue x || bundleRuns s h then s
    else if x.frame = 0 ∨ x.mode.hheight ≤ x.line then setHead s h (nextLine x)
    else
      let f := x.frame - 1
      let b := x.line / 16
      let out := match alGet (bandAt x f b).lines (x.line % 16) with
        | some (.row px) => some (px, s)
        | some .due => none
        | _ => some (reprojLine s h f b x.line)
      let unread := s.burins.any fun c => c.2.head == h && c.2.louts.any fun l => l.frame == f && l.band == b && l.line == x.line % 16
      match out with
      | none => s
      | some (px, s') =>
        if unread || scanPinned s h f then s
        else
          let s := presentLine h b (pbufOf x.mode f + 4 * (x.line * x.mode.hwidth)) px s'
          setHead s h (nextLine (headAt s h)))

end Sys2Proof.Machine
end

