-- ==== Sys2Proof/Machine/Mailbox.lean ====
section
/-! DEFINITION. The mailbox commands (R211, R212, R228, R231, R232, R256, R266, R281, R283 to R287). A command runs once
its opcode has been rung in; its arguments are what the request holds. The unit of PREEMPT and DEBUG is the consort. -/

namespace Sys2Proof.Machine

/-! ## The frame of a command (R283, R284) -/

def mbOK : Nat := 0
def mbBADCMD : Nat := 1
def mbDENIED : Nat := 2
def mbUNAVAILABLE : Nat := 3

/-- The opcodes of R284, and those of the safe state. -/
def mbOps : List Nat := [0x01, 0x02, 0x03, 0x10, 0x11, 0x12, 0x13, 0x14, 0x20, 0x21, 0x22, 0x30, 0x31]
def mbSafe (op : Nat) : Bool := decide (1 ≤ op ∧ op ≤ 3)

/-- Write the response, of at most 2 KiB, and RESULT of the command in progress (R283). -/
def answer (s : State) (result : Nat) (response : List Byte) : State :=
  { s with mbox := { s.mbox with waiting := none, result := BitVec.ofNat 8 result, response := response.take responseRoom } }

/-- Run a command that was rung in. -/
def command (s : State) (op : Nat) (f : State → State) : State :=
  match s.mbox.waiting with
  | some (o, _) => if s.mbox.busy && o.toNat == op && (mbSafe op || !s.mbox.safe) then f s else s
  | none => s

/-- BADCMD, without effect. -/
def badcmd (s : State) : State := answer s mbBADCMD []

/-- MAILBOX_COMMAND_COMPLETE: BUSY clears and MSI-X vector 0 fires; a command that does not exist, or that the safe
state does not accept, is answered here. A retirement completes with its last record. -/
def execMailboxCommandComplete (s : State) : Host.Outcome State Fault Refusal :=
  let fire := fun (s : State) => { s with msix := s.msix ||| 1, mbox := { s.mbox with busy := false } }
  .next (if !s.mbox.busy then s
    else match s.mbox.waiting with
      | none => if s.queues.any (·.retiring.isSome) then s else fire s
      | some (o, _) =>
        if !mbOps.contains o.toNat then fire (badcmd s)
        else if s.mbox.safe && !mbSafe o.toNat then fire (answer s mbUNAVAILABLE []) else s)

/-! ## Identity and images (R284 to R286) -/

/-- The configuration image or the firmware that runs: what was loaded, or what the module ships with. -/
def running (s : State) (config : Bool) : List Byte :=
  let image := if config then s.cfgImage else s.fwImage
  if image.isEmpty then Config.factoryImage config else image

/-- IDENT. -/
def execIdent (s : State) : Host.Outcome State Fault Refusal :=
  .next (command s 0x01 fun s =>
    answer s mbOK (Config.partNumber ++ Config.imageVersion (running s false) ++ Config.imageVersion (running s true) ++ toBytes 8 s.ident ++ toBytes 2 s.pkg))

/-- ATTEST: nonce, digests, STCODE and identity, signed. -/
def execAttest (nonce : List Byte) (s : State) : Host.Outcome State Fault Refusal :=
  .next (command s 0x02 fun s =>
    if nonce.length ≠ 64 then badcmd s
    else
      let report := nonce ++ sha512 (running s false) ++ sha512 (running s true) ++ toBytes 2 s.mbox.stcode.toNat ++ toBytes 8 s.ident
      answer s mbOK (report ++ Config.reportSignature report))

/-- FWLOAD: the image takes effect at the next power-up. -/
def execFwload (image : List Byte) (s : State) : Host.Outcome State Fault Refusal :=
  .next (command s 0x03 fun s =>
    if Config.imageSigned image then answer { s with staged := s.staged ++ [image] } mbOK [] else answer s mbDENIED [])

/-! ## Queues and contexts (R190, R211, R220, R228) -/

/-- The 32 bytes of a capability. -/
def capability (qcb : DWord) (b : Qcb) (pasid : BitVec 20) (rights : BitVec 16) : List Byte :=
  let body := toBytes 8 qcb.toNat ++ toBytes 4 b.rsize ++ toBytes 2 rights.toNat ++ toBytes 3 (pasid.toNat * 16 + b.gen) ++ List.replicate 7 0
  body ++ toBytes 8 (Config.capSeal (ofBytes body)).toNat

/-- CAPMINT: for a QCB in memory, with defined rights; it waits while the QCB's line is pinned (R126). -/
def execCapmint (qcb : DWord) (pasid : BitVec 20) (rights : BitVec 16) (s : State) : Host.Outcome State Fault Refusal :=
  .next (command s 0x10 fun s =>
    if qcbPinned s qcb.toNat then s
    else if qcb.toNat % 256 ≠ 0 ∨ (qcbBytes s qcb.toNat).isNone ∨ 64 ≤ rights.toNat then badcmd s
    else answer (withQueue s qcb.toNat) mbOK (capability qcb (qcbOf s qcb.toNat) pasid rights))

/-- Steps 1 to 4 of R211 for one queue. -/
def retireQueue (s : State) (qcb : Nat) : State :=
  match queueFor s qcb with
  | none => s
  | some q =>
    let b := qcbOf s qcb
    let dropped := inc32 b.tail b.head + (q.cmds.filter fun c => c.stage == 0).length
    let s := qcbPut s qcb 50 (toBytes 1 (b.pasid / 2 ^ 16 + (b.gen + 1) % 16 * 16))
    let s := { s with pris := s.pris.filter fun p => p.who != .queue qcb }
    let q := { newQueue qcb with
      cmds := q.cmds.filter (fun c => c.stage != 0), owed := q.owed, broken := q.broken, retiring := some dropped }
    flushRetired (setQueueRec s q) qcb (q.cmds.length + 1)

/-- Kill every launch of a context; each completes RETIRED (R211). -/
def retireLaunch (s : State) (l : Launch) : State :=
  let s := killLaunch s l.lid s.nextCid stRETIRED 0
  match launchAt s l.lid with
  | some l => setLaunch s { l with status := stRETIRED, detail := 0 }
  | none => s

/-- RETIRE; it waits while the line of a QCB of the context is pinned (R126). -/
def execRetire (pasid : BitVec 20) (s : State) : Host.Outcome State Fault Refusal :=
  .next (command s 0x11 fun s =>
    let mine := (s.queues.filter fun q => (qcbOf s q.qcb).pasid == pasid.toNat).map (·.qcb)
    if mine.any (qcbPinned s) then s
    else
    let s := { s with workqs := s.workqs.filter fun w => w.owner != pasid.toNat }
    let s := (s.launches.filter fun l => l.pasid == pasid.toNat).foldl retireLaunch s
    answer (mine.foldl retireQueue s) mbOK [])

/-- PREEMPT. -/
def execPreempt (s : State) : Host.Outcome State Fault Refusal :=
  .next (command s 0x12 fun s => match conAt s (unitOf s) with
    | none => badcmd s
    | some con => if con.capo then badcmd s else answer (setCon s (askPreempt s con)) mbOK [])

/-- TLBFLUSH. -/
def execTlbflush (kind : Nat) (pasid : BitVec 20) (va : DWord) (s : State) : Host.Outcome State Fault Refusal :=
  .next (command s 0x14 fun s => if 2 < kind then badcmd s else answer (tlbDrop s kind pasid.toNat va.toNat) mbOK [])

/-! ## The debugger (R231, R232) -/

/-- DEBUG, attach. -/
def execDebugAttach (pasid : BitVec 20) (s : State) : Host.Outcome State Fault Refusal :=
  .next (command s 0x13 fun s =>
    answer (if s.attached.contains pasid.toNat then s else { s with attached := s.attached ++ [pasid.toNat] }) mbOK [])

/-- Act on a live course of the unit's consort, when a debugger is attached to its context. -/
def onCourse (s : State) (ci : Nat) (f : State → Consort → Course → State) : State :=
  command s 0x13 fun s => match conAt s (unitOf s) with
    | none => badcmd s
    | some con => match crsAt con ci with
      | none => badcmd s
      | some c => if c.ended || !debugged s (ctxOf s con).1 then badcmd s else f s con c

/-- DEBUG, halt: at once between clauses, or at the end of the clause in issue; a sleep ends (R365). -/
def execDebugHalt (ci : Nat) (s : State) : Host.Outcome State Fault Refusal :=
  .next (onCourse s ci fun s con c =>
    let running := (coreAt s con.core).issue.any fun i => i.2.cid == con.cid && i.2.ci == ci
    let c := { c with splits := endSleeps c.splits }
    answer (setCon s (setCrs con (if running then { c with haltReq := true } else { c with halted := true }))) mbOK [])

/-- A course held at a trap goes on at the cursor that TRAPPC holds (R214), its run of PRE = 0 begun anew (R54). -/
def atTrappc (c : Course) : Course := match c.trapHalt with
  | none => c
  | some spi => match alGet c.splits spi with
    | none => { c with trapHalt := none }
    | some sp =>
      let sp := { sp with pc := bits c.trappc.toNat 0 57, off := bits c.trappc.toNat 59 5, preRun := 0 }
      { c with trapHalt := none, splits := alSet c.splits spi sp }

/-- DEBUG, step: one clause of a halted course. -/
def execDebugStep (ci : Nat) (s : State) : Host.Outcome State Fault Refusal :=
  .next (onCourse s ci fun s con c =>
    if !c.halted then badcmd s
    else answer (setCon s (setCrs con { atTrappc c with halted := false, stepOne := true })) mbOK [])

/-- DEBUG, resume. -/
def execDebugResume (ci : Nat) (s : State) : Host.Outcome State Fault Refusal :=
  .next (onCourse s ci fun s con c =>
    if !c.halted then badcmd s
    else answer (setCon s (setCrs con { atTrappc c with halted := false, stepOne := false })) mbOK [])

/-- Has a lane a CHORD or SMARCH request of a pending instruction outstanding? -/
def requestOut (k : Core) (cid ci pid l : Nat) : Bool :=
  (k.openTiles.flatMap (·.rows) ++ k.closedTiles.flatMap (·.rows) ++ k.results).any (fun r =>
    r.cid == cid && r.ci == ci && r.pid == pid && r.lane == l) ||
  k.stipple.any fun r => r.cid == cid && r.ci == ci && r.pid == pid && r.lane == l

/-- Does a pending write-back cover a vector lane (R232), or a scalar register? -/
def lanePending (k : Core) (cid : Nat) (c : Course) (r l : Nat) : Bool :=
  c.pend.any fun p => p.vregs.contains r && !p.skip.contains (r * 64 + l) &&
    (requestOut k cid c.idx p.id l || p.lanes.any fun x => x.1 == r * 64 + l)

def scalarPending (c : Course) (r : Nat) : Bool := c.pend.any fun p => p.sregs.contains r && !p.skip.contains (scalarKey r)

/-- Does a queue's entry at a place hold a lane? -/
def queueLane (con : Consort) (q entry lane : Nat) : Option LaneVal := ((queueOf con q)[entry]?).bind (·[lane]?)

/-- What a debugger may name: of a queue an entry from its front and a lane of it. -/
def targetOk (con : Consort) (c : Course) : DebugTarget → Bool
  | .v r l => decide (r < 248 ∧ r < allocated con ∧ l < c.width)
  | .s r => decide (r < 64)
  | .p r => decide (r < 8)
  | .csr n => csrDefined n && !csrCapo n
  | .queue q entry lane => decide (q < 8) && (queueLane con q entry lane).isSome
  | .tile h => decide (h < 64)

def targetPending (k : Core) (cid : Nat) (c : Course) : DebugTarget → Bool
  | .v r l => lanePending k cid c r l
  | .s r => scalarPending c r
  | _ => false

/-- A tile table entry as the debugger reads it (R94). -/
def entryWord (t : TileEnt) : Nat :=
  let b := fun (x : Bool) (i : Nat) => if x then 2 ^ i else 0
  b t.v 0 + b t.own 1 + b t.lvl 2 + b t.frz 3 + t.ty % 16 * 2 ^ 9 + (t.rows - 1) % 128 * 2 ^ 13 + (t.cols - 1) % 128 * 2 ^ 20 +
  t.grp % 8 * 2 ^ 27 + t.base % 32 * 2 ^ 30 + (t.ngr - 1) % 32 * 2 ^ 35

/-- A CSR of a halted or running course. -/
def courseCsr (con : Consort) (c : Course) (n : Nat) : DWord := match n with
  | 0 => c.ncr
  | 1 => c.nstat
  | 2 => c.nbv
  | 0x10 => c.chw
  | 0x11 => con.chstat
  | 0x18 => c.msteps
  | 0x100 => c.trapc
  | 0x101 => c.trappc
  | _ => c.trapv

/-- The bytes of what is read: a lane with its poison tag. -/
def targetBytes (con : Consort) (c : Course) : DebugTarget → List Byte
  | .v r l => toBytes 4 (vVal c r l).toNat ++ [(vGet c r l).tag]
  | .s r => toBytes 8 (sGet c r).toNat
  | .p r => toBytes 8 (pMask c r).toNat
  | .csr n => toBytes 8 (courseCsr con c n).toNat
  | .queue q entry lane => (queueLane con q entry lane).elim [] fun x => toBytes 4 x.val.toNat ++ [x.tag]
  | .tile h => toBytes 8 (((alGet con.tiles h).map entryWord).getD 0)

/-- DEBUG, read: it waits for a pending write-back. -/
def execDebugRead (ci : Nat) (t : DebugTarget) (s : State) : Host.Outcome State Fault Refusal :=
  .next (onCourse s ci fun s con c =>
    if !targetOk con c t then badcmd s else if targetPending (coreAt s con.core) con.cid c t then s
    else answer s mbOK (targetBytes { con with chstat := chstatNow s con } c t))

/-- Put a debugger's value; none when a CSR refuses it, or for the tile table, which the debugger only reads (R94). -/
def targetPut (con : Consort) (c : Course) (v : DWord) : DebugTarget → Option Consort
  | .v r l => some (setCrs con (vSet c r l ⟨v.setWidth 32, 0⟩))
  | .s r => some (setCrs con (sSet c r v))
  | .p r => some (setCrs con (pSet c r (fullMask 64) v))
  | .csr n => (writeCourseCsr c n v).map (setCrs con)
  | .queue q entry lane =>
    let es := queueOf con q
    some { con with queues := alSet con.queues q (es.set entry ((es.getD entry []).set lane ⟨v.setWidth 32, 0⟩)) }
  | .tile _ => none

/-- Discard what a pending write-back would write. -/
def discardPending (c : Course) : DebugTarget → Course
  | .v r l => { c with pend := c.pend.map fun p => if p.vregs.contains r then { p with skip := (r * 64 + l) :: p.skip } else p }
  | .s r => { c with pend := c.pend.map fun p => if p.sregs.contains r then { p with skip := scalarKey r :: p.skip } else p }
  | _ => c

/-- DEBUG, write: a pending write-back answers BUSY, a byte 1 in the response, unless FORCE is set. -/
def execDebugWrite (ci : Nat) (t : DebugTarget) (value : DWord) (force : Bool) (s : State) : Host.Outcome State Fault Refusal :=
  .next (onCourse s ci fun s con c =>
    if !targetOk con c t then badcmd s
    else if targetPending (coreAt s con.core) con.cid c t && !force then answer s mbOK [1]
    else match targetPut con (if force then discardPending c t else c) value t with
      | none => badcmd s
      | some con => answer (setCon s con) mbOK [0])

/-! ## Display, logs, keys and power (R256, R266, R281, R284, R287) -/

/-- Does a mode set release a hold whose descriptor's line is pinned (R126)? -/
def modesetWaits (s : State) (modes : List (Nat × HeadMode)) : Bool := (List.range 16).any fun b =>
  let x := burinAt s b
  modes.any (fun m => m.2.cores.getLsbD b || (x.head == m.1 && (headAt s m.1).mode.cores.getLsbD b)) &&
    x.hold.elim false fun slot => waitsPins s (dispCtx s x.head) [(headAt s x.head).mode.slots.getD slot 0 + 8]

/-- MODESET. -/
def execModeset (modes : List (Nat × HeadMode)) (s : State) : Host.Outcome State Fault Refusal :=
  .next (command s 0x20 fun s =>
    if modesetWaits s modes then s
    else if modesOk s modes then answer (modes.foldl (fun s m => setMode s m.1 m.2) s) mbOK [] else badcmd s)

/-- EVENTS: read and clear the wake discard counts and as many records as the response holds, the oldest of each log first; the
others stay for the next (DESIGN CHOICE, log 27). -/
def execEvents (s : State) : Host.Outcome State Fault Refusal :=
  .next (command s 0x21 fun s =>
    let log := fun (r : LogRec) => [r.cause, r.sub, r.addr, r.head, r.band].flatMap (toBytes 8)
    let room := responseRoom - 48
    let nh := min s.headLog.length (room / 40)
    let nf := min s.fabricLog.length ((room - 40 * nh) / 40)
    let nr := min s.ringFaults.length ((room - 40 * nh - 40 * nf) / 16)
    let out := (s.headLog.take nh).flatMap log ++ (s.fabricLog.take nf).flatMap log ++
      (s.ringFaults.take nr).flatMap (fun r => toBytes 8 r.addr ++ toBytes 8 r.qcb) ++ s.wakeDiscards.flatMap (toBytes 8)
    answer { s with
      headLog := s.headLog.drop nh, fabricLog := s.fabricLog.drop nf, ringFaults := s.ringFaults.drop nr
      wakeDiscards := [0, 0, 0, 0, 0, 0] } mbOK out)

/-- DISPCSR, read. -/
def execDispcsrRead (csr : Nat) (s : State) : Host.Outcome State Fault Refusal :=
  .next (command s 0x22 fun s =>
    if 0xC00 ≤ csr ∧ csr ≤ 0xC04 then answer s mbOK (toBytes 8 (readDisp s csr).toNat) else badcmd s)

/-- DISPCSR, write: of any but FPSIZE. -/
def execDispcsrWrite (csr : Nat) (value : DWord) (s : State) : Host.Outcome State Fault Refusal :=
  .next (command s 0x22 fun s =>
    if [0xC00, 0xC01, 0xC02, 0xC04].contains csr then match writeDisp s csr value with
      | some s => answer s mbOK []
      | none => badcmd s
    else badcmd s)

/-- KEYLOAD, load. Lines that another key of the slot wrote fail their check from then on (R281). -/
def execKeyloadLoad (slot : Nat) (wrapped : List Byte) (s : State) : Host.Outcome State Fault Refusal :=
  .next (command s 0x30 fun s =>
    if slot = 0 ∨ 4096 ≤ slot ∨ !Config.keyUnwraps wrapped then badcmd s
    else answer { s with
        keys := if s.keys.contains slot then s.keys else s.keys ++ [slot]
        keyIds := smSet 0 s.keyIds slot (Config.keyOf wrapped) } mbOK [])

/-- KEYLOAD, zeroise. -/
def execKeyloadZeroise (slot : Nat) (s : State) : Host.Outcome State Fault Refusal :=
  .next (command s 0x30 fun s =>
    if slot = 0 ∨ 4096 ≤ slot then badcmd s else answer { s with keys := s.keys.filter (· != slot) } mbOK [])

/-- POWERCAP. -/
def execPowercap (watts : Nat) (s : State) : Host.Outcome State Fault Refusal :=
  .next (command s 0x31 fun s =>
    if s.board.floor ≤ watts ∧ watts ≤ 1500 then answer { s with cap := watts } mbOK [] else badcmd s)

end Sys2Proof.Machine
end

