-- ==== Sys2Proof/Machine/Bundle.lean ====
section
/-! DEFINITION. What a step does around an instruction: the passage of time, the word at a course's place in its clause
(R55, R65, R66), and the fetch of a Burin bundle (R69, R71, R253, R254); and the machine made ready for one instruction. -/

namespace Sys2Proof.Machine

/-! ## Time -/

/-- Time passes with a step: at least one core cycle and one Burin cycle (log 2). The fetches of the launches that run may find
memory as it was at some of the steps (R239), and the writes of plates that waited for pins are made (R126). -/
def elapse (s : State) : State :=
  let c := 1 + Config.moreCycles s.tick
  let s := platesInvalid (noteWaits (passTime s c))
  { s with
    launches := s.launches.map fun l => { l with code := l.code ++ if Config.snap s.tick then [pastOf s] else [] }
    tick := s.tick + 1, cycles := s.cycles + c, fabtime := s.fabtime + Config.moreFabtime s.tick
    bcycles := s.bcycles + 1 + Config.moreBurin s.tick }

/-! ## The next word of a clause -/

/-- The words of a clause from the current place on. -/
def wordsAt (s : State) (core islot : Nat) : List Word := match alGet (coreAt s core).issue islot with
  | some i => i.words.drop (i.off - 1)
  | none => []

/-- The instruction at the current place. -/
def slotInstr (s : State) (core islot : Nat) : Except DecodeErr Instr := (decodeWords (wordsAt s core islot)).map (·.1)

/-- The fate of words that are no instruction (R55, R57, R65, R66). BRD and ERET of a reserved FN trap GUARD or FIELD wherever they
stand (DESIGN CHOICE, log 16: no rule says whether R55 or R66 and R219 come first). -/
def badWord (s : State) (e : DecodeErr) : State :=
  let lane := fun (x : Cur) (p : P) (sub : Nat) => if active x p = 0 then passWord s x else ill s x sub
  onWord s [] [] fun x => match e with
    | .ctrlOpcode => ill s x iOPCODE
    | .ctrlField => ill s x iFIELD
    | .laneOpcode p => lane x p iOPCODE
    | .laneFn p => lane x p iFIELD
    | .courseFn p => ill s x (if guarded p then iGUARD else iFIELD)
    | .short => ill s x iPLACE
    | .burin => ill s x iOPCODE

/-! ## Burin bundles -/

/-- The stage of a slot word (R70); control words have none (R254). -/
def stageOf (slot : Nat) (w : Word) : Nat := if slot = 0 then 0 else (fld 2 w 23).toNat

/-- The w registers that a slot reads and writes, and the mask it writes. -/
def slotRegs : Instr → List Nat × List Nat × List Nat
  | .ladd _ d a b _ _ | .lsub _ d a b _ _ | .lmul _ d a b _ _ | .lmin _ d a b _ _ | .lmax _ d a b _ _ | .lsel _ d a b _ _
  | .lshf _ d a b _ _ | .llog _ d a b _ _ => ([a.toNat, b.toNat], [d.toNat], [])
  | .lmad _ d a b _ _ => ([a.toNat, b.toNat, d.toNat], [d.toNat], [])
  | .lmma _ d a b => ([a.toNat, b.toNat, d.toNat], [d.toNat], [])
  | .wxy _ d a b => ([a.toNat, b.toNat], [d.toNat], [])
  | .fsmp _ d a b _ => ([a.toNat, b.toNat], [d.toNat], [])
  | .lcmp _ d a b _ _ => ([a.toNat, b.toNat], [], [d.toNat])
  | .lcvt _ d a _ _ | .lpack _ d a _ _ | .lunpk _ d a _ _ | .lbld _ d a _ _ => ([a.toNat], [d.toNat], [])
  | .lbst _ a b _ _ => ([a.toNat, b.toNat], [], [])
  | .facq _ d | .posel _ d => ([], [d.toNat], [])
  | .dlchk _ d => ([], [], [d.toNat])
  | .lout _ a _ | .rpj _ a => ([a.toNat], [], [])
  | _ => ([], [], [])

/-- Does a slot hold its bundle until band start, or until the rows of its LOUTs are read (R263, R297, R355)? -/
def slotWaits (s : State) (x : Burin) : Instr → Bool
  | .facq _ _ | .posel _ _ => !bandStarted s x
  | .bwait _ fn => if fn = 0 then !bandStarted s x else loutsPending x
  | _ => false

/-- What the fetch of a bundle comes to. -/
inductive Fetched where
  | trap (cause sub : Nat)
  | ill
  | wait
  | ready (ws : List Word)
  deriving DecidableEq, Repr

/-- The sub-code of a control word that is none (R57, R59). -/
def ctrlSub : DecodeErr → Option Nat
  | .ctrlOpcode => some iOPCODE
  | .ctrlField => some iFIELD
  | _ => none

/-- Check a bundle's words: slot 0's control word (R57), stages (R54, R254), each slot's operation (R71), double writes (R69),
waits (R253). Slots that are skipped become no-ops, which write nothing. Two slots that name one mask trap when it is m0 too,
whose writes are discarded. No rule orders these checks, and none says what a skipped slot or m0 counts as for R69 (DESIGN
CHOICE, log 17). -/
def checkBundle (s : State) (x : Burin) (ws : List Word) : Fetched :=
  let slots := List.range 4
  let w := fun i => ws.getD i 0
  let stages := (x.loops.head?).elim 1 (·.stages)
  let runs := fun (i : Nat) => match x.loops with
    | [] => true
    | l :: _ => !decide (l.start ≤ x.pc ∧ x.pc < l.stop) || runsIn l (stageOf i (w i))
  let ok := fun (i : Nat) => match decodeSlot i (w i) with
    | .ok ins => burinSlotOk i ins
    | .error _ => false
  let live := fun i => if runs i then w i else 0
  let ins := slots.filterMap fun i => (decodeSlot i (live i)).toOption
  let regs := ins.map slotRegs
  let dW := regs.flatMap (·.2.1)
  let dM := regs.flatMap (·.2.2)
  let busy := x.landing.map (·.reg)
  let ctl := match decodeSlot 0 (w 0) with
    | .error e => ctrlSub e
    | .ok _ => none
  if let some sub := ctl then .trap cILL sub
  else if !slots.all (fun i => decide (stageOf i (w i) < stages)) then .trap cILL iHEADER
  else if !slots.all ok ∨ dW.eraseDups ≠ dW ∨ dM.eraseDups ≠ dM then .ill
  else if ins.any (slotWaits s x) || (dW ++ regs.flatMap (·.1)).any (busy.contains ·) then .wait
  else .ready (slots.map live)

/-- Fetch the next bundle of a running invocation, once the band instants of its head have taken effect (R257); after its
deadline the invocation ends here (R260). -/
def fetchBundle (s : State) (b : Nat) : State :=
  let x := burinAt s b
  if instantsDue (headAt s x.head) then s
  else if x.late then endInvocation s b true
  else if waitsPins s (dispCtx s x.head) [x.pc] then s
  else match fetchWords s coreInit (dispCtx s x.head) x.pc 4 with
    | .error e => burinTrap (setBurin s b { x with src := x.regs }) b e.1 (if e.1 = cXLAT then bits e.2.toNat 60 4 else 0)
    | .ok ws => match checkBundle s x ws with
      | .trap c sub => burinTrap (setBurin s b { x with src := x.regs }) b c sub
      | .ill => burinIll (setBurin s b { x with src := x.regs }) b
      | .wait => s
      | .ready ws => setBurin s b { x with bundle := ws, pos := 0, src := x.regs }

/-- The operation of the slot whose turn it is. -/
def bundleInstr (x : Burin) : Except DecodeErr Instr := decodeSlot x.pos (x.bundle.getD x.pos 0)

/-- A slot word that is no operation (R57, R71). -/
def badSlot (s : State) (b : Nat) (e : DecodeErr) : State := match ctrlSub e with
  | some sub => burinTrap s b cILL sub
  | none => burinIll s b

/-! ## The machine made ready for one instruction -/

/-- A clause of a header and its words, in issue slot 0 of core 0, with nothing executed yet. -/
def readyIssue (cid : Nat) (ws : List Word) : Issue :=
  { cid := cid, ci := 0, sp := 0, hdr := 0x1000, header := BitVec.ofNat 32 (ws.length * 2 ^ 27 + 0x7F88), words := ws, off := 1, ll := 0
    ord := 0, cfErr := [], cfSub := [], await := none, waits := false }

/-- A consort of one course at the clause's header, with every window. -/
def readyConsort (cid : Nat) : Consort :=
  let c := courseStart noLaunch 0 0 0
  { blankConsort with
    cid := cid, courses := [{ c with entry := 0x1000, splits := [(0, entrySplit 0x1000 (fullMask 32))] }], vgran := 31, ntpl := 64
    nflag := 64, nacc := 8 }

/-- Words in issue slot 0 of core 0, for the course there or for a new one; that slot moves next. -/
def readyClause (s : State) (ws : List Word) : State :=
  let k := coreAt s 0
  let s := match alGet k.issue 0 with
    | some i => setCore s 0 { k with issue := alSet k.issue 0 { i with words := ws, off := 1 } }
    | none =>
      let s := setCore s 0 { k with issue := alSet k.issue 0 (readyIssue s.nextCid ws) }
      { s with consorts := s.consorts ++ [readyConsort s.nextCid], nextCid := s.nextCid + 1 }
  { s with turn := .slot 0 0 }

/-- A word in the slot of Burin core 0's bundle that takes it; that core moves next. -/
def readyBundle (s : State) (w : Word) (i : Instr) : State :=
  let slot := if burinSlotOk 3 i then 3 else 1
  let x := burinAt s 0
  let s := setBurin s 0 { x with running := true, bundle := (List.replicate 4 0).set slot w, pos := slot, src := x.regs }
  { s with turn := .burin 0 }

/-- The state with an instruction where the next step takes it from. -/
def placeWords (s : State) (nbits w : Nat) : State :=
  let w0 : Word := BitVec.ofNat 32 w
  let w1 : Word := BitVec.ofNat 32 (w >>> 32)
  if nbits ≤ 32 ∧ w0.getLsbD 31 then match decodeBurin w0 with
    | .ok i => readyBundle s w0 i
    | .error _ => readyClause s [w0]
  else readyClause s (if w0.getLsbD 31 then [w0, w1] else [w0])

end Sys2Proof.Machine
end

