-- ==== Sys2Proof/Machine/Stipple.lean ====
section
/-! DEFINITION. The Stipple unit: requests, the march, brick loads and write-back (R268 to R273, R366). -/

namespace Sys2Proof.Machine

/-! ## Grids (R268) -/

def gDepth (shape0 : Nat) : Nat := bits shape0 0 4 + 1
def gLevels (shape0 : Nat) : Nat := bits shape0 4 4 + 1
def gT (shape0 : Nat) : Nat := bits shape0 8 5
def gN0 (shape0 : Nat) : Nat := bits shape0 16 16
def gBricks (shape0 : Nat) : Nat := bits shape0 32 32

/-- The limits of a grid's entry. -/
def gridOk (e : ResEnt) : Bool :=
  let h := ResEnt.shape0 e
  let n := gBricks h
  decide (1 ≤ n ∧ n ≤ 2 ^ 24) && decide (1 ≤ gN0 h ∧ gN0 h ≤ 4096) && bits h 13 3 == 0 && decide (4 ≤ gT h ∧ gT h ≤ 22) &&
  decide (gDepth h ≤ 12) && ResEnt.f e 16 8 == 0 && ResEnt.base e % 128 == 0 && decide (128 * n ≤ ResEnt.size e) &&
  ResEnt.shape1 e % 4 == 0

/-! ## Distances in f64 (R270) -/

def dAdd (x y : Nat) : Nat := (fAdd fmtF64 .rne false x y).1
def dSub (x y : Nat) : Nat := dAdd x (fNeg fmtF64 y)
def dMul (x y : Nat) : Nat := (fMul fmtF64 .rne false x y).1
def dDiv (x y : Nat) : Nat := (fDiv fmtF64 .rne false x y).1
def dLt (x y : Nat) : Bool := fCmp fmtF64 x y == some .lt
def dLe (x y : Nat) : Bool := dLt x y || fCmp fmtF64 x y == some .eq
def dZero (x : Nat) : Bool := fCmp fmtF64 x 0 == some .eq
def toF64 (x : Nat) : Nat := (fCvt fmtF32 fmtF64 .rne false x).1
def toF32 (x : Nat) : Nat := (fCvt fmtF64 fmtF32 .rne false x).1

/-- The plane m / 8^(depth+1). -/
def plane (depth m : Nat) : Nat := (roundDy fmtF64 .rne false ⟨m, -(3 * (depth + 1) : Nat)⟩ false).1

/-- Distance along the ray to a plane of an axis. -/
def planeDist (r : SmReq) (ax depth m : Nat) : Nat := dDiv (dSub (plane depth m) (r.ray.getD ax 0)) (r.ray.getD (3 + ax) 0)

/-- Inner planes of the eight cells from 8·parent on that the ray has reached at its t. -/
def planesPassed (r : SmReq) (ax depth parent : Nat) : Nat :=
  ((List.range 7).filter fun m => dLe (planeDist r ax depth (8 * parent + m + 1)) r.t).length

/-- The cell of the ray among the eight of a parent cell, along an axis: a plane that is reached is crossed. -/
def cellAlong (r : SmReq) (ax depth parent : Nat) : Nat :=
  let u := r.ray.getD (3 + ax) 0
  if dZero u then match fmtF64.unpack (r.ray.getD ax 0) with
    | .fin neg m e => ((dyToInt .rdn neg m (e + (3 * (depth + 1) : Nat))).1.toNat - 8 * parent) % 8
    | _ => 0
  else if dLt 0 u then planesPassed r ax depth parent
  else 7 - planesPassed r ax depth parent

/-- Is the ray inside the unit interval of an axis? -/
def insideAlong (r : SmReq) (ax : Nat) : Bool :=
  let o := r.ray.getD ax 0
  let u := r.ray.getD (3 + ax) 0
  let near := planeDist r ax 0 0
  let far := planeDist r ax 0 8
  if dZero u then dLe 0 o && dLt o (plane 0 8)
  else if dLt 0 u then dLe near r.t && dLt r.t far
  else dLt far r.t && dLt r.t near

/-- Does the ray go on (R270)? -/
def smLive (r : SmReq) : Bool := dLt r.t (r.ray.getD 6 0) && (List.range 3).all (insideAlong r)

/-- Entry t of the cell at a place of a depth: the farthest of the planes behind, and not before the ray's origin (DESIGN
CHOICE, log 33: R270 does not say where the segment of a ray that begins inside a cell starts). -/
def entryT (r : SmReq) (depth : Nat) (cell : List Nat) : Nat :=
  let ds := ((List.range 3).filter fun ax => !dZero (r.ray.getD (3 + ax) 0)).map fun ax =>
    let g := cell.getD ax 0
    planeDist r ax depth (if dLt 0 (r.ray.getD (3 + ax) 0) then g else g + 1)
  ds.foldl (fun a d => if dLt a d then d else a) 0

/-- Exit t of the cell at a place of a depth: the nearest plane ahead. -/
def exitT (r : SmReq) (depth : Nat) (cell : List Nat) : Nat :=
  let ds := ((List.range 3).filter fun ax => !dZero (r.ray.getD (3 + ax) 0)).map fun ax =>
    let g := cell.getD ax 0
    planeDist r ax depth (if dLt 0 (r.ray.getD (3 + ax) 0) then g + 1 else g)
  ds.foldl (fun a d => if dLt d a then d else a) (fmtF64.signed false (fmtF64.maxFin + 1))

/-! ## Features (R268, R270) -/

def sMul (x y : Nat) : Nat := (fMul fmtF32 .rne false x y).1
def sAdd (x y : Nat) : Nat := (fAdd fmtF32 .rne false x y).1

/-- a + w (b − a) in f32. -/
def lerp (w a b : Nat) : Nat := sAdd a (sMul w (sAdd b (fNeg fmtF32 a)))

/-- The table index of a corner. -/
def hashIndex (n t i j k : Nat) : Nat :=
  if (n + 1) ^ 3 ≤ 2 ^ t then i + (n + 1) * (j + (n + 1) * k)
  else (i ^^^ (j * 2654435761 % 2 ^ 32) ^^^ (k * 805459861 % 2 ^ 32)) % 2 ^ t

/-- Corner and weight along an axis: the corner stays within the grid. -/
def cornerOf (n x : Nat) : Nat × Nat :=
  let c := match fmtF32.unpack x with
    | .fin neg m e => min (n - 1) (dyToInt .rdn neg m e).1.toNat
    | _ => 0
  (c, sAdd x (fNeg fmtF32 (intToF fmtF32 .rne false c).1))

/-- The two features of the eight corners of a level, read in corner order. -/
def readCorners (s : State) (rd : Reader) (ctx : Nat × Nat) (key addr : Nat) : List Nat → AtVa (List Nat)
  | [] => .ok []
  | i :: is => do
    let v ← readKeyedNat s rd ctx key (addr + 4 * i) 4
    let r ← readCorners s rd ctx key addr is
    .ok (v :: r)

/-- Corners and weights of a position in a level, by axis. -/
def levelCorners (r : SmReq) (p : List Nat) (l : Nat) : List (Nat × Nat) :=
  let n := gN0 r.shape0 * 2 ^ l
  p.map fun x => cornerOf n (sMul x (intToF fmtF32 .rne false n).1)

/-- The table indices of the eight corners. -/
def levelIdx (r : SmReq) (c : List (Nat × Nat)) (l : Nat) : List Nat :=
  let at' := fun (ax b : Nat) => (c.getD ax (0, 0)).1 + b
  (List.range 8).map fun q => hashIndex (gN0 r.shape0 * 2 ^ l) (gT r.shape0) (at' 0 (q % 2)) (at' 1 (q / 2 % 2)) (at' 2 (q / 4))

/-- The course whose reads a request's are (R273). -/
def SmReq.reader (r : SmReq) : Reader := .course r.cid r.ci

/-- Where a level's table lies. -/
def levelTable (r : SmReq) (l : Nat) : Nat := r.feat + 4 * l * 2 ^ gT r.shape0

/-- One level's register: both features interpolated along x, then y, then z; an f16 result meets R89. -/
def levelFeature (s : State) (ctx : Nat × Nat) (r : SmReq) (p : List Nat) (l : Nat) : AtVa Word := do
  let c := levelCorners r p l
  let vs ← readCorners s r.reader ctx r.key (levelTable r l) (levelIdx r c l)
  let w := fun ax => (c.getD ax (0, 0)).2
  let f := fun (h : Nat) =>
    let v := fun (q : Nat) => (fCvt fmtF16 fmtF32 .rne false (bits (vs.getD q 0) (16 * h) 16)).1
    let x := fun (q : Nat) => lerp (w 0) (v q) (v (q + 1))
    let y := fun (q : Nat) => lerp (w 1) (x q) (x (q + 2))
    (nbvFlush r.nbv fmtF16 (fCvt fmtF32 fmtF16 .rne false (lerp (w 2) (y 0) (y 4)))).1
  .ok (BitVec.ofNat 32 (f 0 + f 1 * 2 ^ 16))

def levelFeatures (s : State) (ctx : Nat × Nat) (r : SmReq) (p : List Nat) : List Nat → AtVa (List Word)
  | [] => .ok []
  | l :: ls => do
    let v ← levelFeature s ctx r p l
    let vs ← levelFeatures s ctx r p ls
    .ok (v :: vs)

/-! ## The march (R270, R271) -/

/-- A reason for a failed read of the grid. -/
def smReason : MemErr × Nat → Nat
  | (.xlat _, _) => 0x1B
  | (.mem, _) => 0x1C

/-- Back to the root. -/
def fromRoot (r : SmReq) : SmReq := { r with brick := 0, depth := 0, px := 0, py := 0, pz := 0 }

def popNat (v n : Nat) : Nat := ((List.range n).filter (Nat.testBit v)).length

/-- The position of a sample at a distance along the ray. -/
def samplePos (r : SmReq) (t : Nat) : List Nat :=
  (List.range 3).map fun ax => toF32 (dAdd (r.ray.getD ax 0) (dMul t (r.ray.getD (3 + ax) 0)))

/-- The addresses of the table entries that a sample reads. -/
def sampleAddrs (r : SmReq) (p : List Nat) : List Nat :=
  (List.range (gLevels r.shape0)).flatMap fun l => (levelIdx r (levelCorners r p l) l).map fun i => (levelTable r l + 4 * i) % 2 ^ 64

/-- A visit whose reads meet a line that another consort has pinned has not taken place: it waits with its brick (R126,
R273). -/
def visitLater (r : SmReq) : SmReq := { r with steps := r.steps - 1, need := some r.brick }

/-- Visit the next cell of the brick where the request is. -/
def visitCell (s : State) (r : SmReq) : SmReq :=
  let ctx := (r.pasid, r.root)
  let at' := r.base + 128 * r.brick
  if waitsPinned s ctx r.cid (lineSpan at' 128) then visitLater r
  else match readKeyedNat s r.reader ctx r.key at' 128 with
  | .error e => { r with poison := some (smReason e) }
  | .ok b =>
    let later := visitLater r
    let r := { r with got := r.got ++ [(at', 128)] }
    let x := cellAlong r 0 r.depth r.px
    let y := cellAlong r 1 r.depth r.py
    let z := cellAlong r 2 r.depth r.pz
    let cell := [8 * r.px + x, 8 * r.py + y, 8 * r.pz + z]
    let c := x + 8 * y + 64 * z
    let inner := decide (r.depth + 1 < gDepth r.shape0)
    let child := bits b 512 32
    if bits b 544 480 ≠ 0 ∨ (inner ∧ gBricks r.shape0 < child + popNat b 512) then { r with state := some 3 }
    else if !b.testBit c then fromRoot { r with t := exitT r r.depth cell }
    else if inner then
      { r with brick := child + popNat b c, depth := r.depth + 1, px := cell.getD 0 0, py := cell.getD 1 0, pz := cell.getD 2 0 }
    else
      let out := exitT r r.depth cell
      let mid := dMul (dAdd (entryT r r.depth cell) out) (plane 0 4)
      let p := samplePos r mid
      if waitsPinned s ctx r.cid (sampleAddrs r p) then later
      else match levelFeatures s ctx r p (List.range (gLevels r.shape0)) with
      | .error e => { r with poison := some (smReason e) }
      | .ok fs => fromRoot { r with t := out, got := r.got ++ (sampleAddrs r p).map (·, 4), samples := r.samples ++ [BitVec.ofNat 32 (toF32 mid) :: fs] }

/-- Is the request's brick in the cache (R273)? -/
def brickCached (k : Core) (r : SmReq) : Bool := k.bricks.contains ⟨r.pasid, r.root, r.base, r.brick⟩

/-- March until the request ends or needs a brick that is not cached; the budget bounds the visits. -/
def march (s : State) (k : Core) : Nat → SmReq → SmReq
  | 0, r => r
  | fuel + 1, r =>
    if r.state.isSome || r.poison.isSome || r.need.isSome then r
    else if r.ns ≤ r.samples.length ∨ !smLive r then { r with state := some (if r.ns ≤ r.samples.length ∧ smLive r then 0 else 1) }
    else if r.budget ≤ r.steps then { r with state := some 2 }
    else if !brickCached k r then { r with need := some r.brick }
    else march s k fuel (visitCell s { r with steps := r.steps + 1, need := none })

/-- Fuel that outlasts the budget. -/
def marchOn (s : State) (k : Core) (r : SmReq) : SmReq := march s k (r.budget - r.steps + 2) r

/-- The reads that some requests have made in this step. -/
def gotReads (s : State) (rs : List SmReq) : State :=
  rs.foldl (fun s r => sawSpans s r.reader (r.pasid, r.root) r.got) s

/-- Put the requests of a core, with the reads that they have made. -/
def putMarching (s : State) (core : Nat) (k : Core) (rs : List SmReq) : State :=
  gotReads (setCore s core { k with stipple := rs.map fun r => { r with got := [] } }) rs

/-! ## SMARCH -/

/-- Validate a lane's request: the grid's entry, or a reason (R271), tested as they are needed, and how many levels are known
to fill its window. -/
def smValid (s : State) (rd : Reader) (ctx : Nat × Nat) (rtab handle : Nat) (hTag : Bool) : Except (Nat × Option Nat) ResEnt :=
  if hTag then .error (0x1D, none)
  else match readNamed s rd ctx rtab handle with
    | .error e => .error (smReason e, none)
    | .ok .beyond => .error (0x18, none)
    | .ok .bad => .error (0x1A, none)
    | .ok (.ent e) =>
      if ResEnt.type e ≠ 3 then .error (0x19, none)
      else if gridOk e then .ok e else .error (0x1A, some (gLevels (ResEnt.shape0 e)))

/-- Registers of the output window (R269). -/
def smWindow (ns levels : Nat) : Nat := 1 + ns * (1 + levels)

/-- A lane's request with its window, at issue (R270, R366). -/
def smRequest (s : State) (x : Cur) (p : P) (l : Nat) : SmReq :=
  let ctx := ctxOf s x.con
  let h := offLane x p l
  let ns := p.c.toNat
  let a := p.a.toNat
  let val := fun i => (vVal x.c (a + i) l).toNat
  let r : SmReq := fromRoot
    { cid := x.con.cid, ci := x.c.idx, pid := x.c.nextId, lane := l, d := p.d.toNat, a := a, ns := ns
      budget := bits x.c.msteps.toNat 0 24, nbv := x.c.nbv.toNat % 256, pasid := ctx.1, root := ctx.2, key := 0, shape0 := 0, feat := 0, base := 0
      ray := ([0, 1, 2, 3, 4, 5, 7].map fun i => toF64 (val i)), t := toF64 (val 6), steps := val 8, samples := []
      brick := 0, depth := 0, px := 0, py := 0, pz := 0, need := none, state := none, poison := none, window := 1, got := [] }
  match smValid s x.reader ctx (launchOf s x.con).rtab (h.1 % 2 ^ 16) (h.2 != 0) with
  | .error (reason, levels) => { r with poison := some reason, window := levels.elim 1 (smWindow ns) }
  | .ok e =>
    let r := { r with
      key := ResEnt.key e, shape0 := ResEnt.shape0 e, feat := ResEnt.shape1 e, base := ResEnt.base e
      window := smWindow ns (gLevels (ResEnt.shape0 e)) }
    if (List.range 9).any fun i => (vGet x.c (a + i) l).tag != 0 then { r with poison := some 0x1D }
    else if !windowOk x r.d r.window then { r with poison := some 0x1E }
    else r

/-- R269 to R272, R366. -/
def execSmarch (p : P) (s : State) : Host.Outcome State Fault Refusal :=
  let reads := offReads p
  let inW := (List.range 9).map (p.a.toNat + ·)
  let most := (List.range (smWindow p.c.toNat 16)).map (p.d.toNat + ·)
  .next (onWord s (inW ++ most ++ reads) (if p.bk = 1 then [p.b.toNat] else []) fun x =>
    let act := active x p
    if act = 0 then passWord s x
    else if !fieldsOk p { d := true, a := true, b := true, c := true, bk := true } || decide (p.c.toNat = 0 ∨ 8 < p.c.toNat)
        || !(p.bk == 0 || (p.bk == 1 && isS p.b)) then ill s x iFIELD
    else if !windowOk x p.a.toNat 9 || (p.bk == 0 && decide (p.b.toNat < 248) && !windowOk x p.b.toNat 1) then ill s x iREGRANGE
    else if !queuesReady x reads none then waitHere s x
    else if (lanesOf act x.c.width).any fun l =>
        namedWaits s (ctxOf s x.con) x.con.cid (launchOf s x.con).rtab ((offLane x p l).1 % 2 ^ 16) 0 then waitHere s x
    else
      let reqs := (lanesOf act x.c.width).map (smRequest s x p)
      let most := reqs.foldl (fun n r => max n r.window) 1
      let regs := (List.range most).map (p.d.toNat + ·) ++ [p.a.toNat + 6, p.a.toNat + 8]
      let core := x.core
      let s := sawSpans s x.reader (ctxOf s x.con) ((lanesOf act x.c.width).flatMap fun l =>
        if (offLane x p l).2 != 0 then [] else entrySpans s x.reader (ctxOf s x.con) (launchOf s x.con).rtab ((offLane x p l).1 % 2 ^ 16))
      let s := beginLong s (popFor x reads) { pendInit with vregs := regs, reqs := reqs.length }
      let k := coreAt s core
      putMarching s core k (k.stipple ++ reqs.map (marchOn s k)))

/-! ## Bricks (R273) -/

/-- The queue of a brick: requests that wait for the one that a request needs. -/
def sameBrick (r q : SmReq) : Bool :=
  q.need.isSome && q.need == r.need && q.pasid == r.pasid && q.root == r.root && q.base == r.base &&
  q.state.isNone && q.poison.isNone

/-- BRICK_LOAD: the longest queue, on a tie the lowest index; the oldest of 64 bricks makes room. -/
def execBrickLoad (s : State) : Host.Outcome State Fault Refusal :=
  let core := unitOf s
  let k := coreAt s core
  let len := fun r => (k.stipple.filter (sameBrick r)).length
  let best := (k.stipple.filter fun r => sameBrick r r).foldl (fun (a : Option SmReq) r => match a with
    | none => some r
    | some b => if len b < len r ∨ (len b = len r ∧ r.brick < b.brick) then some r else some b) none
  .next (match best with
    | none => s
    | some b =>
      let new : Brick := ⟨b.pasid, b.root, b.base, b.brick⟩
      let room := if 64 ≤ k.bricks.length then k.bricks.drop 1 else k.bricks
      let k := if k.bricks.contains new then k else { k with bricks := room ++ [new] }
      putMarching s core k (k.stipple.map fun r => if sameBrick b r then marchOn s k { r with need := none } else r))

/-! ## Write-back (R270, R271, R366) -/

/-- The registers that a finished request writes. -/
def smResult (r : SmReq) (limit : Nat) : List (Nat × LaneVal) :=
  match r.poison with
  | some t => ((List.range r.window).filter fun i => decide (r.d + i < limit)).map fun i => (r.d + i, (⟨0, BitVec.ofNat 8 t⟩ : LaneVal))
  | none =>
    let lane := fun (v : Nat) => (⟨BitVec.ofNat 32 v, 0⟩ : LaneVal)
    (r.d, lane (r.samples.length + 16 * r.state.getD 1)) ::
      (r.samples.flatten.zipIdx.map fun w => (r.d + 1 + w.2, lane w.1.toNat)) ++
      [(r.a + 6, lane (toF32 r.t)), (r.a + 8, lane r.steps)]

/-- Count a request that ended MALFORMED (R271, R272). -/
def malBump (v : DWord) : DWord := v + 0x1000000000000

/-- SMARCH_WRITEBACK: the k-th request, once it has ended. -/
def execSmarchWriteback (k : Nat) (s : State) : Host.Outcome State Fault Refusal :=
  let core := unitOf s
  .next (match (coreAt s core).stipple[k]? with
    | none => s
    | some r =>
      if r.state.isNone && r.poison.isNone then s
      else match (conAt s r.cid).bind fun con => (crsAt con r.ci).map fun c => (con, c) with
        | none => s
        | some (con, c) =>
          let held := c.pend.any fun q => q.id == r.pid && q.holds
          let s := modCore s core fun c => { c with stipple := c.stipple.eraseIdx k }
          let s := modCrs s r.cid r.ci fun c =>
            let c := (smResult r (min 248 (allocated con))).foldl (fun c o =>
              if skipped c r.pid (o.1 * 64 + r.lane) then c else vSet c o.1 r.lane o.2) c
            let mal := r.poison.isNone && r.state == some 3
            reqDone (if mal then { c with msteps := malBump c.msteps } else c) r.pid
          releaseHeld s core r.cid r.ci held)

end Sys2Proof.Machine
end

