-- ==== Sys2Proof/Machine/Vector.lean ====
section
/-! DEFINITION. The V instructions (R378 to R403): one shared frame, then a meaning each. -/

namespace Sys2Proof.Machine

/-- The register width that a type is held in: a lane, or an aligned pair (R378). -/
def regW (ty : Nat) : Nat := if tyBits ty = 64 then 64 else 32

/-- The scalar register that operand B reads (R61). -/
def bScalar (p : P) : List Nat := if p.bk = 1 then [p.b.toNat] else []

/-- Run a V instruction that writes D: each active lane's outcome, what those outcomes write, and the flags they raise
(R48, R82, R83, R379). -/
def vecWrite (s : State) (p : P) (f : Form) (reads : List Nat) (d w : Nat) (g : Cur → List Nat → List LaneOut)
    (out : List LaneOut → List (Nat × Nat × Byte)) : State :=
  onWord s (vregsOf f.regs) (bScalar p) fun x =>
    let act := active x p
    if act = 0 then retire s x 2
    else match formErr s x p f with
      | some sub => ill s x sub
      | none =>
        if !queuesReady x reads (some d) then waitHere s x
        else
          let outs := g x (lanesOf act x.c.width)
          match fpx? x.c outs with
          | some v => trap s x cFPX v
          | none =>
            let x := { x with con := popQueues x.con (qWidth x.c) reads }
            let x := writeResult x w d (out outs)
            retire s { x with c := raise x.c (outFlags outs) } 2

/-- A V instruction whose lanes each write their own outcome. -/
def vecRun (s : State) (p : P) (f : Form) (reads : List Nat) (d w : Nat) (g : Cur → List Nat → List LaneOut) : State :=
  vecWrite s p f reads d w g fun outs => outs.map fun o => (o.lane, o.val, o.tag)

/-- Registers read by A, by B with BK = 00, and by C. -/
def readsOf (p : P) (useA useB useC : Bool) : List Nat :=
  (if useA then [p.a.toNat] else []) ++ (if useB && p.bk == 0 then [p.b.toNat] else []) ++ (if useC then [p.c.toNat] else [])

/-- The usual form: D, A, perhaps B by any BK, perhaps C, all of the type's width. -/
def stdForm (p : P) (tys : List Nat) (rm sat : Bool) (mods : BitVec 3) (useB useC : Bool) : Form :=
  let w := regW p.ty.toNat
  { tys := tys, rm := rm, sat := sat, mods := mods
    bks := if useB then (if useC then [0, 1, 3] else [0, 1, 2, 3]) else [0]
    x3 := false, useA := true, useB := useB, useC := useC, other := true
    regs := (p.d.toNat, w) :: (readsOf p true useB useC).map (fun r => (r, w)) }

/-- A float operand after its MOD bit (R378). -/
def modNeg (ty : Nat) (neg : Bool) (v : Nat) : Nat :=
  let v := v % 2 ^ tyBits ty
  match tyFmt ty with
  | some f => if neg then fNeg f v else v
  | none => v

/-- A lane by lane operation on A, B and C (those in use), with the poison of R222. -/
def laneWise (s : State) (p : P) (useB useC : Bool) (op : Cur → Nat → Nat → Nat → Nat × Flags) (x : Cur) (ls : List Nat) :
    List LaneOut :=
  let ty := p.ty.toNat
  let w := regW ty
  ls.map fun l =>
    let a := srcVal x w p.a.toNat l
    let b := if useB then operandB s x p l else (0, 0)
    let c := if useC then srcVal x w p.c.toNat l else (0, 0)
    let tag := firstTag ([(p.a.toNat, a.2)] ++ (if useB && p.bk == 0 then [(p.b.toNat, b.2)] else []) ++
      (if useC then [(p.c.toNat, c.2)] else []))
    let r := op x (modNeg ty (p.mod.getLsbD 0) a.1) (modNeg ty (p.mod.getLsbD 1) b.1) (modNeg ty (p.mod.getLsbD 2) c.1)
    ⟨l, r.1, r.2, tag⟩

/-- A standard instruction. -/
def vecStd (s : State) (p : P) (f : Form) (useB useC : Bool) (op : Cur → Nat → Nat → Nat → Nat × Flags) : State :=
  vecRun s p f (readsOf p true useB useC) p.d.toNat (regW p.ty.toNat) (laneWise s p useB useC op)

/-- A float type, by code. -/
def isF (p : P) : Bool := !tyInt p.ty.toNat

/-- VER of the course's NBV (R81). -/
def nbvOf (c : Course) : Nat := c.nbv.toNat % 256

/-- VADD, VSUB and VMUL on integers and floats (R381). -/
def arith (p : P) (fi : Int → Int → Int) (ff : FFmt → Rm → Bool → Nat → Nat → Nat × Flags) (x : Cur) (a b : Nat) : Nat × Flags :=
  let ty := p.ty.toNat
  match tyFmt ty with
  | some f => nbvFlush (nbvOf x.c) f (ff f (rmOf x.c p.rm.toNat) (p.sat == 1) a b)
  | none => (narrow ty (p.sat == 1) (fi (intOf ty a) (intOf ty b)), 0)

/-- R381. -/
def execVadd (p : P) (s : State) : Host.Outcome State Fault Refusal :=
  .next (vecStd s p (stdForm p (setW ++ setF) (isF p) true (if isF p then 3 else 0) true false) true false
    fun x a b _ => arith p (· + ·) fAdd x a b)

/-- R381. -/
def execVsub (p : P) (s : State) : Host.Outcome State Fault Refusal :=
  .next (vecStd s p (stdForm p (setW ++ setF) (isF p) true (if isF p then 3 else 0) true false) true false
    fun x a b _ => arith p (· - ·) (fun f rm sat a b => fAdd f rm sat a (if isNaN f b then b else fNeg f b)) x a b)

/-- R381. -/
def execVmul (p : P) (s : State) : Host.Outcome State Fault Refusal :=
  .next (vecStd s p (stdForm p (setW ++ setF) (isF p) true (if isF p then 3 else 0) true false) true false
    fun x a b _ => arith p (· * ·) fMul x a b)

/-- R394. -/
def execVmulh (p : P) (s : State) : Host.Outcome State Fault Refusal :=
  let ty := p.ty.toNat
  .next (vecStd s p (stdForm p setW false false 0 true false) true false
    fun _ a b _ => (wrapTo (tyBits ty) ((intOf ty a * intOf ty b) / 2 ^ tyBits ty), 0))

/-- R390. -/
def execVmad (p : P) (s : State) : Host.Outcome State Fault Refusal :=
  let ty := p.ty.toNat
  .next (vecStd s p (stdForm p (setW ++ setF) (isF p) true (if isF p then 7 else 0) true true) true true
    fun x a b c => match tyFmt ty with
      | some f => nbvFlush (nbvOf x.c) f (fMad f (rmOf x.c p.rm.toNat) (p.sat == 1) a b c)
      | none => (narrow ty (p.sat == 1) (intOf ty a * intOf ty b + intOf ty c), 0))

/-- VMIN and VMAX (R391). -/
def minMax (p : P) (wantMax : Bool) (x : Cur) (a b : Nat) : Nat × Flags :=
  let ty := p.ty.toNat
  match tyFmt ty with
  | some f => nbvFlush (nbvOf x.c) f (fMinMax f wantMax a b)
  | none => (if decide (intOf ty a < intOf ty b) != wantMax then a else b, 0)

/-- R391. -/
def execVmin (p : P) (s : State) : Host.Outcome State Fault Refusal :=
  .next (vecStd s p (stdForm p (setW ++ setF) false false (if isF p then 3 else 0) true false) true false
    fun x a b _ => minMax p false x a b)

/-- R391. -/
def execVmax (p : P) (s : State) : Host.Outcome State Fault Refusal :=
  .next (vecStd s p (stdForm p (setW ++ setF) false false (if isF p then 3 else 0) true false) true false
    fun x a b _ => minMax p true x a b)

/-- The integer quotient of R387. -/
def intDiv (ty : Nat) (sat : Bool) (a b : Int) : Nat :=
  if b = 0 then 2 ^ tyBits ty - 1 else narrow ty sat (Int.tdiv a b)

/-- R387. -/
def execVdiv (p : P) (s : State) : Host.Outcome State Fault Refusal :=
  let ty := p.ty.toNat
  .next (vecStd s p (stdForm p (setW ++ setF) (isF p) true (if isF p then 3 else 0) true false) true false
    fun x a b _ => match tyFmt ty with
      | some f => nbvFlush (nbvOf x.c) f (fDiv f (rmOf x.c p.rm.toNat) (p.sat == 1) a b)
      | none => (intDiv ty (p.sat == 1) (intOf ty a) (intOf ty b), 0))

/-- The bitwise instructions (R382), at the width of the type. -/
def bitwise (p : P) (s : State) (op : Nat → Nat → Nat → Nat) : Host.Outcome State Fault Refusal :=
  let m := 2 ^ tyBits p.ty.toNat - 1
  .next (vecStd s p (stdForm p setN false false 0 true false) true false fun _ a b _ => (op m a b &&& m, 0))

/-- R382. -/
def execVand (p : P) (s : State) : Host.Outcome State Fault Refusal := bitwise p s fun _ a b => a &&& b
/-- R382. -/
def execVor (p : P) (s : State) : Host.Outcome State Fault Refusal := bitwise p s fun _ a b => a ||| b
/-- R382. -/
def execVxor (p : P) (s : State) : Host.Outcome State Fault Refusal := bitwise p s fun _ a b => a ^^^ b
/-- R382. -/
def execVandn (p : P) (s : State) : Host.Outcome State Fault Refusal := bitwise p s fun m a b => a &&& (b ^^^ m)
/-- R382. -/
def execVorn (p : P) (s : State) : Host.Outcome State Fault Refusal := bitwise p s fun m a b => a ||| (b ^^^ m)
/-- R382. -/
def execVxnor (p : P) (s : State) : Host.Outcome State Fault Refusal := bitwise p s fun m a b => (a ^^^ b) ^^^ m

/-- The shift instructions (R399): an operation on the width, the amount and the value. -/
def shift (p : P) (s : State) (op : Nat → Nat → Nat → Nat) : Host.Outcome State Fault Refusal :=
  let w := tyBits p.ty.toNat
  .next (vecStd s p (stdForm p setW false false 0 true false) true false
    fun _ a b _ => (op w (b % (if w = 64 then 64 else 32)) a % 2 ^ w, 0))

/-- R399. -/
def execVshl (p : P) (s : State) : Host.Outcome State Fault Refusal := shift p s fun _ n a => a * 2 ^ n
/-- R399. -/
def execVshr (p : P) (s : State) : Host.Outcome State Fault Refusal := shift p s fun _ n a => a / 2 ^ n
/-- R399. -/
def execVsha (p : P) (s : State) : Host.Outcome State Fault Refusal :=
  shift p s fun w n a => wrapTo w (signedOf w a / 2 ^ n)
/-- R399. -/
def execVrol (p : P) (s : State) : Host.Outcome State Fault Refusal :=
  shift p s fun w n a => a * 2 ^ n ||| a / 2 ^ (w - n)

/-- The bit instructions of one operand (R384). -/
def bitOne (p : P) (s : State) (op : Nat → Nat → Nat) : Host.Outcome State Fault Refusal :=
  let w := tyBits p.ty.toNat
  .next (vecStd s p (stdForm p setN false false 0 false false) false false fun _ a _ _ => (op w a, 0))

/-- R384. -/
def execVpopc (p : P) (s : State) : Host.Outcome State Fault Refusal :=
  bitOne p s fun w a => ((List.range w).filter (fun i => a.testBit i)).length
/-- R384. -/
def execVclz (p : P) (s : State) : Host.Outcome State Fault Refusal :=
  bitOne p s fun w a => ((List.range w).find? (fun i => a.testBit (w - 1 - i))).getD w
/-- R384. -/
def execVctz (p : P) (s : State) : Host.Outcome State Fault Refusal :=
  bitOne p s fun w a => ((List.range w).find? (fun i => a.testBit i)).getD w
/-- R384. -/
def execVbrev (p : P) (s : State) : Host.Outcome State Fault Refusal :=
  bitOne p s fun w a => (List.range w).foldl (fun r i => if a.testBit i then r + 2 ^ (w - 1 - i) else r) 0

/-- R384: extract n bits at p. -/
def execVbfe (p : P) (s : State) : Host.Outcome State Fault Refusal :=
  let w := tyBits p.ty.toNat
  .next (vecStd s p (stdForm p setN false false 0 true false) true false
    fun _ a b _ => ((if w ≤ b % 64 then 0 else a / 2 ^ (b % 64)) % 2 ^ min (bits b 8 7) w, 0))

/-- R384: insert n bits of C at p. -/
def execVbfi (p : P) (s : State) : Host.Outcome State Fault Refusal :=
  let w := tyBits p.ty.toNat
  .next (vecStd s p (stdForm p setN false false 0 true true) true true
    fun _ a b c =>
      let n := min (bits b 8 7) w
      let pos := b % 64
      let field := (2 ^ n - 1) * 2 ^ pos % 2 ^ w
      ((a &&& (field ^^^ (2 ^ w - 1))) ||| (c % 2 ^ n * 2 ^ pos % 2 ^ w), 0))

/-- R392. -/
def execVmov (p : P) (s : State) : Host.Outcome State Fault Refusal :=
  let w := regW p.ty.toNat
  let f : Form := { stdForm p setN false false 0 true false with
    useA := false, regs := (p.d.toNat, w) :: (readsOf p false true false).map (fun r => (r, w)) }
  .next (vecRun s p f (readsOf p false true false) p.d.toNat w fun x ls => ls.map fun l =>
    let b := operandB s x p l
    ⟨l, b.1, 0, b.2⟩)

/-- R393. -/
def execVmovi (p : P) (s : State) : Host.Outcome State Fault Refusal :=
  let w := regW p.ty.toNat
  let q := p.a.toNat
  let f : Form := { stdForm p setN false false 0 true false with
    bks := [2], other := decide (q * 16 < w) && decide (p.d.toNat < 248), regs := [(p.d.toNat, w)] }
  .next (vecRun s p f [] p.d.toNat w fun x ls => ls.map fun l =>
    let half := fun (r lo : Nat) =>
      -- a poisoned register lane that is written whole reads 0 in its other bits
      let v := (vVal x.c r l).toNat
      if lo ≤ q * 16 ∧ q * 16 < lo + 32 then
        let k := q * 16 - lo
        v - bits v k 16 * 2 ^ k + imm16 p * 2 ^ k
      else v
    let lo := half p.d.toNat 0
    ⟨l, if w = 64 then lo + half (p.d.toNat + 1) 32 * 2 ^ 32 else lo, 0, 0⟩)

/-- Lane i of A for VBCAST and VPERM: read at its current value, active or not (R383, R396). -/
def pickLane (p : P) (x : Cur) (i l : Nat) : LaneOut :=
  let a := srcVal x (regW p.ty.toNat) p.a.toNat i
  ⟨l, a.1, 0, a.2⟩

/-- R383. -/
def execVbcast (p : P) (s : State) : Host.Outcome State Fault Refusal :=
  let f := { stdForm p setN false false 0 true false with bks := [1, 2] }
  .next (vecRun s p f [p.a.toNat] p.d.toNat (regW p.ty.toNat) fun x ls => ls.map fun l =>
    pickLane p x ((operandB s x p l).1 % 2 ^ 32 % x.c.width) l)

/-- R396. The index is the low bits of B, which is a pair with a 64-bit type (R378). -/
def execVperm (p : P) (s : State) : Host.Outcome State Fault Refusal :=
  let w := regW p.ty.toNat
  let f := { stdForm p setN false false 0 true false with
    bks := [0], regs := [(p.d.toNat, w), (p.a.toNat, w), (p.b.toNat, w)] }
  .next (vecRun s p f [p.a.toNat, p.b.toNat] p.d.toNat w fun x ls => ls.map fun l =>
    let i := srcVal x w p.b.toNat l
    let o := pickLane p x (i.1 % 64 % x.c.width) l
    { o with tag := firstTag [(p.a.toNat, o.tag), (p.b.toNat, i.2)] })

/-- R401: only the selected source's poison counts. -/
def execVsel (p : P) (s : State) : Host.Outcome State Fault Refusal :=
  let w := regW p.ty.toNat
  let f := stdForm p setN false false 7 true false
  .next (vecRun s p f (readsOf p true true false) p.d.toNat w fun x ls => ls.map fun l =>
    let v := if pGet x.c p.mod.toNat l then srcVal x w p.a.toNat l else operandB s x p l
    ⟨l, v.1, 0, v.2⟩)

/-- The test of VCMP (R385): its outcome and the flags it raises. -/
def cmpTest (ty fn a b : Nat) : Bool × Flags :=
  match tyFmt ty with
  | none =>
    let i := intOf ty a
    let j := intOf ty b
    (match fn with
      | 0 => decide (i = j) | 1 => decide (i ≠ j) | 2 => decide (i < j)
      | 3 => decide (i ≤ j) | 4 => decide (i > j) | _ => decide (i ≥ j), 0)
  | some f =>
    let o := fCmp f a b
    let sig := sigFlag (f.unpack a) ||| sigFlag (f.unpack b)
    let fl := if 2 ≤ fn ∧ fn ≤ 5 ∧ o = none then flIV else sig
    (match fn with
      | 0 => o == some .eq | 1 => o != some .eq | 2 => o == some .lt
      | 3 => o == some .lt || o == some .eq | 4 => o == some .gt
      | 5 => o == some .gt || o == some .eq | 6 => o.isSome | _ => o.isNone, fl)

/-- R385. -/
def execVcmp (p : P) (fn : BitVec 4) (s : State) : Host.Outcome State Fault Refusal :=
  let w := regW p.ty.toNat
  let reads := readsOf p true true false
  let f := { stdForm p (setW ++ setF) false false (if isF p then 3 else 0) true false with
    other := decide (p.d.toNat < 8) && (isF p || decide (fn.toNat < 6)), regs := reads.map (fun r => (r, w)) }
  .next (onWord s (vregsOf f.regs) (bScalar p) fun x =>
    let act := active x p
    if act = 0 then retire s x 2
    else match formErr s x p f with
      | some sub => ill s x sub
      | none =>
        if !queuesReady x reads none then waitHere s x
        else
          let outs := laneWise s p true false
            (fun _ a b _ => let r := cmpTest p.ty.toNat fn.toNat a b; (if r.1 then 1 else 0, r.2)) x (lanesOf act x.c.width)
          match poison? (outs.map (fun o => (o.lane, o.tag))) with
          | some v => trap s x cPOISON v
          | none => match fpx? x.c outs with
            | some v => trap s x cFPX v
            | none =>
              let res := maskOf 64 (fun l => outs.any (fun o => o.lane == l && o.val == 1))
              retire s { x with
                con := popQueues x.con (qWidth x.c) reads
                c := raise (pSet x.c p.d.toNat act res) (outFlags outs) } 2)

/-- R389: one write to a scalar register. -/
def execVget (p : P) (s : State) : Host.Outcome State Fault Refusal :=
  let w := regW p.ty.toNat
  let f := { stdForm p setN false false 0 true false with
    bks := [1, 2], other := decide (p.d.toNat < 64), regs := [(p.a.toNat, w)] }
  .next (onWord s (vregsOf f.regs) (p.d.toNat :: bScalar p) fun x =>
    if active x p = 0 then retire s x 2
    else match formErr s x p f with
      | some sub => ill s x sub
      | none =>
        if !queuesReady x [p.a.toNat] none then waitHere s x
        else
          let i := (operandB s x p 0).1 % 2 ^ 32 % x.c.width
          let v := srcVal x w p.a.toNat i
          match poison? [(i, v.2)] with
          | some t => trap s x cPOISON t
          | none => retire s { x with
              con := popQueues x.con (qWidth x.c) [p.a.toNat]
              c := sSet x.c p.d.toNat (BitVec.ofNat 64 v.1) } 2)

/-- A narrow signed result fills its lane by sign (R386, R402). -/
def extendLane (ty v : Nat) : Nat := if ty = 0 ∨ ty = 1 then wrapTo 32 (signedOf (tyBits ty) v) else v

/-- VCVT of one value (R79, R80, R386). -/
def convert (src dst : Nat) (rm : Rm) (sat : Bool) (nbv v : Nat) : Nat × Flags :=
  let v := v % 2 ^ tyBits src
  match tyFmt src, tyFmt dst with
  | none, none => (extendLane dst (narrow dst sat (intOf src v)), 0)
  | none, some f => nbvFlush nbv f (intToF f rm sat (intOf src v))
  | some f, none =>
    let r := fToInt f rm (tyMin dst) (tyMax dst) v
    (extendLane dst (wrapTo (tyBits dst) r.1), r.2)
  | some f, some g =>
    if src = dst then
      if isNaN f v then (f.canon, sigFlag (f.unpack v)) else nbvFlush nbv f (v, 0)
    else nbvFlush nbv g (fCvt f g rm sat v)

/-- R386. -/
def execVcvt (p : P) (fn : BitVec 4) (s : State) : Host.Outcome State Fault Refusal :=
  let src := fn.toNat
  let dst := p.ty.toNat
  let float := !tyInt src || !tyInt dst
  let f := { stdForm p (List.range 15) float true (if tyInt src then 0 else 1) false false with
    regs := [(p.d.toNat, regW dst), (p.a.toNat, regW src)] }
  .next (vecRun s p f [p.a.toNat] p.d.toNat (regW dst) fun x ls => ls.map fun l =>
    let a := srcVal x (regW src) p.a.toNat l
    let r := convert src dst (rmOf x.c p.rm.toNat) (p.sat == 1) (nbvOf x.c) (modNeg src (p.mod.getLsbD 0) a.1)
    ⟨l, r.1, r.2, a.2⟩)

/-- What a scan or reduction does between two elements (R400). -/
def scanStep (p : P) (op : Nat) (x : Cur) (acc v : Nat) : Nat × Flags :=
  match op with
  | 0 => arith p (· + ·) fAdd x acc v
  | 1 => minMax p false x acc v
  | 2 => minMax p true x acc v
  | 3 => (acc &&& v, 0)
  | 4 => (acc ||| v, 0)
  | _ => (acc ^^^ v, 0)

/-- The identity of an exclusive scan (R400). -/
def scanIdentity (ty op : Nat) : Nat :=
  match tyFmt ty with
  | some f => match op with
    | 1 => f.maxFin + 1
    | 2 => f.signed true (f.maxFin + 1)
    | _ => 0
  | none => match op with
    | 1 => wrapTo (tyBits ty) (tyMax ty)
    | 2 => wrapTo (tyBits ty) (tyMin ty)
    | 3 => 2 ^ tyBits ty - 1
    | _ => 0

/-- The first lane of a float scan or reduction, which R400 copies: a NaN becomes the canonical one and a signalling one sets IV, as
of every NaN that a V instruction produces (R74, R378; DEDUCED, log 32), and R89's flush of an f16 result applies. -/
def firstLane (f : FFmt) (nbv v : Nat) : Nat × Flags :=
  if isNaN f v then (f.canon, sigFlag (f.unpack v)) else nbvFlush nbv f (v, 0)

/-- The scan of R400 over lanes with values and tags; `acc` is none before the first lane. -/
def scanLanes (p : P) (op : Nat) (excl : Bool) (x : Cur) (acc : Option (Nat × Byte)) : List (Nat × Nat × Byte) → List LaneOut
  | [] => []
  | (l, v, t) :: rest =>
    let before := acc.getD (scanIdentity p.ty.toNat op, 0)
    let r := match acc with
      | none => (tyFmt p.ty.toNat).elim (v, 0) fun f => firstLane f (nbvOf x.c) v
      | some a => scanStep p op x a.1 v
    let tag := if before.2 ≠ 0 then before.2 else t
    let fl := if tag = 0 then r.2 else 0
    (if excl then ⟨l, before.1, fl, before.2⟩ else ⟨l, r.1, fl, tag⟩) :: scanLanes p op excl x (some (r.1, tag)) rest

/-- The form of VSCAN and VRED. -/
def scanForm (p : P) (op : Nat) : Form :=
  { stdForm p (if 3 ≤ op then setW else setW ++ setF) (isF p && op == 0) (op == 0) 0 false false with bks := [0] }

def scanOuts (p : P) (op : Nat) (excl : Bool) (x : Cur) (ls : List Nat) : List LaneOut :=
  scanLanes p op excl x none (ls.map fun l =>
    let a := srcVal x (regW p.ty.toNat) p.a.toNat l
    (l, a.1 % 2 ^ tyBits p.ty.toNat, a.2))

/-- R400. -/
def execVscan (p : P) (fn : BitVec 4) (s : State) : Host.Outcome State Fault Refusal :=
  let op := fn.toNat % 8
  .next (vecRun s p (scanForm p op) [p.a.toNat] p.d.toNat (regW p.ty.toNat) (scanOuts p op (decide (8 ≤ fn.toNat))))

/-- R398: every active lane gets what the scan gives the highest. -/
def execVred (p : P) (fn : BitVec 4) (s : State) : Host.Outcome State Fault Refusal :=
  let op := fn.toNat % 8
  .next (vecWrite s p (scanForm p op) [p.a.toNat] p.d.toNat (regW p.ty.toNat) (scanOuts p op false) fun outs =>
    match outs.getLast? with
    | some z => outs.map fun o => (o.lane, z.val, z.tag)
    | none => [])

/-- VWACC of one lane (R403). -/
def wacc (p : P) (x : Cur) (a d : Nat) : Nat × Flags :=
  let ty := p.ty.toNat
  match tyFmt ty with
  | some f => fAdd fmtF32 (rmOf x.c p.rm.toNat) false d (fCvt f fmtF32 .rne false (modNeg ty (p.mod.getLsbD 0) a)).1
  | none =>
    let acc := if tySigned ty then 2 else 6
    (narrow acc (p.sat == 1) (intOf acc d + intOf ty a), 0)

/-- R403. -/
def execVwacc (p : P) (s : State) : Host.Outcome State Fault Refusal :=
  let ty := p.ty.toNat
  let f := { stdForm p [0, 1, 4, 5, 8, 9] (isF p) (!isF p) (if isF p then 1 else 0) false false with
    other := decide (p.d.toNat < 248) }
  .next (vecRun s p f [p.a.toNat] p.d.toNat 32 fun x ls => ls.map fun l =>
    let a := srcLane x p.a.toNat l
    let d := vGet x.c p.d.toNat l
    let r := wacc p x (a.val.toNat % 2 ^ tyBits ty) d.val.toNat
    let sig := match tyFmt ty with
      | some g => sigFlag (g.unpack (a.val.toNat % 2 ^ tyBits ty))
      | none => 0
    ⟨l, r.1, r.2 ||| sig, firstTag [(p.a.toNat, a.tag), (p.d.toNat, d.tag)]⟩)

/-- The function instructions (R397). -/
def function (fn : Fn) (p : P) (s : State) : Host.Outcome State Fault Refusal :=
  let tys := if fn = .sqrt then [8, 9, 10, 11] else [8, 9, 10]
  .next (vecStd s p (stdForm p tys (fn == .sqrt) false 1 false false) false false fun x a _ _ =>
    match tyFmt p.ty.toNat with
    | some f => evalFn fn f (rmOf x.c p.rm.toNat) (nbvOf x.c) a
    | none => (0, 0))

/-- R397. -/
def execVrcp (p : P) (s : State) : Host.Outcome State Fault Refusal := function .rcp p s
/-- R397. -/
def execVrsq (p : P) (s : State) : Host.Outcome State Fault Refusal := function .rsq p s
/-- R397. -/
def execVsqrt (p : P) (s : State) : Host.Outcome State Fault Refusal := function .sqrt p s
/-- R397. -/
def execVexp2 (p : P) (s : State) : Host.Outcome State Fault Refusal := function .exp2 p s
/-- R397. -/
def execVlog2 (p : P) (s : State) : Host.Outcome State Fault Refusal := function .log2 p s
/-- R397. -/
def execVsin (p : P) (s : State) : Host.Outcome State Fault Refusal := function .sin p s
/-- R397. -/
def execVcos (p : P) (s : State) : Host.Outcome State Fault Refusal := function .cos p s
/-- R397. -/
def execVtanh (p : P) (s : State) : Host.Outcome State Fault Refusal := function .tanh p s

/-- R388: one bit per class, no flag. -/
def execVfclass (p : P) (s : State) : Host.Outcome State Fault Refusal :=
  let w := regW p.ty.toNat
  let f := { stdForm p (setF ++ setQ) false false 0 false false with regs := [(p.d.toNat, 32), (p.a.toNat, w)] }
  .next (vecRun s p f [p.a.toNat] p.d.toNat 32 fun x ls => ls.map fun l =>
    let a := srcVal x w p.a.toNat l
    let v := match tyFmt p.ty.toNat with
      | some g => 2 ^ fClass g (a.1 % 2 ^ tyBits p.ty.toNat)
      | none => 0
    ⟨l, v, 0, a.2⟩)

/-- The types of VPACK and VUNPK (R395). -/
def packTypes : List Nat := [0, 1, 4, 5, 8, 9, 12, 13, 14, 15]

/-- Registers of a window. -/
def window (r n : Nat) : List Nat := (List.range n).map (r + ·)

/-- R395. -/
def execVpack (p : P) (s : State) : Host.Outcome State Fault Refusal :=
  let e := tyBits p.ty.toNat
  let win := window p.a.toNat (32 / e)
  let f := { stdForm p packTypes false false 0 false false with
    other := decide (p.a.toNat < 248), regs := (p.d.toNat, 32) :: win.map (fun r => (r, 32)) }
  .next (if p.a.toNat < 248 ∧ 248 < p.a.toNat + 32 / e then
      onWord s [] [] fun x => if active x p = 0 then retire s x 2
        else ill s x ((formErr s x p { f with regs := [] }).getD iREGRANGE)
    else vecRun s p f [] p.d.toNat 32 fun x ls => ls.map fun l =>
      let vs := win.map (fun r => vGet x.c r l)
      ⟨l, (vs.foldr (fun v acc => acc * 2 ^ e + v.val.toNat % 2 ^ e) 0), 0,
        firstTag (win.map (fun r => (r, (vGet x.c r l).tag)))⟩)

/-- R402: one result register per element. -/
def execVunpk (p : P) (s : State) : Host.Outcome State Fault Refusal :=
  let ty := p.ty.toNat
  let e := tyBits ty
  let n := 32 / e
  let win := window p.d.toNat n
  let f := { stdForm p packTypes false false 0 false false with
    other := decide (p.d.toNat < 248), regs := (p.a.toNat, 32) :: (win.filter (fun r => decide (r < 248))).map (fun r => (r, 32)) }
  .next (onWord s (vregsOf f.regs) [] fun x =>
    let act := active x p
    if act = 0 then retire s x 2
    else match formErr s x p { f with regs := [] }, formErr s x p f with
      | some sub, _ => ill s x sub
      | none, some sub => ill s x sub
      | none, none =>
        if 248 < p.d.toNat + n then ill s x iREGRANGE
        else if !queuesReady x [p.a.toNat] none then waitHere s x
        else
          let src := (lanesOf act x.c.width).map (fun l => (l, srcLane x p.a.toNat l))
          let put := fun (c : Course) (j : Nat) => writeLanes c (p.d.toNat + j) (src.map fun o =>
            let v := extendLane ty (bits o.2.val.toNat (e * j) e)
            (o.1, ⟨if o.2.tag = 0 then BitVec.ofNat 32 v else 0, o.2.tag⟩))
          retire s { x with
            con := popQueues x.con (qWidth x.c) [p.a.toNat]
            c := (List.range n).foldl put x.c } 2)

end Sys2Proof.Machine
end

