-- ==== Sys2Proof/Machine/Dispatch.lean ====
section
/-! DEFINITION. One direct call of a meaning for every instruction and event. -/

namespace Sys2Proof.Machine

def exec (i : Instr) (s : State) : Host.Outcome State Fault Refusal :=
  match i with
  | .powerUp failStep failSub ident peerIdents up => Sys2Proof.Machine.execPowerUp failStep failSub ident peerIdents up s
  | .wakeWrite off bytes pasid => Sys2Proof.Machine.execWakeWrite off bytes pasid s
  | .gangPlace cores => Sys2Proof.Machine.execGangPlace cores s
  | .gangReserve cores => Sys2Proof.Machine.execGangReserve cores s
  | .gangReady gid pkg => Sys2Proof.Machine.execGangReady gid pkg s
  | .gangReadyUndeliverable pkg => Sys2Proof.Machine.execGangReadyUndeliverable pkg s
  | .gangAbort gid pkg => Sys2Proof.Machine.execGangAbort gid pkg s
  | .clauseIssue islot => Sys2Proof.Machine.execClauseIssue islot s
  | .longLatencyWriteback ci k => Sys2Proof.Machine.execLongLatencyWriteback ci k s
  | .courseEnd ci => Sys2Proof.Machine.execCourseEnd ci s
  | .copyBegin ch => Sys2Proof.Machine.execCopyBegin ch s
  | .copyLineTransfer ch line => Sys2Proof.Machine.execCopyLineTransfer ch line s
  | .freezeResume fix => Sys2Proof.Machine.execFreezeResume fix s
  | .copyComplete ch => Sys2Proof.Machine.execCopyComplete ch s
  | .peerTileWrite src => Sys2Proof.Machine.execPeerTileWrite src s
  | .chordTileClose tile => Sys2Proof.Machine.execChordTileClose tile s
  | .chordWriteback k => Sys2Proof.Machine.execChordWriteback k s
  | .smarchWriteback k => Sys2Proof.Machine.execSmarchWriteback k s
  | .ttakeComplete islot => Sys2Proof.Machine.execTtakeComplete islot s
  | .pinTimeout line => Sys2Proof.Machine.execPinTimeout line s
  | .sleepExpire ci sp => Sys2Proof.Machine.execSleepExpire ci sp s
  | .yieldExpire ci sp => Sys2Proof.Machine.execYieldExpire ci sp s
  | .consortRestore core => Sys2Proof.Machine.execConsortRestore core s
  | .priResponse success => Sys2Proof.Machine.execPriResponse success s
  | .atsInvalidation pasid va => Sys2Proof.Machine.execAtsInvalidation pasid va s
  | .hostMemoryWrite pa bytes => Sys2Proof.Machine.execHostMemoryWrite pa bytes s
  | .hostMemoryRead addr n => Sys2Proof.Machine.execHostMemoryRead addr n s
  | .fabricAccess pkg pa req => Sys2Proof.Machine.execFabricAccess pkg pa req s
  | .powerThrottle khz => Sys2Proof.Machine.execPowerThrottle khz s
  | .fltrecRead sd => Sys2Proof.Machine.execFltrecRead sd s
  | .registerWrite off value => Sys2Proof.Machine.execRegisterWrite off value s
  | .attest nonce => Sys2Proof.Machine.execAttest nonce s
  | .fwload image => Sys2Proof.Machine.execFwload image s
  | .capmint qcb pasid rights => Sys2Proof.Machine.execCapmint qcb pasid rights s
  | .retire pasid => Sys2Proof.Machine.execRetire pasid s
  | .debugAttach pasid => Sys2Proof.Machine.execDebugAttach pasid s
  | .debugHalt ci => Sys2Proof.Machine.execDebugHalt ci s
  | .debugStep ci => Sys2Proof.Machine.execDebugStep ci s
  | .debugResume ci => Sys2Proof.Machine.execDebugResume ci s
  | .debugRead ci t => Sys2Proof.Machine.execDebugRead ci t s
  | .debugWrite ci t value force => Sys2Proof.Machine.execDebugWrite ci t value force s
  | .tlbflush kind pasid va => Sys2Proof.Machine.execTlbflush kind pasid va s
  | .modeset modes => Sys2Proof.Machine.execModeset modes s
  | .dispcsrRead csr => Sys2Proof.Machine.execDispcsrRead csr s
  | .dispcsrWrite csr value => Sys2Proof.Machine.execDispcsrWrite csr value s
  | .keyloadLoad slot wrapped => Sys2Proof.Machine.execKeyloadLoad slot wrapped s
  | .keyloadZeroise slot => Sys2Proof.Machine.execKeyloadZeroise slot s
  | .powercap watts => Sys2Proof.Machine.execPowercap watts s
  | .br cond sa off => Sys2Proof.Machine.execBr cond sa off s
  | .call off => Sys2Proof.Machine.execCall off s
  | .calli sa => Sys2Proof.Machine.execCalli sa s
  | .jmpi sa => Sys2Proof.Machine.execJmpi sa s
  | .loop sa stages len => Sys2Proof.Machine.execLoop sa stages len s
  | .loopi count stages len => Sys2Proof.Machine.execLoopi count stages len s
  | .lbrk cond sa => Sys2Proof.Machine.execLbrk cond sa s
  | .lcnt sd fn => Sys2Proof.Machine.execLcnt sd fn s
  | .sadd sd sa sb => Sys2Proof.Machine.execSadd sd sa sb s
  | .ssub sd sa sb => Sys2Proof.Machine.execSsub sd sa sb s
  | .sand sd sa sb => Sys2Proof.Machine.execSand sd sa sb s
  | .sor sd sa sb => Sys2Proof.Machine.execSor sd sa sb s
  | .sxor sd sa sb => Sys2Proof.Machine.execSxor sd sa sb s
  | .sshl sd sa sb => Sys2Proof.Machine.execSshl sd sa sb s
  | .sshr sd sa sb => Sys2Proof.Machine.execSshr sd sa sb s
  | .ssha sd sa sb => Sys2Proof.Machine.execSsha sd sa sb s
  | .smul sd sa sb => Sys2Proof.Machine.execSmul sd sa sb s
  | .smulh sd sa sb => Sys2Proof.Machine.execSmulh sd sa sb s
  | .smin sd sa sb => Sys2Proof.Machine.execSmin sd sa sb s
  | .smax sd sa sb => Sys2Proof.Machine.execSmax sd sa sb s
  | .sminu sd sa sb => Sys2Proof.Machine.execSminu sd sa sb s
  | .smaxu sd sa sb => Sys2Proof.Machine.execSmaxu sd sa sb s
  | .sslt sd sa sb => Sys2Proof.Machine.execSslt sd sa sb s
  | .ssltu sd sa sb => Sys2Proof.Machine.execSsltu sd sa sb s
  | .sseq sd sa sb => Sys2Proof.Machine.execSseq sd sa sb s
  | .saddi sd sa imm => Sys2Proof.Machine.execSaddi sd sa imm s
  | .sandi sd sa imm => Sys2Proof.Machine.execSandi sd sa imm s
  | .sori sd sa imm => Sys2Proof.Machine.execSori sd sa imm s
  | .sxori sd sa imm => Sys2Proof.Machine.execSxori sd sa imm s
  | .sshli sd sa amt => Sys2Proof.Machine.execSshli sd sa amt s
  | .sshri sd sa amt => Sys2Proof.Machine.execSshri sd sa amt s
  | .sshai sd sa amt => Sys2Proof.Machine.execSshai sd sa amt s
  | .smovi sd imm => Sys2Proof.Machine.execSmovi sd imm s
  | .slea sd sa sb k => Sys2Proof.Machine.execSlea sd sa sb k s
  | .srd sd n => Sys2Proof.Machine.execSrd sd n s
  | .vadd p => Sys2Proof.Machine.execVadd p s
  | .vsub p => Sys2Proof.Machine.execVsub p s
  | .vmul p => Sys2Proof.Machine.execVmul p s
  | .vmulh p => Sys2Proof.Machine.execVmulh p s
  | .vmad p => Sys2Proof.Machine.execVmad p s
  | .vmin p => Sys2Proof.Machine.execVmin p s
  | .vmax p => Sys2Proof.Machine.execVmax p s
  | .vdiv p => Sys2Proof.Machine.execVdiv p s
  | .vand p => Sys2Proof.Machine.execVand p s
  | .vor p => Sys2Proof.Machine.execVor p s
  | .vxor p => Sys2Proof.Machine.execVxor p s
  | .vandn p => Sys2Proof.Machine.execVandn p s
  | .vorn p => Sys2Proof.Machine.execVorn p s
  | .vxnor p => Sys2Proof.Machine.execVxnor p s
  | .vshl p => Sys2Proof.Machine.execVshl p s
  | .vshr p => Sys2Proof.Machine.execVshr p s
  | .vsha p => Sys2Proof.Machine.execVsha p s
  | .vrol p => Sys2Proof.Machine.execVrol p s
  | .vcmp p fn => Sys2Proof.Machine.execVcmp p fn s
  | .vsel p => Sys2Proof.Machine.execVsel p s
  | .vcvt p fn => Sys2Proof.Machine.execVcvt p fn s
  | .vpopc p => Sys2Proof.Machine.execVpopc p s
  | .vclz p => Sys2Proof.Machine.execVclz p s
  | .vctz p => Sys2Proof.Machine.execVctz p s
  | .vbrev p => Sys2Proof.Machine.execVbrev p s
  | .vbfe p => Sys2Proof.Machine.execVbfe p s
  | .vbfi p => Sys2Proof.Machine.execVbfi p s
  | .vmov p => Sys2Proof.Machine.execVmov p s
  | .vmovi p => Sys2Proof.Machine.execVmovi p s
  | .vbcast p => Sys2Proof.Machine.execVbcast p s
  | .vget p => Sys2Proof.Machine.execVget p s
  | .vperm p => Sys2Proof.Machine.execVperm p s
  | .vscan p fn => Sys2Proof.Machine.execVscan p fn s
  | .vred p fn => Sys2Proof.Machine.execVred p fn s
  | .vwacc p => Sys2Proof.Machine.execVwacc p s
  | .vrcp p => Sys2Proof.Machine.execVrcp p s
  | .vrsq p => Sys2Proof.Machine.execVrsq p s
  | .vsqrt p => Sys2Proof.Machine.execVsqrt p s
  | .vexp2 p => Sys2Proof.Machine.execVexp2 p s
  | .vlog2 p => Sys2Proof.Machine.execVlog2 p s
  | .vsin p => Sys2Proof.Machine.execVsin p s
  | .vcos p => Sys2Proof.Machine.execVcos p s
  | .vtanh p => Sys2Proof.Machine.execVtanh p s
  | .vfclass p => Sys2Proof.Machine.execVfclass p s
  | .vpack p => Sys2Proof.Machine.execVpack p s
  | .vunpk p => Sys2Proof.Machine.execVunpk p s
  | .pand p => Sys2Proof.Machine.execPand p s
  | .por p => Sys2Proof.Machine.execPor p s
  | .pxor p => Sys2Proof.Machine.execPxor p s
  | .pandn p => Sys2Proof.Machine.execPandn p s
  | .pnot p => Sys2Proof.Machine.execPnot p s
  | .pmov p => Sys2Proof.Machine.execPmov p s
  | .pany p => Sys2Proof.Machine.execPany p s
  | .pall p => Sys2Proof.Machine.execPall p s
  | .pbal p => Sys2Proof.Machine.execPbal p s
  | .setx p => Sys2Proof.Machine.execSetx p s
  | .getx p => Sys2Proof.Machine.execGetx p s
  | .brd p fn => Sys2Proof.Machine.execBrd p fn s
  | .join p => Sys2Proof.Machine.execJoin p s
  | .refill p => Sys2Proof.Machine.execRefill p s
  | .ld p => Sys2Proof.Machine.execLd p s
  | .st p => Sys2Proof.Machine.execSt p s
  | .lds p => Sys2Proof.Machine.execLds p s
  | .sts p => Sys2Proof.Machine.execSts p s
  | .ldsp p => Sys2Proof.Machine.execLdsp p s
  | .chk p fn => Sys2Proof.Machine.execChk p fn s
  | .ldt p => Sys2Proof.Machine.execLdt p s
  | .stt p => Sys2Proof.Machine.execStt p s
  | .atom p fn => Sys2Proof.Machine.execAtom p fn s
  | .atoms p fn => Sys2Proof.Machine.execAtoms p fn s
  | .fence p => Sys2Proof.Machine.execFence p s
  | .wpush p => Sys2Proof.Machine.execWpush p s
  | .talloc p => Sys2Proof.Machine.execTalloc p s
  | .tfree p => Sys2Proof.Machine.execTfree p s
  | .tgive p => Sys2Proof.Machine.execTgive p s
  | .ttake p => Sys2Proof.Machine.execTtake p s
  | .xcopy p => Sys2Proof.Machine.execXcopy p s
  | .xcopym p fn => Sys2Proof.Machine.execXcopym p fn s
  | .xtpl p => Sys2Proof.Machine.execXtpl p s
  | .mma p fn => Sys2Proof.Machine.execMma p fn s
  | .mblk p => Sys2Proof.Machine.execMblk p s
  | .scla p => Sys2Proof.Machine.execScla p s
  | .mzero p => Sys2Proof.Machine.execMzero p s
  | .mdrain p => Sys2Proof.Machine.execMdrain p s
  | .mdrainPeer p => Sys2Proof.Machine.execMdrainPeer p s
  | .mdrainOpeer p => Sys2Proof.Machine.execMdrainOpeer p s
  | .cfwait p => Sys2Proof.Machine.execCfwait p s
  | .cfadd p => Sys2Proof.Machine.execCfadd p s
  | .cfset p => Sys2Proof.Machine.execCfset p s
  | .cfrd p => Sys2Proof.Machine.execCfrd p s
  | .chord p fn => Sys2Proof.Machine.execChord p fn s
  | .smarch p => Sys2Proof.Machine.execSmarch p s
  | .bar p => Sys2Proof.Machine.execBar p s
  | .gbar p => Sys2Proof.Machine.execGbar p s
  | .sstep p => Sys2Proof.Machine.execSstep p s
  | .trap p => Sys2Proof.Machine.execTrap p s
  | .eret p => Sys2Proof.Machine.execEret p s
  | .csrr p => Sys2Proof.Machine.execCsrr p s
  | .csrw p => Sys2Proof.Machine.execCsrw p s
  | .tlbinv p => Sys2Proof.Machine.execTlbinv p s
  | .dbgbrk p => Sys2Proof.Machine.execDbgbrk p s
  | .pslot p => Sys2Proof.Machine.execPslot p s
  | .pguard p => Sys2Proof.Machine.execPguard p s
  | .sleep p => Sys2Proof.Machine.execSleep p s
  | .ladd stg d a b ty fn => Sys2Proof.Machine.execLadd stg d a b ty fn s
  | .lsub stg d a b ty fn => Sys2Proof.Machine.execLsub stg d a b ty fn s
  | .lmul stg d a b ty fn => Sys2Proof.Machine.execLmul stg d a b ty fn s
  | .lmad stg d a b ty fn => Sys2Proof.Machine.execLmad stg d a b ty fn s
  | .lmin stg d a b ty fn => Sys2Proof.Machine.execLmin stg d a b ty fn s
  | .lmax stg d a b ty fn => Sys2Proof.Machine.execLmax stg d a b ty fn s
  | .lsel stg d a b ty fn => Sys2Proof.Machine.execLsel stg d a b ty fn s
  | .lcmp stg d a b ty fn => Sys2Proof.Machine.execLcmp stg d a b ty fn s
  | .lcvt stg d a ty fn => Sys2Proof.Machine.execLcvt stg d a ty fn s
  | .lshf stg d a b ty fn => Sys2Proof.Machine.execLshf stg d a b ty fn s
  | .llog stg d a b ty fn => Sys2Proof.Machine.execLlog stg d a b ty fn s
  | .lpack stg d a ty fn => Sys2Proof.Machine.execLpack stg d a ty fn s
  | .lunpk stg d a ty fn => Sys2Proof.Machine.execLunpk stg d a ty fn s
  | .wxy stg d a b => Sys2Proof.Machine.execWxy stg d a b s
  | .lbld stg d a ty r => Sys2Proof.Machine.execLbld stg d a ty r s
  | .lbst stg a b ty r => Sys2Proof.Machine.execLbst stg a b ty r s
  | .fsmp stg d a b fn => Sys2Proof.Machine.execFsmp stg d a b fn s
  | .facq stg d => Sys2Proof.Machine.execFacq stg d s
  | .posel stg d => Sys2Proof.Machine.execPosel stg d s
  | .lmma stg d a b => Sys2Proof.Machine.execLmma stg d a b s
  | .lout stg a h => Sys2Proof.Machine.execLout stg a h s
  | .dlchk stg d => Sys2Proof.Machine.execDlchk stg d s
  | .rpj stg a => Sys2Proof.Machine.execRpj stg a s
  | .bwait stg fn => Sys2Proof.Machine.execBwait stg fn s
  | .commandFetch => Sys2Proof.Machine.execCommandFetch s
  | .launch => Sys2Proof.Machine.execLaunch s
  | .feedCreate => Sys2Proof.Machine.execFeedCreate s
  | .feedDestroy => Sys2Proof.Machine.execFeedDestroy s
  | .feedAppend => Sys2Proof.Machine.execFeedAppend s
  | .feedRoom => Sys2Proof.Machine.execFeedRoom s
  | .signalStore => Sys2Proof.Machine.execSignalStore s
  | .signalAdd => Sys2Proof.Machine.execSignalAdd s
  | .wait => Sys2Proof.Machine.execWait s
  | .waitReread => Sys2Proof.Machine.execWaitReread s
  | .gang => Sys2Proof.Machine.execGang s
  | .launchComplete => Sys2Proof.Machine.execLaunchComplete s
  | .ticketClaim => Sys2Proof.Machine.execTicketClaim s
  | .ticketSteal => Sys2Proof.Machine.execTicketSteal s
  | .gangPreempt => Sys2Proof.Machine.execGangPreempt s
  | .gangTimeout => Sys2Proof.Machine.execGangTimeout s
  | .gangReadySend => Sys2Proof.Machine.execGangReadySend s
  | .gangDecide => Sys2Proof.Machine.execGangDecide s
  | .capoInterleave => Sys2Proof.Machine.execCapoInterleave s
  | .temporalIteration => Sys2Proof.Machine.execTemporalIteration s
  | .plateFeed => Sys2Proof.Machine.execPlateFeed s
  | .matrixStart => Sys2Proof.Machine.execMatrixStart s
  | .matrixComplete => Sys2Proof.Machine.execMatrixComplete s
  | .peerContributionApply => Sys2Proof.Machine.execPeerContributionApply s
  | .chordPass => Sys2Proof.Machine.execChordPass s
  | .brickLoad => Sys2Proof.Machine.execBrickLoad s
  | .barComplete => Sys2Proof.Machine.execBarComplete s
  | .gbarComplete => Sys2Proof.Machine.execGbarComplete s
  | .sstepComplete => Sys2Proof.Machine.execSstepComplete s
  | .wdog => Sys2Proof.Machine.execWdog s
  | .storeError => Sys2Proof.Machine.execStoreError s
  | .gangPeerFailure => Sys2Proof.Machine.execGangPeerFailure s
  | .survivorTeardown => Sys2Proof.Machine.execSurvivorTeardown s
  | .preemptSave => Sys2Proof.Machine.execPreemptSave s
  | .preemptWithdraw => Sys2Proof.Machine.execPreemptWithdraw s
  | .fabricTimeout => Sys2Proof.Machine.execFabricTimeout s
  | .linkFail => Sys2Proof.Machine.execLinkFail s
  | .bandStart => Sys2Proof.Machine.execBandStart s
  | .bandDeadline => Sys2Proof.Machine.execBandDeadline s
  | .scanoutLine => Sys2Proof.Machine.execScanoutLine s
  | .burinInvocationStart => Sys2Proof.Machine.execBurinInvocationStart s
  | .burinWriteback => Sys2Proof.Machine.execBurinWriteback s
  | .poseCommit => Sys2Proof.Machine.execPoseCommit s
  | .mailboxCommandComplete => Sys2Proof.Machine.execMailboxCommandComplete s
  | .ident => Sys2Proof.Machine.execIdent s
  | .preempt => Sys2Proof.Machine.execPreempt s
  | .events => Sys2Proof.Machine.execEvents s
  | .nop => Sys2Proof.Machine.execNop s
  | .ret => Sys2Proof.Machine.execRet s
  | .exit => Sys2Proof.Machine.execExit s
  | .yield => Sys2Proof.Machine.execYield s
  | .gangStart => Sys2Proof.Machine.execGangStart s
  | .loutRowRead => Sys2Proof.Machine.execLoutRowRead s

end Sys2Proof.Machine
end

