-- ==== Sys2Proof/Machine/Step.lean ====
section
/-! DEFINITION. One step: time passes, and the agent whose turn it is moves. -/

namespace Sys2Proof.Machine

/-- The agent that moves: the one named, or the one that the tick picks (log 1). -/
def mover (s : State) : Turn := match s.turn with
  | .free => Config.pick s.tick
  | t => t

/-- What an agent does: the next word of a clause, the next slot of a bundle or its fetch, or an event. -/
def act (s : State) : Host.Outcome State Fault Refusal :=
  match s.turn with
  | .free => .next s
  | .slot core islot =>
    if (alGet (coreAt s core).issue islot).isNone then .next s
    else match slotInstr s core islot with
      | .ok i => exec i s
      | .error e => .next (badWord s e)
  | .burin b =>
    if !(burinAt s b).running then .next (tryRelease s b)
    else if (burinAt s b).bundle.isEmpty then .next (fetchBundle s b)
    else match bundleInstr (burinAt s b) with
      | .ok i => exec i s
      | .error e => .next (badSlot s b e)
  | .event _ i => if i.hasWords then .next s else exec i s

/-- The agents take turns again. -/
def freeTurn : Host.Outcome State Fault Refusal → Host.Outcome State Fault Refusal
  | .next s => .next { s with turn := .free }
  | .fault f => .fault f
  | .refused r => .refused r

def step (s : State) : Host.Outcome State Fault Refusal :=
  freeTurn (act { (elapse s) with turn := mover s })

/-- s with the instruction of a table row where the next step takes it from. -/
def State.withFetchWord (s : State) (nbits w : Nat) : State := placeWords s nbits w

end Sys2Proof.Machine
end

