-- ==== Sys2Proof/Safety.lean ====
section
/-! DEFINITION. What the claims speak of: a word that may run, what a finished word leaves, and the state's invariant. -/

namespace Sys2Proof.Safety

open Sys2Proof.Machine

/-- A machine that answers a next state has not stopped. -/
def Answers (o : Host.Outcome State Fault Refusal) : Prop := ∃ t, o = .next t

/-- A course by consort and index. -/
def courseAt (s : State) (cid ci : Nat) : Option Course := (conAt s cid).bind (crsAt · ci)

/-- Is the word of n words the last of its clause? -/
def Last (x : Cur) (n : Nat) : Prop := x.iss.words.length < x.iss.off + n

/-- The issue slot whose turn it is holds the parts x, and its word may run: no long-latency instruction of the course
holds the slot (R37) or has still to write one of the registers named (R38), and no Capo clause has overtaken it (R210). -/
structure Runs (s : State) (x : Cur) (vregs sregs : List Nat) : Prop where
  cur : cur? s = some x
  free : x.c.pend.any (·.holds) = false
  clear : interlocked x.c vregs sregs = false
  alone : overtaken x = false

/-- The word whose turn it is in a Burin core: its invocation runs and its bundle is fetched. -/
structure RunsB (s : State) (b : Nat) (x : Burin) : Prop where
  turn : s.turn = .burin b
  at_ : burinAt s b = x
  running : x.running = true
  bundle : x.bundle ≠ []

/-- The event i happens at a unit. -/
def Happens (s : State) (u : Nat) : Prop := ∃ i, s.turn = .event u i

/-- t is s but for one core and one consort. -/
structure Apart (s t : State) (x : Cur) : Prop where
  rest : t = { s with cores := t.cores, consorts := t.consorts }
  cores : ∀ k, k ≠ x.core → coreAt t k = coreAt s k
  core : coreAt t x.core = { x.k with issue := (coreAt t x.core).issue }
  slots : ∀ j, j ≠ x.islot → alGet (coreAt t x.core).issue j = alGet x.k.issue j
  consorts : ∀ cid, cid ≠ x.con.cid → conAt t cid = conAt s cid
  courses : ∀ ci, ci ≠ x.c.idx → courseAt t x.con.cid ci = crsAt x.con ci

/-- The word is done and another follows in its clause: t is s with the parts x, and the slot at the next word. -/
structure Stepped (s t : State) (x : Cur) (n : Nat) : Prop extends Apart s t x where
  slot : alGet (coreAt t x.core).issue x.islot = some { x.iss with off := x.iss.off + n, waits := false }
  con : ∃ con, conAt t x.con.cid = some con ∧ con = { x.con with courses := con.courses }
  course : courseAt t x.con.cid x.c.idx = some { x.c with splits := alSet x.c.splits x.spi x.sp }

/-- The splits of a course that leaves its slot: a course that halts there sleeps no more (R231, R365). -/
def sleeping (x : Cur) (splits : List (Nat × Split)) : List (Nat × Split) :=
  if x.c.halted || x.c.stepOne || x.c.haltReq then endSleeps splits else splits

/-- The clause is over: t is s with the parts x, the slot empty, and the split at a word of a clause with a loop stack. Count flags
that later words of the clause had taken are given back (R145); a step under a debugger halts the course (R231), which ends
its sleeps (R365). -/
structure LeftAt (s t : State) (x : Cur) (pc off : Nat) (loops : List LoopRec) : Prop extends Apart s t x where
  slot : alGet (coreAt t x.core).issue x.islot = none
  con : ∃ con, conAt t x.con.cid = some con ∧ con = { cfRestore x with courses := con.courses }
  course : courseAt t x.con.cid x.c.idx = some { x.c with
    splits := sleeping x (alSet x.c.splits x.spi { x.sp with pc := pc, off := off, loops := loops })
    halted := x.c.halted || x.c.stepOne || x.c.haltReq, stepOne := false, haltReq := false }

/-- The same at the start of a clause. -/
def Left (s t : State) (x : Cur) (pc : Nat) (loops : List LoopRec) : Prop := LeftAt s t x pc 0 loops

/-- The clause is over and the split's entry is freed (R46). -/
structure Gone (s t : State) (x : Cur) : Prop extends Apart s t x where
  slot : alGet (coreAt t x.core).issue x.islot = none
  con : ∃ con, conAt t x.con.cid = some con ∧ con = { cfRestore x with courses := con.courses }
  course : courseAt t x.con.cid x.c.idx = some { x.c with
    splits := sleeping x (smDel x.c.splits x.spi)
    halted := x.c.halted || x.c.stepOne || x.c.haltReq, stepOne := false, haltReq := false }

/-- The parts x belong to s: its consort is there and not being torn down, and holds the course. -/
structure Belongs (s : State) (x : Cur) : Prop where
  con : (conAt s x.con.cid).isSome
  course : (crsAt x.con x.c.idx).isSome
  alive : x.con.dying = false

/-- The split goes on after the JOIN word that begins the clause at an address: at the next word, or where JOIN stands alone as its
clause falls through (R43, R337). -/
def AfterJoin (s : State) (x : Cur) (addr : Nat) (t : State) : Prop :=
  let alone := match load s (ctxOf s x.con).1 (ctxOf s x.con).2 addr 4 with
    | .ok b => ofBytes b / 2 ^ 27 = 2
    | .error _ => False
  (alone → t = fallOn s x addr (addr + 12)) ∧ (¬ alone → Belongs s x → LeftAt s t x addr 3 x.sp.loops)

/-- What an arrival at a join record leaves of the split that arrives with the parts x (R43, R44, R46, R47). -/
def Arrives (s : State) (x : Cur) (a : Arrival) (t : State) : Prop := match a with
  | .freed => t = freeSplit s x
  | .gone addr => if refills s x.con && onlySplit x then AfterJoin s { x with sp := { x.sp with m := 0, exec := 0, jrec := none } } addr t
      else t = freeSplit s x
  | .deferred d r => Belongs s x →
      Left s t { x with sp := { (atBoundary x.sp d.boundary) with m := d.m, exec := d.exec, jrec := some r } } d.pc d.loops
  | .merged m e parent addr => AfterJoin s { x with sp := { x.sp with m := m, exec := e, jrec := parent } } addr t

/-- Two states differ in memory only, and in the old bytes that loads may still return of it. -/
def OnlyMemory (s t : State) : Prop := t = { s with mem := t.mem, lines := t.lines, unseen := t.unseen }

/-- The canonical form of memory (MEMORY): the module's memory and the host's, by rising address, with no byte that an
unlisted address reads as. -/
def MemWf (s : State) : Prop := smWf 0 s.mem = true ∧ smWf 0 s.hostmem = true

/-- The scalar words (R325, R360, R361, R364, R367): destination, sources, and the result from them. -/
def scalarFn : Instr → Option (BitVec 6 × List (BitVec 6) × ((BitVec 6 → DWord) → DWord))
  | .sadd d a b => some (d, [a, b], fun r => r a + r b)
  | .ssub d a b => some (d, [a, b], fun r => r a - r b)
  | .sand d a b => some (d, [a, b], fun r => r a &&& r b)
  | .sor d a b => some (d, [a, b], fun r => r a ||| r b)
  | .sxor d a b => some (d, [a, b], fun r => r a ^^^ r b)
  | .sshl d a b => some (d, [a, b], fun r => r a <<< ((r b).toNat % 64))
  | .sshr d a b => some (d, [a, b], fun r => r a >>> ((r b).toNat % 64))
  | .ssha d a b => some (d, [a, b], fun r => (r a).sshiftRight ((r b).toNat % 64))
  | .smul d a b => some (d, [a, b], fun r => r a * r b)
  | .smulh d a b => some (d, [a, b], fun r => BitVec.ofInt 64 ((r a).toInt * (r b).toInt / 2 ^ 64))
  | .smin d a b => some (d, [a, b], fun r => if (r a).toInt < (r b).toInt then r a else r b)
  | .smax d a b => some (d, [a, b], fun r => if (r a).toInt < (r b).toInt then r b else r a)
  | .sminu d a b => some (d, [a, b], fun r => if (r a).toNat < (r b).toNat then r a else r b)
  | .smaxu d a b => some (d, [a, b], fun r => if (r a).toNat < (r b).toNat then r b else r a)
  | .sslt d a b => some (d, [a, b], fun r => if (r a).toInt < (r b).toInt then 1 else 0)
  | .ssltu d a b => some (d, [a, b], fun r => if (r a).toNat < (r b).toNat then 1 else 0)
  | .sseq d a b => some (d, [a, b], fun r => if r a = r b then 1 else 0)
  | .saddi d a imm => some (d, [a], fun r => r a + imm.signExtend 64)
  | .sandi d a imm => some (d, [a], fun r => r a &&& imm.signExtend 64)
  | .sori d a imm => some (d, [a], fun r => r a ||| imm.signExtend 64)
  | .sxori d a imm => some (d, [a], fun r => r a ^^^ imm.signExtend 64)
  | .sshli d a n => some (d, [a], fun r => r a <<< n.toNat)
  | .sshri d a n => some (d, [a], fun r => r a >>> n.toNat)
  | .sshai d a n => some (d, [a], fun r => (r a).sshiftRight n.toNat)
  | .smovi d imm => some (d, [], fun _ => imm.signExtend 64)
  | .slea d a b k => some (d, [a, b], fun r => r a + r b * BitVec.ofNat 64 (2 ^ k.toNat))
  | _ => none

/-- Only scalar registers of the course (and their etch marks) differ. -/
def OnlyS (c c' : Course) : Prop := c' = { c with s := c'.s, marks := c'.marks }

/-- Only scalar register r differs, and it holds v; s0 reads 0 whatever is written (R27). -/
def WritesS (c c' : Course) (r : Nat) (v : DWord) : Prop :=
  OnlyS c c' ∧ ∀ j, sGet c' j = if j = r ∧ r ≠ 0 then v else sGet c j

/-- The same for a Burin core (R252). -/
def WritesBS (x x' : Burin) (r : Nat) (v : DWord) : Prop :=
  x' = { x with regs := { x.regs with s := x'.regs.s } } ∧
    ∀ j, smGet 0 x'.regs.s j = if j = r ∧ r ≠ 0 then v else smGet 0 x.regs.s j

/-- Only predicate p differs, on the lanes named, where it holds the values; p0 reads true whatever is written (R27). -/
def WritesP (c c' : Course) (r : Nat) (lanes vals : Mask) : Prop :=
  c' = { c with p := c'.p } ∧
    ∀ j l, l < 64 → pGet c' j l = if j = r ∧ r ≠ 0 ∧ lanes.getLsbD l then vals.getLsbD l else pGet c j l

/-- The tests of BR and LBRK (R295). -/
def condHolds (cond : BitVec 4) (v : DWord) : Prop := match cond.toNat with
  | 0 => True
  | 1 => v.toInt = 0
  | 2 => v.toInt ≠ 0
  | 3 => v.toInt < 0
  | 4 => 0 ≤ v.toInt
  | 5 => v.toInt ≤ 0
  | _ => 0 < v.toInt

/-- An address some units away, modulo 2^64 (R295). -/
def IsTarget (target base unit : Nat) (off : BitVec 15) : Prop := (target : Int) = ((base : Int) + unit * off.toInt) % 2 ^ 64

/-- The state and the parts with which a word goes on that first abandons an etch (R176), if it does. -/
def abandoned (reason : Nat) (b : Bool) (s : State) (x : Cur) : State × Cur :=
  if b && etching x then
    (abandonEtch s x.con.cid reason, { x with con := { x.con with plate := { x.con.plate with mode := 0, reason := reason } } })
  else (s, x)

/-- The loop stack after a taken branch (R338): kept inside the innermost body, popped outside it. -/
def Jumps (target : Nat) (loops after : List LoopRec) : Prop := match loops with
  | [] => after = []
  | l :: ls => (l.start ≤ target ∧ target < l.stop ∧ after = loops) ∨
      (¬ (l.start ≤ target ∧ target < l.stop) ∧ l.stages = 1 ∧ after = ls)

/-- A taken branch that leaves a pipelined body (R338). -/
def JumpsBadly (target : Nat) (loops : List LoopRec) : Prop := match loops with
  | [] => False
  | l :: _ => ¬ (l.start ≤ target ∧ target < l.stop) ∧ l.stages ≠ 1

/-- The parts as EXIT leaves them before it frees the split: the handler, if any, is over (R219, R311). -/
def exiting (x : Cur) : Cur := { x with c := { x.c with inHandler := none }, sp := { x.sp with trap := none } }

/-- A Burin core whose slot's word is done and leaves x, in bundle order (R69): nothing else of the machine changes. -/
structure SlotStepped (s t : State) (b : Nat) (x : Burin) : Prop where
  rest : t = { s with burins := t.burins }
  others : ∀ c, c ≠ b → burinAt t c = burinAt s c
  core : burinAt t b = { x with pos := x.pos + 1 }

/-- A Burin core whose bundle is done and goes on at an address: the next bundle reads what this one wrote (R69). -/
structure BundleDone (s t : State) (b : Nat) (x : Burin) (pc : Nat) (loops : List LoopRec) : Prop where
  rest : t = { s with burins := t.burins }
  others : ∀ c, c ≠ b → burinAt t c = burinAt s c
  core : burinAt t b = { x with pc := pc, loops := loops, npc := none, bundle := [], pos := 0, src := x.regs }

/-- Does an error found of a store or load of a course wait, of a split with no greater index than one (R224, R225)? -/
def ErrorFirst (s : State) (con : Consort) (c : Course) (spi : Nat) : Bool :=
  (coreAt s con.core).storeErrs.any fun e => e.cid == con.cid && e.ci == c.idx && e.gen == c.gen && decide (e.sp ≤ spi)

/-! ## Lane results (R378 to R403) -/

/-- What a lane-class instruction that writes a vector register does: its fields, its legal form, the registers it reads
as sources, the width of its result, and the result of one active lane. -/
structure LaneSpec where
  p : P
  form : Form
  reads : List Nat
  w : Nat
  lane : State → Cur → Nat → LaneOut

/-- A result from A, and from B and C where they are in use, each after its MOD bit; the lowest-numbered poisoned source
register gives the tag (R222, R378). -/
def fromOperands (p : P) (form : Form) (useB useC : Bool) (op : Cur → Nat → Nat → Nat → Nat × Flags) : LaneSpec :=
  let ty := p.ty.toNat
  let w := regW ty
  { p := p, form := form, reads := readsOf p true useB useC, w := w
    lane := fun s x l =>
      let a := srcVal x w p.a.toNat l
      let b := if useB then operandB s x p l else (0, 0)
      let c := if useC then srcVal x w p.c.toNat l else (0, 0)
      let r := op x (modNeg ty (p.mod.getLsbD 0) a.1) (modNeg ty (p.mod.getLsbD 1) b.1) (modNeg ty (p.mod.getLsbD 2) c.1)
      ⟨l, r.1, r.2, firstTag ([(p.a.toNat, a.2)] ++ (if useB && p.bk == 0 then [(p.b.toNat, b.2)] else []) ++
        (if useC then [(p.c.toNat, c.2)] else []))⟩ }

/-- An integer result narrowed to its type, else a float result with the flush of the course's NBV (R28, R81). -/
def intOrFloat (p : P) (x : Cur) (i : Int) (f : FFmt → Nat × Flags) : Nat × Flags := match tyFmt p.ty.toNat with
  | some g => nbvFlush (nbvOf x.c) g (f g)
  | none => (narrow p.ty.toNat (p.sat == 1) i, 0)

def rmX (p : P) (x : Cur) : Rm := rmOf x.c p.rm.toNat

/-- The forms of arithmetic on integers and floats, on integers alone, and on bits (R63, R379). -/
def arithForm (p : P) (rm sat : Bool) (mods : BitVec 3) (useC : Bool) : Form :=
  stdForm p (setW ++ setF) (rm && isF p) sat (if isF p then mods else 0) true useC
def bitForm (p : P) (tys : List Nat) (useB useC : Bool) : Form := stdForm p tys false false 0 useB useC

/-- The lane results of V instructions of two or three operands. -/
def laneArith : Instr → Option LaneSpec
  | .vadd p => some (fromOperands p (arithForm p true true 3 false) true false fun x a b _ =>
      intOrFloat p x (intOf p.ty.toNat a + intOf p.ty.toNat b) fun f => fAdd f (rmX p x) (p.sat == 1) a b)
  | .vsub p => some (fromOperands p (arithForm p true true 3 false) true false fun x a b _ =>
      intOrFloat p x (intOf p.ty.toNat a - intOf p.ty.toNat b) fun f =>
        fAdd f (rmX p x) (p.sat == 1) a (if isNaN f b then b else fNeg f b))
  | .vmul p => some (fromOperands p (arithForm p true true 3 false) true false fun x a b _ =>
      intOrFloat p x (intOf p.ty.toNat a * intOf p.ty.toNat b) fun f => fMul f (rmX p x) (p.sat == 1) a b)
  | .vmad p => some (fromOperands p (arithForm p true true 7 true) true true fun x a b c =>
      intOrFloat p x (intOf p.ty.toNat a * intOf p.ty.toNat b + intOf p.ty.toNat c) fun f =>
        fMad f (rmX p x) (p.sat == 1) a b c)
  | .vdiv p => some (fromOperands p (arithForm p true true 3 false) true false fun x a b _ => match tyFmt p.ty.toNat with
      | some f => nbvFlush (nbvOf x.c) f (fDiv f (rmX p x) (p.sat == 1) a b)
      | none => (if intOf p.ty.toNat b = 0 then 2 ^ tyBits p.ty.toNat - 1
          else narrow p.ty.toNat (p.sat == 1) (Int.tdiv (intOf p.ty.toNat a) (intOf p.ty.toNat b)), 0))
  | .vmin p => some (fromOperands p (arithForm p false false 3 false) true false fun x a b _ => match tyFmt p.ty.toNat with
      | some f => nbvFlush (nbvOf x.c) f (fMinMax f false a b)
      | none => (if intOf p.ty.toNat a < intOf p.ty.toNat b then a else b, 0))
  | .vmax p => some (fromOperands p (arithForm p false false 3 false) true false fun x a b _ => match tyFmt p.ty.toNat with
      | some f => nbvFlush (nbvOf x.c) f (fMinMax f true a b)
      | none => (if intOf p.ty.toNat a < intOf p.ty.toNat b then b else a, 0))
  | .vmulh p => some (fromOperands p (bitForm p setW true false) true false fun _ a b _ =>
      (wrapTo (tyBits p.ty.toNat) (intOf p.ty.toNat a * intOf p.ty.toNat b / 2 ^ tyBits p.ty.toNat), 0))
  | _ => none

/-- The lane results of V instructions on bits: the width is 32 or 64. -/
def laneBitwise : Instr → Option LaneSpec
  | .vand p => some (fromOperands p (bitForm p setN true false) true false fun _ a b _ =>
      ((a &&& b) &&& (2 ^ tyBits p.ty.toNat - 1), 0))
  | .vor p => some (fromOperands p (bitForm p setN true false) true false fun _ a b _ =>
      ((a ||| b) &&& (2 ^ tyBits p.ty.toNat - 1), 0))
  | .vxor p => some (fromOperands p (bitForm p setN true false) true false fun _ a b _ =>
      ((a ^^^ b) &&& (2 ^ tyBits p.ty.toNat - 1), 0))
  | .vandn p => some (fromOperands p (bitForm p setN true false) true false fun _ a b _ =>
      ((a &&& (b ^^^ (2 ^ tyBits p.ty.toNat - 1))) &&& (2 ^ tyBits p.ty.toNat - 1), 0))
  | .vorn p => some (fromOperands p (bitForm p setN true false) true false fun _ a b _ =>
      ((a ||| (b ^^^ (2 ^ tyBits p.ty.toNat - 1))) &&& (2 ^ tyBits p.ty.toNat - 1), 0))
  | .vxnor p => some (fromOperands p (bitForm p setN true false) true false fun _ a b _ =>
      (((a ^^^ b) ^^^ (2 ^ tyBits p.ty.toNat - 1)) &&& (2 ^ tyBits p.ty.toNat - 1), 0))
  | .vshl p => some (fromOperands p (bitForm p setW true false) true false fun _ a b _ =>
      (a * 2 ^ (b % tyBits p.ty.toNat) % 2 ^ tyBits p.ty.toNat, 0))
  | .vshr p => some (fromOperands p (bitForm p setW true false) true false fun _ a b _ =>
      (a / 2 ^ (b % tyBits p.ty.toNat) % 2 ^ tyBits p.ty.toNat, 0))
  | .vsha p => some (fromOperands p (bitForm p setW true false) true false fun _ a b _ =>
      (wrapTo (tyBits p.ty.toNat) (signedOf (tyBits p.ty.toNat) a / 2 ^ (b % tyBits p.ty.toNat)), 0))
  | .vrol p => some (fromOperands p (bitForm p setW true false) true false fun _ a b _ =>
      ((a * 2 ^ (b % tyBits p.ty.toNat) ||| a / 2 ^ (tyBits p.ty.toNat - b % tyBits p.ty.toNat)) % 2 ^ tyBits p.ty.toNat, 0))
  | .vpopc p => some (fromOperands p (bitForm p setN false false) false false fun _ a _ _ =>
      (((List.range (tyBits p.ty.toNat)).filter fun i => a.testBit i).length, 0))
  | .vclz p => some (fromOperands p (bitForm p setN false false) false false fun _ a _ _ =>
      (((List.range (tyBits p.ty.toNat)).find? fun i => a.testBit (tyBits p.ty.toNat - 1 - i)).getD (tyBits p.ty.toNat), 0))
  | .vctz p => some (fromOperands p (bitForm p setN false false) false false fun _ a _ _ =>
      (((List.range (tyBits p.ty.toNat)).find? fun i => a.testBit i).getD (tyBits p.ty.toNat), 0))
  | .vbrev p => some (fromOperands p (bitForm p setN false false) false false fun _ a _ _ =>
      ((List.range (tyBits p.ty.toNat)).foldl (fun r i => if a.testBit i then r + 2 ^ (tyBits p.ty.toNat - 1 - i) else r) 0, 0))
  | .vbfe p => some (fromOperands p (bitForm p setN true false) true false fun _ a b _ =>
      ((if tyBits p.ty.toNat ≤ b % 64 then 0 else a / 2 ^ (b % 64)) % 2 ^ min (b / 256 % 128) (tyBits p.ty.toNat), 0))
  | .vbfi p => some (fromOperands p (bitForm p setN true true) true true fun _ a b c =>
      ((a &&& (((2 ^ min (b / 256 % 128) (tyBits p.ty.toNat) - 1) * 2 ^ (b % 64) % 2 ^ tyBits p.ty.toNat) ^^^ (2 ^ tyBits p.ty.toNat - 1)))
        ||| (c % 2 ^ min (b / 256 % 128) (tyBits p.ty.toNat) * 2 ^ (b % 64) % 2 ^ tyBits p.ty.toNat), 0))
  | _ => none

/-- The function instructions (R397), with the types each takes. -/
def functionOf : Instr → Option (P × Fn × List Nat)
  | .vrcp p => some (p, .rcp, [8, 9, 10])
  | .vrsq p => some (p, .rsq, [8, 9, 10])
  | .vsqrt p => some (p, .sqrt, [8, 9, 10, 11])
  | .vexp2 p => some (p, .exp2, [8, 9, 10])
  | .vlog2 p => some (p, .log2, [8, 9, 10])
  | .vsin p => some (p, .sin, [8, 9, 10])
  | .vcos p => some (p, .cos, [8, 9, 10])
  | .vtanh p => some (p, .tanh, [8, 9, 10])
  | _ => none

def laneFunction (i : Instr) : Option LaneSpec := (functionOf i).map fun (p, fn, tys) =>
  fromOperands p (stdForm p tys (fn == .sqrt) false 1 false false) false false fun x a _ _ => match tyFmt p.ty.toNat with
    | some f => evalFn fn f (rmX p x) (nbvOf x.c) a
    | none => (0, 0)

/-- The lane results of moves, selection, conversion, widening sums and classes. -/
def laneMove : Instr → Option LaneSpec
  | .vmov p => some
      { p := p, reads := readsOf p false true false, w := regW p.ty.toNat
        form := { stdForm p setN false false 0 true false with
          useA := false, regs := (p.d.toNat, regW p.ty.toNat) :: (readsOf p false true false).map fun r => (r, regW p.ty.toNat) }
        lane := fun s x l => ⟨l, (operandB s x p l).1, 0, (operandB s x p l).2⟩ }
  | .vbcast p => some
      { p := p, reads := [p.a.toNat], w := regW p.ty.toNat
        form := { stdForm p setN false false 0 true false with bks := [1, 2] }
        lane := fun s x l =>
          let v := srcVal x (regW p.ty.toNat) p.a.toNat ((operandB s x p l).1 % 2 ^ 32 % x.c.width)
          ⟨l, v.1, 0, v.2⟩ }
  | .vperm p => some
      { p := p, reads := [p.a.toNat, p.b.toNat], w := regW p.ty.toNat
        form := { stdForm p setN false false 0 true false with
          bks := [0], regs := [(p.d.toNat, regW p.ty.toNat), (p.a.toNat, regW p.ty.toNat), (p.b.toNat, regW p.ty.toNat)] }
        lane := fun _ x l =>
          let i := srcVal x (regW p.ty.toNat) p.b.toNat l
          let v := srcVal x (regW p.ty.toNat) p.a.toNat (i.1 % 64 % x.c.width)
          ⟨l, v.1, 0, firstTag [(p.a.toNat, v.2), (p.b.toNat, i.2)]⟩ }
  | .vsel p => some
      { p := p, reads := readsOf p true true false, w := regW p.ty.toNat
        form := stdForm p setN false false 7 true false
        lane := fun s x l =>
          let v := if pGet x.c p.mod.toNat l then srcVal x (regW p.ty.toNat) p.a.toNat l else operandB s x p l
          ⟨l, v.1, 0, v.2⟩ }
  | .vcvt p fn => some
      { p := p, reads := [p.a.toNat], w := regW p.ty.toNat
        form := { stdForm p (List.range 15) (!tyInt fn.toNat || !tyInt p.ty.toNat) true (if tyInt fn.toNat then 0 else 1) false false with
          regs := [(p.d.toNat, regW p.ty.toNat), (p.a.toNat, regW fn.toNat)] }
        lane := fun _ x l =>
          let a := srcVal x (regW fn.toNat) p.a.toNat l
          let r := convert fn.toNat p.ty.toNat (rmX p x) (p.sat == 1) (nbvOf x.c) (modNeg fn.toNat (p.mod.getLsbD 0) a.1)
          ⟨l, r.1, r.2, a.2⟩ }
  | .vfclass p => some
      { p := p, reads := [p.a.toNat], w := 32
        form := { stdForm p (setF ++ setQ) false false 0 false false with regs := [(p.d.toNat, 32), (p.a.toNat, regW p.ty.toNat)] }
        lane := fun _ x l =>
          let a := srcVal x (regW p.ty.toNat) p.a.toNat l
          ⟨l, match tyFmt p.ty.toNat with
            | some g => 2 ^ fClass g (a.1 % 2 ^ tyBits p.ty.toNat)
            | none => 0, 0, a.2⟩ }
  | .vwacc p => some
      { p := p, reads := [p.a.toNat], w := 32
        form := { stdForm p [0, 1, 4, 5, 8, 9] (isF p) (!isF p) (if isF p then 1 else 0) false false with other := decide (p.d.toNat < 248) }
        lane := fun _ x l =>
          let a := srcLane x p.a.toNat l
          let d := vGet x.c p.d.toNat l
          let r := wacc p x (a.val.toNat % 2 ^ tyBits p.ty.toNat) d.val.toNat
          ⟨l, r.1, r.2 ||| (match tyFmt p.ty.toNat with
            | some g => sigFlag (g.unpack (a.val.toNat % 2 ^ tyBits p.ty.toNat))
            | none => 0), firstTag [(p.a.toNat, a.tag), (p.d.toNat, d.tag)]⟩ }
  | .vmovi p => some
      { p := p, reads := [], w := regW p.ty.toNat
        form := { stdForm p setN false false 0 true false with
          bks := [2], other := decide (p.a.toNat * 16 < regW p.ty.toNat) && decide (p.d.toNat < 248), regs := [(p.d.toNat, regW p.ty.toNat)] }
        lane := fun _ x l =>
          let old := (vVal x.c p.d.toNat l).toNat + (if regW p.ty.toNat = 64 then (vVal x.c (p.d.toNat + 1) l).toNat * 2 ^ 32 else 0)
          let at_ := 2 ^ (16 * p.a.toNat)
          ⟨l, old - old / at_ % 2 ^ 16 * at_ + imm16 p * at_, 0, 0⟩ }
  | _ => none

/-- The value that a result gives a 32-bit lane; a poisoned lane reads 0 (R221). -/
def laneLo (o : LaneOut) : LaneVal := ⟨if o.tag = 0 then BitVec.ofNat 32 o.val else 0, o.tag⟩
def laneHi (o : LaneOut) : LaneVal := ⟨if o.tag = 0 then BitVec.ofNat 32 (o.val / 2 ^ 32) else 0, o.tag⟩

/-- What a lane-class result leaves (R27, R48, R82, R378): register d, or the aligned pair at d, on the lanes of the
results only; a queue register is pushed instead, and each source queue popped once; NSTAT gains the flags raised. -/
structure WritesV (x x' : Cur) (d w : Nat) (reads : List Nat) (outs : List LaneOut) : Prop where
  parts : x' = { x with con := x'.con, c := x'.c }
  course : x'.c = { x.c with v := x'.c.v, nstat := x.c.nstat ||| (outFlags outs).setWidth 64 }
  reg : d < 248 → x'.con = popQueues x.con (qWidth x.c) reads ∧ ∀ r l, l < 64 → vGet x'.c r l =
    match outs.find? fun o => o.lane == l with
    | some o => if r = d then laneLo o else if w = 64 ∧ r = d + 1 then laneHi o else vGet x.c r l
    | none => vGet x.c r l
  queue : 248 ≤ d → x'.c.v = x.c.v ∧
    x'.con = pushQueue (popQueues x.con (qWidth x.c) reads) (d - 248) (pushTurn x) x.c.width (outs.map fun o => (o.lane, laneLo o))

/-- The predicate logic instructions (R353): whether B is read, and the result of a lane. -/
def predFn : Instr → Option (P × Bool × (Bool → Bool → Bool))
  | .pand p => some (p, true, fun a b => a && b)
  | .por p => some (p, true, fun a b => a || b)
  | .pxor p => some (p, true, fun a b => a != b)
  | .pandn p => some (p, true, fun a b => a && !b)
  | .pnot p => some (p, false, fun a _ => !a)
  | .pmov p => some (p, false, fun a _ => a)
  | _ => none

/-- The predicate reductions (R352): the result from EXEC and from the active lanes whose predicate holds. -/
def reduceFn : Instr → Option (P × (Mask → Mask → DWord))
  | .pany p => some (p, fun _ m => if m = 0 then 0 else 1)
  | .pall p => some (p, fun e m => if m = e then 1 else 0)
  | .pbal p => some (p, fun _ m => m)
  | _ => none

/-- The values of active lanes of A, in increasing lane order, for a scan or a reduction (R400). -/
def scanValues (p : P) (x : Cur) : List Nat :=
  (lanesOf (active x p) x.c.width).map fun l => (srcVal x (regW p.ty.toNat) p.a.toNat l).1 % 2 ^ tyBits p.ty.toNat

/-- A scan's first value: of a float a NaN is the canonical one (R74), and a value is flushed as the course's NBV says (R89). -/
def scanFirst (p : P) (x : Cur) (v : Nat) : Nat := match tyFmt p.ty.toNat with
  | some f => if isNaN f v then f.canon else (nbvFlush (nbvOf x.c) f (v, 0)).1
  | none => v

/-- The inclusive scan's value at place k (R400): the operation over the elements 0 to k, from the left. -/
def scanValue (p : P) (op : Nat) (x : Cur) (k : Nat) : Nat :=
  ((scanValues p x).drop 1 |>.take k).foldl (fun a v => (scanStep p op x a v).1) (scanFirst p x ((scanValues p x).getD 0 0))

/-- The outcome of an integer comparison (R385). -/
def intCmp (fn : Nat) (a b : Int) : Bool := match fn with
  | 0 => decide (a = b)
  | 1 => decide (a ≠ b)
  | 2 => decide (a < b)
  | 3 => decide (a ≤ b)
  | 4 => decide (b < a)
  | _ => decide (b ≤ a)

/-! ## Memory -/

/-- Does a store of n bytes at an address, translated as s stands, reach byte a of the module's memory? -/
def StoresTo (s : State) (ctx : Nat × Nat) (va n a : Nat) : Prop :=
  ∃ l key, translate s ctx.1 ctx.2 .write va = .ok l ∧ l.host = false ∧ placeOf s (l.frame + va % 4096) = .mem key ∧
    key ≤ a ∧ a < key + n

/-- The same for the host's memory. -/
def StoresToHost (s : State) (ctx : Nat × Nat) (va n a : Nat) : Prop :=
  ∃ l, translate s ctx.1 ctx.2 .write va = .ok l ∧ l.host = true ∧ l.frame + va % 4096 ≤ a ∧ a < l.frame + va % 4096 + n

/-- Does a store at an address reach this package's pose mailboxes? -/
def StoresToPose (s : State) (ctx : Nat × Nat) (va : Nat) : Prop :=
  ∃ l off, translate s ctx.1 ctx.2 .write va = .ok l ∧ l.host = false ∧ placeOf s (l.frame + va % 4096) = .reg off

/-- Stores of n bytes at the addresses named change memory, the host's memory, pose mailboxes, cached translations and what a
write has replaced only, and no byte outside those stored; of a head no more than its poses, and nothing where no store reaches
a mailbox. -/
structure StoresOnly (s t : State) (ctx : Nat × Nat) (vas : List Nat) (n : Nat) : Prop where
  rest : t = { s with mem := t.mem, lines := t.lines, hostmem := t.hostmem, heads := t.heads, tlb := t.tlb, unseen := t.unseen }
  poses : ∀ h, headAt t h = { (headAt s h) with staged := (headAt t h).staged, committed := (headAt t h).committed }
  heads : (∀ va ∈ vas, ¬ StoresToPose s ctx va) → t.heads = s.heads
  mem : ∀ a, (∀ va ∈ vas, ¬ StoresTo s ctx va n a) → smGet 0 t.mem a = smGet 0 s.mem a
  host : ∀ a, (∀ va ∈ vas, ¬ StoresToHost s ctx va n a) → smGet 0 t.hostmem a = smGet 0 s.hostmem a

/-- The cached translations of t may differ from those of s, and nothing else. -/
def OnlyTlb (s t : State) : Prop := t = { s with tlb := t.tlb }

/-- t is s after a reader's loads of n bytes at the addresses named: cached translations may differ, and a write that they
found done is seen by all from then on (R115, R119). -/
structure Looked (s t : State) (r : Reader) (ctx : Nat × Nat) (vas : List Nat) (n : Nat) : Prop where
  rest : t = { s with tlb := t.tlb, unseen := t.unseen }
  unseen : ∀ u, u ∈ t.unseen ↔ u ∈ s.unseen ∧ (findsOld s r u = true ∨ ∀ va ∈ vas, ∀ l p,
    translate s ctx.1 ctx.2 .read va = .ok l → spotOf s l va = some p → u.reached p.1 p.2 n = false)

/-- t is s after reads of n bytes at the addresses named that find every write done, which all see from then on. -/
structure Settled (s t : State) (ctx : Nat × Nat) (vas : List Nat) (n : Nat) : Prop where
  rest : t = { s with tlb := t.tlb, unseen := t.unseen }
  unseen : ∀ u, u ∈ t.unseen ↔ u ∈ s.unseen ∧ ∀ va ∈ vas, ∀ l p,
    translate s ctx.1 ctx.2 .read va = .ok l → spotOf s l va = some p → u.reached p.1 p.2 n = false

/-- A reader's reads of spans, by address and number of bytes, find a write done. -/
def FindsDone (s : State) (e : Unseen) (r : Reader) (ctx : Nat × Nat) (spans : List (Nat × Nat)) : Prop :=
  findsOld s r e = false ∧ ∃ a ∈ spans, ∃ i, i < a.2 ∧ ∃ l p, translate s ctx.1 ctx.2 .read ((a.1 + i) % 2 ^ 64) = .ok l ∧
    spotOf s l ((a.1 + i) % 2 ^ 64) = some p ∧ e.reached p.1 p.2 1 = true

/-- t is s after a reader's reads of spans: what they found done is seen by all from then on. -/
def ReadSpans (s t : State) (r : Reader) (ctx : Nat × Nat) (spans : List (Nat × Nat)) : Prop :=
  t = { s with unseen := t.unseen } ∧ ∀ e, e ∈ t.unseen ↔ e ∈ s.unseen ∧ ¬ FindsDone s e r ctx spans

/-- What TLBINV of a kind leaves (R111, R220): the translations that it covers are gone, of a PASID, of the page that holds an
address, or all; the writes made through them are seen by all; and nothing else changes. -/
structure Invalidated (s t : State) (kind pasid va : Nat) : Prop where
  rest : t = { s with tlb := t.tlb, unseen := t.unseen }
  ofPasid : kind = 0 → t.tlb = s.tlb.filter fun e => e.pasid != pasid
  all : kind = 2 → t.tlb = []
  ofPage : kind = 1 → ∀ e, e ∈ t.tlb ↔ e ∈ s.tlb ∧ ¬ (e.pasid = pasid ∧ e.vframe ≤ va / 4096 ∧ va / 4096 < e.vframe + e.frames)
  writes : ∀ u, u ∈ t.unseen ↔ u ∈ s.unseen ∧ ∀ w ∈ u.via, kind ≠ 2 ∧ (w.1 = pasid → kind ≠ 0 ∧ w.2 / 4096 ≠ va / 4096 ∧
    ∀ e ∈ s.tlb, e.pasid = pasid → e.vframe ≤ va / 4096 → va / 4096 < e.vframe + e.frames →
      ¬ (e.vframe ≤ w.2 / 4096 ∧ w.2 / 4096 < e.vframe + e.frames))

/-- What may be found for a while of n bytes that a writer wrote over: what was there, or what is still found of them. -/
def Replaced (s : State) (w : Writer) (host : Bool) (key n : Nat) (u : Unseen) : Prop :=
  w ∈ u.writers ∧ u.host = host ∧ u.key = key ∧
    (u.old = (List.range n).map (fun i => smGet 0 (if host then s.hostmem else s.mem) (key + i)) ∨
      ∃ v ∈ s.unseen, v.host = host ∧ v.key = key ∧ u.old = v.old)

/-- Writes that a test names are seen from then on by the agents of a scope, by all when it is the system, and nothing else of
the machine changes. -/
def Shown (s t : State) (i : Inst) (f : Unseen → Bool) : Prop :=
  t = { s with unseen := t.unseen } ∧ ∀ v, v ∈ t.unseen ↔
    (v ∈ s.unseen ∧ f v = false) ∨
    (i ≠ .system ∧ ∃ u ∈ s.unseen, f u = true ∧ v = { u with known := v.known } ∧
      v.known = if i ∈ u.known then u.known else i :: u.known)

/-- Was a write made by a step-tagged copy of one of some consorts (R129)? -/
def stepCopied (cons : List Consort) (u : Unseen) : Bool := u.writers.any fun w => match w with
  | .copy cid _ true => cons.any (·.cid == cid)
  | _ => false

/-- v is TRAPV of POISON for the tags of active lanes (R172): the reason of the lowest poisoned lane, whether it is in the upper
half, the poisoned lanes of that half, and 0 elsewhere. -/
def PoisonWord (v : DWord) (tags : List (Nat × Byte)) : Prop :=
  ∀ pre l t post, tags = pre ++ (l, t) :: post → (∀ u ∈ pre, u.2 = 0) → t ≠ 0 →
    v.extractLsb' 0 8 = t ∧ v.getLsbD 8 = decide (32 ≤ l) ∧ v.extractLsb' 9 23 = 0 ∧
    ∀ k, k < 32 → (v.getLsbD (32 + k) = true ↔ ∃ u ∈ tags, u.1 = (if 32 ≤ l then 32 + k else k) ∧ u.2 ≠ 0)

/-- Every active lane's access of n bytes succeeds in its checks: no poisoned operand, aligned, translated (R329). -/
def AccessOk (s : State) (ctx : Nat × Nat) (a : Acc) (n : Nat) (tags : List (Nat × Byte)) (accs : List LaneAcc) : Prop :=
  (∀ u ∈ tags, u.2 = 0) ∧ (∀ c ∈ accs, c.va % n = 0) ∧ ∀ c ∈ accs, ∃ l, translate s ctx.1 ctx.2 a c.va = .ok l

/-- The address of a lane's access (R328): the base register and the lane's offset, modulo 2^64. -/
def laneVa (x : Cur) (p : P) (l : Nat) : Nat := ((sGet x.c p.a.toNat).toNat + (offLane x p l).1) % 2 ^ 64

/-- What a long-latency instruction has still to write: register d, the pair at d, or the entries of a queue for a course of
cw lanes, from values by lane. -/
structure BoundFor (w : PendWrite) (d width cw : Nat) (lanes : List Nat) (val : Nat → Option Nat) : Prop where
  scalars : w.sregs = [] ∧ w.scalars = [] ∧ w.reqs = 0
  reg : d < 248 → w.vregs = (if width = 64 then [d, d + 1] else [d]) ∧ w.push = none ∧
    ∀ l ∈ lanes, ∀ v, val l = some v → alGet w.lanes (d * 64 + l) = some ⟨BitVec.ofNat 32 v, 0⟩ ∧
      (width = 64 → alGet w.lanes ((d + 1) * 64 + l) = some ⟨BitVec.ofNat 32 (v / 2 ^ 32), 0⟩)
  queue : 248 ≤ d → w.vregs = [] ∧ w.lanes = [] ∧ ∃ outs, w.push = some (d - 248, queueEntries cw outs) ∧
    ∀ l ∈ lanes, ∀ v, val l = some v → alGet outs l = some ⟨BitVec.ofNat 32 v, 0⟩

def dataW (p : P) : Nat := if tyBits p.ty.toNat = 64 then 64 else 32

/-- What an atomic writes, from the old value and its operands (R289). -/
def atomResult (ty fn m d : Nat) : Nat := match fn with
  | 0 => (m + d) % 2 ^ tyBits ty
  | 1 => if intOf ty d < intOf ty m then d else m
  | 2 => if intOf ty m < intOf ty d then d else m
  | 3 => if d < m then d else m
  | 4 => if m < d then d else m
  | 5 => m &&& d
  | 6 => m ||| d
  | 7 => m ^^^ d
  | _ => d

/-! ## Tiles, engines and flags -/

/-- The atomics of a course's lanes in an order (R113), translated as things stood at the word (t): the state after them, and what each
lane got: the old value, the flags, and whether it wrote; nothing where the data is uncorrectable. -/
def atomRun (t : State) (con : Consort) (ci : Nat) (ctx : Nat × Nat) (scope ty fn : Nat) (rm : Rm) (data expd : Nat → Nat) :
    State → List LaneAcc → State × List (Nat × Option (Nat × Flags × Bool))
  | s, [] => (s, [])
  | s, c :: cs =>
    let r := atomOne t s con ci ctx scope ty fn rm c.va (data c.lane) (expd c.lane)
    let q := atomRun t con ci ctx scope ty fn rm data expd r.1 cs
    (q.1, (c.lane, r.2) :: q.2)

/-- A legal matrix command (R149, R345 to R350, R362): its fields, windows, tiles of the consort with OWNER engines, types,
shapes and bank groups; and the command it is. -/
def MatrixLegal (s : State) (x : Cur) : Instr → P → CmdKind → Prop
  | .mma p' fn, p, k => p' = p ∧ (fieldsOk p { d := true, a := true, b := true, c := true, ty := true, sat := true } = true) ∧
      p.d.toNat < 8 ∧ p.d.toNat < x.con.nacc ∧ p.a.toNat < 64 ∧ p.b.toNat < 64 ∧ p.ty.toNat ∈ [0, 8, 9, 12, 13, 14, 15] ∧
      (p.sat = 0 ∨ p.ty.toNat = 0 ∨ p.ty.toNat = 15) ∧
      ∃ ta tb, tileAt x.con p.a.toNat = some ta ∧ tileAt x.con p.b.toNat = some tb ∧ ta.own = true ∧ tb.own = true ∧
        ta.ty = p.ty.toNat ∧ tb.ty = (if p.ty.toNat = 15 then 0 else p.ty.toNat) ∧ ta.cols = 16 * 2 ^ fn.toNat ∧
        tb.rows = 16 * 2 ^ fn.toNat ∧ ta.grp ≠ tb.grp ∧
        k = .mma p.ty.toNat (16 * 2 ^ fn.toNat) (p.sat == 1) p.d.toNat p.a.toNat p.b.toNat
  | .mblk p', p, k => p' = p ∧ (fieldsOk p { d := true, a := true, b := true, c := true, ty := true } = true) ∧
      p.d.toNat < 8 ∧ p.d.toNat < x.con.nacc ∧ p.a.toNat < 64 ∧ p.b.toNat < 64 ∧ p.ty.toNat ∈ [12, 13, 14] ∧
      ∃ ta tb, tileAt x.con p.a.toNat = some ta ∧ tileAt x.con p.b.toNat = some tb ∧ ta.own = true ∧ tb.own = true ∧
        ta.ty = p.ty.toNat ∧ tb.ty = p.ty.toNat ∧ ta.cols = 16 ∧ tb.rows = 16 ∧ ta.grp ≠ tb.grp ∧
        k = .mblk p.ty.toNat p.d.toNat p.a.toNat p.b.toNat
  | .scla p', p, k => p' = p ∧ (fieldsOk p { d := true, a := true, b := true, c := true } = true) ∧
      p.d.toNat < 8 ∧ p.d.toNat < x.con.nacc ∧ p.a.toNat < 8 ∧ p.a.toNat < x.con.nacc ∧ p.b.toNat < 64 ∧
      (∃ t, tileAt x.con p.b.toNat = some t ∧ t.own = true ∧ t.ty = 4 ∧ t.rows = 2 ∧ t.cols = 128) ∧
      k = .scla p.d.toNat p.a.toNat p.b.toNat
  | .mzero p', p, k => p' = p ∧ (fieldsOk p { d := true, c := true } = true) ∧ p.d.toNat < 8 ∧ p.d.toNat < x.con.nacc ∧
      k = .mzero p.d.toNat
  | .mdrain p', p, k => p' = p ∧ (fieldsOk p { d := true, a := true, c := true, ty := true, sat := true } = true) ∧ p.d.toNat < 64 ∧
      p.a.toNat < 8 ∧ p.a.toNat < x.con.nacc ∧ p.ty.toNat ∈ [2, 8, 9, 10] ∧ (p.sat = 0 ∨ p.ty.toNat = 8 ∨ p.ty.toNat = 9) ∧
      (∃ t, tileAt x.con p.d.toNat = some t ∧ t.own = true ∧ t.ty = p.ty.toNat) ∧
      k = .mdrain p.d.toNat p.a.toNat p.ty.toNat (p.sat == 1)
  | .mdrainPeer p', p, k => p' = p ∧ PeerLegal s x p ∧ bits (sGet x.c p.b.toNat).toNat 8 8 = 0 ∧
      k = .peer false p.d.toNat p.a.toNat (sGet x.c p.b.toNat)
  | .mdrainOpeer p', p, k => p' = p ∧ PeerLegal s x p ∧ k = .peer true p.d.toNat p.a.toNat (sGet x.c p.b.toNat)
  | _, _, _ => False
where
  PeerLegal (s : State) (x : Cur) (p : P) : Prop :=
    (fieldsOk p { d := true, a := true, b := true, c := true, ty := true, bk := true } = true) ∧ p.d.toNat < 8 ∧ p.a.toNat < 8 ∧
      p.a.toNat < x.con.nacc ∧ p.b.toNat < 64 ∧ p.bk = 1 ∧ p.ty = 10 ∧ onlyBits (sGet x.c p.b.toNat) (2 ^ 23 - 1) = true ∧
      (launchOf s x.con).gangSize ≠ 0 ∧ bits (sGet x.c p.b.toNat).toNat 0 8 < gangTotal (launchOf s x.con)

/-- The completion flag of a matrix command: a count flag of the consort, or none with 0xFF (R345). -/
def FlagLegal (x : Cur) (p : P) : Prop := p.c = 0xFF ∨ (p.c.toNat < 64 ∧ p.c.toNat < x.con.nflag)

/-- k' is k with one more command, last in queue q, and the next sequence number. -/
def Queued (k k' : Core) (q : Nat) (c : Cmd) : Prop :=
  k' = { k with chans := k'.chans, matq := k'.matq, seq := k.seq + 1 } ∧ queueAt k' q = queueAt k q ++ [c] ∧ c.seq = k.seq ∧
    c.begun = false ∧ c.done = false ∧ c.todo = [] ∧ ∀ j, j < 5 → j ≠ q → queueAt k' j = queueAt k j

/-- A command as it joins a queue: issued now by the course at x, with its NBV, and nothing of it done (R132, R133). -/
def fresh (s : State) (x : Cur) (seq : Nat) (kind : CmdKind) (flag follows : Option Nat) : Cmd :=
  { seq := seq, issued := s.tick, cid := x.con.cid, ci := some x.c.idx, kind := kind, nbv := x.c.nbv.toNat % 256, flag := flag
    follows := follows, begun := false, todo := [], payload := [], failed := false, flags := 0, entry := none, done := false }

/-- The words of a driver course that an etch records, and its outcome: outside an etch nothing is recorded. -/
def Recorded (s : State) (x : Cur) (tiles : List Nat) (kind high : Nat) (s' : State) (x' : Cur) : Prop :=
  if etching x then (s', x') = recordOne s x tiles kind high else s' = s ∧ x' = x

/-- The parts of a core that hold Chord and Stipple work alone differ. -/
def OnlyUnits (k k' : Core) : Prop := k' = { k with
  openTiles := k'.openTiles, closedTiles := k'.closedTiles, results := k'.results, nextTile := k'.nextTile, passes := k'.passes
  stipple := k'.stipple, bricks := k'.bricks }

/-- Requests of the Stipple unit have marched: u is s with those in a core, and what their reads found done is seen by all. -/
def Marched (s u : State) (core : Nat) (reqs : List SmReq) : Prop :=
  u = { s with cores := u.cores, unseen := u.unseen } ∧ (∀ k, k ≠ core → coreAt u k = coreAt s k) ∧
    OnlyUnits (coreAt s core) (coreAt u core) ∧ (coreAt u core).stipple = reqs.map (fun q => { q with got := [] }) ∧
    ∀ e, e ∈ u.unseen ↔ e ∈ s.unseen ∧ ∀ q ∈ reqs, ¬ FindsDone s e q.reader (q.pasid, q.root) q.got

/-- A contribution has been added to an accumulator of a consort, with its slot and its flag, if it has them (R152, R153). -/
structure Added (rc rc' : Consort) (acc : Nat) (x : SMap Word) (slot rflag : Option Nat) : Prop where
  parts : rc' = { rc with acc := rc'.acc, nextSlot := rc'.nextSlot, cf := rc'.cf }
  cells : ∀ j, j < 16384 → smGet 0 rc'.acc (acc * 16384 + j) = BitVec.ofNat 32
    (fAdd fmtF32 .rne false (smGet 0 rc.acc (acc * 16384 + j)).toNat (smGet 0 x j).toNat).1
  others : (∀ p ∈ x, p.1 < 16384) → ∀ d j, j < 16384 → d ≠ acc → smGet 0 rc'.acc (d * 16384 + j) = smGet 0 rc.acc (d * 16384 + j)
  slot : ∀ j, slot = some j → smGet 0 rc'.nextSlot acc = j + 1
  flag : ∀ f, rflag = some f → (smGet 0 rc'.cf f).toNat % 2 ^ 15 = ((smGet 0 rc.cf f).toNat + 1) % 2 ^ 15

/-- The slot and the receiver's flag that a peer add names (R152). -/
def slotOf (ordered : Bool) (target : DWord) : Option Nat := if ordered then some (bits target.toNat 8 8) else none
def rflagOf (target : DWord) : Option Nat := if target.getLsbD 22 then some (bits target.toNat 16 6) else none

/-- Are leads and guards of the heads within their limits (R266)? -/
def LimitsOk (s : State) (lead guard : Nat → Nat) : Prop := ∀ h, h < 4 → 8 ≤ lead h ∧ lead h ≤ 512 ∧ 1 ≤ guard h ∧ guard h + 4 ≤ lead h ∧
  ((headAt s h).on = true → lead h < (headAt s h).mode.vtotal - (headAt s h).mode.hheight)

/-- A lead and a guard apply to a head from the first frame that begins VTOTAL lines later, at once where it is off (R266). -/
def Scheduled (x y : Head) (lead guard : Nat) : Prop :=
  let n := if x.line = 0 then x.frame + 1 else x.frame + 2
  y = if x.on then { x with leadFrom := x.leadFrom ++ [(n, lead)], guardFrom := x.guardFrom ++ [(n, guard)] }
    else { x with lead := lead, guard := guard, leadFrom := [], guardFrom := [] }

/-- The fault record of WDOG for a consort with no live course left (R223, log 34). -/
def wdogRec (con : Consort) : FaultRec :=
  let f := faultCourse con none
  faultRec cWDOG 0 0 6 0 f.1 0 f.2.1 false f.2.2.1 false f.2.2.2

/-! ## Burin vector operations -/

/-- Only vector register d of a Burin core differs, and its lanes of w bits, n of them, hold the values named (R252). -/
def WritesBW (x x' : Burin) (d w n : Nat) (f : Nat → Nat) : Prop :=
  x' = { x with regs := { x.regs with w := x'.regs.w } } ∧ (∀ r, r ≠ d → smGet 0 x'.regs.w r = smGet 0 x.regs.w r) ∧
    ∀ k, k < n → (smGet 0 x'.regs.w d).toNat / 2 ^ (w * k) % 2 ^ w = f k % 2 ^ w

/-- A lane of a source register. -/
def src (x : Burin) (ty : BitVec 2) (r : BitVec 6) (k : Nat) : Nat := bw x r.toNat / 2 ^ (laneBits ty * k) % 2 ^ laneBits ty

/-- The same as a signed integer. -/
def srcI (x : Burin) (ty : BitVec 2) (r : BitVec 6) (k : Nat) : Int := signedOf (laneBits ty) (src x ty r k)

/-- The lane results of Burin vector operations (R319, R320, R335, R342, R343): destination, lane type, and the result of a lane. -/
def burinLane : Instr → Option (BitVec 6 × BitVec 2 × (Burin → Nat → Nat))
  | .ladd _ d a b ty fn => some (d, ty, fun x k => if intLane ty then laneNarrow (laneBits ty) (fn == 1) (srcI x ty a k + srcI x ty b k)
      else (fAdd (laneFmt ty) .rne false (src x ty a k) (src x ty b k)).1)
  | .lsub _ d a b ty fn => some (d, ty, fun x k => if intLane ty then laneNarrow (laneBits ty) (fn == 1) (srcI x ty a k - srcI x ty b k)
      else (fAdd (laneFmt ty) .rne false (src x ty a k) (fNeg (laneFmt ty) (src x ty b k))).1)
  | .lmul _ d a b ty fn => some (d, ty, fun x k => if intLane ty then laneNarrow (laneBits ty) (fn == 1) (srcI x ty a k * srcI x ty b k)
      else (fMul (laneFmt ty) .rne false (src x ty a k) (src x ty b k)).1)
  | .lmad _ d a b ty fn => some (d, ty, fun x k => if intLane ty then
        laneNarrow (laneBits ty) (fn == 1) (srcI x ty a k * srcI x ty b k + srcI x ty d k)
      else (fMad (laneFmt ty) .rne false (src x ty a k) (src x ty b k) (src x ty d k)).1)
  | .lmin _ d a b ty fn => some (d, ty, fun x k => if intLane ty then laneNarrow (laneBits ty) (fn == 1) (min (srcI x ty a k) (srcI x ty b k))
      else lMinMax (laneFmt ty) false (src x ty a k) (src x ty b k))
  | .lmax _ d a b ty fn => some (d, ty, fun x k => if intLane ty then laneNarrow (laneBits ty) (fn == 1) (max (srcI x ty a k) (srcI x ty b k))
      else lMinMax (laneFmt ty) true (src x ty a k) (src x ty b k))
  | .lsel _ d a b ty fn => some (d, ty, fun x k => if (bm x fn.toNat).getLsbD k then src x ty a k else src x ty b k)
  | .lshf _ d a b ty fn => some (d, ty, fun x k =>
      let n := src x ty b k % laneBits ty
      let v := src x ty a k
      match fn.toNat with
      | 0 => v * 2 ^ n
      | 1 => v / 2 ^ n
      | 2 => wrapTo (laneBits ty) (srcI x ty a k / 2 ^ n)
      | _ => v * 2 ^ n % 2 ^ laneBits ty + v / 2 ^ (laneBits ty - n))
  | .llog _ d a b ty fn => some (d, ty, fun x k => match fn.toNat with
      | 0 => src x ty a k &&& src x ty b k
      | 1 => src x ty a k ||| src x ty b k
      | 2 => src x ty a k ^^^ src x ty b k
      | 3 => src x ty a k &&& (2 ^ laneBits ty - 1 - src x ty b k)
      | _ => 2 ^ laneBits ty - 1 - src x ty a k)
  | .lcvt _ d a ty fn => some (d, fn.extractLsb' 1 2, fun x k =>
      if k < (if laneBits ty = 16 ∧ laneBits (fn.extractLsb' 1 2) = 16 then 32 else 16) then
        lcvtLane ty (fn.extractLsb' 1 2) (if fn.getLsbD 0 then .rtz else .rne) (src x ty a k) else 0)
  | .wxy _ d a b => some (d, 3, fun x k =>
      let row := fun i => rAdd (rAdd (rMul (src x 3 b i) (src x 3 a (k % 8))) (rMul (src x 3 b (i + 1)) (src x 3 a (k % 8 + 8)))) (src x 3 b (i + 2))
      rDiv (if k < 8 then row 0 else row 3) (row 6))
  | _ => none

/-! ## Events -/

/-- k' is k, but a command of queue q stands changed. -/
def CmdPut (k k' : Core) (q : Nat) (c : Cmd) : Prop :=
  k' = { k with chans := k'.chans, matq := k'.matq } ∧ queueAt k' q = (queueAt k q).map (fun e => if e.seq == c.seq then c else e) ∧
    ∀ j, j < 5 → j ≠ q → queueAt k' j = queueAt k j

/-- k' is k without the head of queue q. -/
def CmdGone (k k' : Core) (q : Nat) : Prop :=
  k' = { k with chans := k'.chans, matq := k'.matq } ∧ queueAt k' q = (queueAt k q).drop 1 ∧
    ∀ j, j < 5 → j ≠ q → queueAt k' j = queueAt k j

/-- An element of a tile holds v, and the rest of tile memory is unchanged. -/
def ElemPut (con con' : Consort) (t : TileEnt) (r c v : Nat) : Prop :=
  con' = { con with tmem := con'.tmem } ∧ tileRead con' t r c = v % 2 ^ tyBits t.ty ∧
    (∀ c', c' ≠ c → c' < t.cols → tileRead con' t r c' = tileRead con t r c') ∧
    ∀ a, (∀ m, m < max 1 (tyBits t.ty / 8) → a ≠ (elemPos t r c).1 + m) → smGet 0 con'.tmem a = smGet 0 con.tmem a

/-- The element of a tile that a copy moves. -/
def copyElem (tpl : Tpl) (s2 : DWord) (i : Nat) : Nat × Nat :=
  let j := elemIdx tpl i
  ((rowCol s2).1 + j.2.1 + Tpl.e tpl 1 * j.2.2, (rowCol s2).2 + j.1)

/-- Its virtual byte address. -/
def copyVa (tpl : Tpl) (s0 : DWord) (i : Nat) : Nat := elemBit tpl s0 (elemIdx tpl i) / 8

/-- The indices of a share, in their order (R205). -/
def ticketsOf (sh : List (Nat × Nat)) : List Nat := sh.flatMap fun r => (List.range (r.2 - r.1)).map (r.1 + ·)

/-- A command is the only one that its queue has fetched, and may be dispatched now (R192, R193). -/
structure Alone (s : State) (q : Queue) (c : QCmd) : Prop where
  queue : queueFor s (unitOf s) = some q
  cmds : q.cmds = [c]
  next : nextCmd s (unitOf s) = some c
  good : cmdBad c = none

/-- The context of the queue that the unit names. -/
def queueCtx (s : State) : Nat × Nat := ((qcbOf s (unitOf s)).pasid, (qcbOf s (unitOf s)).root)

/-- A command is the next that its queue may dispatch, and is of an OP, with flags and a right, that R193 allows. -/
structure Next (s : State) (q : Queue) (c : QCmd) : Prop where
  queue : queueFor s (unitOf s) = some q
  next : nextCmd s (unitOf s) = some c
  good : cmdBad c = none

/-- A queue that waited in STATE 2 waits no more (R199). -/
def awake (s : State) (qcb : Nat) : State := if (qcbOf s qcb).state = 2 then setQState s qcb 1 else s

/-- The doublewords of the records of an append (R199). -/
def feedWords (c : QCmd) : List Nat := (List.range (2 * feedCount c)).map fun i => (feedSrc c + 8 * i) % 2 ^ 64

/-- An append has stored its records: with CLOSE the work queue closes, and every REFILL asleep on it wakes (R199). -/
def fedTo (s : State) (w : WorkQ) (c : QCmd) : State :=
  let close := (cmdFlags c).testBit 1
  let v := if close then setWq s { w with count := w.count + feedCount c, isOpen := false } else s
  if feedCount c = 0 ∧ close = false then v else wakeRefills v w.num

/-- t is what an append for which there is room leaves (R126, R199): it waits for pinned lines, fails at the first doubleword that it
cannot read or store, and else completes. -/
def Appends (s t : State) (w : WorkQ) (c : QCmd) : Prop :=
  let ctx := queueCtx s
  let qcb := unitOf s
  let old := fun va => load s ctx.1 ctx.2 va 8
  let recs := (feedWords c).flatMap fun va => ((old va).toOption).getD []
  let waits := waitsPins s ctx (feedWords c) = true ∨ waitsPins s (w.owner, w.root) (wqSpan w w.count (feedCount c)) = true
  (waits → t = s) ∧
  (¬ waits →
    (∀ i e, i < 2 * feedCount c → (∀ j, j < i → ∃ b, old ((feedSrc c + 8 * j) % 2 ^ 64) = .ok b) →
      old ((feedSrc c + 8 * i) % 2 ^ 64) = .error e → t = finishErr (awake s qcb) qcb c e ((feedSrc c + 8 * i) % 2 ^ 64)) ∧
    ((∀ va ∈ feedWords c, ∃ b, old va = .ok b) →
      (∀ e va, pushAll s w.num recs (feedCount c) = .error (e, va) → t = finishErr (awake s qcb) qcb c e va) ∧
      ∀ u, pushAll s w.num recs (feedCount c) = .ok u → t = finish (awake (fedTo u w c) qcb) qcb c stOK 0))

/-- A mailbox command that may run: rung in, and accepted in the state the module is in (R283, R286). -/
def Rung (s : State) (op : Nat) : Prop :=
  ∃ o req, s.mbox.waiting = some (o, req) ∧ s.mbox.busy = true ∧ o.toNat = op ∧ (s.mbox.safe = true → op ≤ 3)

/-- A debugger's command may act on a live course of the unit's consort (R231). -/
structure Debugs (s : State) (con : Consort) (c : Course) : Prop where
  rung : Rung s 0x13
  there : conAt s (unitOf s) = some con
  course : crsAt con c.idx = some c
  live : c.ended = false
  attached : debugged s (ctxOf s con).1 = true

end Sys2Proof.Safety
end

