-- ==== Sys2Proof/Certificates/Slice0/Obligations.lean ====
section
/-! DEFINITION. The statements, from the numbered rules of the manual. -/

open Sys2Proof Sys2Proof.Machine Sys2Proof.Safety

/-! ## Words of a clause -/
/-- R55, R216, R337: when a word of n words is done and another follows in its clause, the slot holds the next word and
nothing else of the machine changes; after the last word the slot is empty and the split goes on where the loop rules say.

R216: a clause that ends early, at an address with a loop stack.

R46: a split whose entry is freed.

R337, R338: falling through the end of a clause, inside the innermost body, at its end, and past it.

R227: a drain that is done begins a new fill of the pipeline at the iteration at which it was cut.

That a clause past a body that is not pipelined goes on there is the model's reading (log 16). -/
def Obligations.WordDone : Prop :=
   (∀ (s : State) (x : Cur) (n : Nat), Belongs s x →
      (¬ Last x n → Stepped s (retire s x n) x n) ∧
      (Last x n → ∀ pc ls b, fallTo x.iss.hdr (nextClause x) x.sp.loops = some (pc, ls, b) →
        Left s (retire s x n) { x with iss := { x.iss with off := x.iss.off + n }, sp := atBoundary x.sp b } pc ls)) ∧
   (∀ (s : State) (x : Cur) (pc : Nat) (ls : List LoopRec), Belongs s x → Left s (endAt s x pc ls) x pc ls) ∧
   (∀ (s : State) (x : Cur), Belongs s x → Gone s (freeSplit s x) x) ∧
   (∀ (s : State) (x : Cur),
      (x.sp.loops = [] → endClause s x = endAt s x (nextClause x) []) ∧
      (∀ l ls, x.sp.loops = l :: ls →
        (nextClause x = l.stop → l.upto = none → l.t + 2 < l.count + l.stages →
          endClause s x = endAt s { x with sp := { x.sp with preRun := 0, point := true, iter := true } } l.start
            ({ l with t := l.t + 1 } :: ls)) ∧
        (nextClause x = l.stop → l.upto = none → ¬ l.t + 2 < l.count + l.stages → ls = [] →
          endClause s x = endAt s { x with sp := { x.sp with preRun := 0, point := true, iter := true } } l.stop []) ∧
        (∀ u, nextClause x = l.stop → l.upto = some u → u < l.count → u + l.stages ≤ l.t + 2 →
          endClause s x = endAt s { x with sp := { x.sp with preRun := 0, point := true, iter := true } } l.start
            ({ l with t := u, fill := u, upto := none } :: ls)) ∧
        (l.start ≤ x.iss.hdr → nextClause x < l.stop → endClause s x = endAt s x (nextClause x) x.sp.loops) ∧
        (l.start ≤ x.iss.hdr → x.iss.hdr < l.stop → l.stop < nextClause x → l.stages = 1 →
          endClause s x = endAt s x (nextClause x) ls)))

/-- R325, R360, R361, R364, R367 on the core.

R258, R325, R360, R361, R364, R367 on Burin: sources are the bundle's snapshot (R69). -/
def Obligations.ScalarWords : Prop :=
   ((∀ i d srcs f, scalarFn i = some (d, srcs, f) → ∀ s x, Runs s x [] (d.toNat :: srcs.map (·.toNat)) →
      ∃ c', exec i s = .next (retire s { x with c := c' } 1) ∧ WritesS x.c c' d.toNat (f fun r => sGet x.c r.toNat)) ∧
    (∀ (d : BitVec 6) (fn : BitVec 7) s x, Runs s x [] [d.toNat] →
      ∃ c', exec (.lcnt d fn) s = .next (retire s { x with c := c' } 1) ∧
        WritesS x.c c' d.toNat (BitVec.ofNat 64 (match x.sp.loops[fn.toNat]? with
          | some l => l.t - (if fn = 0 then (x.iss.header.extractLsb' 0 3).toNat else (x.sp.loops[fn.toNat - 1]?).elim 0 (·.stg))
          | none => 0)))) ∧
   ((∀ i d srcs f, scalarFn i = some (d, srcs, f) → ∀ s b x, RunsB s b x →
      ∃ x', exec i s = .next (slotDone s b x') ∧ WritesBS x x' d.toNat (f fun r => bs x r.toNat)) ∧
    (∀ (d : BitVec 6) (fn : BitVec 7) s b x, RunsB s b x →
      ∃ x', exec (.lcnt d fn) s = .next (slotDone s b x') ∧
        WritesBS x x' d.toNat (BitVec.ofNat 64 (match x.loops[fn.toNat]? with
          | some l => l.t - (if fn = 0 then 0 else (x.loops[fn.toNat - 1]?).elim 0 (·.stg))
          | none => 0))))

/-- R59, R69, R254, R337: a slot of a bundle before the last, the last one with a branch, and the last one without.

R71: a bundle with a word that is no operation, or one that its slot does not take, traps ILL before any slot runs.

R54, R254: a slot's stage that the innermost loop does not have traps ILL HEADER.

That stages are tested before operations, and a sub-code that the manual does not give, a free value, are the model's (log 17). -/
def Obligations.BundleOrder : Prop :=
  ∀ (s : State) (b : Nat) (x : Burin),
    (x.pos < 3 → SlotStepped s (slotDone s b x) b x) ∧
    (3 ≤ x.pos → x.exiting = false → ∀ pc, x.npc = some pc → BundleDone s (slotDone s b x) b x pc x.loops) ∧
    (3 ≤ x.pos → x.exiting = false → x.npc = none → ∀ pc ls r, fallTo x.pc (x.pc + 16) x.loops = some (pc, ls, r) →
      BundleDone s (slotDone s b x) b x pc ls) ∧
    (burinAt s b = x → x.late = false → instantsDue (headAt s x.head) = false →
      ∀ ws, fetchWords s coreInit (dispCtx s x.head) x.pc 4 = .ok ws →
      (∀ ins, decodeSlot 0 (ws.getD 0 0) = .ok ins → (∃ i, i < 4 ∧ (x.loops.head?).elim 1 (·.stages) ≤ stageOf i (ws.getD i 0)) →
        fetchBundle s b = burinTrap (setBurin s b { x with src := x.regs }) b cILL iHEADER) ∧
      ((∃ i e, i < 4 ∧ decodeSlot i (ws.getD i 0) = .error e) ∨
        (∃ i ins, i < 4 ∧ decodeSlot i (ws.getD i 0) = .ok ins ∧ burinSlotOk i ins = false)) →
      ∃ sub, 1 ≤ sub ∧ sub ≤ 9 ∧ fetchBundle s b = burinTrap (setBurin s b { x with src := x.regs }) b cILL sub)

/-- R368: SRD reads its source, on the core and on Burin; reading some of them abandons an etch (R176).

R68: the numbers of the special sources.

The ILL sub-code on Burin is a free value (log 17). -/
def Obligations.SpecialSources : Prop :=
   ((∀ (d : BitVec 6) (n : BitVec 13) s x v, Runs s x [] [d.toNat] → srdVal s x n.toNat = some v → etching x = false →
      ∃ c', exec (.srd d n) s = .next (retire s { x with c := c' } 1) ∧ WritesS x.c c' d.toNat v) ∧
    (∀ (d : BitVec 6) (n : BitVec 13) s x v, Runs s x [] [d.toNat] → srdVal s x n.toNat = some v → etching x = true →
      ∃ c' args, exec (.srd d n) s = .next (retire (abandoned 3 (etchSource n.toNat) s x).1
        { (abandoned 3 (etchSource n.toNat) s x).2 with
          con := { (abandoned 3 (etchSource n.toNat) s x).2.con with
            plate := { (abandoned 3 (etchSource n.toNat) s x).2.con.plate with argsRead := args } }
          c := c' } 1) ∧ WritesS x.c c' d.toNat v) ∧
    (∀ (d : BitVec 6) (n : BitVec 13) s x, Runs s x [] [d.toNat] → srdVal s x n.toNat = none →
      exec (.srd d n) s = .next (ill s x iFIELD)) ∧
    (∀ (d : BitVec 6) (n : BitVec 13) s b x v, RunsB s b x → burinSrc s b x n.toNat = some v →
      ∃ x', exec (.srd d n) s = .next (slotDone s b x') ∧ WritesBS x x' d.toNat v) ∧
    (∀ (d : BitVec 6) (n : BitVec 13) s b x, RunsB s b x → burinSrc s b x n.toNat = none →
      exec (.srd d n) s = .next (burinIll s b))) ∧
   (∀ (s : State) (x : Cur),
      srdVal s x 1 = some (BitVec.ofNat 64 x.c.width) ∧ srdVal s x 2 = some (BitVec.ofNat 64 x.c.idx) ∧
      srdVal s x 4 = some (BitVec.ofNat 64 x.c.slot) ∧ srdVal s x 5 = some (BitVec.ofNat 64 (x.con.core % 64)) ∧
      srdVal s x 6 = some (BitVec.ofNat 64 (x.con.core / 64)) ∧ srdVal s x 7 = some (BitVec.ofNat 64 s.pkg) ∧
      srdVal s x 8 = some (BitVec.ofNat 64 x.con.index) ∧ srdVal s x 11 = some (BitVec.ofNat 64 x.c.gen.toNat) ∧
      srdVal s x 32 = some (BitVec.ofNat 64 s.cycles) ∧ srdVal s x 34 = some (BitVec.ofNat 64 s.fabtime) ∧
      (∀ l, launchAt s x.con.launch = some l →
        srdVal s x 40 = some l.lidValue ∧ srdVal s x 41 = some (BitVec.ofNat 64 l.pasid) ∧
        ∀ n, n < 32 → srdVal s x (64 + n) = some (l.args.getD n 0)) ∧
      srdVal s x 0 = none ∧ (∀ n, 96 ≤ n → srdVal s x n = none) ∧ (∀ n, 49 ≤ n → n < 64 → srdVal s x n = none))

/-- R295, R298, R299, R317, R338, R351, R358 on the core: NOP, branches, calls and jumps, as the last word of a clause.

R55: a control word that must stand last and does not traps ILL PLACE.

R176: a branch, call or jump that reads a volatile register during an etch first abandons it, reason 4; RET reads s63 freely.

That CALL and RET keep the loop stack is the model's reading (log 16). -/
def Obligations.ControlFlow : Prop :=
   ((∀ s x, Runs s x [] [] → exec .nop s = .next (retire s x 1)) ∧
    (∀ (cond : BitVec 4) (sa : BitVec 6) (off : BitVec 15) s x, cond.toNat ≤ 6 → Runs s x [] [sa.toNat] → isLast x 1 = true →
      (¬ condHolds cond (sGet x.c sa.toNat) → exec (.br cond sa off) s =
        .next (endClause (abandoned 4 (isVolatile x.c sa.toNat) s x).1 (abandoned 4 (isVolatile x.c sa.toNat) s x).2)) ∧
      (condHolds cond (sGet x.c sa.toNat) → ∀ target, IsTarget target x.iss.hdr 4 off →
        (∀ ls, Jumps target x.sp.loops ls → exec (.br cond sa off) s =
          .next (endAt (abandoned 4 (isVolatile x.c sa.toNat) s x).1 (abandoned 4 (isVolatile x.c sa.toNat) s x).2 target ls)) ∧
        (JumpsBadly target x.sp.loops → exec (.br cond sa off) s =
          .next (ill (abandoned 4 (isVolatile x.c sa.toNat) s x).1 (abandoned 4 (isVolatile x.c sa.toNat) s x).2 iPLACE)))) ∧
    (∀ (off : BitVec 15) s x target, Runs s x [] [63] → isLast x 1 = true → IsTarget target x.iss.hdr 4 off →
      ∃ c', exec (.call off) s = .next (endAt s { x with c := c' } target x.sp.loops) ∧
        WritesS x.c c' 63 (BitVec.ofNat 64 (nextClause x))) ∧
    (∀ (sa : BitVec 6) s x, Runs s x [] [sa.toNat, 63] → isLast x 1 = true →
      let u := abandoned 4 (isVolatile x.c sa.toNat) s x
      ((sGet x.c sa.toNat).toNat % 4 = 0 →
        (∃ c', exec (.calli sa) s = .next (endAt u.1 { u.2 with c := c' } (sGet x.c sa.toNat).toNat x.sp.loops) ∧
          WritesS x.c c' 63 (BitVec.ofNat 64 (nextClause x))) ∧
        (∀ ls, Jumps (sGet x.c sa.toNat).toNat x.sp.loops ls →
          exec (.jmpi sa) s = .next (endAt u.1 u.2 (sGet x.c sa.toNat).toNat ls)) ∧
        (JumpsBadly (sGet x.c sa.toNat).toNat x.sp.loops → exec (.jmpi sa) s = .next (ill u.1 u.2 iPLACE))) ∧
      ((sGet x.c sa.toNat).toNat % 4 ≠ 0 →
        exec (.calli sa) s = .next (trap u.1 u.2 cALIGN (sGet x.c sa.toNat)) ∧
        exec (.jmpi sa) s = .next (trap u.1 u.2 cALIGN (sGet x.c sa.toNat)))) ∧
    (∀ s x, Runs s x [] [63] → isLast x 1 = true →
      exec .ret s = .next (if (sGet x.c 63).toNat % 4 = 0 then endAt s x (sGet x.c 63).toNat x.sp.loops
        else trap s x cALIGN (sGet x.c 63)))) ∧
   (∀ (i : Instr) s x, Runs s x [] (List.range 64) → isLast x 1 = false →
      (match i with
        | .br _ _ _ => True | .call _ => True | .calli _ => True | .ret => True | .jmpi _ => True | .loop _ _ _ => True
        | .loopi _ _ _ => True | .lbrk _ _ => True | .exit => True | .yield => True | _ => False) →
      exec i s = .next (ill s x iPLACE))

/-- R322, R337, R339 on the core: LOOP and LOOPI push a loop whose body is the next clause on, unless N is 0; LBRK leaves one.

R176, R322, R337: a loop word that reads a volatile register during an etch first abandons the etch, reason 4.

That a loop of no iterations, and one that LBRK leaves, go to the body's end also where an enclosing loop ends there, and that this loop
does not step then, is the model's choice (log 16). -/
def Obligations.Loops : Prop :=
   ((∀ (i : Instr) (n : Nat) (stages : BitVec 4) (len : Nat) (regs : List Nat) (vol : Bool) s x, Runs s x [] regs → isLast x 1 = true →
      (∃ sa l, i = .loop sa stages l ∧ n = (sGet x.c sa.toNat).toNat ∧ len = l.toNat ∧ regs = [sa.toNat] ∧ vol = isVolatile x.c sa.toNat) ∨
        (∃ c l, i = .loopi c stages l ∧ n = c.toNat ∧ len = l.toNat ∧ regs = [] ∧ vol = false) →
      let u := abandoned 4 vol s x
      (n = 0 → exec i s = .next (endAt u.1 u.2 (nextClause x + 4 * len) x.sp.loops)) ∧
      (n ≠ 0 → x.sp.loops.length < 4 → exec i s = .next (endAt u.1 u.2 (nextClause x)
        (⟨nextClause x, nextClause x + 4 * len, n, stages.toNat, 0, (x.iss.header.extractLsb' 0 3).toNat, 0, none⟩ :: x.sp.loops))) ∧
      (n ≠ 0 → 4 ≤ x.sp.loops.length → exec i s = .next (ill u.1 u.2 iLOOP))) ∧
    (∀ (cond : BitVec 4) (sa : BitVec 6) s x, cond.toNat ≤ 6 → Runs s x [] [sa.toNat] → isLast x 1 = true →
      let u := abandoned 4 (isVolatile x.c sa.toNat) s x
      (x.sp.loops = [] → exec (.lbrk cond sa) s = .next (ill u.1 u.2 iPLACE)) ∧
      (∀ l ls, x.sp.loops = l :: ls →
        (¬ condHolds cond (sGet x.c sa.toNat) → exec (.lbrk cond sa) s = .next (endClause u.1 u.2)) ∧
        (condHolds cond (sGet x.c sa.toNat) → l.stages = 1 → exec (.lbrk cond sa) s = .next (endAt u.1 u.2 l.stop ls)) ∧
        (condHolds cond (sGet x.c sa.toNat) → l.stages ≠ 1 → x.iss.header.extractLsb' 0 3 ≠ 0 →
          exec (.lbrk cond sa) s = .next (ill u.1 u.2 iPLACE)) ∧
        (condHolds cond (sGet x.c sa.toNat) → l.stages ≠ 1 → x.iss.header.extractLsb' 0 3 = 0 →
          exec (.lbrk cond sa) s =
            .next (endClause u.1 { u.2 with sp := { x.sp with loops := { l with count := min l.count l.t } :: ls } }))))) ∧
   (∀ (sa : BitVec 6) (stages : BitVec 4) (len : BitVec 15) s x, Runs s x [] [sa.toNat] → isLast x 1 = true →
      etching x = true → isVolatile x.c sa.toNat = true → (sGet x.c sa.toNat).toNat ≠ 0 → x.sp.loops.length < 4 →
      exec (.loop sa stages len) s = .next (endAt (abandonEtch s x.con.cid 4)
        { x with con := { x.con with plate := { x.con.plate with mode := 0, reason := 4 } } } (nextClause x)
        (⟨nextClause x, nextClause x + 4 * len.toNat, (sGet x.c sa.toNat).toNat, stages.toNat, 0,
          (x.iss.header.extractLsb' 0 3).toNat, 0, none⟩ :: x.sp.loops)))

/-- R46, R311, R409 on the core: EXIT frees the split or arrives at its join record; YIELD ends the clause and notes the
courses that are to issue first, those of the core that could issue.

R43, R44, R46: a record counts its arrivals, and adds up their masks; the last one takes the deferred half, or goes on with the masks;
where none are left the record above is counted in its turn.

R43, R337: an exit that completes a record with masks goes on after the JOIN word: at the next word, offset 3, or where JOIN stands
alone as its clause falls through, which may end a loop body.

R119: the stores of splits that merge become those of the split that goes on; those of one that exits belong to none, but that those of
the split that refill keeps stay its own.

That the deferred half takes its own loop stack, that an empty outermost record's JOIN word is where the split that refill keeps goes on,
and that a JOIN clause that cannot be read is taken up at offset 3, are the model's (log 16). -/
def Obligations.ExitYield : Prop :=
  (∀ s x, Runs s x [] [] → isLast x 1 = true →
    (x.sp.jrec = none → (refills s x.con && onlySplit x) = false →
      exec .exit s = .next (freeSplit s (mergeStores (exiting x) x.c.recs 0 false .freed))) ∧
    (x.sp.jrec = none → (refills s x.con && onlySplit x) = true →
      exec .exit s = .next (endClause s { (exiting x) with sp := { (exiting x).sp with m := 0, exec := 0 } })) ∧
    (∀ r, x.sp.jrec = some r → let u := arrive x.c.recs r 0 0 17
      let stays := match u.2 with
        | .gone _ => refills s x.con && onlySplit x
        | _ => false
      ∃ t, exec .exit s = .next t ∧ Arrives s (mergeStores (exiting x) u.1 r stays u.2) u.2 t)) ∧
  (∀ (recs : List (Nat × JoinRec)) (r : Nat) (m e : Mask) (n : Nat) j, alGet recs r = some j →
    let u := arrive recs r m e (n + 1)
    let k : JoinRec := { j with accM := j.accM ||| m, accE := j.accE ||| e, count := j.count - 1 }
    (2 ≤ j.count → u = (alSet recs r k, .freed)) ∧
    (j.count = 1 → ∀ d, j.deferred = some d → u = (alSet recs r { k with deferred := none, count := 1 }, .deferred d r)) ∧
    (j.count = 1 → j.deferred = none → j.accM ||| m ≠ 0 →
      u = (smDel recs r, .merged (j.accM ||| m) (j.accE ||| e) j.parent j.addr)) ∧
    (j.count = 1 → j.deferred = none → j.accM ||| m = 0 → (j.parent = none → u = (smDel recs r, .gone j.addr)) ∧
      ∀ q, j.parent = some q → u = arrive (smDel recs r) q 0 0 n)) ∧
  (∀ (x : Cur) (after : List (Nat × JoinRec)) (r : Nat) (joins : Bool) (a : Arrival),
    let y := mergeStores x after r joins a
    let on := match a with
      | .merged _ _ _ _ => true
      | .gone _ => true
      | _ => false
    let heir := if on then some x.spi else (waitsAt x.c.recs after 17 r).map (8 + ·)
    y = { x with c := { x.c with recs := after }, k := { x.k with dirty := y.k.dirty } } ∧
    y.k.dirty.length = x.k.dirty.length ∧ ∀ (i : Nat) d, x.k.dirty[i]? = some d → ∃ o, y.k.dirty[i]? = some { d with sp := o } ∧
      (d.cid ≠ x.con.cid ∨ d.ci ≠ x.c.idx → o = d.sp) ∧
      (d.cid = x.con.cid → d.ci = x.c.idx → (d.sp = none → o = none) ∧ (d.sp = some x.spi → o = if joins then heir else none) ∧
        (∀ n, n < 8 → n ≠ x.spi → d.sp = some n → o = some n) ∧
        ∀ q, 8 + q ≠ x.spi → d.sp = some (8 + q) →
          o = if (alGet x.c.recs q).isSome ∧ alGet after q = none then heir else some (8 + q))) ∧
  (∀ s x, Runs s x [] [] → isLast x 1 = true →
    exec .yield s = .next (endClause s { x with sp := { x.sp with yielded := some ⟨s.cycles, eligible s x.core x.con.cid x.c.idx⟩ } }))

/-- R59, R295, R298, R299, R311, R317, R322, R337, R338, R339, R351, R358, R409 on Burin: control words are slot 0 of a bundle,
the bundle's other slots run, and then control goes where the word says. A LOOP of more than four stages traps ILL FIELD.

That a loop of no iterations, and one that LBRK leaves, go to the body's end also where an enclosing loop ends there, is the model's
choice, and that CALL and RET keep the loop stack is its reading (log 16). -/
def Obligations.BurinControl : Prop :=
  (∀ s b x, RunsB s b x → exec .nop s = .next (slotDone s b x) ∧ exec .yield s = .next (slotDone s b x) ∧
    exec .exit s = .next (slotDone s b { x with exiting := true })) ∧
  (∀ (cond : BitVec 4) (sa : BitVec 6) (off : BitVec 15) s b x, cond.toNat ≤ 6 → RunsB s b x →
    (¬ condHolds cond (bs x sa.toNat) → exec (.br cond sa off) s = .next (slotDone s b x)) ∧
    (condHolds cond (bs x sa.toNat) → ∀ target, IsTarget target x.pc 16 off →
      (∀ ls, Jumps target x.loops ls → exec (.br cond sa off) s = .next (slotDone s b { x with npc := some target, loops := ls })) ∧
      (JumpsBadly target x.loops → exec (.br cond sa off) s = .next (burinTrap s b cILL iPLACE)))) ∧
  (∀ (off : BitVec 15) s b x target, RunsB s b x → IsTarget target x.pc 16 off →
    ∃ x', exec (.call off) s = .next (slotDone s b { x' with npc := some target }) ∧
      WritesBS x x' 63 (BitVec.ofNat 64 (x.pc + 16))) ∧
  (∀ (sa : BitVec 6) s b x, RunsB s b x →
    ((bs x sa.toNat).toNat % 16 ≠ 0 → exec (.calli sa) s = .next (burinTrap s b cALIGN 0) ∧
      exec (.jmpi sa) s = .next (burinTrap s b cALIGN 0)) ∧
    ((bs x sa.toNat).toNat % 16 = 0 →
      (∃ x', exec (.calli sa) s = .next (slotDone s b { x' with npc := some (bs x sa.toNat).toNat }) ∧
        WritesBS x x' 63 (BitVec.ofNat 64 (x.pc + 16))) ∧
      (∀ ls, Jumps (bs x sa.toNat).toNat x.loops ls →
        exec (.jmpi sa) s = .next (slotDone s b { x with npc := some (bs x sa.toNat).toNat, loops := ls })))) ∧
  (∀ s b x, RunsB s b x → exec .ret s = .next (if (bs x 63).toNat % 16 = 0 then
    slotDone s b { x with npc := some (bs x 63).toNat } else burinTrap s b cALIGN 0)) ∧
  (∀ (i : Instr) (n : Nat) (stages : BitVec 4) (len : Nat) s b x, RunsB s b x →
    (∃ sa l, i = .loop sa stages l ∧ n = (bs x sa.toNat).toNat ∧ len = l.toNat) ∨
      (∃ c l, i = .loopi c stages l ∧ n = c.toNat ∧ len = l.toNat) →
    (4 < stages.toNat → exec i s = .next (burinTrap s b cILL iFIELD)) ∧
    (stages.toNat ≤ 4 → n = 0 → exec i s = .next (slotDone s b { x with npc := some (x.pc + 16 + 16 * len) })) ∧
    (stages.toNat ≤ 4 → n ≠ 0 → x.loops.length < 4 → exec i s = .next (slotDone s b { x with
      npc := some (x.pc + 16), loops := ⟨x.pc + 16, x.pc + 16 + 16 * len, n, stages.toNat, 0, 0, 0, none⟩ :: x.loops })) ∧
    (stages.toNat ≤ 4 → n ≠ 0 → 4 ≤ x.loops.length → exec i s = .next (burinTrap s b cILL iLOOP))) ∧
  (∀ (cond : BitVec 4) (sa : BitVec 6) s b x, cond.toNat ≤ 6 → RunsB s b x →
    (x.loops = [] → exec (.lbrk cond sa) s = .next (burinTrap s b cILL iPLACE)) ∧
    (∀ l ls, x.loops = l :: ls →
      (¬ condHolds cond (bs x sa.toNat) → exec (.lbrk cond sa) s = .next (slotDone s b x)) ∧
      (condHolds cond (bs x sa.toNat) → l.stages = 1 →
        exec (.lbrk cond sa) s = .next (slotDone s b { x with npc := some l.stop, loops := ls })) ∧
      (condHolds cond (bs x sa.toNat) → l.stages ≠ 1 →
        exec (.lbrk cond sa) s = .next (slotDone s b { x with loops := { l with count := min l.count l.t } :: ls }))))

/-! ## Lane-class instructions -/

/-- R27, R48, R82, R222, R378 to R403: with an active lane, a legal form, queues ready and no enabled flag raised, a V
instruction writes each active lane of its destination and leaves every other lane and register.

That an infinity converted to a saturated e4m3 or e2m1 raises no flag is the model's choice (log 32), and that VMIN and VMAX flush under
NBV 2 is its reading (log 18). -/
def Obligations.LaneResults : Prop :=
  ∀ (i : Instr) (q : LaneSpec), (laneArith i = some q ∨ laneBitwise i = some q ∨ laneFunction i = some q ∨ laneMove i = some q) →
    ∀ s x, Runs s x (vregsOf q.form.regs) (bScalar q.p) → active x q.p ≠ 0 → formErr s x q.p q.form = none →
      queuesReady x q.reads (some q.p.d.toNat) = true →
      fpx? x.c ((lanesOf (active x q.p) x.c.width).map (q.lane s x)) = none →
      ∃ x', exec i s = .next (retire s x' 2) ∧
        WritesV x x' q.p.d.toNat q.w q.reads ((lanesOf (active x q.p) x.c.width).map (q.lane s x))

/-- R398, R400: VSCAN gives each active lane the scan of the lanes up to it, or of those before it; VRED gives every active
lane the scan's last value. Poisoned sources and enabled flags are left out.

That the first lane, which no operation meets, is the canonical NaN where it is a NaN (R74) and else keeps its bits but for the flush of
NBV 2 is the model's reading (log 32). -/
def Obligations.Scans : Prop :=
  ∀ (p : P) (fn : BitVec 4) s x, Runs s x (vregsOf (scanForm p (fn.toNat % 8)).regs) (bScalar p) → active x p ≠ 0 →
    formErr s x p (scanForm p (fn.toNat % 8)) = none → queuesReady x [p.a.toNat] (some p.d.toNat) = true → enabled x.c = 0 →
    (∀ l, (srcVal x (regW p.ty.toNat) p.a.toNat l).2 = 0) →
    (∃ outs x', exec (.vscan p fn) s = .next (retire s x' 2) ∧
      WritesV x x' p.d.toNat (regW p.ty.toNat) [p.a.toNat] outs ∧
      outs.map (·.lane) = lanesOf (active x p) x.c.width ∧ (∀ o ∈ outs, o.tag = 0) ∧
      ∀ k, k < outs.length → (outs.map (·.val)).getD k 0 = if fn.toNat < 8 then scanValue p (fn.toNat % 8) x k
        else if k = 0 then scanIdentity p.ty.toNat (fn.toNat % 8) else scanValue p (fn.toNat % 8) x (k - 1)) ∧
    (∃ outs x', exec (.vred p fn) s = .next (retire s x' 2) ∧
      WritesV x x' p.d.toNat (regW p.ty.toNat) [p.a.toNat] outs ∧
      outs.map (·.lane) = lanesOf (active x p) x.c.width ∧ (∀ o ∈ outs, o.tag = 0) ∧
      ∀ o ∈ outs, o.val = scanValue p (fn.toNat % 8) x (outs.length - 1))

/-- R395, R402: VPACK gathers the elements of a window into one register; VUNPK spreads them over a window, each in a lane of
its own, i8 and i16 ones by sign and every other as a bit pattern, and traps ILL where the window does not fit. -/
def Obligations.PackedLanes : Prop :=
  (∀ (p : P) s x, packTypes.contains p.ty.toNat = true → p.a.toNat + 32 / tyBits p.ty.toNat ≤ 248 →
    let win := window p.a.toNat (32 / tyBits p.ty.toNat)
    let f : Form := { stdForm p packTypes false false 0 false false with
      other := decide (p.a.toNat < 248), regs := (p.d.toNat, 32) :: win.map (fun r => (r, 32)) }
    Runs s x (vregsOf f.regs) (bScalar p) → active x p ≠ 0 → formErr s x p f = none → queuesReady x [] (some p.d.toNat) = true →
    ∃ outs x', exec (.vpack p) s = .next (retire s x' 2) ∧ WritesV x x' p.d.toNat 32 [] outs ∧
      outs.map (·.lane) = lanesOf (active x p) x.c.width ∧
      ∀ o ∈ outs, o.fl = 0 ∧ o.tag = firstTag (win.map fun r => (r, (vGet x.c r o.lane).tag)) ∧
        ∀ j, j < 32 / tyBits p.ty.toNat → bits o.val (tyBits p.ty.toNat * j) (tyBits p.ty.toNat) =
          (vVal x.c (p.a.toNat + j) o.lane).toNat % 2 ^ tyBits p.ty.toNat) ∧
  (∀ (p : P) s x, packTypes.contains p.ty.toNat = true → p.d.toNat + 32 / tyBits p.ty.toNat ≤ 248 →
    let win := window p.d.toNat (32 / tyBits p.ty.toNat)
    let f : Form := { stdForm p packTypes false false 0 false false with
      other := decide (p.d.toNat < 248), regs := (p.a.toNat, 32) :: win.map (fun r => (r, 32)) }
    Runs s x (vregsOf f.regs) [] → active x p ≠ 0 → formErr s x p { f with regs := [] } = none → formErr s x p f = none →
    queuesReady x [p.a.toNat] none = true →
    ∃ c', exec (.vunpk p) s = .next (retire s { x with con := popQueues x.con (qWidth x.c) [p.a.toNat], c := c' } 2) ∧
      c' = { x.c with v := c'.v } ∧
      ∀ r l, l < 64 → vGet c' r l =
        if p.d.toNat ≤ r ∧ r < p.d.toNat + 32 / tyBits p.ty.toNat ∧ l < x.c.width ∧ (active x p).getLsbD l = true then
          ⟨if (srcLane x p.a.toNat l).tag = 0 then BitVec.ofNat 32 (extendLane p.ty.toNat
              (bits (srcLane x p.a.toNat l).val.toNat (tyBits p.ty.toNat * (r - p.d.toNat)) (tyBits p.ty.toNat))) else 0,
            (srcLane x p.a.toNat l).tag⟩
        else vGet x.c r l) ∧
  (∀ ty v, (packTypes.contains ty = true ↔ ty ∈ [0, 1, 4, 5, 8, 9, 12, 13, 14, 15]) ∧
    extendLane ty v = if ty = 0 ∨ ty = 1 then wrapTo 32 (signedOf (tyBits ty) v) else v) ∧
  (∀ (p : P) s x, let win := window p.d.toNat (32 / tyBits p.ty.toNat)
    let f : Form := { stdForm p packTypes false false 0 false false with regs := [] }
    Runs s x (vregsOf ((p.a.toNat, 32) :: win.map (fun r => (r, 32)))) [] → active x p ≠ 0 → formErr s x p f = none →
    (248 ≤ p.d.toNat → exec (.vunpk p) s = .next (ill s x iFIELD)) ∧
    (p.d.toNat < 248 → (248 < p.d.toNat + 32 / tyBits p.ty.toNat ∨ ∃ r ∈ win, allocated x.con ≤ r) →
      exec (.vunpk p) s = .next (ill s x iREGRANGE)))

/-- R385, R389: VCMP writes the active lanes of a predicate; VGET reads one lane into a scalar register. -/
def Obligations.LaneTests : Prop :=
  (∀ (p : P) (fn : BitVec 4) s x,
    let reads := readsOf p true true false
    let f : Form := { stdForm p (setW ++ setF) false false (if isF p then 3 else 0) true false with
      other := decide (p.d.toNat < 8) && (isF p || decide (fn.toNat < 6)), regs := reads.map (fun r => (r, regW p.ty.toNat)) }
    let outs := laneWise s p true false (fun _ a b _ => let r := cmpTest p.ty.toNat fn.toNat a b; (if r.1 then 1 else 0, r.2)) x
      (lanesOf (active x p) x.c.width)
    Runs s x (vregsOf f.regs) (bScalar p) → active x p ≠ 0 → formErr s x p f = none → queuesReady x reads none = true →
    (∀ o ∈ outs, o.tag = 0) → fpx? x.c outs = none →
    ∃ c' vals, exec (.vcmp p fn) s = .next (retire s { x with
        con := popQueues x.con (qWidth x.c) reads, c := { c' with nstat := x.c.nstat ||| (outFlags outs).setWidth 64 } } 2) ∧
      WritesP x.c c' p.d.toNat (active x p) vals ∧
      ∀ l, l < x.c.width → (active x p).getLsbD l = true →
        vals.getLsbD l = (cmpTest p.ty.toNat fn.toNat
          (modNeg p.ty.toNat (p.mod.getLsbD 0) (srcVal x (regW p.ty.toNat) p.a.toNat l).1)
          (modNeg p.ty.toNat (p.mod.getLsbD 1) (operandB s x p l).1)).1) ∧
  (∀ ty fn a b, tyInt ty = true → (cmpTest ty fn a b).1 = intCmp fn (intOf ty a) (intOf ty b)) ∧
  (∀ (p : P) s x,
    let f : Form := { stdForm p setN false false 0 true false with
      bks := [1, 2], other := decide (p.d.toNat < 64), regs := [(p.a.toNat, regW p.ty.toNat)] }
    let v := srcVal x (regW p.ty.toNat) p.a.toNat ((operandB s x p 0).1 % 2 ^ 32 % x.c.width)
    Runs s x (vregsOf f.regs) (p.d.toNat :: bScalar p) → active x p ≠ 0 → formErr s x p f = none → queuesReady x [p.a.toNat] none = true →
    v.2 = 0 →
    ∃ c', exec (.vget p) s = .next (retire s { x with con := popQueues x.con (qWidth x.c) [p.a.toNat], c := c' } 2) ∧
      WritesS x.c c' p.d.toNat (BitVec.ofNat 64 v.1))

/-- R65, R66, R379: a V instruction without an active lane has no effect and meets no trap; with one, an illegal form traps
ILL with its first failing check.

R83: FPX is raised exactly when an active unpoisoned lane raises a flag that NCR enables, and TRAPV names those flags.

R221, R222: the flags of an instruction are those that its unpoisoned lanes raise. -/
def Obligations.LaneClassTraps : Prop :=
   ((∀ (i : Instr) (q : LaneSpec), (laneArith i = some q ∨ laneBitwise i = some q ∨ laneFunction i = some q ∨ laneMove i = some q) →
      ∀ s x, Runs s x (vregsOf q.form.regs) (bScalar q.p) →
        (active x q.p = 0 → exec i s = .next (retire s x 2)) ∧
        (active x q.p ≠ 0 → ∀ sub, formErr s x q.p q.form = some sub → exec i s = .next (ill s x sub)) ∧
        (active x q.p ≠ 0 → formErr s x q.p q.form = none → queuesReady x q.reads (some q.p.d.toNat) = false →
          exec i s = .next (waitHere s x)) ∧
        (active x q.p ≠ 0 → formErr s x q.p q.form = none → queuesReady x q.reads (some q.p.d.toNat) = true →
          ∀ v, fpx? x.c ((lanesOf (active x q.p) x.c.width).map (q.lane s x)) = some v → exec i s = .next (trap s x cFPX v)))) ∧
   (∀ (c : Course) (outs : List LaneOut),
      (fpx? c outs = none ↔ outFlags outs &&& enabled c = 0) ∧
      ∀ v, fpx? c outs = some v → v.extractLsb' 0 6 = outFlags outs &&& enabled c) ∧
   (∀ (outs : List LaneOut) (f : Nat), f < 6 →
      ((outFlags outs).getLsbD f = true ↔ ∃ o ∈ outs, o.tag = 0 ∧ o.fl.getLsbD f = true))

/-! ## Predicates, masks and splits -/

/-- R352, R353: predicate logic writes the active lanes of a predicate, predicate reductions a scalar register.

R41, R316, R363: SETX replaces EXEC within M, from a register or an immediate, and writes nothing else; GETX reads EXEC. -/
def Obligations.Predicates : Prop :=
   ((∀ i p two op, predFn i = some (p, two, op) → ∀ s x, Runs s x [] [] → active x p ≠ 0 →
      fieldsOk p { d := true, a := true, b := two } = true → (isP p.d && isP p.a && isP p.b) = true →
      ∃ c' vals, exec i s = .next (retire s { x with c := c' } 2) ∧ WritesP x.c c' p.d.toNat (active x p) vals ∧
        ∀ l, l < 64 → (active x p).getLsbD l = true → vals.getLsbD l = op (pGet x.c p.a.toNat l) (pGet x.c p.b.toNat l)) ∧
    (∀ i p f, reduceFn i = some (p, f) → ∀ s x, Runs s x [] [p.d.toNat] → guarded p = false →
      fieldsOk p { d := true, a := true } = true → (isS p.d && isP p.a) = true →
      ∃ c', exec i s = .next (retire s { x with c := c' } 2) ∧
        WritesS x.c c' p.d.toNat (f x.sp.exec (x.sp.exec &&& pMask x.c p.a.toNat))) ∧
    (∀ i p two op, predFn i = some (p, two, op) → ∀ s x, Runs s x [] [] → active x p = 0 → exec i s = .next (retire s x 2))) ∧
   ((∀ (p : P) s x, Runs s x [] (if p.bk = 1 then [p.b.toNat] else []) → guarded p = false →
      fieldsOk p { b := true, c := p.bk == 2, bk := true } = true → (p.bk == 2 || (p.bk == 1 && isS p.b)) = true →
      ∃ e, exec (.setx p) s = .next (retire s { x with sp := { x.sp with exec := e } } 2) ∧
        ∀ l, e.getLsbD l = (x.sp.m.getLsbD l && (x.c.width == 64 || decide (l < 32)) &&
          (if p.bk = 1 then (sGet x.c p.b.toNat).getLsbD l else (imm16 p).testBit l))) ∧
    (∀ (p : P) s x, Runs s x [] [p.d.toNat] → guarded p = false → fieldsOk p { d := true } = true → isS p.d = true →
      ∃ c', exec (.getx p) s = .next (retire s { x with c := c' } 2) ∧ WritesS x.c c' p.d.toNat x.sp.exec))

/-- R42, R296, R338: BRD on lanes that agree branches or falls through; on lanes that differ it makes a join record of two, and
the taken half goes to a free split entry with no run of PRE = 0, while with none the fallen half is deferred. Elsewhere than last, or with offsets
out of order, it traps ILL.

That its place is tested before its guard and its fields is the model's choice, and that the new split has no run of PRE = 0 is its
reading (log 16). -/
def Obligations.Divergence : Prop :=
  (∀ (p : P) (fn : BitVec 4) s x, Runs s x [] [] →
    (isLast x 2 = false → exec (.brd p fn) s = .next (ill s x iPLACE)) ∧
    (isLast x 2 = true → guarded p = false → p.bk = 2 →
      fieldsOk p { d := true, a := true, b := true, c := true, mod := true, bk := true } = true →
      ¬ (x.iss.words.length + 1 ≤ imm16 p ∧ imm16 p ≤ p.d.toNat * 256 + p.a.toNat) → exec (.brd p fn) s = .next (ill s x iPLACE))) ∧
  (∀ (p : P) (fn : BitVec 4) s x, Runs s x [] [] → isLast x 2 = true → guarded p = false → p.bk = 2 →
    fieldsOk p { d := true, a := true, b := true, c := true, mod := true, bk := true } = true →
    x.iss.words.length + 1 ≤ imm16 p → imm16 p ≤ p.d.toNat * 256 + p.a.toNat →
    let pr := if fn = 1 then ~~~pMask x.c p.mod.toNat else pMask x.c p.mod.toNat
    let t := x.sp.exec &&& pr
    let f := x.sp.m &&& ~~~t
    let target := x.iss.hdr + 4 * imm16 p
    (t = 0 → exec (.brd p fn) s = .next (endClause s x)) ∧
    (t ≠ 0 → f = 0 → ∀ ls, Jumps target x.sp.loops ls → exec (.brd p fn) s = .next (endAt s x target ls)) ∧
    (t ≠ 0 → f ≠ 0 → freeKey x.c.recs 16 = none → exec (.brd p fn) s = .next (ill s x iSPLIT)) ∧
    (t ≠ 0 → f ≠ 0 → ∀ j tl npc fl b, freeKey x.c.recs 16 = some j → Jumps target x.sp.loops tl →
      fallTo x.iss.hdr (nextClause x) x.sp.loops = some (npc, fl, b) →
      let r : JoinRec := ⟨x.iss.hdr + 4 * (p.d.toNat * 256 + p.a.toNat), x.sp.jrec, 2, 0, 0, none⟩
      (∀ k, freeKey x.c.splits 8 = some k → ∃ u, exec (.brd p fn) s = .next u ∧ (Belongs s x → Left s u { x with
        c := { x.c with
          recs := alSet x.c.recs j r
          splits := alSet x.c.splits k { x.sp with
            m := t, exec := t, pc := target, off := 0, loops := tl, jrec := some j, trap := none, wake := none, yielded := none
            preRun := 0 } }
        sp := { (atBoundary x.sp b) with m := f, exec := x.sp.exec &&& ~~~pr, jrec := some j } } npc fl)) ∧
      (freeKey x.c.splits 8 = none →
        let r1 : JoinRec := { r with count := 1, deferred := some ⟨f, x.sp.exec &&& ~~~pr, npc, fl, b⟩ }
        ∃ u, exec (.brd p fn) s = .next u ∧ (Belongs s x → Left s u { x with
        c := { x.c with recs := alSet x.c.recs j r1 }
        sp := { x.sp with m := t, exec := t, jrec := some j } } target tl))))

/-- R43, R44, R318: JOIN at another address, or with no record, has no effect; a split that others are awaited with is freed
and its masks kept; the last to arrive goes on with all of them, or takes the deferred half; where no member is left the record
above is counted in its turn.

R119: the stores of splits that merge become those of the split that goes on.

R44, R166, R273: an arrival awaits the reads that CHORD and SMARCH requests of the course have still to make.

That the deferred half takes its own loop stack, and that the arrival awaits those reads whosever split asked, is the model's reading (log
16). -/
def Obligations.Joining : Prop :=
  ∀ (p : P) s x, Runs s x [] [] → (x.iss.off == 1 && x.iss.header.getLsbD 5) = true → guarded p = false → fieldsOk p {} = true →
    (x.sp.jrec = none → exec (.join p) s = .next (retire s x 2)) ∧
    (∀ r j, x.sp.jrec = some r → alGet x.c.recs r = some j → j.addr ≠ x.iss.hdr → exec (.join p) s = .next (retire s x 2)) ∧
    (∀ r j, x.sp.jrec = some r → alGet x.c.recs r = some j → j.addr = x.iss.hdr → x.reads = true → exec (.join p) s = .next (waitHere s x)) ∧
    (∀ r j, x.sp.jrec = some r → alGet x.c.recs r = some j → j.addr = x.iss.hdr → x.reads = false → 2 ≤ j.count →
      let j1 : JoinRec := { j with accM := j.accM ||| x.sp.m, accE := j.accE ||| x.sp.exec, count := j.count - 1 }
      exec (.join p) s = .next (freeSplit s (mergeStores x (alSet x.c.recs r j1) r true .freed))) ∧
    (∀ r j, x.sp.jrec = some r → alGet x.c.recs r = some j → j.addr = x.iss.hdr → x.reads = false → j.count = 1 → j.deferred = none →
      j.accM ||| x.sp.m ≠ 0 →
      let y := mergeStores x (smDel x.c.recs r) r true (.merged (j.accM ||| x.sp.m) (j.accE ||| x.sp.exec) j.parent j.addr)
      exec (.join p) s = .next (retire s { y with
        sp := { x.sp with m := j.accM ||| x.sp.m, exec := j.accE ||| x.sp.exec, jrec := j.parent } } 2)) ∧
    (∀ r j, x.sp.jrec = some r → alGet x.c.recs r = some j → j.addr = x.iss.hdr → x.reads = false →
      let u := arrive x.c.recs r x.sp.m x.sp.exec 17
      let y := mergeStores x u.1 r true u.2
      (∀ m e parent addr, u.2 = .merged m e parent addr → addr = x.iss.hdr →
        exec (.join p) s = .next (retire s { y with sp := { x.sp with m := m, exec := e, jrec := parent } } 2)) ∧
      (∀ addr, u.2 = .gone addr → addr = x.iss.hdr → (refills s x.con && onlySplit x) = true →
        exec (.join p) s = .next (retire s { y with sp := { x.sp with m := 0, exec := 0, jrec := none } } 2)) ∧
      ((∀ m e parent addr, u.2 = .merged m e parent addr → addr ≠ x.iss.hdr) →
        (∀ addr, u.2 = .gone addr → addr = x.iss.hdr → (refills s x.con && onlySplit x) = false) →
        ∃ t, exec (.join p) s = .next t ∧ Arrives s y u.2 t))

/-- R47, R199, R357: REFILL pops one record for each vacant lane, in order, while the queue holds any; the record's four words
go to the window's lane, and the lane joins the split. A course with no lane left sleeps on an empty open queue, and is torn down there if its consort is dying (R215).

R199, R200, R404: WPUSH pushes a record for each active lane that finds room, in order; the predicate says which did, and
every REFILL asleep on the queue wakes. -/
def Obligations.Refilling : Prop :=
   ((∀ (p : P) s x w, Runs s x ((List.range 4).map (p.d.toNat + ·)) [p.a.toNat] → x.iss.header.getLsbD 6 = true →
      refills s x.con = true → guarded p = false → fieldsOk p { d := true, a := true } = true → isS p.a = true →
      windowOk x p.d.toNat 4 = true → wqAt s ((sGet x.c p.a.toNat).toNat % 2 ^ 16) = some w →
      (x.sp.jrec.isSome = true → exec (.refill p) s = .next (retire s x 2)) ∧
      (w.owner ≠ (ctxOf s x.con).1 → x.sp.jrec = none → exec (.refill p) s = .next (trap s x cXLAT (sGet x.c p.a.toNat))) ∧
      (w.owner = (ctxOf s x.con).1 → x.sp.jrec = none →
        waitsPinned s (w.owner, w.root) x.con.cid (wqSpan w 0 (min w.count (vacant x).length)) = false → ∀ s' x' w',
        refillLanes ((sGet x.c p.a.toNat).toNat % 2 ^ 16) p.d.toNat s x (vacant x) = .ok (s', x') →
        wqAt s' ((sGet x.c p.a.toNat).toNat % 2 ^ 16) = some w' →
        (¬ (x'.sp.m = 0 ∧ w'.count = 0 ∧ w'.isOpen = true) → exec (.refill p) s = .next (retire s' x' 2)) ∧
        (x'.sp.m = 0 → w'.count = 0 → w'.isOpen = true → exec (.refill p) s = .next (sweepDying (freeSlot { x' with
          sp := { x'.sp with
            park := .refill ((sGet x.c p.a.toNat).toNat % 2 ^ 16), pc := x'.iss.hdr, off := x'.iss.off, point := false } } s')
          x'.con.cid)))) ∧
    (∀ q d s x l ls w b0 b1, wqAt s q = some w → w.count ≠ 0 →
      load s w.owner w.root (w.addr + 16 * (w.head % w.cap)) 8 = .ok b0 →
      load s w.owner w.root (w.addr + 16 * (w.head % w.cap) + 8) 8 = .ok b1 →
      ∃ t x', Settled s t (w.owner, w.root) [w.addr + 16 * (w.head % w.cap), w.addr + 16 * (w.head % w.cap) + 8] 8 ∧
        refillLanes q d s x (l :: ls) = refillLanes q d (setWq t { w with head := (w.head + 1) % w.cap, count := w.count - 1 }) x' ls ∧
        x' = { x with c := { x.c with v := x'.c.v }, sp := { x.sp with
          m := x.sp.m ||| BitVec.ofNat 64 (2 ^ l), exec := x.sp.exec ||| BitVec.ofNat 64 (2 ^ l) } } ∧
        (l < 64 → ∀ r k, k < 64 → vGet x'.c r k = if d ≤ r ∧ r < d + 4 ∧ k = l then
          ⟨BitVec.ofNat 32 (ofBytes (((b0 ++ b1).drop (4 * (r - d))).take 4)), 0⟩ else vGet x.c r k)) ∧
    (∀ q d s x l ls w, wqAt s q = some w → w.count = 0 → refillLanes q d s x (l :: ls) = .ok (s, x))) ∧
   ((∀ (p : P) s x w, Runs s x ((List.range 4).map (p.d.toNat + ·)) [p.a.toNat] → active x p ≠ 0 →
      fieldsOk p { d := true, a := true, mod := true } = true → isS p.a = true → windowOk x p.d.toNat 4 = true →
      wqAt s ((sGet x.c p.a.toNat).toNat % 2 ^ 16) = some w →
      (w.owner ≠ (ctxOf s x.con).1 → exec (.wpush p) s = .next (trap s x cXLAT (sGet x.c p.a.toNat))) ∧
      (w.owner = (ctxOf s x.con).1 →
        (∀ l j, l < x.c.width → (active x p).getLsbD l = true → j < 4 → (vGet x.c (p.d.toNat + j) l).tag = 0) →
        waitsPinned s (w.owner, w.root) x.con.cid (wqSpan w w.count (lanesOf (active x p) x.c.width).length) = false →
        ∀ s' x' ok, pushLanes ((sGet x.c p.a.toNat).toNat % 2 ^ 16) p.d.toNat s x 0 (lanesOf (active x p) x.c.width) = .ok (s', x', ok) →
        (∃ c', exec (.wpush p) s = .next (wakeRefills (retire s' { x' with c := c' } 2) ((sGet x.c p.a.toNat).toNat % 2 ^ 16)) ∧
          WritesP x.c c' p.mod.toNat (active x p) ok) ∧ x' = { x with k := { x.k with storeErrs := x'.k.storeErrs } })) ∧
    (∀ q d s x ok l ls w, wqAt s q = some w → (w.isOpen = false ∨ w.cap ≤ w.count) →
      pushLanes q d s x ok (l :: ls) = pushLanes q d s x ok ls) ∧
    (∀ q d s x ok l ls w s1 s2, wqAt s q = some w → w.isOpen = true → w.count < w.cap →
      store s w.owner w.root (w.addr + 16 * ((w.head + w.count) % w.cap))
        ((List.range 2).flatMap fun j => toBytes 4 (vVal x.c (d + j) l).toNat) = .ok s1 →
      store s1 w.owner w.root (w.addr + 16 * ((w.head + w.count) % w.cap) + 8)
        ((List.range 2).flatMap fun j => toBytes 4 (vVal x.c (d + 2 + j) l).toNat) = .ok s2 →
      pushLanes q d s x ok (l :: ls) =
        pushLanes q d (setWq s2 { w with count := w.count + 1 }) x (ok ||| BitVec.ofNat 64 (2 ^ l)) ls))

/-- R172, R304: CHK traps POISON when an active lane of its window is poisoned, and else has no effect. The value names the
poisoned lanes of the half with the lowest one, that half, and the reason of that lane's lowest poisoned register. -/
def Obligations.PoisonCheck : Prop :=
  ∀ (p : P) (fn : BitVec 4) s x, Runs s x ((List.range (fn.toNat + 1)).map (p.a.toNat + ·)) [] →
    let bad := fun l => l < x.c.width ∧ (active x p).getLsbD l = true ∧ ∃ j, j ≤ fn.toNat ∧ (vGet x.c (p.a.toNat + j) l).tag ≠ 0
    (active x p = 0 → exec (.chk p fn) s = .next (retire s x 2)) ∧
    (active x p ≠ 0 → fieldsOk p { a := true } = false → exec (.chk p fn) s = .next (ill s x iFIELD)) ∧
    (active x p ≠ 0 → fieldsOk p { a := true } = true → windowOk x p.a.toNat (fn.toNat + 1) = false →
      exec (.chk p fn) s = .next (ill s x iREGRANGE)) ∧
    (active x p ≠ 0 → fieldsOk p { a := true } = true → windowOk x p.a.toNat (fn.toNat + 1) = true →
      ((∀ l, ¬ bad l) → exec (.chk p fn) s = .next (retire s x 2)) ∧
      (∀ l j, bad l → (∀ m, m < l → ¬ bad m) → j ≤ fn.toNat → (vGet x.c (p.a.toNat + j) l).tag ≠ 0 →
        (∀ i, i < j → (vGet x.c (p.a.toNat + i) l).tag = 0) → x.c.width ≤ 64 →
        ∃ v : DWord, exec (.chk p fn) s = .next (trap s x cPOISON v) ∧ v.extractLsb' 0 8 = (vGet x.c (p.a.toNat + j) l).tag ∧
          v.getLsbD 8 = decide (32 ≤ l) ∧ v.extractLsb' 9 23 = 0 ∧
          ∀ k, k < 32 → (v.getLsbD (32 + k) = true ↔ bad (if 32 ≤ l then 32 + k else k))))

/-! ## Memory and tiles -/

/-- R37, R38: a long-latency instruction sets the clause's next flag and the next word follows; with no flag named its course
stays at its word. Its writes are outstanding. The first of a clause sets the flag that SETA names, the second that of SETB; a
field of 15 names none, and a third has none. R49: what it pushes to a queue later has the place of its word.

When the writes land is the model's reading (log 14). -/
def Obligations.LongLatency : Prop :=
  ∀ (s : State) (x : Cur) (w : PendWrite),
    (∀ f, flagFor x = some f → beginLong s x w = retire s { x with
      c := { x.c with
        pend := x.c.pend ++ [{ w with id := x.c.nextId, split := x.spi, flags := [f], turn := pushTurn x, holds := false }]
        nextId := x.c.nextId + 1 }
      iss := { x.iss with ll := x.iss.ll + 1 } } 2) ∧
    (flagFor x = none → Belongs s x → ∃ c', courseAt (beginLong s x w) x.con.cid x.c.idx = some c' ∧
      c'.pend = x.c.pend ++ [{ w with id := x.c.nextId, split := x.spi, flags := [], turn := pushTurn x, holds := true }] ∧
      alGet (coreAt (beginLong s x w) x.core).issue x.islot = some { x.iss with ll := x.iss.ll + 1, waits := true }) ∧
    (x.iss.ll = 0 → flagFor x = if hSetA x.iss.header < 12 then some (hSetA x.iss.header) else none) ∧
    (x.iss.ll = 1 → flagFor x = if hSetB x.iss.header < 12 then some (hSetB x.iss.header) else none) ∧
    (2 ≤ x.iss.ll → flagFor x = none) ∧ pushTurn x = 32 * x.iss.ord + x.iss.off

/-- R327, R328, R330, R332: LD and LDSP read each active lane's bytes, bound for the destination; LDSP gives a lane that fails
its reason instead of a trap. Neither writes memory.

R115, R121, R128: what they read is there now, or is what a write has replaced at that very place that nothing orders before the
load, all the bytes of one write alike; a write that they find done is seen by all from then on. R332: LDSP's tag is the reason of
the lane's translation failure, 7 for uncorrectable data, 8 for misalignment.

That the values are read as the word executes is the model's reading (log 14), and so is which writes are found late (log 10). -/
def Obligations.LaneLoads : Prop :=
  (∀ (p : P) s x, let f := memForm p (List.range 8) [0, 1, 2] [p.d.toNat] (dataW p) 4 false true
    let ctx := ctxOf s x.con
    let ls := lanesOf (active x p) x.c.width
    Runs s x (vregsOf f.regs) (memScalars p) → active x p ≠ 0 → formErr s x p f = none →
    queuesReady x (offReads p) (some p.d.toNat) = true →
    AccessOk s ctx .read (tyBits p.ty.toNat / 8) ((laneAccs x p ls).map fun c => (c.lane, c.tag)) (laneAccs x p ls) →
    waitsPinned s ctx x.con.cid (ls.map (laneVa x p)) = false →
    ∃ t w, exec (.ld p) s = .next (beginLong t (popFor x (offReads p)) w) ∧
      Looked s t x.reader ctx (ls.map (laneVa x p)) (tyBits p.ty.toNat / 8) ∧
      BoundFor w p.d.toNat (dataW p) x.c.width ls (fun l =>
        match loadSeen s x.reader ctx.1 ctx.2 (laneVa x p l) (tyBits p.ty.toNat / 8) with
        | .ok b => some (loaded p.ty.toNat b)
        | .error _ => none) ∧
      ((∀ l ∈ ls, ∃ b, loadSeen s x.reader ctx.1 ctx.2 (laneVa x p l) (tyBits p.ty.toNat / 8) = .ok b) → w.record = none)) ∧
  (∀ (p : P) s x, let f := memForm p (List.range 8) [0, 1, 2] [p.d.toNat] (dataW p) 4 false (decide (p.d.toNat < 248))
    let ctx := ctxOf s x.con
    let ls := lanesOf (active x p) x.c.width
    Runs s x (vregsOf f.regs) (memScalars p) → active x p ≠ 0 → formErr s x p f = none →
    queuesReady x (offReads p) (some p.d.toNat) = true →
    let n := tyBits p.ty.toNat / 8
    let good := fun l => (offLane x p l).2 = 0 ∧ laneVa x p l % n = 0
    let vas := ((laneAccs x p ls).filter fun c => c.tag == 0 && c.va % n == 0).map (·.va)
    waitsPinned s ctx x.con.cid vas = false →
    ∃ t w, exec (.ldsp p) s = .next (beginLong t (popFor x (offReads p)) w) ∧ Looked s t x.reader ctx vas n ∧ w.record = none ∧
      BoundFor w p.d.toNat (dataW p) x.c.width ls (fun l =>
        if good l then
          match loadSeen s x.reader ctx.1 ctx.2 (laneVa x p l) n with
          | .ok b => some (loaded p.ty.toNat b)
          | .error _ => none
        else none) ∧
      ∀ tag : Byte, tag ≠ 0 → ∀ l ∈ ls,
        ((offLane x p l).2 = tag ∨ ((offLane x p l).2 = 0 ∧ laneVa x p l % n ≠ 0 ∧ tag = 8) ∨
          (good l ∧ ∃ r, loadSeen s x.reader ctx.1 ctx.2 (laneVa x p l) n = .error (.xlat r) ∧ tag = BitVec.ofNat 8 r) ∨
          (good l ∧ loadSeen s x.reader ctx.1 ctx.2 (laneVa x p l) n = .error .mem ∧ tag = 7)) →
        alGet w.lanes (p.d.toNat * 64 + l) = some ⟨0, tag⟩ ∧
          (dataW p = 64 → alGet w.lanes ((p.d.toNat + 1) * 64 + l) = some ⟨0, tag⟩)) ∧
  (∀ (s : State) (r : Reader) (pasid root va n : Nat),
    (∀ e, translate s pasid root .read va = .error e → loadSeen s r pasid root va n = .error e) ∧
    (∀ l, translate s pasid root .read va = .ok l →
      (∀ e, loadLeaf s l va n = .error e → loadSeen s r pasid root va n = .error e) ∧
      ∀ b, loadLeaf s l va n = .ok b → b.length = n → ∃ (late : List Unseen) (b' : List Byte),
        loadSeen s r pasid root va n = .ok b' ∧ b'.length = n ∧ (∀ u ∈ late, u ∈ s.unseen ∧ u.openTo s r = true) ∧
        (spotOf s l va = none → b' = b) ∧ ∀ host key, spotOf s l va = some (host, key) → ∀ i, i < n →
          b'[i]? = match late.find? (fun u => u.reached host (key + i) 1) with
            | some u => u.old[key + i - u.key]?
            | none => b[i]?))

/-- R290, R293, R329, R331, R334, R371 to R373: the traps of an access, in their order: POISON, ALIGN with the first misaligned address,
XLAT with the reason and address of the first that does not translate; LD, LDS, ST, STS, ATOM and ATOMS take them, before any lane
acts. LDT and STT trap OWNER for a handle without a tile (DEAD), one that the engines own (LANES) or, for STT, a frozen one; then FIELD
for another type, before FROZEN; then POISON; then XLAT RANGE with the first bad coordinate word.

R172, R222: a lane's tag is that of its lowest poisoned register; TRAPV of POISON. -/
def Obligations.AccessTraps : Prop :=
  (∀ (s : State) (ctx : Nat × Nat) (a : Acc) (n : Nat) (tags : List (Nat × Byte)) (accs : List LaneAcc),
    (AccessOk s ctx a n tags accs → accessTrap s ctx a n tags accs = none) ∧
    ((∃ u ∈ tags, u.2 ≠ 0) → ∃ v, accessTrap s ctx a n tags accs = some (cPOISON, v) ∧
      ((tags.map (·.1)).Pairwise (· < ·) → (∀ u ∈ tags, u.1 < 64) → PoisonWord v tags)) ∧
    ((∀ u ∈ tags, u.2 = 0) → ∀ pre c post, accs = pre ++ c :: post → (∀ d ∈ pre, d.va % n = 0) → c.va % n ≠ 0 →
      accessTrap s ctx a n tags accs = some (cALIGN, BitVec.ofNat 64 c.va)) ∧
    ((∀ u ∈ tags, u.2 = 0) → (∀ c ∈ accs, c.va % n = 0) → ∀ pre c post r, accs = pre ++ c :: post →
      (∀ d ∈ pre, ∃ l, translate s ctx.1 ctx.2 a d.va = .ok l) → translate s ctx.1 ctx.2 a c.va = .error (.xlat r) →
      accessTrap s ctx a n tags accs = some (cXLAT, BitVec.ofNat 64 (r * 2 ^ 60 + c.va % 2 ^ 57)))) ∧
  (∀ ts : List (Nat × Byte), (firstTag ts = 0 ↔ ∀ t ∈ ts, t.2 = 0) ∧
    ∀ t ∈ ts, t.2 ≠ 0 → (∀ u ∈ ts, u.2 ≠ 0 → u ≠ t → t.1 < u.1) → firstTag ts = t.2) ∧
  (∀ (p : P) s x, let f := memForm p (List.range 8) [0, 1, 2] [p.d.toNat] (dataW p) 4 false true
    let accs := laneAccs x p (lanesOf (active x p) x.c.width)
    let n := tyBits p.ty.toNat / 8
    Runs s x (vregsOf f.regs) (memScalars p) → active x p ≠ 0 → formErr s x p f = none →
    (queuesReady x (offReads p) (some p.d.toNat) = true → ∀ c v,
      accessTrap s (ctxOf s x.con) .read n (accs.map fun a => (a.lane, a.tag)) accs = some (c, v) →
      exec (.ld p) s = .next (trap s x c v)) ∧
    (queuesReady x (p.d.toNat :: offReads p) none = true → ∀ c v,
      accessTrap s (ctxOf s x.con) .write n (accs.map fun a =>
        (a.lane, firstTag [(p.b.toNat, a.tag), (p.d.toNat, (srcVal x (dataW p) p.d.toNat a.lane).2)])) accs = some (c, v) →
      exec (.st p) s = .next (trap s x c v))) ∧
  (∀ (p : P) (fn : BitVec 4) s x,
    let f := { memForm p (atomTys fn.toNat) [0, 1] [p.d.toNat, p.c.toNat] (tyBits p.ty.toNat) 6 true true with rm := decide (fn.toNat = 10) }
    let accs := laneAccs x p (lanesOf (active x p) x.c.width)
    let w := tyBits p.ty.toNat
    Runs s x (vregsOf f.regs) (memScalars p) → active x p ≠ 0 → formErr s x p f = none →
    queuesReady x (p.c.toNat :: offReads p ++ (if fn.toNat = 9 then [p.d.toNat] else [])) (some p.d.toNat) = true → ∀ c v,
    accessTrap s (ctxOf s x.con) .write (w / 8) (accs.map fun a => (a.lane, firstTag
      ((if p.bk = 0 then [(p.b.toNat, a.tag)] else []) ++ [(p.c.toNat, (srcVal x w p.c.toNat a.lane).2)] ++
        (if fn.toNat = 9 then [(p.d.toNat, (srcVal x w p.d.toNat a.lane).2)] else [])))) accs = some (c, v) →
    exec (.atom p fn) s = .next (trap s x c v)) ∧
  (∀ (p : P) s x, Runs s x [] (p.d.toNat :: memScalars p) → guarded p = false → fieldsOk p (courseFree p) = true → courseLegal p = true →
    let n := tyBits p.ty.toNat / 8
    (∀ c v, accessTrap s (ctxOf s x.con) .read n [] [⟨0, courseAddr x p, 0⟩] = some (c, v) → exec (.lds p) s = .next (trap s x c v)) ∧
    ∀ c v, accessTrap s (ctxOf s x.con) .write n [] [⟨0, courseAddr x p, 0⟩] = some (c, v) → exec (.sts p) s = .next (trap s x c v)) ∧
  (∀ (p : P) (fn : BitVec 4) s x, Runs s x [] (p.d.toNat :: memScalars p ++ (if fn.toNat = 9 then [p.c.toNat] else [])) → guarded p = false →
    fieldsOk p { d := true, a := true, b := true, c := true, ty := true, rm := decide (fn.toNat = 10), bk := true, x3 := true } = true →
    ((atomTys fn.toNat).contains p.ty.toNat && decide (p.x3.toNat < 6) && isS p.d && isS p.a &&
      ((p.bk == 1 && isS p.b && (if fn.toNat = 9 then isS p.c else p.c == 0)) || (p.bk == 2 && decide (fn.toNat ≠ 9 ∧ fn.toNat ≠ 10))) &&
      (decide (p.rm.toNat ≠ 5 ∧ p.rm.toNat ≠ 6))) = true → ∀ c v,
    accessTrap s (ctxOf s x.con) .write (tyBits p.ty.toNat / 8) [] [⟨0, (sGet x.c p.a.toNat).toNat, 0⟩] = some (c, v) →
    exec (.atoms p fn) s = .next (trap s x c v)) ∧
  ∀ (p : P) s x, let f := memForm p (List.range 15) [0, 1, 2] [p.d.toNat] (dataW p) 0 false true
    let ls := lanesOf (active x p) x.c.width
    let ld := queuesReady x (offReads p) (some p.d.toNat) = true
    let st := queuesReady x (p.d.toNat :: offReads p) none = true
    let tag := fun (store : Bool) l => firstTag ((p.b.toNat, (offLane x p l).2) ::
      (if store then [(p.d.toNat, (srcVal x (dataW p) p.d.toNat l).2)] else []))
    Runs s x (vregsOf f.regs) (if p.bk = 1 then [p.b.toNat] else []) → active x p ≠ 0 → formErr s x p f = none →
    let both := fun (t : State) => (ld → exec (.ldt p) s = .next t) ∧ (st → exec (.stt p) s = .next t)
    (tileAt x.con p.a.toNat = none → both (owner s x 2 p.a.toNat)) ∧
    ∀ t, tileAt x.con p.a.toNat = some t →
      (t.own = true → both (owner s x 3 p.a.toNat)) ∧
      (t.own = false → t.ty ≠ p.ty.toNat → both (ill s x iFIELD)) ∧
      (t.own = false → t.ty = p.ty.toNat → t.frz = true → st → exec (.stt p) s = .next (owner s x 6 p.a.toNat)) ∧
      (t.own = false → t.ty = p.ty.toNat → ∀ store, (store = true → t.frz = false) →
        let ev : Instr := if store then .stt p else .ldt p
        (if store then st else ld) →
        ((∃ l ∈ ls, tag store l ≠ 0) → x.c.width ≤ 64 → ∃ v, exec ev s = .next (trap s x cPOISON v) ∧
          PoisonWord v (ls.map fun l => (l, tag store l))) ∧
        ((∀ l ∈ ls, tag store l = 0) → ∀ pre l post, ls = pre ++ l :: post → (∀ k ∈ pre, (coordOf t (offLane x p k).1).isSome = true) →
          coordOf t (offLane x p l).1 = none →
          exec ev s = .next (trap s x cXLAT (BitVec.ofNat 64 (rRange * 2 ^ 60 + (offLane x p l).1)))))

/-- R331, R372: LDS reads into a scalar register, i types by sign; STS stores a scalar register's low bytes and no other byte.

R106, R126: a store of policy 0 or 1 leaves its line in L1 for a release to pin, one of policy 2 or 3 does not.

R115, R121: a store that nothing orders after a write may come before it; what the write replaced then holds the store's bytes.
Another may miss a store of a course for a while, and finds what it replaced.

That LDS's value is read as the word executes is the model's reading (log 14), and so is which writes are found late (log 10). -/
def Obligations.CourseAccesses : Prop :=
  (∀ (p : P) s x, let ctx := ctxOf s x.con
    Runs s x [] (p.d.toNat :: memScalars p) → guarded p = false → fieldsOk p (courseFree p) = true → courseLegal p = true →
    courseAddr x p % (tyBits p.ty.toNat / 8) = 0 → (∃ l, translate s ctx.1 ctx.2 .read (courseAddr x p) = .ok l) →
    waitsPinned s ctx x.con.cid [courseAddr x p] = false →
    ∀ b, loadSeen s x.reader ctx.1 ctx.2 (courseAddr x p) (tyBits p.ty.toNat / 8) = .ok b →
    ∃ t w, exec (.lds p) s = .next (beginLong t x w) ∧ Looked s t x.reader ctx [courseAddr x p] (tyBits p.ty.toNat / 8) ∧ w.sregs = [p.d.toNat] ∧ w.vregs = [] ∧ w.push = none ∧
      w.record = none ∧ w.scalars = [(p.d.toNat, BitVec.ofInt 64 (if tySigned p.ty.toNat then signedOf (tyBits p.ty.toNat) (ofBytes b)
        else ofBytes b))]) ∧
  (∀ (p : P) s x, let ctx := ctxOf s x.con
    Runs s x [] (p.d.toNat :: memScalars p) → guarded p = false → fieldsOk p (courseFree p) = true → courseLegal p = true →
    courseAddr x p % (tyBits p.ty.toNat / 8) = 0 → (∃ l, translate s ctx.1 ctx.2 .write (courseAddr x p) = .ok l) →
    waitsPinned s ctx x.con.cid [courseAddr x p] = false →
    ∃ t k, exec (.sts p) s = .next (retire t { x with k := k } 2) ∧
      StoresOnly s t ctx [courseAddr x p] (tyBits p.ty.toNat / 8) ∧
      k = { x.k with dirty := k.dirty, storeErrs := k.storeErrs } ∧ (2 ≤ p.x3.toNat → k.dirty = x.k.dirty) ∧
      ∀ l key, translate s ctx.1 ctx.2 .write (courseAddr x p) = .ok l → l.host = false →
        placeOf s (l.frame + courseAddr x p % 4096) = .mem key → lineOk s (lineOf key) l.key = true →
        ((∀ u ∈ s.unseen, findsOld s (.writer x.con.cid x.c.idx) u = true → u.reached false key (tyBits p.ty.toNat / 8) = false) →
          ∀ i, i < tyBits p.ty.toNat / 8 → smGet 0 t.mem (key + i) = byteAt (sGet x.c p.d.toNat).toNat i) ∧
        (p.x3.toNat < 2 → ∃ e ∈ k.dirty, e = ⟨lineOf key, x.con.cid, x.c.idx, x.sp.m, some x.spi⟩)) ∧
  (∀ s pasid cid ci whole l va bs host key s', bs ≠ [] → spotOf s l va = some (host, key) →
    storeSeen s pasid cid ci whole l va bs = .ok s' →
    let before := s.unseen.filter fun u => u.reached host key bs.length && findsOld s (.writer cid ci) u
    let mem := fun (u : State) (a : Nat) => if host then smGet 0 u.hostmem a else smGet 0 u.mem a
    (∀ i, i < bs.length → mem s' (key + i) = if before.any (fun u => u.reached host (key + i) 1) then mem s (key + i) else bs.getD i 0) ∧
    (before ≠ [] → s'.unseen = (s.unseen.filter fun u => !u.reached host key bs.length) ++ before.map fun u =>
      { u with old := u.old.zipIdx.map fun o => if key ≤ u.key + o.2 then bs.getD (u.key + o.2 - key) o.1 else o.1 }) ∧
    (before = [] → ∀ u ∈ s'.unseen, (u ∈ s.unseen ∧ u.reached host key bs.length = false) ∨
      (Replaced s (.course cid ci) host key bs.length u ∧ u.known = [] ∧ (pasid, va) ∈ u.via ∧ ∀ i ∈ whole, i ∈ u.whole))) ∧
  (∀ (s : State) (u : Unseen) cid ci, (u.openTo s (.course cid ci) = true ↔ .course cid ci ∉ u.writers ∧ ∀ i ∈ u.known, inInst s cid i = false) ∧
    (u.openTo s (.writer cid ci) = true ↔ u.openTo s (.course cid ci) = true ∧ ∀ i ∈ u.whole, inInst s cid i = false))

/-- R370, R371: ST stores each active lane's value, and no byte but those.

R113, R370: of the lanes that store to one physical location, by whatever addresses, one wins. Where a store comes before a write
that nothing orders before it, CourseAccesses says what it changes (log 10). -/
def Obligations.LaneStores : Prop :=
  ∀ (p : P) s x, let f := memForm p (List.range 8) [0, 1, 2] [p.d.toNat] (dataW p) 4 false true
    let ctx := ctxOf s x.con
    let ls := lanesOf (active x p) x.c.width
    let n := tyBits p.ty.toNat / 8
    Runs s x (vregsOf f.regs) (memScalars p) → active x p ≠ 0 → formErr s x p f = none →
    queuesReady x (p.d.toNat :: offReads p) none = true →
    AccessOk s ctx .write n ((laneAccs x p ls).map fun c =>
      (c.lane, firstTag [(p.b.toNat, c.tag), (p.d.toNat, (srcVal x (dataW p) p.d.toNat c.lane).2)])) (laneAccs x p ls) →
    waitsPinned s ctx x.con.cid (ls.map (laneVa x p)) = false →
    ∃ t x', exec (.st p) s = .next (retire t x' 2) ∧ StoresOnly s t ctx (ls.map (laneVa x p)) n ∧
      x' = { x with con := popQueues x.con (qWidth x.c) (p.d.toNat :: offReads p), k := x'.k } ∧
      x'.k = { x.k with dirty := x'.k.dirty, storeErrs := x'.k.storeErrs } ∧
      ∀ c ∈ ls, ∀ l key, translate s ctx.1 ctx.2 .write (laneVa x p c) = .ok l → l.host = false →
        placeOf s (l.frame + laneVa x p c % 4096) = .mem key → lineOk s (lineOf key) l.key = true →
        (∀ c' ∈ ls, ∀ l' key', translate s ctx.1 ctx.2 .write (laneVa x p c') = .ok l' → l'.host = false →
          placeOf s (l'.frame + laneVa x p c' % 4096) = .mem key' →
          (lineOf key' = lineOf key → l'.key = l.key) ∧ (key' = key ∨ key' + n ≤ key ∨ key + n ≤ key')) →
        (∀ u ∈ s.unseen, findsOld s (.writer x.con.cid x.c.idx) u = true → u.reached false key n = false) →
        ∃ c' ∈ ls, (∃ l', translate s ctx.1 ctx.2 .write (laneVa x p c') = .ok l' ∧ l'.host = false ∧
            placeOf s (l'.frame + laneVa x p c' % 4096) = .mem key) ∧
          ∀ i, i < n → smGet 0 t.mem (key + i) = byteAt (srcVal x (dataW p) p.d.toNat c').1 i

/-- R113, R288 to R293: ATOM performs the atomic of each active lane, one at a time in some order; ATOMS performs one. What
each writes is the operation's result, and what it returns, bound for its destination, is the old value. An f32 addition's flags
come with it.

R106, R126: an atomic of a scope wider than the consort leaves no line in L1. R121, R124: an atomic that finds what a write replaced
comes before that write, and its own write is one towards the agents of its scope (log 10).

That the old values are those of memory as the word executes is the model's reading (log 14). -/
def Obligations.Atomics : Prop :=
  (∀ (p : P) (fn : BitVec 4) s x,
    let f := { memForm p (atomTys fn.toNat) [0, 1] [p.d.toNat, p.c.toNat] (tyBits p.ty.toNat) 6 true true with rm := decide (fn.toNat = 10) }
    let ctx := ctxOf s x.con
    let accs := laneAccs x p (lanesOf (active x p) x.c.width)
    let reads := p.c.toNat :: offReads p ++ (if fn.toNat = 9 then [p.d.toNat] else [])
    let data := fun l => srcVal x (tyBits p.ty.toNat) p.c.toNat l
    let expd := fun l => if fn.toNat = 9 then srcVal x (tyBits p.ty.toNat) p.d.toNat l else (0, 0)
    Runs s x (vregsOf f.regs) (memScalars p) → active x p ≠ 0 → formErr s x p f = none →
    queuesReady x reads (some p.d.toNat) = true →
    (∀ c ∈ accs, (p.bk = 0 → c.tag = 0) ∧ (data c.lane).2 = 0 ∧ (expd c.lane).2 = 0) →
    AccessOk s ctx .write (tyBits p.ty.toNat / 8) [] accs → waitsPinned s ctx x.con.cid (accs.map (·.va)) = false →
    ∃ (order : List LaneAcc) (x' : Cur) (w : PendWrite), order.Perm accs ∧
      let run := atomRun s x.con x.c.idx ctx p.x3.toNat p.ty.toNat fn.toNat (rmOf x.c p.rm.toNat) (fun l => (data l).1) (fun l => (expd l).1)
        (noteAll s ctx (accs.map (·.va))) order
      exec (.atom p fn) s = .next (beginLong run.1 x' w) ∧
      BoundFor w p.d.toNat (tyBits p.ty.toNat) x.c.width (accs.map (·.lane)) (fun l => (alGet run.2 l).bind (·.map (·.1))) ∧
      (w.record = none ↔ ∀ r ∈ run.2, r.2.isSome = true) ∧ w.fl = run.2.foldl (fun f r => f ||| r.2.elim 0 (·.2.1)) 0 ∧
      x' = { x with con := popQueues x.con (qWidth x.c) reads, k := x'.k } ∧ x'.k = { x.k with dirty := x'.k.dirty } ∧
      (2 ≤ p.x3.toNat → x'.k = x.k)) ∧
  (∀ (p : P) (fn : BitVec 4) s x, let ctx := ctxOf s x.con
    let va := (sGet x.c p.a.toNat).toNat
    let ty := p.ty.toNat
    Runs s x [] (p.d.toNat :: memScalars p ++ (if fn.toNat = 9 then [p.c.toNat] else [])) → guarded p = false →
    fieldsOk p { d := true, a := true, b := true, c := true, ty := true, rm := decide (fn.toNat = 10), bk := true, x3 := true } = true →
    ((atomTys fn.toNat).contains ty && decide (p.x3.toNat < 6) && isS p.d && isS p.a &&
      ((p.bk == 1 && isS p.b && (if fn.toNat = 9 then isS p.c else p.c == 0)) || (p.bk == 2 && decide (fn.toNat ≠ 9 ∧ fn.toNat ≠ 10))) &&
      (decide (p.rm.toNat ≠ 5 ∧ p.rm.toNat ≠ 6))) = true →
    va % (tyBits ty / 8) = 0 → (∃ l, translate s ctx.1 ctx.2 .write va = .ok l) → waitsPinned s ctx x.con.cid [va] = false →
    let r := atomOne s (noteAll s ctx [va]) x.con x.c.idx ctx p.x3.toNat ty fn.toNat (rmOf x.c p.rm.toNat) va
      ((if p.bk = 1 then (sGet x.c p.b.toNat).toNat else if tySigned ty then wrapTo 64 (signedOf 16 (imm16 p)) else imm16 p) % 2 ^ tyBits ty)
      ((sGet x.c (p.c.toNat % 64)).toNat % 2 ^ tyBits ty)
    ∃ x' w, exec (.atoms p fn) s = .next (beginLong r.1 x' w) ∧ w.sregs = [p.d.toNat] ∧ w.vregs = [] ∧ w.push = none ∧
      (match r.2 with
        | some (m, fl, _) => w.record = none ∧ w.fl = fl ∧
            w.scalars = [(p.d.toNat, BitVec.ofInt 64 (if tySigned ty then signedOf (tyBits ty) m else m))]
        | none => w.record.isSome = true ∧ w.scalars = [] ∧ w.fl = 0) ∧
      x' = { x with k := x'.k } ∧ x'.k = { x.k with dirty := x'.k.dirty } ∧ (2 ≤ p.x3.toNat → x'.k = x.k)) ∧
  (∀ t s con ci ctx scope ty fn rm va d e l b, fn ≤ 9 → translate t ctx.1 ctx.2 .write va = .ok l →
    loadFound s (.writer con.cid ci) l va (tyBits ty / 8) = .ok b →
    (fn = 9 → ofBytes b ≠ e → ∃ s', atomOne t s con ci ctx scope ty fn rm va d e = (s', some (ofBytes b, 0, false)) ∧
      s' = { s with unseen := s'.unseen } ∧ ∀ u, u ∈ s'.unseen ↔ u ∈ s.unseen ∧ (findsOld s (.writer con.cid ci) u = true ∨
        ∀ p, spotOf s l va = some p → u.reached p.1 p.2 (tyBits ty / 8) = false)) ∧
    ((fn ≠ 9 ∨ ofBytes b = e) → ∀ s', storeSeen s ctx.1 con.cid ci (if scope = 0 then [] else [instOf s con scope]) l va
        (toBytes (tyBits ty / 8) (atomResult ty fn (ofBytes b) d)) = .ok s' →
      atomOne t s con ci ctx scope ty fn rm va d e = (s', some (ofBytes b, 0, true)))) ∧
  (∀ t s con ci ctx scope rm va d e l b s', translate t ctx.1 ctx.2 .write va = .ok l →
    loadFound s (.writer con.cid ci) l va 4 = .ok b →
    storeSeen s ctx.1 con.cid ci (if scope = 0 then [] else [instOf s con scope]) l va
      (toBytes 4 (fAdd fmtF32 rm false (ofBytes b) d).1) = .ok s' →
    atomOne t s con ci ctx scope 10 10 rm va d e = (s', some (ofBytes b, (fAdd fmtF32 rm false (ofBytes b) d).2, true)))

/-- R117 to R119, R126, R127, R313: FENCE that orders stores releases: the agents of its scope find from then on the course's stores and
what is ordered before its accesses; in a narrow scope it
pins every line of the stores before it, of the split's own lineage or of its lanes, and no other, unless the line's set of 8 ways
is full of pins; in a wider one it ends the consort's pins. Pins of 2^16 cycles end by then and are counted. No byte changes. FENCE
that orders loads awaits the course's CHORD and SMARCH reads.

That a fence does nothing more, and nothing at course scope, is the model's (log 10); so are which stores are the
split's, that a wide release drops the consort's whole list, and that an old pin is counted by what drops it (log 30). -/
def Obligations.Fences : Prop :=
  ∀ (p : P) s x, Runs s x [] [] → guarded p = false → fieldsOk p { a := true, x3 := true } = true →
    p.a.toNat % 16 ≠ 0 → 16 ≤ p.a.toNat → p.x3.toNat < 6 →
    ((p.a.toNat % 16).testBit 0 = true → x.reads = true → exec (.fence p) s = .next (waitHere s x)) ∧
    (((p.a.toNat % 16).testBit 0 = false ∨ x.reads = false) →
    ((p.a.toNat % 16).testBit 1 = false → exec (.fence p) s = .next (retire s x 2)) ∧
    ((p.a.toNat % 16).testBit 1 = true → ∃ t k, exec (.fence p) s = .next (retire t { x with k := k } 2) ∧
      (p.x3.toNat = 0 → t = s) ∧
      (p.x3.toNat ≠ 0 → Shown s t (instOf s x.con p.x3.toNat) fun u => !u.openTo s (.course x.con.cid x.c.idx)) ∧ k = { x.k with pins := k.pins, dirty := k.dirty, pinTimeouts := k.pinTimeouts } ∧
      (2 ≤ p.x3.toNat → (∀ q ∈ k.pins, q.cid ≠ x.con.cid) ∧ (∀ d ∈ k.dirty, d.cid ≠ x.con.cid) ∧
        (∀ q ∈ x.k.pins, q.cid ≠ x.con.cid → s.cycles < q.since + 2 ^ 16 → q ∈ k.pins) ∧
        k.pinTimeouts = x.k.pinTimeouts + (x.k.pins.filter fun q => decide (q.since + 2 ^ 16 ≤ s.cycles)).length) ∧
      (p.x3.toNat ≤ 1 → (∀ q ∈ k.pins, q ∈ x.k.pins ∨ (q.cid = x.con.cid ∧ q.since = s.cycles ∧
          ∃ d ∈ x.k.dirty, d.line = q.line ∧ d.cid = x.con.cid ∧ d.ci = x.c.idx ∧
            (d.sp = some x.spi ∨ (d.m &&& x.sp.m) ≠ 0))) ∧
        (x.k.pins.Nodup → ∀ d ∈ x.k.dirty, d.cid = x.con.cid → d.ci = x.c.idx → (d.sp = some x.spi ∨ (d.m &&& x.sp.m) ≠ 0) →
          (∃ q ∈ k.pins, q.line = d.line ∧ q.cid = x.con.cid) ∨
          8 ≤ (k.pins.filter fun q => q.line % 512 == d.line % 512).length))) ∧
    (x.reads = true ↔ (∃ t ∈ x.k.openTiles ++ x.k.closedTiles, ∃ r ∈ t.rows, r.cid = x.con.cid ∧ r.ci = x.c.idx ∧ r.net = none) ∨
      ∃ r ∈ x.k.stipple, r.cid = x.con.cid ∧ r.ci = x.c.idx ∧ r.state = none ∧ r.poison = none) ∧
    (instOf s x.con 1 = .consort x.con.cid ∧ instOf s x.con 2 = gangInst s x.con ∧ instOf s x.con 3 = .die (x.con.core / 64) ∧
      instOf s x.con 4 = .package ∧ instOf s x.con 5 = .system) ∧
    (∀ l, launchAt s x.con.launch = some l → gangInst s x.con =
      if l.gangSize = 0 ∨ x.con.capo = true then .consort x.con.cid else .gang l.lid (x.con.index / l.gangSize)) ∧
    ∀ cid con, conAt s cid = some con → ∀ i, (inInst s cid i = true ↔
      i = .consort cid ∨ (∃ l g, i = .gang l g ∧ gangInst s con = i) ∨ i = .die (con.core / 64) ∨ i = .package ∨ i = .system))

/-- R333, R334, R373: LDT reads an element for each active lane; STT writes one, a lane that loses leaving no trace, and no
other element of the tile and no byte outside it.

That the elements are read as the word executes is the model's reading (log 14). -/
def Obligations.TileAccesses : Prop :=
  ∀ (p : P) s x t, let f := memForm p (List.range 15) [0, 1, 2] [p.d.toNat] (dataW p) 0 false true
    let ls := lanesOf (active x p) x.c.width
    let at_ := fun l => coordOf t (offLane x p l).1
    Runs s x (vregsOf f.regs) (if p.bk = 1 then [p.b.toNat] else []) → active x p ≠ 0 → formErr s x p f = none →
    tileAt x.con p.a.toNat = some t → t.own = false → t.ty = p.ty.toNat →
    (∀ l ∈ ls, (offLane x p l).2 = 0 ∧ ∃ e, at_ l = some e) →
    (queuesReady x (offReads p) (some p.d.toNat) = true →
      ∃ w, exec (.ldt p) s = .next (beginLong s (popFor x (offReads p)) w) ∧ w.record = none ∧
        BoundFor w p.d.toNat (dataW p) x.c.width ls fun l => (at_ l).map fun e =>
          if p.ty.toNat ≤ 2 then wrapTo 32 (signedOf (tyBits p.ty.toNat) (tileRead x.con t e.1 e.2)) else tileRead x.con t e.1 e.2) ∧
    (queuesReady x (p.d.toNat :: offReads p) none = true → t.frz = false → (∀ l ∈ ls, (srcVal x (dataW p) p.d.toNat l).2 = 0) →
      ∃ m, exec (.stt p) s = .next (retire s
          (popFor { x with con := { x.con with tmem := m } } (p.d.toNat :: offReads p)) 2) ∧
        (∀ a, (a < tileAddr t ∨ tileAddr t + t.rows * pitchOf t.ty t.cols ≤ a) → smGet 0 m a = smGet 0 x.con.tmem a) ∧
        (∀ r c, r < t.rows → c < t.cols → (∀ l ∈ ls, at_ l ≠ some (r, c)) →
          tileRead { x.con with tmem := m } t r c = tileRead x.con t r c) ∧
        (∀ l ∈ ls, ∀ r c, at_ l = some (r, c) → ∃ l' ∈ ls, at_ l' = some (r, c) ∧
          tileRead { x.con with tmem := m } t r c = (srcVal x (dataW p) p.d.toNat l').1 % 2 ^ tyBits t.ty))

/-- R96 to R98, R374, R375: TALLOC makes a tile in the lowest free run of its group, with OWNER lanes and every element 0; TFREE
takes a tile away.

R99, R127, R128, R376, R377: TGIVE gives a tile to the engines and releases at gang scope, once the course's CHORD and SMARCH reads are
made; TTAKE takes it back once no earlier command names it, waiting till then whoever has it by then, and what its copies wrote is as
written by the course.

That the two do this to what is unseen, and order nothing more, is the model's reading (log 10). -/
def Obligations.TileTable : Prop :=
   ((∀ (p : P) s x, let v := (sGet x.c p.a.toNat).toNat
      let n := granulesOf (bits v 0 7 + 1) (bits v 8 7 + 1) p.ty.toNat
      Runs s x [] [p.a.toNat] → guarded p = false → fieldsOk p { d := true, a := true, ty := true } = true →
      (isS p.d && isS p.a) = true → v / 2 ^ 21 = 0 → v.testBit 15 = false → v.testBit 7 = false → bits v 16 4 ≤ 8 →
      p.d.toNat < kdByte (launchOf s x.con) 19 →
      (∀ t, tileAt x.con p.d.toNat = some t → exec (.talloc p) s = .next (owner s x oLIVE p.d.toNat)) ∧
      (tileAt x.con p.d.toNat = none → (∀ g, g < 8 → (bits v 16 4 = g ∨ bits v 16 4 = 8) → freeRun x.con g n = none) →
        exec (.talloc p) s = .next (owner s x oSPACE p.d.toNat)) ∧
      (tileAt x.con p.d.toNat = none → ∀ g b, g < 8 →
        (bits v 16 4 = g ∨ (bits v 16 4 = 8 ∧ ∀ g', g' < g → freeRun x.con g' n = none)) → freeRun x.con g n = some b →
        let t : TileEnt := ⟨true, p.ty.toNat, bits v 0 7 + 1, bits v 8 7 + 1, g, b, n, v.testBit 20, false, false⟩
        ∃ con', exec (.talloc p) s = .next (retire s { x with con := con' } 2) ∧
          con' = { x.con with tiles := alSet x.con.tiles p.d.toNat t, tmem := con'.tmem } ∧
          ∀ a, smGet 0 con'.tmem a = if tileAddr t ≤ a ∧ a < tileAddr t + n * 4096 then 0 else smGet 0 x.con.tmem a)) ∧
    (∀ (con : Consort) (g n b : Nat), freeRun con g n = some b →
      (con.resv.getD g (0, 0)).1 ≤ b ∧ b + n ≤ (con.resv.getD g (0, 0)).1 + (con.resv.getD g (0, 0)).2 ∧
      (∀ i, i < n → granTaken con g (b + i) = false) ∧
      ∀ c, (con.resv.getD g (0, 0)).1 ≤ c → c < b → ∃ i, i < n ∧ granTaken con g (c + i) = true) ∧
    (∀ (p : P) s x t, Runs s x [] [] → guarded p = false → fieldsOk p { d := true } = true → isS p.d = true →
      tileAt x.con p.d.toNat = some t →
      (t.own = true → exec (.tfree p) s = .next (owner s x oLANES p.d.toNat)) ∧
      (t.own = false → exec (.tfree p) s = .next (retire (failPeers s x.con.cid p.d.toNat) { x with
        con := { x.con with tiles := alSet x.con.tiles p.d.toNat { t with v := false } }
        k := { x.k with chans := (coreAt (failPeers s x.con.cid p.d.toNat) x.core).chans } } 2))) ∧
    (∀ s cid h, failPeers s cid h = { s with cores := (failPeers s cid h).cores, saved := (failPeers s cid h).saved } ∧
      (∀ k, alGet (failPeers s cid h).cores k = (alGet s.cores k).map fun c =>
        { c with chans := c.chans.map fun q => q.map (failAt s cid h) }) ∧
      (failPeers s cid h).saved = s.saved.map (fun v => { v with cmds := v.cmds.map fun c => (c.1, failAt s cid h c.2) }) ∧
      ∀ c : Cmd, (∀ tpl s0 s1 s2 s3, c.kind = .copy tpl s0 s1 s2 s3 → Tpl.kind tpl = 2 → c.begun = true →
          c.todo ≠ [] → (cmdWrites s c).contains (.tile cid h) = true → failAt s cid h c = { c with failed := true, todo := [] }) ∧
        (c.begun = false ∨ c.todo = [] ∨ (cmdWrites s c).contains (.tile cid h) = false ∨ (∀ tpl s0 s1 s2 s3, c.kind ≠ .copy tpl s0 s1 s2 s3) →
          failAt s cid h c = c)) ∧
    (∀ (p : P) s x, Runs s x [] [] → guarded p = false → fieldsOk p { d := true } = true → isS p.d = true →
      tileAt x.con p.d.toNat = none → ∀ i ∈ [Instr.tfree p, .tgive p, .ttake p], exec i s = .next (owner s x oDEAD p.d.toNat))) ∧
   ((∀ (p : P) s x t s1 x1, Runs s x [] [] → guarded p = false → fieldsOk p { d := true } = true → isS p.d = true →
      tileAt x.con p.d.toNat = some t →
      (x.reads = true → exec (.tgive p) s = .next (waitHere s x)) ∧
      (x.reads = false → Recorded s x [p.d.toNat] 9 0 s1 x1 → ∃ u,
        Shown s1 u (gangInst s1 x1.con) (fun v => !v.openTo s1 (.course x1.con.cid x1.c.idx)) ∧ exec (.tgive p) s = .next (retire u { x1 with
          con := setOwn x1.con p.d.toNat true, k := unpin s1.cycles x.con.cid x.k } 2)) ∧
      (x.iss.await ≠ none → exec (.ttake p) s = .next (waitHere s x)) ∧
      (Recorded s x [p.d.toNat] 10 0 s1 x1 → x.iss.await = none →
        (t.own = false ∨ tilePending s1 x.con.cid p.d.toNat s1.tick = false →
          exec (.ttake p) s = .next (retire (sawCopies s1 x.con.cid x.c.idx p.d.toNat) { x1 with con := setOwn x1.con p.d.toNat false } 2)) ∧
        (t.own = true → tilePending s1 x.con.cid p.d.toNat s1.tick = true →
          exec (.ttake p) s = .next (waitHere s1 { x1 with iss := { x1.iss with await := some s1.tick } })))) ∧
    (∀ con h own t, tileAt con h = some t → setOwn con h own = { con with tiles := alSet con.tiles h { t with own := own } }) ∧
    (∀ (islot : Nat) s x before, cur? { s with turn := .slot (unitOf s) islot } = some x → x.iss.await = some before →
      let h := bits (x.iss.words.getD (x.iss.off - 1) 0).toNat 17 8
      (tilePending s x.con.cid h before = false → exec (.ttakeComplete islot) s =
        .next (retire (sawCopies s x.con.cid x.c.idx h) { x with con := setOwn x.con h false, iss := { x.iss with await := none } } 2)) ∧
      (tilePending s x.con.cid h before = true → exec (.ttakeComplete islot) s = .next s)) ∧
    (∀ s cid ci h, sawCopies s cid ci h = { s with
      unseen := s.unseen.map fun u => if u.writers.contains (.copy cid h false) || u.writers.contains (.copy cid h true) then
        { u with writers := .course cid ci :: u.writers } else u }))

/-! ## Engines, flags and barriers -/

/-- R126, R136, R137, R408: XTPL loads 64 bytes, as one access, into a template entry when they are a valid image, and else traps
ILL FIELD; a misaligned address traps ALIGN, one that does not translate XLAT, and an access to a pinned line waits.

R224: uncorrectable data leaves the template, and its record comes late. Which writes the load finds late is the model's (log 10).

R132 to R134, R138, R142, R345 to R350, R362, R406, R407: a legal engine command joins its queue, last, with its scalars and
template as they are now; XCOPYM queues its copy and then its MMA. -/
def Obligations.EngineIssue : Prop :=
   (∀ (p : P) s x, let ctx := ctxOf s x.con
      let va := (sGet x.c p.a.toNat).toNat
      Runs s x [] [p.a.toNat] → guarded p = false → fieldsOk p { d := true, a := true } = true → (isS p.d && isS p.a) = true →
      p.d.toNat < x.con.ntpl →
      (va % 64 ≠ 0 → exec (.xtpl p) s = .next (trap s x cALIGN (BitVec.ofNat 64 va))) ∧
      (va % 64 = 0 → ∀ r, translate s ctx.1 ctx.2 .read va = .error (.xlat r) →
        exec (.xtpl p) s = .next (trap s x cXLAT (BitVec.ofNat 64 (r * 2 ^ 60 + va % 2 ^ 57)))) ∧
      (va % 64 = 0 → (∃ l, translate s ctx.1 ctx.2 .read va = .ok l) →
        (waitsPinned s ctx x.con.cid [va] = true → exec (.xtpl p) s = .next (waitHere s x)) ∧
        (waitsPinned s ctx x.con.cid [va] = false → ∃ t, Looked s t x.reader ctx [va] 64 ∧
          (∀ b, loadSeen s x.reader ctx.1 ctx.2 va 64 = .ok b →
            (Tpl.valid (BitVec.ofNat 512 (ofBytes b)) = true → exec (.xtpl p) s = .next (retire t { x with
              con := { x.con with tpls := alSet x.con.tpls p.d.toNat (BitVec.ofNat 512 (ofBytes b)) } } 2)) ∧
            (Tpl.valid (BitVec.ofNat 512 (ofBytes b)) = false → exec (.xtpl p) s = .next (ill t x iFIELD))) ∧
          (loadSeen s x.reader ctx.1 ctx.2 va 64 = .error .mem → exec (.xtpl p) s = .next (imprecise (retire t x 2) x.core
            ⟨x.con.cid, x.c.idx, x.spi, x.c.gen, x.c.slot, x.iss.hdr + 4 * x.iss.off, va % 2 ^ 57 / 64 * 64⟩))))) ∧
   ((∀ i p k s x, MatrixLegal s x i p k → guarded p = false → FlagLegal x p → roomFor x.k [4] = true → etching x = false →
      Runs s x [] (match i with
        | .mdrainPeer q => [q.b.toNat]
        | .mdrainOpeer q => [q.b.toNat]
        | _ => []) →
      ∃ k', exec i s = .next (retire s { x with k := k' } 2) ∧
        Queued x.k k' 4 (fresh s x x.k.seq k (if p.c = 0xFF then none else some p.c.toNat) none)) ∧
    (∀ (p : P) s x plans, Runs s x [] ((List.range 4).map (p.a.toNat + ·)) → etching x = false →
      planCopy x.con p none (tplAt x.con p.d.toNat) (sGet x.c p.a.toNat) (sGet x.c (p.a.toNat + 1)) (sGet x.c (p.a.toNat + 2))
        (sGet x.c (p.a.toNat + 3)) = .ok plans → roomFor x.k [p.x3.toNat] = true →
      ∃ k', exec (.xcopy p) s = .next (retire s { x with k := k' } 2) ∧ Queued x.k k' p.x3.toNat (fresh s x x.k.seq
        (.copy (tplAt x.con p.d.toNat) (sGet x.c p.a.toNat) (sGet x.c (p.a.toNat + 1)) (sGet x.c (p.a.toNat + 2))
          (sGet x.c (p.a.toNat + 3))) (some p.b.toNat) none)) ∧
    (∀ (p : P) (fn : BitVec 4) s x plans, Runs s x [] ((List.range 4).map (p.a.toNat + ·)) → etching x = false →
      planCopy x.con p (some (fn.toNat, 0)) (tplAt x.con p.d.toNat) (sGet x.c p.a.toNat) (sGet x.c (p.a.toNat + 1))
        (sGet x.c (p.a.toNat + 2)) (sGet x.c (p.a.toNat + 3)) = .ok plans → roomFor x.k [p.x3.toNat, 4] = true →
      let s2 := (sGet x.c (p.a.toNat + 2)).toNat
      let other := s2 / 2 ^ 24 % 64
      let mine := (sGet x.c (p.a.toNat + 1)).toNat % 64
      ∃ k1 k2, exec (.xcopym p fn) s = .next (retire s { x with k := k2 } 2) ∧
        Queued x.k k1 p.x3.toNat (fresh s x x.k.seq (.copy (tplAt x.con p.d.toNat) (sGet x.c p.a.toNat) (sGet x.c (p.a.toNat + 1))
          (sGet x.c (p.a.toNat + 2)) (sGet x.c (p.a.toNat + 3))) (some p.b.toNat) none) ∧
        Queued k1 k2 4 (fresh s x (x.k.seq + 1) (.mma p.ty.toNat (16 * 2 ^ fn.toNat) (p.sat == 1) (s2 / 2 ^ 32 % 8)
          (if s2.testBit 30 then other else mine) (if s2.testBit 30 then mine else other))
          (if p.c = 0xFF then none else some p.c.toNat) (some x.k.seq))))

/-- R143, R145, R300 to R303: CFADD adds modulo 2^15 and keeps ERR, CFSET writes the whole flag, CFRD reads it, and CFWAIT, which
took its threshold when its clause issued, traps CFERR on an ERR sampled then. -/
def Obligations.CountFlags : Prop :=
  (∀ (p : P) s x s1 x1, Runs s x [] [] → guarded p = false → fieldsOk p immFree = true → p.bk = 2 → imm16 p < 2 ^ 15 →
    p.d.toNat < x.con.nflag → Recorded s x [] 8 0 s1 x1 →
    (∃ con', exec (.cfadd p) s = .next (retire s1 { x1 with con := con' } 2) ∧ con' = { x1.con with cf := con'.cf } ∧
      (∀ f, f ≠ p.d.toNat → smGet 0 con'.cf f = smGet 0 x1.con.cf f) ∧
      (smGet 0 con'.cf p.d.toNat).msb = (smGet 0 x1.con.cf p.d.toNat).msb ∧
      (smGet 0 con'.cf p.d.toNat).toNat % 2 ^ 15 = ((smGet 0 x1.con.cf p.d.toNat).toNat + imm16 p) % 2 ^ 15) ∧
    (1 ≤ imm16 p → x.iss.cfErr.contains p.d.toNat = false → exec (.cfwait p) s = .next (retire s1 x1 2)) ∧
    (1 ≤ imm16 p → x.iss.cfErr.contains p.d.toNat = true →
      exec (.cfwait p) s = .next (trap s x cCFERR (BitVec.ofNat 64 p.d.toNat)))) ∧
  (∀ (p : P) s x s1 x1, Runs s x [] [] → guarded p = false → fieldsOk p immFree = true → p.bk = 2 → p.d.toNat < x.con.nflag →
    Recorded s x [] 8 0 s1 x1 →
    ∃ con', exec (.cfset p) s = .next (retire s1 { x1 with con := con' } 2) ∧ con' = { x1.con with cf := con'.cf } ∧
      ∀ f, smGet 0 con'.cf f = if f = p.d.toNat then BitVec.ofNat 16 (imm16 p) else smGet 0 x1.con.cf f) ∧
  (∀ (p : P) s x s1 x1, Runs s x [] [p.d.toNat] → guarded p = false → fieldsOk p { d := true, a := true } = true → isS p.d = true →
    p.a.toNat < x.con.nflag → Recorded s x [] 8 0 s1 x1 →
    ∃ c', exec (.cfrd p) s = .next (retire s1 { x1 with c := c' } 2) ∧
      WritesS x1.c c' p.d.toNat ((smGet 0 x1.con.cf p.a.toNat).setWidth 64))

/-- R294, R315, R365, R369: BAR, GBAR and SSTEP park the split after their word, GBAR and SSTEP after a release of gang scope;
SLEEP sets the time before which the split does not issue.

R125, R129, R226, R294, R315, R365, R369, R409: barriers complete when every course that has not ended has arrived; a gang's when
every member's have, and a failure's notice has reached all, once the CHORD and SMARCH reads of their courses are made; what their
courses stored, and with SSTEP their step-tagged copies, every one of them finds from then on; sleeps and yields end at their times.

That members on other packages have arrived by the time of the event is the model's choice (log 22). -/
def Obligations.Barriers : Prop :=
   ((∀ (p : P) s x, Runs s x [] [] → guarded p = false → fieldsOk p {} = true →
      exec (.bar p) s = .next (parkAt s x .bar) ∧
      exec (.gbar p) s = .next (parkAt s { x with k := unpin s.cycles x.con.cid x.k } .gbar) ∧
      exec (.sstep p) s = .next (noteStep (parkAt s { x with k := unpin s.cycles x.con.cid x.k } .sstep) x.con.cid)) ∧
    (∀ s x pk, Belongs s x → isLast x 2 = false → ∃ c', courseAt (parkAt s x pk) x.con.cid x.c.idx = some c' ∧
      alGet c'.splits x.spi = some { x.sp with
        park := pk, pc := x.iss.hdr, off := x.iss.off + 2, point := false
        wake := if x.c.halted || x.c.stepOne || x.c.haltReq then none else x.sp.wake } ∧
      alGet (coreAt (parkAt s x pk) x.core).issue x.islot = none) ∧
    (∀ s x pk pc ls b, Belongs s x → isLast x 2 = true → fallTo x.iss.hdr (nextClause x) x.sp.loops = some (pc, ls, b) →
      Left s (parkAt s x pk) { x with sp := { (atBoundary x.sp b) with park := pk } } pc ls) ∧
    (∀ (p : P) s x, Runs s x [] (if p.bk = 1 then [p.b.toNat] else []) → guarded p = false →
      fieldsOk p { b := true, c := p.bk == 2, bk := true } = true → (p.bk == 2 || (p.bk == 1 && isS p.b)) = true →
      let n := if p.bk = 2 then imm16 p else (sGet x.c p.b.toNat).toNat % 2 ^ 32
      (n = 0 → exec (.sleep p) s = .next (retire s x 2)) ∧
      (n ≠ 0 → x.con.preReq = none → x.c.haltReq = false → x.sp.wake = none →
        exec (.sleep p) s = .next (retire s { x with sp := { x.sp with wake := some (s.cycles + n) } } 2)))) ∧
   ((∀ s con, conAt s (unitOf s) = some con →
      (arrivedAll con .bar = true → consortReads s con = false → ∃ t, exec .barComplete s = .next t ∧
        Shown (setCon s (unpark .bar con)) t (.consort con.cid) fun u => !openToEvery s [con] u) ∧
      ((arrivedAll con .bar = false ∨ consortReads s con = true) → exec .barComplete s = .next s) ∧
      ((gangMembers s con).any (someParked · .gbar) = true → (∀ d ∈ gangMembers s con, arrivedAll d .gbar = true ∧ consortReads s d = false) →
        noticeDue s con = false → ∃ t, exec .gbarComplete s = .next t ∧
          Shown (completeGang s con .gbar) t (gangInst s con) fun u => !openToEvery s (gangMembers s con) u) ∧
      ((∃ d ∈ gangMembers s con, arrivedAll d .gbar = false ∨ consortReads s d = true) → exec .gbarComplete s = .next s) ∧
      ((gangMembers s con).any (someParked · .sstep) = true →
        (∀ d ∈ gangMembers s con, arrivedAll d .sstep = true ∧ stepsLanded s d = true ∧ consortReads s d = false) → noticeDue s con = false →
        ∃ u t, exec .sstepComplete s = .next t ∧
          Shown (completeGang s con .sstep) u (gangInst s con)
            (stepCopied (gangMembers s con)) ∧
          Shown u t (gangInst s con) fun v => !openToEvery s (gangMembers s con) v) ∧
      ((∃ d ∈ gangMembers s con, stepsLanded s d = false ∨ consortReads s d = true) → exec .sstepComplete s = .next s) ∧
      (consortReads s con = true ↔ ∃ c ∈ con.courses, unitReads (coreAt s con.core) con.cid c.idx = true)) ∧
    (∀ s cons u, openToEvery s cons u = true ↔ ∀ d ∈ cons, ∀ c ∈ d.courses, u.openTo s (.course d.cid c.idx) = true) ∧
    (∀ con pk c, c ∈ con.courses → ∃ c' ∈ (unpark pk con).courses, c'.idx = c.idx ∧
      ∀ i sp, alGet c.splits i = some sp → alGet c'.splits i = some (if sp.park = pk then { sp with park := .ready } else sp)) ∧
    (∀ (ci sp : Nat) s con c x, conAt s (unitOf s) = some con → crsAt con ci = some c → alGet c.splits sp = some x →
      (∀ t, x.wake = some t → t ≤ s.cycles → exec (.sleepExpire ci sp) s =
        .next (setCon s (setCrs con { c with splits := alSet c.splits sp { x with wake := none } }))) ∧
      (∀ y, x.yielded = some y → (y.since + 256 ≤ s.cycles ∨ ∀ o ∈ y.others, stillThere s o = false) →
        exec (.yieldExpire ci sp) s =
          .next (setCon s (setCrs con { c with splits := alSet c.splits sp { x with yielded := none } })))))

/-! ## Traps and special registers -/

/-- R213, R216, R218 to R220, R308, R310, R365: TRAP delivers SOFT with the cursor on the next word; ERET goes on at TRAPPC; DBGBRK halts
a course under a debugger, which ends its sleeps, and is else a no-op. -/
def Obligations.TrapWords : Prop :=
  (∀ (p : P) s x, Runs s x [] [] → guarded p = false → fieldsOk p { b := true, c := true, bk := true } = true → p.bk = 2 →
    exec (.trap p) s = .next (sweepDying (deliver (freeSlot { x with sp := afterWord x 2 } s) x.con.cid x.c.idx x.spi
      ⟨cSOFT, BitVec.ofNat 64 (imm16 p), (afterWord x 2).pc, (afterWord x 2).off, x.iss.hdr + 4 * x.iss.off⟩) x.con.cid)) ∧
  (∀ x n, (isLast x n = false → afterWord x n = { x.sp with pc := x.iss.hdr, off := x.iss.off + n, point := false }) ∧
    ∀ pc ls b, isLast x n = true → fallTo x.iss.hdr (nextClause x) x.sp.loops = some (pc, ls, b) →
      afterWord x n = { (atBoundary x.sp b) with pc := pc, off := 0, loops := ls }) ∧
  (∀ (p : P) s x, Runs s x [] [] → (guarded p = true → exec (.eret p) s = .next (ill s x iGUARD)) ∧
    (guarded p = false → fieldsOk p {} = false → exec (.eret p) s = .next (ill s x iFIELD)) ∧
    (guarded p = false → fieldsOk p {} = true → isLast x 2 = false → exec (.eret p) s = .next (ill s x iPLACE))) ∧
  (∀ (p : P) s x, Runs s x [] [] → isLast x 2 = true → guarded p = false → fieldsOk p {} = true →
    (x.c.inHandler = none → exec (.eret p) s = .next (ill s x iPLACE)) ∧
    (x.c.inHandler ≠ none → x.c.trappc.toNat % 4 ≠ 0 → ∃ v, exec (.eret p) s = .next (trap s x cALIGN v)) ∧
    (x.c.inHandler ≠ none → x.c.trappc.toNat % 4 = 0 → ∃ t, exec (.eret p) s = .next t ∧ (Belongs s x →
      ∃ c', courseAt t x.con.cid x.c.idx = some c' ∧ c'.inHandler = none ∧ c'.s = x.c.s ∧ c'.v = x.c.v ∧
        alGet c'.splits x.spi = some { x.sp with
          pc := x.c.trappc.toNat % 2 ^ 57, off := x.c.trappc.toNat / 2 ^ 59 % 32
          wake := if x.c.halted || x.c.stepOne || x.c.haltReq then none else x.sp.wake }))) ∧
  (∀ (p : P) s x, Runs s x [] [] → guarded p = false → fieldsOk p {} = true →
    (debugged s (ctxOf s x.con).1 = false → exec (.dbgbrk p) s = .next (retire s x 2)) ∧
    (debugged s (ctxOf s x.con).1 = true → ∃ t, exec (.dbgbrk p) s = .next t ∧ (Belongs s x →
      ∃ c', courseAt t x.con.cid x.c.idx = some c' ∧ c'.halted = true ∧ alGet c'.splits x.spi = some { afterWord x 2 with wake := none })))

/-- R213, R215, R216, R218, R223: SOFT, POISON and FPX enter the kernel's trap handler unless the course is in it: TRAPC, TRAPV
and TRAPPC are written and the split goes on at TRAPE.

R214, R216, R218, R223: every other trap goes to the Capo agent: it writes a fault record when one fits, and TRAPC, TRAPV and
TRAPPC; a page that is not present is asked for by PRI; a debugged course halts; any other context is killed. With no room the
course keeps the trap.

R225: an error found of a store or load of a split with no greater index is delivered before the trap, which the split keeps.

That the Capo agent's policy acts as the trap is taken is the model's reading (log 24); that a kill's DETAIL is doubleword 0 of the record
whatever the status is its choice between R214 and R196 (log 20). -/
def Obligations.TrapEntry : Prop :=
   (∀ (s : State) (con : Consort) (c : Course) (spi : Nat) (sp : Split) (t : PendTrap),
      conAt s con.cid = some con → crsAt con c.idx = some c → alGet c.splits spi = some sp →
      t.cause = cSOFT ∨ t.cause = cPOISON ∨ t.cause = cFPX → trapEntry s con ≠ 0 → c.inHandler = none →
      ErrorFirst s con c spi = false →
      courseAt (deliver s con.cid c.idx spi t) con.cid c.idx = some { c with
        trapc := BitVec.ofNat 64 t.cause, trapv := t.value, trappc := cursor t.header t.offset, inHandler := some spi
        splits := alSet c.splits spi { sp with pc := trapEntry s con, off := 0, trap := none, preRun := 0 } } ∧
      deliver s con.cid c.idx spi t = { s with consorts := (deliver s con.cid c.idx spi t).consorts } ∧
      ∀ cid, cid ≠ con.cid → conAt (deliver s con.cid c.idx spi t) cid = conAt s cid) ∧
   ((∀ (s : State) (con : Consort) (c : Course) (spi : Nat) (t : PendTrap), conAt s con.cid = some con → crsAt con c.idx = some c →
      (ErrorFirst s con c spi = true → deliver s con.cid c.idx spi t = keepTrap s con.cid c.idx spi t) ∧
      (ErrorFirst s con c spi = false →
        (¬ (t.cause = cSOFT ∨ t.cause = cPOISON ∨ t.cause = cFPX) ∨ trapEntry s con = 0 ∨ c.inHandler ≠ none) →
        deliver s con.cid c.idx spi t = capoTakes s con.cid c.idx spi t)) ∧
    (∀ (s : State) (con : Consort) (c : Course) (spi : Nat) (sp : Split) (t : PendTrap), conAt s con.cid = some con →
      crsAt con c.idx = some c → alGet c.splits spi = some sp →
      let u := capoTakes s con.cid c.idx spi t
      let r := faultRec t.cause t.value t.word 6 0 c.slot spi c.gen false c.ended false false
      (16 ≤ (coreAt s con.core).fifo.length → courseAt u con.cid c.idx =
        some { c with splits := alSet c.splits spi { sp with trap := some t } } ∧ coreAt u con.core = coreAt s con.core) ∧
      ((coreAt s con.core).fifo.length < 16 →
        (con.capo = false → t.cause = cXLAT → bits t.value.toNat 60 4 = rNotPresent →
          (coreAt u con.core).fifo = (coreAt s con.core).fifo ++ [r] ∧
          courseAt u con.cid c.idx = some { c with
            trapc := BitVec.ofNat 64 t.cause, trapv := t.value, trappc := cursor t.header t.offset
            splits := alSet c.splits spi { sp with trap := none, preRun := 0 }, waitCapo := true, trapHalt := some spi } ∧
          ∃ id, u.pris = s.pris ++ [⟨id, (ctxOf s con).1, bits t.value.toNat 0 57, .course con.cid c.idx⟩]) ∧
        (con.capo = false → ¬ (t.cause = cXLAT ∧ bits t.value.toNat 60 4 = rNotPresent) → debugged s (ctxOf s con).1 = true →
          (coreAt u con.core).fifo = (coreAt s con.core).fifo ++ [r] ∧
          courseAt u con.cid c.idx = some { c with
            trapc := BitVec.ofNat 64 t.cause, trapv := t.value, trappc := cursor t.header t.offset
            splits := endSleeps (alSet c.splits spi { sp with trap := none, preRun := 0 }), halted := true, trapHalt := some spi }) ∧
        (con.capo = false → ¬ (t.cause = cXLAT ∧ bits t.value.toNat 60 4 = rNotPresent) → debugged s (ctxOf s con).1 = false →
          ∃ s1, (coreAt s1 con.core).fifo = (coreAt s con.core).fifo ++ [r] ∧ courseAt s1 con.cid c.idx = some { c with
              trapc := BitVec.ofNat 64 t.cause, trapv := t.value, trappc := cursor t.header t.offset
              splits := alSet c.splits spi { sp with trap := none, preRun := 0 } } ∧
            u = killLaunch s1 con.launch con.cid
              (killStatus t.cause t.value ((launchAt s con.launch).elim false fun l => decide (l.gangSize ≠ 0)))
              (BitVec.ofNat 64 (r.toNat % 2 ^ 64))))))

/-- R64, R81, R219, R223, R266, R272, R306, R307: CSRR and CSRW on each register, in the order of their checks; a read of FLTREC
takes the head record's next doubleword, and the fourth retires it.

R266: leads, guards and DRES within their limits; a lead and a guard apply from the first frame that begins VTOTAL lines later; writes
leave MISSCNT alone, and clear the bits of BANDMISS that they set.

R111, R219, R220: TLBINV is the Capo agent's; it drops the cached translations that its kind names and no other, and the writes made
through them are done. -/
def Obligations.Csrs : Prop :=
   ((∀ (p : P) s x, let n := imm16 p
      Runs s x [] [p.d.toNat] → guarded p = false → fieldsOk p { d := true, b := true, c := true, bk := true } = true →
      isS p.d = true → p.bk = 2 → csrDefined n = true →
      (csrCapo n = true → x.con.capo = false → exec (.csrr p) s = .next (trap s x cPRIV (BitVec.ofNat 64 n))) ∧
      (n = 1 → flagsDue x.c = true → exec (.csrr p) s = .next (waitHere s x)) ∧
      ((csrCapo n = true → x.con.capo = true) → n ≠ 0x800 → (n = 1 → flagsDue x.c = false) →
        ∃ c', exec (.csrr p) s = .next (retire s { x with c := c' } 2) ∧ WritesS x.c c' p.d.toNat (readCsr s x n)) ∧
      (x.con.capo = true → n = 0x800 → ∃ c', exec (.csrr p) s = .next (retire s { x with k := (readFltrec x.k).2, c := c' } 2) ∧
        WritesS x.c c' p.d.toNat (readFltrec x.k).1)) ∧
    (∀ (p : P) s x, let n := imm16 p
      let v := sGet x.c p.a.toNat
      Runs s x [] [p.a.toNat] → guarded p = false → fieldsOk p { a := true, b := true, c := true, bk := true } = true →
      isS p.a = true → p.bk = 2 → csrDefined n = true →
      (csrCapo n = true → x.con.capo = false → exec (.csrw p) s = .next (trap s x cPRIV (BitVec.ofNat 64 n))) ∧
      (n < 0x800 → (∀ c', writeCourseCsr x.c n v = some c' → exec (.csrw p) s = .next (retire s { x with c := c' } 2)) ∧
        (writeCourseCsr x.c n v = none → exec (.csrw p) s = .next (ill s x iFIELD))) ∧
      (n = 0x800 → x.con.capo = true → exec (.csrw p) s = .next (retire s x 2)) ∧
      (n = 0x801 → x.con.capo = true →
        exec (.csrw p) s = .next (retire s { x with k := { x.k with wdogl := v &&& 0xFFFFFFFFFFFF } } 2)) ∧
      (0xC00 ≤ n → x.con.capo = true → (∀ s', writeDisp s n v = some s' → exec (.csrw p) s = .next (retire s' x 2)) ∧
        (writeDisp s n v = none → exec (.csrw p) s = .next (ill s x iFIELD)))) ∧
    (∀ s x, readCsr s x 0 = x.c.ncr ∧ readCsr s x 1 = x.c.nstat ∧ readCsr s x 2 = x.c.nbv ∧ readCsr s x 0x10 = x.c.chw ∧
      readCsr s x 0x11 = chstatNow s x.con ∧ readCsr s x 0x18 = x.c.msteps ∧ readCsr s x 0x100 = x.c.trapc ∧
      readCsr s x 0x101 = x.c.trappc ∧ readCsr s x 0x102 = x.c.trapv ∧ readCsr s x 0x801 = x.k.wdogl ∧
      ∀ n, 0xC00 ≤ n → readCsr s x n = readDisp s n) ∧
    (∀ s (con : Consort), (∀ t ∈ (coreAt s con.core).openTiles, windowOver s t = false) → chstatNow s con = con.chstat) ∧
    (∀ s, readDisp s 0xC00 = s.poselead ∧ readDisp s 0xC01 = s.dlguard ∧ readDisp s 0xC02 = s.dres ∧
      readDisp s 0xC03 = BitVec.ofNat 64 s.board.fp ∧ readDisp s 0xC04 = s.bandmiss) ∧
    (∀ s (v : DWord), let ok := LimitsOk s (fun h => bits v.toNat (16 * h) 10) (fun h => bits s.dlguard.toNat (16 * h) 8)
      (¬ ok → writeDisp s 0xC00 v = none) ∧ (ok → ∃ u, writeDisp s 0xC00 v = some u ∧ u = { s with poselead := v &&& 0x03FF03FF03FF03FF, heads := u.heads } ∧
        ∀ h, h < 4 → Scheduled (headAt s h) (headAt u h) (bits v.toNat (16 * h) 10) (bits s.dlguard.toNat (16 * h) 8))) ∧
    (∀ s (v : DWord), let ok := LimitsOk s (fun h => bits s.poselead.toNat (16 * h) 10) (fun h => bits v.toNat (16 * h) 8)
      (¬ ok → writeDisp s 0xC01 v = none) ∧ (ok → ∃ u, writeDisp s 0xC01 v = some u ∧ u = { s with
          dlguard := (s.dlguard &&& 0xFF00FF00FF00FF00) ||| (v &&& 0x00FF00FF00FF00FF), heads := u.heads } ∧
        ∀ h, h < 4 → Scheduled (headAt s h) (headAt u h) (bits s.poselead.toNat (16 * h) 10) (bits v.toNat (16 * h) 8))) ∧
    (∀ s (v : DWord), (bits v.toNat 0 5 ≤ 25 → writeDisp s 0xC02 v = some { s with dres := v &&& 0x1F }) ∧
      (25 < bits v.toNat 0 5 → writeDisp s 0xC02 v = none) ∧ writeDisp s 0xC03 v = some s ∧
      writeDisp s 0xC04 v = some { s with bandmiss := s.bandmiss &&& ~~~v }) ∧
    (∀ (c : Course) (v : DWord),
      (v.toNat % 8 < 5 → writeCourseCsr c 0 v = some { c with ncr := (c.ncr &&& ~~~0x3F07) ||| (v &&& 0x3F07) }) ∧
      (5 ≤ v.toNat % 8 → writeCourseCsr c 0 v = some { c with ncr := (c.ncr &&& ~~~0x3F00) ||| (v &&& 0x3F00) }) ∧
      (v.toNat % 2 ^ 24 = 0 → writeCourseCsr c 0x18 v = none) ∧
      (v.toNat % 2 ^ 24 ≠ 0 → writeCourseCsr c 0x18 v = some { c with msteps := (c.msteps &&& ~~~0xFFFFFF) ||| (v &&& 0xFFFFFF) }) ∧
      writeCourseCsr c 1 v = some { c with nstat := v &&& 0x3F } ∧
      (v.toNat % 256 = 2 ∨ v.toNat % 256 = 3 → writeCourseCsr c 2 v = some { c with nbv := v &&& 0xFF }) ∧
      (v.toNat % 256 ≠ 2 → v.toNat % 256 ≠ 3 → writeCourseCsr c 2 v = none) ∧
      writeCourseCsr c 0x10 v = some { c with chw := v &&& 0xFFFF } ∧
      writeCourseCsr c 0x100 v = some c ∧ writeCourseCsr c 0x102 v = some c ∧
      writeCourseCsr c 0x101 v = some { c with trappc := v &&& 0xF9FFFFFFFFFFFFFF }) ∧
    (∀ (k : Core) (r : FaultRec) (rest : List FaultRec), k.fifo = r :: rest →
      (k.fdw < 3 → readFltrec k = (BitVec.ofNat 64 (r.toNat / 2 ^ (64 * k.fdw)), { k with fdw := k.fdw + 1 })) ∧
      (k.fdw = 3 → readFltrec k = (BitVec.ofNat 64 (r.toNat / 2 ^ 192), { k with fifo := rest, fdw := 0 }))) ∧
    (∀ k : Core, k.fifo = [] → readFltrec k = (0, k)) ∧
    (∀ (sd : BitVec 6) s j i x, (coreAt s (unitOf s)).issue = [(j, i)] → (∃ con, conAt s i.cid = some con ∧ con.capo = true) →
      1 ≤ i.off → (i.words.drop (i.off - 1)).take 2 = fltrecWords sd.toNat → Runs { s with turn := .slot (unitOf s) j } x [] [sd.toNat] →
      ∃ c', exec (.fltrecRead sd) s = .next (retire s { x with k := (readFltrec x.k).2, c := c' } 2) ∧
        WritesS x.c c' sd.toNat (readFltrec x.k).1)) ∧
   ((∀ (p : P) s x, Runs s x [] [p.d.toNat, p.a.toNat] → guarded p = false →
      (x.con.capo = false → exec (.tlbinv p) s = .next (trap s x cPRIV 0)) ∧
      (x.con.capo = true → fieldsOk p { d := true, a := true, b := true, c := true, bk := true } = true → isS p.d = true →
        isS p.a = true → p.bk = 2 → imm16 p ≤ 2 → ∃ t, exec (.tlbinv p) s = .next (retire t x 2) ∧
          Invalidated s t (imm16 p) ((sGet x.c p.d.toNat).toNat % 2 ^ 20) (sGet x.c p.a.toNat).toNat)))

/-- R177 to R180, R240, R354, R356: PSLOT reads an argument plus an offset; PGUARD reads a field of a resource's entry, and a
bad or absent entry traps XLAT RANGE.

R176, R181 to R183: in an etch a recorded word appends, after a guard for each tile not guarded yet, one entry of its kind
with its two words; a full plate abandons the etch, reason 7.

R177: in an etch a scalar result of a volatile source is volatile, and any other write takes its register's mark away; PSLOT
and PGUARD of a volatile register give no other mark. -/
def Obligations.PlateWords : Prop :=
   ((∀ (p : P) s x, Runs s x [] [p.d.toNat, p.a.toNat] → guarded p = false →
      fieldsOk p { d := true, a := true, b := true, c := true, bk := true } = true → p.bk = 2 → isS p.d = true → isS p.a = true →
      imm16 p < 32 → ∃ c' pl, exec (.pslot p) s = .next (retire s { x with c := c', con := { x.con with plate := pl } } 2) ∧
        WritesS x.c c' p.d.toNat ((launchOf s x.con).args.getD (imm16 p) 0 + sGet x.c p.a.toNat) ∧
        (etching x = false → pl = x.con.plate) ∧
        (etching x = true → isVolatile x.c p.a.toNat = false → p.d ≠ 0 → imm16 p ∈ pl.patched ∧
          alGet c'.marks p.d.toNat = some (.arg (imm16 p) (sGet x.c p.a.toNat))) ∧
        (etching x = true → isVolatile x.c p.a.toNat = true → pl = x.con.plate ∧
          (p.d ≠ 0 → alGet c'.marks p.d.toNat = some .volatile))) ∧
    (∀ (p : P) s x, let ctx := ctxOf s x.con
      let rtab := (launchOf s x.con).rtab
      let idx := (sGet x.c p.a.toNat).toNat % 2 ^ 16
      Runs s x [] [p.d.toNat, p.a.toNat] → guarded p = false →
      fieldsOk p { d := true, a := true, b := true, c := true, bk := true } = true → p.bk = 2 → isS p.d = true → isS p.a = true →
      imm16 p < 7 → (imm16 p = 3 ∨ (sGet x.c p.a.toNat).toNat < 2 ^ 16) →
      waitsPinned s ctx x.con.cid [rtab, (rtab + 64 * idx) % 2 ^ 64] = false →
      (∀ e, readNamed s x.reader ctx rtab idx = .ok (.ent e) →
        ∃ t c' pl, exec (.pguard p) s = .next (retire t { x with c := c', con := { x.con with plate := pl } } 2) ∧
          Looked s t x.reader ctx (entWords rtab ++ entWords (rtab + 64 * idx)) 8 ∧
          (etching x = false → pl = x.con.plate) ∧
          WritesS x.c c' p.d.toNat (resField e (imm16 p) ((sGet x.c p.a.toNat).sshiftRight 16)) ∧
          (p.d ≠ 0 → alGet c'.marks p.d.toNat = if etching x = true ∧ isVolatile x.c p.a.toNat = true then some .volatile
            else if etching x = true ∧ imm16 p = 3 then some (.res idx ((sGet x.c p.a.toNat).sshiftRight 16)) else none)) ∧
      (readNamed s x.reader ctx rtab idx = .ok .beyond ∨ readNamed s x.reader ctx rtab idx = .ok .bad →
        exec (.pguard p) s = .next (trap s x cXLAT (BitVec.ofNat 64 (rRange * 2 ^ 60 + idx)))))) ∧
   (∀ i d srcs f, scalarFn i = some (d, srcs, f) → ∀ s x, Runs s x [] (d.toNat :: srcs.map (·.toNat)) →
      ∃ c', exec i s = .next (retire s { x with c := c' } 1) ∧
        (d ≠ 0 → alGet c'.marks d.toNat =
          if etching x = true ∧ ∃ r ∈ srcs, isVolatile x.c r.toNat = true then some .volatile else none) ∧
        ∀ r, r ≠ d.toNat → alGet c'.marks r = alGet x.c.marks r) ∧
   (∀ (d : BitVec 6) (n : BitVec 13) s x v, Runs s x [] [d.toNat] → srdVal s x n.toNat = some v → etchSource n.toNat = false →
      ∃ c' con', exec (.srd d n) s = .next (retire s { x with con := con', c := c' } 1) ∧ (d ≠ 0 → alGet c'.marks d.toNat = none) ∧
        ∀ r, r ≠ d.toNat → alGet c'.marks r = alGet x.c.marks r) ∧
   (∀ (s : State) (x : Cur) (tiles : List Nat) (kind high : Nat),
      (etching x = false → recordOne s x tiles kind high = (s, x)) ∧
      (etching x = true →
        let new := tiles.eraseDups.filter fun h => !x.con.plate.tileGuards.contains h
        let es := x.con.plate.entries ++ new.filterMap (fun h => (tileAt x.con h).map (tileGuard h)) ++
          [entryOf kind (high * 2 ^ 64 + wordPair x)]
        (es.length ≤ plateCap (launchOf s x.con) → recordOne s x tiles kind high = (s, { x with con := { x.con with
          plate := { x.con.plate with tileGuards := x.con.plate.tileGuards ++ new, entries := es } } })) ∧
        (plateCap (launchOf s x.con) < es.length → recordOne s x tiles kind high = abandoned 7 true s x)))

/-! ## Chord and Stipple -/

/-- R157 to R159, R168, R269, R270, R305, R366: CHORD and SMARCH issue one request for each active lane, and their windows stay
outstanding; nothing but the units of the core and the consort's counters changes. -/
def Obligations.UnitRequests : Prop :=
  (∀ (p : P) (fn : BitVec 4) s x, Belongs s x →
    Runs s x ((List.range (fn.toNat + 1)).map (p.a.toNat + ·) ++ (List.range p.c.toNat).map (p.d.toNat + ·) ++ offReads p)
      (if p.bk = 1 then [p.b.toNat] else []) → active x p ≠ 0 →
    fieldsOk p { d := true, a := true, b := true, c := true, bk := true } = true → 1 ≤ p.c.toNat → p.c.toNat ≤ 16 →
    (p.bk = 0 ∧ (p.b.toNat < 248 → windowOk x p.b.toNat 1 = true) ∨ p.bk = 1 ∧ isS p.b = true) →
    windowOk x p.a.toNat (fn.toNat + 1) = true → windowOk x p.d.toNat p.c.toNat = true → queuesReady x (offReads p) none = true →
    (∀ l ∈ lanesOf (active x p) x.c.width,
      namedWaits s (ctxOf s x.con) x.con.cid (launchOf s x.con).rtab ((offLane x p l).1 % 2 ^ 16) 160 = false) →
    ∃ v u, exec (.chord p fn) s = .next u ∧
      ReadSpans s v x.reader (ctxOf s x.con) ((lanesOf (active x p) x.c.width).flatMap fun l => if (offLane x p l).2 ≠ 0 then []
        else chordSpans s x.reader (ctxOf s x.con) (launchOf s x.con).rtab ((offLane x p l).1 % 2 ^ 16)) ∧
      let b := beginLong v (popFor x (offReads p)) { pendInit with
        vregs := (List.range p.c.toNat).map (p.d.toNat + ·), reqs := (lanesOf (active x p) x.c.width).length }
      u = { b with cores := u.cores, consorts := u.consorts } ∧ OnlyUnits (coreAt b x.core) (coreAt u x.core) ∧
      (∀ k, k ≠ x.core → coreAt u k = coreAt b k) ∧
      ∀ cid con, conAt b cid = some con → ∃ con', conAt u cid = some con' ∧ con' = { con with chstat := con'.chstat }) ∧
  (∀ (p : P) s x, Runs s x ((List.range 9).map (p.a.toNat + ·) ++ (List.range (smWindow p.c.toNat 16)).map (p.d.toNat + ·) ++ offReads p)
      (if p.bk = 1 then [p.b.toNat] else []) → active x p ≠ 0 →
    fieldsOk p { d := true, a := true, b := true, c := true, bk := true } = true → 1 ≤ p.c.toNat → p.c.toNat ≤ 8 →
    (p.bk = 0 ∧ (p.b.toNat < 248 → windowOk x p.b.toNat 1 = true) ∨ p.bk = 1 ∧ isS p.b = true) →
    windowOk x p.a.toNat 9 = true → queuesReady x (offReads p) none = true →
    (∀ l ∈ lanesOf (active x p) x.c.width,
      namedWaits s (ctxOf s x.con) x.con.cid (launchOf s x.con).rtab ((offLane x p l).1 % 2 ^ 16) 0 = false) →
    ∃ v w u reqs, exec (.smarch p) s = .next u ∧
      ReadSpans s v x.reader (ctxOf s x.con) ((lanesOf (active x p) x.c.width).flatMap fun l => if (offLane x p l).2 ≠ 0 then []
        else entrySpans s x.reader (ctxOf s x.con) (launchOf s x.con).rtab ((offLane x p l).1 % 2 ^ 16)) ∧
      w.reqs = (lanesOf (active x p) x.c.width).length ∧ Marched (beginLong v (popFor x (offReads p)) w) u x.core reqs ∧
      reqs.take (coreAt (beginLong v (popFor x (offReads p)) w) x.core).stipple.length =
        (coreAt (beginLong v (popFor x (offReads p)) w) x.core).stipple ∧
      let new := reqs.drop (coreAt (beginLong v (popFor x (offReads p)) w) x.core).stipple.length
      new.map (·.lane) = lanesOf (active x p) x.c.width ∧ ∀ q ∈ new, q.cid = x.con.cid ∧ q.ci = x.c.idx ∧ q.pid = x.c.nextId) ∧
  (∀ s rd ctx rtab h e, readNamed s rd ctx rtab h = .ok (.ent e) →
    entrySpans s rd ctx rtab h = [(rtab, 64), ((rtab + 64 * h) % 2 ^ 64, 64)] ∧
    (ResEnt.type e = 2 → ResEnt.base e % 32 = 0 → ∀ b nin nl, readKeyed s rd ctx (ResEnt.key e) (ResEnt.base e) 32 = .ok b →
      headerOf (ofBytes b) = some (nin, nl) → chordSpans s rd ctx rtab h =
        [(rtab, 64), ((rtab + 64 * h) % 2 ^ 64, 64), (ResEnt.base e, 32), (ResEnt.base e + 32, 32 * nl)]))

/-- R164, R165: a valid CHORD request joins the open tile of its PASID, RTAB, handle and NBV; a poisoned one waits for its
write-back with its reason.

R163, R165 to R168, R271 to R273: gathered tiles close as their windows pass, in that order; a closed tile's network is fetched by its
rows' courses, waiting for a line that another consort has pinned (R126), and a row whose read fails is poisoned; a pass runs a layer
for every row, each by its own descriptor; a brick load moves the longest queue on; a finished request writes its result, or its
poison, into its lane of its window alone.

That each row goes by its own request's descriptor, key and root, and that the layers are fetched at once, is the model's reading (log
25), and so is which writes the units' reads find late (log 10). -/
def Obligations.UnitEvents : Prop :=
   ((∀ s core pasid rtab handle nbv win r t, (coreAt s core).openTiles.find? (fun t =>
        t.pasid == pasid && t.rtab == rtab && t.handle == handle && t.nbv == nbv) = some t →
      (t.joined + 1 < 16 → ({ t with rows := t.rows ++ [r], joined := t.joined + 1 } : ChordTile) ∈
        (coreAt (joinTile s core pasid rtab handle nbv win r) core).openTiles) ∧
      (16 ≤ t.joined + 1 → ({ t with rows := t.rows ++ [r], joined := t.joined + 1 } : ChordTile) ∈
        (coreAt (joinTile s core pasid rtab handle nbv win r) core).closedTiles)) ∧
    (∀ s core pasid rtab handle nbv win r, (coreAt s core).openTiles.find? (fun t =>
        t.pasid == pasid && t.rtab == rtab && t.handle == handle && t.nbv == nbv) = none →
      ∃ t ∈ (coreAt (joinTile s core pasid rtab handle nbv win r) core).openTiles,
        t.rows = [r] ∧ t.joined = 1 ∧ t.pasid = pasid ∧ t.handle = handle ∧ t.opened = s.cycles ∧ t.win = win ∧ t.layer = 0) ∧
    (∀ s core r reason, (coreAt (poisonReq s core r reason) core).results = (coreAt s core).results ++ [{ r with poison := some reason }])) ∧
   ((∀ (tile : Nat) s,
      ((∀ t ∈ (coreAt s (unitOf s)).openTiles, t.tid = tile → windowOver s t = false) → exec (.chordTileClose tile) s = .next s) ∧
      ((∃ t ∈ (coreAt s (unitOf s)).openTiles, t.tid = tile ∧ windowOver s t = true) →
        exec (.chordTileClose tile) s = .next (closeOver s (unitOf s)))) ∧
    (∀ s core, let u := closeOver s core
      u = { s with cores := u.cores, consorts := u.consorts } ∧ (∀ k, k ≠ core → coreAt u k = coreAt s k) ∧
      OnlyUnits (coreAt s core) (coreAt u core) ∧
      (∀ cid con, conAt s cid = some con → ∃ con', conAt u cid = some con' ∧ con' = { con with chstat := con'.chstat }) ∧
      (∀ t, t ∈ (coreAt u core).openTiles ↔ t ∈ (coreAt s core).openTiles ∧
        ∀ v ∈ (coreAt s core).openTiles, windowOver s v = true → v.tid ≠ t.tid) ∧
      ∃ passed, passed.Perm ((coreAt s core).openTiles.filter (windowOver s)) ∧
        passed.Pairwise (fun v w => v.opened + v.win ≤ w.opened + w.win) ∧
        (coreAt u core).closedTiles = (coreAt s core).closedTiles ++ passed) ∧
    (∀ s (t : ChordTile), windowOver s t = true ↔ t.win ≠ 0 ∧ t.opened + t.win ≤ s.cycles) ∧
    (∀ s core t, (coreAt (closeTile s core t) core).closedTiles = (coreAt s core).closedTiles ++ [t] ∧
      ∀ u ∈ (coreAt (closeTile s core t) core).openTiles, u.tid ≠ t.tid ∧ u ∈ (coreAt s core).openTiles) ∧
    (∀ s0 t rest, let s := fetchTiles (closeOver s0 (unitOf s0)) (unitOf s0)
      (coreAt s (unitOf s)).closedTiles = t :: rest →
      (fetched t = false → exec .chordPass s0 = .next s) ∧
      (fetched t = true → (coreAt s (unitOf s)).freeze = none → arrayFree s (coreAt s (unitOf s)) = true →
      ((∀ c q, (coreAt s (unitOf s)).matq = c :: q → c.begun = true) ∨ (coreAt s (unitOf s)).passes < 4) →
      ∃ u, exec .chordPass s0 = .next u ∧ u = { s with cores := u.cores } ∧
        (∀ k, k ≠ unitOf s → coreAt u k = coreAt s k) ∧ OnlyUnits (coreAt s (unitOf s)) (coreAt u (unitOf s)) ∧
        let outs := t.rows.map (rowStep t)
        let left := outs.filterMap fun o => match o with
          | .more r => some r
          | .done _ => none
        (coreAt u (unitOf s)).closedTiles = (if left = [] then rest else { t with rows := left, layer := t.layer + 1 } :: rest) ∧
        (coreAt u (unitOf s)).results = (coreAt s (unitOf s)).results ++ outs.filterMap fun o => match o with
          | .more _ => none
          | .done r => some r)) ∧
    (∀ s core, fetchTiles s core = (coreAt s core).closedTiles.foldl (fun s t => fetchTile s core t) s) ∧
    (∀ (t : ChordTile), fetched t = true ↔ ∀ r ∈ t.rows, r.net.isSome = true) ∧
    (∀ s core t, (fetched t = true ∨ fetchWaits s t = true) → fetchTile s core t = s) ∧
    (∀ s core t, fetched t = false → fetchWaits s t = false → let u := fetchTile s core t
      let rd := Reader.rows (t.rows.map fun r => (r.cid, r.ci))
      let net := fun (r : ChordReq) => readNet s rd (t.pasid, r.root) r.key ((descLayers r.desc).getD [])
      let rows := t.rows.filterMap fun r => match net r with
        | .ok n => some { r with net := some n }
        | .error _ => none
      u = { s with cores := u.cores, consorts := u.consorts, unseen := u.unseen } ∧
      (∀ k, k ≠ core → coreAt u k = coreAt s k) ∧ OnlyUnits (coreAt s core) (coreAt u core) ∧
      (∀ cid con, conAt s cid = some con → ∃ con', conAt u cid = some con' ∧ con' = { con with chstat := con'.chstat }) ∧
      (coreAt u core).closedTiles = (if rows = [] then (coreAt s core).closedTiles.filter (·.tid != t.tid)
        else (coreAt s core).closedTiles.map fun v => if v.tid == t.tid then { t with rows := rows } else v) ∧
      (coreAt u core).results = (coreAt s core).results ++ t.rows.filterMap (fun r => match net r with
        | .ok _ => none
        | .error e => some { r with poison := some (chordReason e) }) ∧
      ∀ e, e ∈ u.unseen ↔ e ∈ s.unseen ∧ ∀ r ∈ t.rows,
        ¬ FindsDone s e rd (t.pasid, r.root) (((descLayers r.desc).getD []).flatMap layerSpans)) ∧
    (∀ s rd ctx key l ls, readNet s rd ctx key [] = .ok [] ∧
      (∀ e, readRows s rd ctx key l (List.range l.nout) = .error e → readNet s rd ctx key (l :: ls) = .error e) ∧
      (∀ r, readRows s rd ctx key l (List.range l.nout) = .ok r →
        (∀ e, readNet s rd ctx key ls = .error e → readNet s rd ctx key (l :: ls) = .error e) ∧
        ∀ rs, readNet s rd ctx key ls = .ok rs → readNet s rd ctx key (l :: ls) = .ok (r :: rs))) ∧
    (∀ (t : ChordTile) (r : ChordReq) ls l net rows, descLayers r.desc = some ls → ls[t.layer]? = some l → r.net = some net →
      net[t.layer]? = some rows →
      (∀ n, ls[t.layer + 1]? = some n → rowStep t r = .more (rowPass t.nbv l (some n) rows r)) ∧
      (ls[t.layer + 1]? = none → rowStep t r = .done (rowPass t.nbv l none rows r))) ∧
    (∀ (k : Nat) s r con c, (coreAt s (unitOf s)).results[k]? = some r → conAt s r.cid = some con → crsAt con r.ci = some c →
      (∀ q ∈ c.pend, q.holds = false ∧ q.skip = []) → r.lane < 64 →
      ∃ u c', exec (.chordWriteback k) s = .next u ∧ (coreAt u (unitOf s)).results = (coreAt s (unitOf s)).results.eraseIdx k ∧
        courseAt u r.cid r.ci = some c' ∧
        (∀ g l, l < 64 → vGet c' g l = if r.d ≤ g ∧ g < r.d + r.no ∧ l = r.lane then
          (match r.poison with
            | some t => ⟨0, BitVec.ofNat 8 t⟩
            | none => ⟨BitVec.ofNat 32 (r.x.getD (g - r.d) 0), 0⟩) else vGet c g l) ∧
        c' = { c with v := c'.v, pend := c'.pend, nstat := if r.poison.isSome then c.nstat else c.nstat ||| r.flags.setWidth 64 }) ∧
    (∀ s, let k := coreAt s (unitOf s)
      ((∀ r ∈ k.stipple, sameBrick r r = false) → exec .brickLoad s = .next s) ∧
      ((∃ r ∈ k.stipple, sameBrick r r = true) → ∃ u, exec .brickLoad s = .next u ∧ ∃ r ∈ k.stipple, sameBrick r r = true ∧
        let bricks := if k.bricks.contains ⟨r.pasid, r.root, r.base, r.brick⟩ then k.bricks
          else (if 64 ≤ k.bricks.length then k.bricks.drop 1 else k.bricks) ++ [⟨r.pasid, r.root, r.base, r.brick⟩]
        (coreAt u (unitOf s)).bricks = bricks ∧
        Marched s u (unitOf s) (k.stipple.map fun q =>
          if sameBrick r q then marchOn s { k with bricks := bricks } { q with need := none } else q) ∧
        ∀ q ∈ k.stipple, sameBrick q q = true →
          (k.stipple.filter (sameBrick q)).length < (k.stipple.filter (sameBrick r)).length ∨
          (k.stipple.filter (sameBrick q)).length = (k.stipple.filter (sameBrick r)).length ∧ r.brick ≤ q.brick)) ∧
    (∀ (k : Nat) s r con c, (coreAt s (unitOf s)).stipple[k]? = some r → (r.state.isSome || r.poison.isSome) = true →
      conAt s r.cid = some con → crsAt con r.ci = some c → (∀ q ∈ c.pend, q.holds = false ∧ q.skip = []) → r.lane < 64 →
      let n := r.samples.flatten.length
      let regs := match r.poison with
        | some _ => (List.range r.window).map (r.d + ·)
        | none => (List.range (n + 1)).map (r.d + ·) ++ [r.a + 6, r.a + 8]
      ∃ u c', exec (.smarchWriteback k) s = .next u ∧ u = { s with cores := u.cores, consorts := u.consorts } ∧
        (∀ j, j ≠ unitOf s → coreAt u j = coreAt s j) ∧
        coreAt u (unitOf s) = { (coreAt s (unitOf s)) with stipple := (coreAt s (unitOf s)).stipple.eraseIdx k } ∧
        (∀ cid, cid ≠ r.cid → conAt u cid = conAt s cid) ∧ courseAt u r.cid r.ci = some c' ∧
        c' = { c with v := c'.v, pend := c'.pend, msteps := c'.msteps } ∧
        (∀ g l, l < 64 → (l ≠ r.lane ∨ g ∉ regs) → vGet c' g l = vGet c g l) ∧
        (∀ t, r.poison = some t → c'.msteps = c.msteps ∧
          ∀ g ∈ regs, g < min 248 (allocated con) → vGet c' g r.lane = ⟨0, BitVec.ofNat 8 t⟩) ∧
        (r.poison = none → c'.msteps = (if r.state = some 3 then c.msteps + 0x1000000000000 else c.msteps) ∧
          (r.a + 6 < r.d ∨ r.d + n < r.a + 6 → r.a + 8 < r.d ∨ r.d + n < r.a + 6 →
            vGet c' r.d r.lane = ⟨BitVec.ofNat 32 (r.samples.length + 16 * r.state.getD 1), 0⟩ ∧
            (∀ j v, r.samples.flatten[j]? = some v → vGet c' (r.d + 1 + j) r.lane = ⟨v, 0⟩) ∧
            vGet c' (r.a + 6) r.lane = ⟨BitVec.ofNat 32 (toF32 r.t), 0⟩ ∧ vGet c' (r.a + 8) r.lane = ⟨BitVec.ofNat 32 r.steps, 0⟩))))

/-! ## Events of the engines -/

/-- R100, R101, R134, R139 to R141: a copy begins once no hazard holds it back; each transfer moves the elements of a line, or
faults, or waits; the last byte's landing completes it. A block of 32 by 32 elements is read whole and lands transposed.

R140, R282: a copy to memory that writes a whole line, with no element misaligned, merges nothing; every byte is an element's.

R104: a sparse fill makes four elements of two and of a nibble. R139: a spill writes the element alone, of one narrower than a byte
its bits alone; a reducing one adds to what is there.

R140, R280: an element that arrives from a consort on another package lands in its tile, unless the tile is frozen or the package is lost
or no link is up; one that goes to
another package fails when that is lost, and its fate there is free (log 22).

That the elements of a line move as one step, in index order, is the model's (log 29), and so is which writes a copy or a course
finds late (log 10). -/
def Obligations.CopyEvents : Prop :=
  (∀ (ch : Nat) s c tpl s0 s1 s2 s3, ch < 4 → headOf s (unitOf s) ch = some c → c.begun = false → c.kind = .copy tpl s0 s1 s2 s3 →
    (hazardFree s (coreAt s (unitOf s)) c = false → exec (.copyBegin ch) s = .next s) ∧
    (hazardFree s (coreAt s (unitOf s)) c = true → ∃ k', exec (.copyBegin ch) s = .next (setCore s (unitOf s) k') ∧
      CmdPut (coreAt s (unitOf s)) k' ch { c with begun := true, todo := List.range (copyCount tpl) })) ∧
  (∀ (ch i : Nat) s c tpl s0 s1 s2 s3 e0, ch < 4 → headOf s (unitOf s) ch = some c → c.begun = true →
    c.kind = .copy tpl s0 s1 s2 s3 → c.todo[i]? = some e0 → (Tpl.kind tpl = 2 → i = 0) →
    let ev : Instr := if Tpl.kind tpl = 2 then .peerTileWrite (.channel ch) else .copyLineTransfer ch i
    let mv := fun s c e => if Tpl.kind tpl = 2 then (movePeer s c tpl s0 s1 s2 s3 e, false) else moveElem s c tpl s0 s1 s2 s3 e
    let line := c.todo.filter fun e => lineKey c e == lineKey c e0
    let run := (wholeLine s c line).elim (moveLine mv s c line) fun l => putLine s c line l.1 l.2
    (run = .wait → exec ev s = .next s) ∧
    (∀ e va, run = .fault e va → exec ev s = .next (freezeCore s (unitOf s) ch c e va)) ∧
    (∀ t c', run = .done t c' → ∃ k', exec ev s = .next (setCore t (unitOf s) k') ∧ CmdPut (coreAt t (unitOf s)) k' ch c')) ∧
  (∀ s c tpl s0 s1 s2 s3 i con t, Tpl.kind tpl ≤ 1 → conAt s c.cid = some con → tileAt con (bits s1.toNat 0 6) = some t →
    t.ty = Tpl.ty tpl → t.frz = false →
    let w := tyBits (Tpl.ty tpl)
    let va := copyVa tpl s0 i
    let e := copyElem tpl s2 i
    let ctx := ctxOf s con
    let free := waitsPinned s ctx c.cid [va] = false
    let v := tileRead con t e.1 e.2
    let bit := elemBit tpl s0 (elemIdx tpl i) % 8
    let done := fun (s u : State) fl => ∃ z, moveElem s c tpl s0 s1 s2 s3 i = (.ok z fl, false) ∧
      z = { u with tlb := z.tlb, unseen := z.unseen } ∧ ∀ q ∈ z.unseen, q ∈ u.unseen ∨
        ∃ l p, translate s ctx.1 ctx.2 .write va = .ok l ∧ spotOf s l va = some p ∧
          Replaced s (.copy c.cid (bits s1.toNat 0 6) (Tpl.step tpl)) p.1 p.2 (max 1 (w / 8)) q
    (inBounds s3 (elemIdx tpl i) = false → Tpl.zfill tpl = false → moveElem s c tpl s0 s1 s2 s3 i = (.ok s 0, false)) ∧
    (Tpl.kind tpl = 0 → inBounds s3 (elemIdx tpl i) = false → Tpl.zfill tpl = true → ∃ u con',
      moveElem s c tpl s0 s1 s2 s3 i = (.ok u 0, false) ∧ u = setCon s con' ∧ ElemPut con con' t e.1 e.2 0) ∧
    (inBounds s3 (elemIdx tpl i) = true → va % max 1 (w / 8) ≠ 0 → moveElem s c tpl s0 s1 s2 s3 i = (.failed, false)) ∧
    (Tpl.kind tpl = 0 → inBounds s3 (elemIdx tpl i) = true → va % max 1 (w / 8) = 0 → free →
      (∀ x, loadSeen s (.copy c.cid) ctx.1 ctx.2 va (max 1 (w / 8)) = .error x → moveElem s c tpl s0 s1 s2 s3 i = (.fault x va, false)) ∧
      ∀ b, loadSeen s (.copy c.cid) ctx.1 ctx.2 va (max 1 (w / 8)) = .ok b → ∃ u con',
        moveElem s c tpl s0 s1 s2 s3 i = (.ok (setCon u con') (putVal tpl c.nbv v (bits (ofBytes b) bit w)).2, false) ∧
        Looked s u (.copy c.cid) ctx [va] (max 1 (w / 8)) ∧ ElemPut con con' t e.1 e.2 (putVal tpl c.nbv v (bits (ofBytes b) bit w)).1) ∧
    (Tpl.kind tpl = 1 → 8 ≤ w → Tpl.red tpl = false → (inBounds s3 (elemIdx tpl i) = true ∨ Tpl.zfill tpl = true) →
      va % (w / 8) = 0 → free → let new := if inBounds s3 (elemIdx tpl i) then v else 0
      (∀ x, store s ctx.1 ctx.2 va (toBytes (w / 8) new) = .error x → moveElem s c tpl s0 s1 s2 s3 i = (.fault x va, false)) ∧
      ∀ u, store s ctx.1 ctx.2 va (toBytes (w / 8) new) = .ok u → done s u 0) ∧
    (Tpl.kind tpl = 1 → 8 ≤ w → Tpl.red tpl = true → inBounds s3 (elemIdx tpl i) = true → va % (w / 8) = 0 → free →
      ∃ s', Settled s s' ctx [va] (w / 8) ∧ ∀ b, load s ctx.1 ctx.2 va (w / 8) = .ok b →
        let new := putVal tpl c.nbv (ofBytes b) v
        ∀ u, store s' ctx.1 ctx.2 va (toBytes (w / 8) new.1) = .ok u → ∃ z,
          moveElem s c tpl s0 s1 s2 s3 i = (.ok z new.2, false) ∧ z = { u with tlb := z.tlb, unseen := z.unseen }) ∧
    (Tpl.kind tpl = 1 → w < 8 → Tpl.red tpl = false → inBounds s3 (elemIdx tpl i) = true → free →
      ∀ o, load s ctx.1 ctx.2 va 1 = .ok [o] → ∃ n : Byte, bits n.toNat bit w = v % 2 ^ w ∧
        (∀ k, k < 8 → (k < bit ∨ bit + w ≤ k) → n.getLsbD k = o.getLsbD k) ∧
        ∀ u, store s ctx.1 ctx.2 va [n] = .ok u → done s u 0)) ∧
  (∀ s c tpl s0 s1 s2 s3 i con t, Tpl.kind tpl = 3 → conAt s c.cid = some con → tileAt con (bits s1.toNat 0 6) = some t →
    t.ty = Tpl.ty tpl → t.frz = false →
    let w := tyBits (Tpl.ty tpl)
    let r := i / (Tpl.e tpl 0 / 4)
    let g := i % (Tpl.e tpl 0 / 4)
    let va := wrapTo 64 ((s0.toNat : Int) + r * Tpl.s tpl 1 + (2 * g * (w / 8) : Nat))
    let ma := wrapTo 64 ((s3.toNat : Int) + r * Tpl.s tpl 2 + (g / 2 : Nat))
    let ctx := ctxOf s con
    let col := (rowCol s2).2 + 4 * g
    8 ≤ w → va % (w / 8) = 0 → col + 4 ≤ t.cols → waitsPinned s ctx c.cid [va, va + w / 8, ma] = false →
    ∀ b0 b1 m, loadSeen s (.copy c.cid) ctx.1 ctx.2 va (w / 8) = .ok b0 → loadSeen s (.copy c.cid) ctx.1 ctx.2 (va + w / 8) (w / 8) = .ok b1 →
      loadSeen s (.copy c.cid) ctx.1 ctx.2 ma 1 = .ok m → b0.length = w / 8 → b1.length = w / 8 →
      let grp := sparseGroup (bits (ofBytes m) (4 * (g % 2)) 4) (ofBytes b0) (ofBytes b1)
      ∃ u con', moveElem s c tpl s0 s1 s2 s3 i = (.ok (setCon u con') 0, !grp.2) ∧ u = { s with tlb := u.tlb, unseen := u.unseen } ∧
        con' = { con with tmem := con'.tmem } ∧
        (∀ j, j < 4 → tileRead con' t ((rowCol s2).1 + r) (col + j) = grp.1.getD j 0) ∧
        ∀ r' c', c' < t.cols → ¬ (r' = (rowCol s2).1 + r ∧ col ≤ c' ∧ c' < col + 4) → tileRead con' t r' c' = tileRead con t r' c') ∧
  (∀ s c line va bs con, conAt s c.cid = some con → let ctx := ctxOf s con
    (waitsPinned s ctx c.cid [va] = true → putLine s c line va bs = .wait) ∧
    (waitsPinned s ctx c.cid [va] = false →
      (∀ x, store s ctx.1 ctx.2 va bs = .error x → putLine s c line va bs = .fault x va) ∧
      ∀ u, store s ctx.1 ctx.2 va bs = .ok u → ∃ v, putLine s c line va bs = .done v { c with todo := c.todo.filter fun e => !line.contains e } ∧
        v = { u with tlb := v.tlb, unseen := v.unseen })) ∧
  (∀ s c line va bs tpl s0 s1 s2 s3, c.kind = .copy tpl s0 s1 s2 s3 → wholeLine s c line = some (va, bs) →
    Tpl.kind tpl = 1 ∧ Tpl.red tpl = false ∧ va % 64 = 0 ∧ bs.length = 64 ∧
    let w := tyBits (Tpl.ty tpl)
    (∀ i ∈ line, (inBounds s3 (elemIdx tpl i) = true ∨ Tpl.zfill tpl = true) → elemBit tpl s0 (elemIdx tpl i) / 8 % max 1 (w / 8) = 0) ∧
    ∀ k, k < 512 / w → ∃ i ∈ line, elemBit tpl s0 (elemIdx tpl i) = 8 * va + k * w ∧ bits (ofBytes bs) (k * w) w =
      (if inBounds s3 (elemIdx tpl i) then tileGet s c.cid (bits s1.toNat 0 6) (copyElem tpl s2 i).1 (copyElem tpl s2 i).2 else 0) % 2 ^ w) ∧
  (∀ s c tpl s0 s1 s2 s3 i con t u, Tpl.kind tpl = 4 → conAt s c.cid = some con → tileAt con (bits s1.toNat 0 6) = some t →
    tileAt con (bits s1.toNat 8 6) = some u → u.frz = false → u.ty = t.ty →
    let b0 := i % (Tpl.e tpl 0 / 32) * 32
    let b1 := i / (Tpl.e tpl 0 / 32) * 32
    (rowCol s3).2 + b1 + 32 ≤ u.cols → ∃ con', moveElem s c tpl s0 s1 s2 s3 i = (.ok (setCon s con') 0, false) ∧
      con' = { con with tmem := con'.tmem } ∧
      (∀ j k, j < 32 → k < 32 → tileRead con' u ((rowCol s3).1 + b0 + k) ((rowCol s3).2 + b1 + j) =
        tileRead con t ((rowCol s2).1 + b1 + j) ((rowCol s2).2 + b0 + k)) ∧
      ∀ r k, k < u.cols → ¬ ((rowCol s3).1 + b0 ≤ r ∧ r < (rowCol s3).1 + b0 + 32 ∧ (rowCol s3).2 + b1 ≤ k ∧ k < (rowCol s3).2 + b1 + 32) →
        tileRead con' u r k = tileRead con u r k) ∧
  (∀ nib v0 v1 : Nat, (nib % 4 < nib / 4 % 4 → (sparseGroup nib v0 v1).2 = true ∧ ∀ j, j < 4 →
      (sparseGroup nib v0 v1).1.getD j 0 = if j = nib % 4 then v0 else if j = nib / 4 % 4 then v1 else 0) ∧
    (nib / 4 % 4 ≤ nib % 4 → sparseGroup nib v0 v1 = ([0, 0, 0, 0], false))) ∧
  (∀ s c tpl s0 s1 s2 s3 i, (peerEnd s c tpl s0 s3 = .bad → movePeer s c tpl s0 s1 s2 s3 i = .failed) ∧
    (peerEnd s c tpl s0 s3 = .wait → movePeer s c tpl s0 s1 s2 s3 i = .wait) ∧
    (∀ cid h con con0 t t0, peerEnd s c tpl s0 s3 = .tile cid h → conAt s cid = some con → tileAt con h = some t →
      conAt s c.cid = some con0 → tileAt con0 (bits s1.toNat 0 6) = some t0 →
      (t.frz = true → movePeer s c tpl s0 s1 s2 s3 i = .failed) ∧
      (t.frz = false → ∃ con' fl, movePeer s c tpl s0 s1 s2 s3 i = .ok (setCon s con') fl ∧
        ElemPut con con' t (copyElem tpl s3 i).1 (copyElem tpl s3 i).2 (putVal tpl c.nbv
          (tileRead con t (copyElem tpl s3 i).1 (copyElem tpl s3 i).2) (tileRead con0 t0 (copyElem tpl s2 i).1 (copyElem tpl s2 i).2)).1)) ∧
    (∀ con, peerEnd s c tpl s0 s3 = .away → conAt s c.cid = some con →
      (rankLost s con (bits s0.toNat 0 8) = true → movePeer s c tpl s0 s1 s2 s3 i = .failed) ∧
      (rankLost s con (bits s0.toNat 0 8) = false → movePeer s c tpl s0 s1 s2 s3 i = .failed ∨ movePeer s c tpl s0 s1 s2 s3 i =
        .ok s (if Tpl.red tpl then Config.remoteFlags s.tick else 0)))) ∧
  (∀ (e : PeerElem) s con t, conAt s e.cid = some con → con.core = unitOf s → (coreAt s con.core).freeze = none →
    tileAt con e.h = some t → t.lvl = true → t.own = true → e.row < t.rows → e.col < t.cols →
    (reaches s e.pkg = false → exec (.peerTileWrite (.remote e)) s = .next s) ∧
    (s.links ≠ 0 → e.pkg ∉ s.lostPkgs →
    (t.frz = true → exec (.peerTileWrite (.remote e)) s = .next s) ∧
    (t.frz = false → ∃ con', exec (.peerTileWrite (.remote e)) s = .next (setCon s con') ∧
      ElemPut con con' t e.row e.col
        (putAs (e.red && [2, 9, 10].contains t.ty) t.ty e.nbv (tileRead con t e.row e.col) e.value).1))) ∧
  (∀ (ch : Nat) s c, ch < 4 → headOf s (unitOf s) ch = some c → c.begun = true →
    (c.todo ≠ [] → exec (.copyComplete ch) s = .next s) ∧
    (c.todo = [] → ∃ k', exec (.copyComplete ch) s = .next (reap (setCore (completeCmd s c) (unitOf s) k') c.cid) ∧
      CmdGone (coreAt s (unitOf s)) k' ch))

/-- R84, R141, R143, R148, R154, R214, R223: a command that completes adds 1 to its flag, ERR too when it failed, and its flags to NSTAT; a
copy's fault freezes the core's queues and is recorded; the queues restart once its page is no longer awaited, and the line is
retried, or the copy has failed, or its context is killed; under a debugger the issuing course halts instead, with the trap
registers written.

That DETAIL of a kill is doubleword 0 of the record whatever the status is the model's choice between R196 and R214 (log 20), and so
is where a course that halts so is said to stand (log 27). -/
def Obligations.CommandEnds : Prop :=
  (∀ s c con, conAt s c.cid = some con → ∃ con', completeCmd s c = setCon s con' ∧ con' = { con with cf := con'.cf, courses := con'.courses } ∧
    (∀ f, c.flag = some f → (smGet 0 con'.cf f).toNat % 2 ^ 15 = ((smGet 0 con.cf f).toNat + 1) % 2 ^ 15 ∧
      (smGet 0 con'.cf f).msb = ((smGet 0 con.cf f).msb || c.failed)) ∧
    (∀ f, c.flag ≠ some f → smGet 0 con'.cf f = smGet 0 con.cf f) ∧
    (∀ ci c0, flagCourse con c.ci = some ci → crsAt con ci = some c0 →
      crsAt con' ci = some { c0 with nstat := c0.nstat ||| c.flags.setWidth 64 }) ∧
    (∀ ci, flagCourse con c.ci ≠ some ci → crsAt con' ci = crsAt con ci)) ∧
  (∀ s core ch c con e va, conAt s c.cid = some con → (coreAt s core).freeze = none →
    let k := coreAt s core
    let f := faultCourse con c.ci
    let r := faultRec (memTrap e va).1 (memTrap e va).2 0 ch 0 f.1 0 f.2.1 false f.2.2.1 true f.2.2.2
    (16 ≤ k.fifo.length → freezeCore s core ch c e va = s) ∧
    (k.fifo.length < 16 → ∃ u, freezeCore s core ch c e va = u ∧ u = { s with cores := u.cores, pris := u.pris } ∧
      coreAt u core = { k with fifo := k.fifo ++ [r], freeze := some ⟨c.seq, ch, ⟨(memTrap e va).1, (memTrap e va).2, 0, 0, 0⟩, s.cycles⟩ } ∧
      (∀ j, j ≠ core → coreAt u j = coreAt s j) ∧ (e ≠ .xlat rNotPresent → u.pris = s.pris) ∧
      (e = .xlat rNotPresent → ∃ id, u.pris = s.pris ++ [⟨id, (ctxOf s con).1, va, .freeze core⟩]))) ∧
  (∀ s core q, (coreAt s core).freeze ≠ none → headOf s core q = none) ∧
  (∀ s f, (coreAt s (unitOf s)).freeze = some f →
    let k := coreAt s (unitOf s)
    let k1 := { k with freeze := none, lost := k.lost + (s.cycles - f.since) }
    ((∃ p ∈ s.pris, p.who = .freeze (unitOf s)) → ∀ b, exec (.freezeResume b) s = .next s) ∧
    ((∀ p ∈ s.pris, p.who ≠ .freeze (unitOf s)) → exec (.freezeResume .retry) s = .next (setCore s (unitOf s) k1) ∧
      ∀ c, f.chan < 4 → (queueAt k f.chan).find? (fun c => c.seq == f.seq) = some c →
        (∃ k2, exec (.freezeResume .failed) s = .next (setCore (setCore s (unitOf s) k1) (unitOf s) k2) ∧
          CmdPut k1 k2 f.chan { c with failed := true, todo := [] }) ∧
        ∀ con, conAt s c.cid = some con →
          (debugged s (ctxOf s con).1 = false → exec (.freezeResume .kill) s = .next (killFrozen (setCore s (unitOf s) k1) f c)) ∧
          (debugged s (ctxOf s con).1 = true → ∀ ci d spi sp rest, flagCourse con c.ci = some ci → crsAt con ci = some d →
            let running := (coreAt s (unitOf s)).issue.any fun i => i.2.cid == con.cid && i.2.ci == ci
            (running = true → exec (.freezeResume .kill) s = .next s) ∧
            (running = false → d.ended = false → d.splits = (spi, sp) :: rest → ∃ u, exec (.freezeResume .kill) s = .next u ∧
              u = { s with consorts := u.consorts } ∧ (∀ cid, cid ≠ con.cid → conAt u cid = conAt s cid) ∧
              ∃ d', courseAt u con.cid ci = some d' ∧ d' = { d with
                trapc := BitVec.ofNat 64 f.trap.cause, trapv := f.trap.value, trappc := cursor sp.pc sp.off
                halted := true, trapHalt := some spi, splits := d'.splits } ∧
              ∀ i y, alGet d.splits i = some y → alGet d'.splits i = some { y with
                wake := none, preRun := if i = spi then 0 else y.preRun })))) ∧
  (∀ s f c con, conAt s c.cid = some con → ∃ r : FaultRec, killFrozen s f c = killLaunch s con.launch con.cid
    (killStatus f.trap.cause f.trap.value ((launchAt s con.launch).elim false fun l => decide (l.gangSize ≠ 0)))
    (BitVec.ofNat 64 (r.toNat % 2 ^ 64)) ∧ r.toNat / 2 ^ 40 % 2 ^ 8 = f.trap.cause % 2 ^ 8)

/-- R86 to R89, R134, R148 to R153: matrix commands run one at a time, and write what each is to compute as they complete; a peer add
waits for its contribution, which the receiver applies in slot order. One from another package is applied in the same way.

R348: an add to its sender's own rank is applied as the command ends, and holds the queue till its slot is due.

That the result is written as one step is the model's reading (log 29); that a contribution from another package waits here, and is
dropped where the receiver has no such accumulator or flag, is deduced from R152 (log 22). -/
def Obligations.MatrixEvents : Prop :=
  (∀ s c, headOf s (unitOf s) 4 = some c → c.begun = false →
    (hazardFree s (coreAt s (unitOf s)) c = false → exec .matrixStart s = .next s) ∧
    (hazardFree s (coreAt s (unitOf s)) c = true → ∃ k' pay, exec .matrixStart s = .next (setCore s (unitOf s) { k' with passes := 0 }) ∧
      CmdPut (coreAt s (unitOf s)) k' 4 { c with begun := true, payload := pay } ∧
      (∀ o r a v con, c.kind = .peer o r a v → conAt s c.cid = some con →
        ∀ j, j < 16384 → smGet 0 pay j = smGet 0 con.acc (a * 16384 + j)))) ∧
  (∀ s c con, headOf s (unitOf s) 4 = some c → c.begun = true → conAt s c.cid = some con → (∀ o r a v, c.kind ≠ .peer o r a v) →
    let r := runMatrix con c.nbv c.kind
    ∃ k', exec .matrixComplete s = .next (reap (setCore (completeCmd (setCon s r.1)
      { c with flags := c.flags ||| r.2.1, failed := r.2.2 }) (unitOf s) k') c.cid) ∧ CmdGone (coreAt s (unitOf s)) k' 4) ∧
  (∀ s c con o r a v, headOf s (unitOf s) 4 = some c → c.begun = true → c.kind = .peer o r a v → conAt s c.cid = some con →
    selfAdd s c = false →
    (c.done = false → exec .matrixComplete s = .next s) ∧
    (c.done = true → ∃ k', exec .matrixComplete s = .next (reap (setCore (completeCmd s c) (unitOf s) k') c.cid) ∧
      CmdGone (coreAt s (unitOf s)) k' 4)) ∧
  (∀ s c con o r a v, headOf s (unitOf s) 4 = some c → c.begun = true → c.kind = .peer o r a v → conAt s c.cid = some con →
    selfAdd s c = true →
    let ok := r < con.nacc ∧ ∀ f, rflagOf v = some f → f < con.nflag
    let ends := fun s' c' => ∃ k', exec .matrixComplete s = .next (reap (setCore (completeCmd s' c') (unitOf s) k') c.cid) ∧
      CmdGone (coreAt s (unitOf s)) k' 4
    (¬ ok → ends s { c with failed := true }) ∧
    (ok → ∀ j, slotOf o v = some j → smGet 0 con.nextSlot r ≠ j → exec .matrixComplete s = .next s) ∧
    (ok → (∀ j, slotOf o v = some j → smGet 0 con.nextSlot r = j) → ∃ con' fl, Added con con' r c.payload (slotOf o v) (rflagOf v) ∧
      ends (setCon s con') { c with flags := fl })) ∧
  (∀ s c, selfAdd s c = true ↔ ∃ o r a v con rc, c.kind = .peer o r a v ∧ conAt s c.cid = some con ∧
    rankConsort s con (bits v.toNat 0 8) = some rc ∧ rc.cid = c.cid) ∧
  (∀ s k, arrayFree s k = true ↔ ∀ c q, k.matq = c :: q → c.begun = false ∨ ((∃ o r a v, c.kind = .peer o r a v) ∧ selfAdd s c = false)) ∧
  (∀ con nbv ty k sat acc a b ta tb, tileAt con a = some ta → tileAt con b = some tb → ta.rows ≤ 128 → tb.cols ≤ 128 →
    ∀ kind f, (kind = .mma ty k sat acc a b ∧ f = mmaElem con ty k nbv sat acc ta tb) ∨ (kind = .mblk ty acc a b ∧ f = mblkElem con ty nbv ta tb) →
    let r := runMatrix con nbv kind
    r.1 = { con with acc := r.1.acc } ∧ r.2.2 = false ∧ ∀ d i j, i < 128 → j < 128 → accGet r.1 d i j =
      if d = acc ∧ i < ta.rows ∧ j < tb.cols then (f i j).1 % 2 ^ 32 else accGet con d i j) ∧
  (∀ con nbv n acc ta tb i j, (mmaElem con 0 (16 * 2 ^ n) nbv false acc ta tb i j).1 = wrapTo 32 (signedOf 32 (accGet con acc i j) +
    ((List.range (16 * 2 ^ n)).map fun x => signedOf 8 (tileRead con ta i x) * signedOf 8 (tileRead con tb x j)).sum)) ∧
  (∀ con ty nbv n sat acc ta tb i j, (ty = 0 ∨ ty = 15) →
    let weight := fun v => if ty = 0 then signedOf 8 v else if v = 1 then 1 else if v = 3 then -1 else (0 : Int)
    let term := fun x => weight (tileRead con ta i x) * signedOf 8 (tileRead con tb x j)
    (mmaElem con ty (16 * 2 ^ n) nbv sat acc ta tb i j).1 = (List.range (2 ^ n)).foldl (fun v c =>
      let sum := signedOf 32 v + ((List.range 16).map fun x => term (16 * c + x)).sum
      wrapTo 32 (if sat then max (-2 ^ 31) (min (2 ^ 31 - 1) sum) else sum)) (accGet con acc i j) ∧
    (mmaElem con ty (16 * 2 ^ n) nbv sat acc ta tb i j).2 =
      if ty = 15 ∧ ((List.range (16 * 2 ^ n)).any fun x => tileRead con ta i x == 2) = true then flTRES else 0) ∧
  (∀ con ty f nbv n sat acc ta tb i j, tyFmt ty = some f →
    let len := if nbv = 2 then 8 else 16
    let rm := if nbv = 2 then Rm.rtz else .rne
    let chunk := fun c => chunkSum f rm ((List.range len).map fun x => (tileRead con ta i (len * c + x), tileRead con tb (len * c + x) j))
    mmaElem con ty (16 * 2 ^ n) nbv sat acc ta tb i j = (List.range (16 * 2 ^ n / len)).foldl (fun v c =>
      let q := fAdd fmtF32 .rne false v.1 (chunk c).1
      (q.1, v.2 ||| (chunk c).2 ||| q.2)) (accGet con acc i j, 0) ∧
    mblkElem con ty nbv ta tb i j = chunkSum f rm ((List.range 16).map fun x => (tileRead con ta i x, tileRead con tb x j))) ∧
  (∀ f rm ps, ps ≠ [] → let val := fun x => f.unpack x
    let nan := ∃ p ∈ ps, (∃ s, val p.1 = .nan s ∨ val p.2 = .nan s) ∨
      ∃ a m e, (val p.1 = .inf a ∧ val p.2 = .fin m 0 e) ∨ (val p.1 = .fin m 0 e ∧ val p.2 = .inf a)
    let inf := fun neg => ∃ p ∈ ps, ∃ a b, (a != b) = neg ∧ ((val p.1 = .inf a ∧ val p.2 = .inf b) ∨
      ∃ m e, m ≠ 0 ∧ ((val p.1 = .inf a ∧ val p.2 = .fin b m e) ∨ (val p.1 = .fin a m e ∧ val p.2 = .inf b)))
    (nan ∨ (inf true ∧ inf false) → chunkSum f rm ps = (0x7FC00000, flIV)) ∧
    (¬ nan → inf false → ¬ inf true → chunkSum f rm ps = (0x7F800000, 0)) ∧
    (¬ nan → inf true → ¬ inf false → chunkSum f rm ps = (0xFF800000, 0)) ∧
    ∀ xs : List ((Bool × Nat × Int) × (Bool × Nat × Int)), ps.map (fun p => (val p.1, val p.2)) =
        xs.map (fun p => (.fin p.1.1 p.1.2.1 p.1.2.2, .fin p.2.1 p.2.2.1 p.2.2.2)) →
      chunkSum f rm ps = roundDy fmtF32 rm false
        (xs.foldl (fun a p => a.add ((finDy p.1.1 p.1.2.1 p.1.2.2).mul (finDy p.2.1 p.2.2.1 p.2.2.2))) ⟨0, 0⟩)
        (xs.all fun p => p.1.2.1 * p.2.2.1 == 0 && p.1.1 != p.2.1)) ∧
  (∀ nbv sat v, let h := fCvt fmtF32 fmtF16 .rne sat v
    drainElem 8 nbv sat v = (if nbv = 2 ∧ 0 < h.1 % 2 ^ 15 ∧ h.1 % 2 ^ 15 < 2 ^ 10 then (h.1 - h.1 % 2 ^ 15, h.2 ||| flUF ||| flNX) else h) ∧
    drainElem 9 nbv sat v = fCvt fmtF32 fmtBF16 .rne sat v ∧ ∀ ty, ty ≠ 8 → ty ≠ 9 → drainElem ty nbv sat v = (v, 0)) ∧
  (∀ con nbv dst src h t, tileAt con h = some t →
    let r := runMatrix con nbv (.scla dst src h)
    r.1 = { con with acc := r.1.acc } ∧ r.2.2 = false ∧ ∀ d i j, i < 128 → j < 128 → accGet r.1 d i j =
      if d = dst then (scaleAdd (accGet con dst i j) (accGet con src i j) (tileRead con t 0 i) (tileRead con t 1 j)).1 % 2 ^ 32
      else accGet con d i j) ∧
  (∀ con nbv a, let r := runMatrix con nbv (.mzero a)
    r.1 = { con with acc := r.1.acc, nextSlot := r.1.nextSlot } ∧ smGet 0 r.1.nextSlot a = 0 ∧
    ∀ d i j, i < 128 → j < 128 → accGet r.1 d i j = if d = a then 0 else accGet con d i j) ∧
  (∀ con nbv h acc ty sat t, tileAt con h = some t →
    let r := runMatrix con nbv (.mdrain h acc ty sat)
    (t.frz = true → r = (con, 0, true)) ∧
    (t.frz = false → r.1 = { con with tmem := r.1.tmem } ∧ r.2.2 = false ∧ ∀ i j, i < t.rows → j < t.cols →
      tileRead r.1 t i j = (drainElem ty nbv sat (accGet con acc i j)).1 % 2 ^ tyBits t.ty)) ∧
  (∀ s c con o racc a target rc, unitOf s < 256 → (coreAt s (unitOf s)).matq.head? = some c → c.kind = .peer o racc a target → conAt s c.cid = some con →
    c.begun = true → c.done = false →
    let l := launchOf s con
    let base := l.span.elim 0 (·.base)
    let rank := bits target.toNat 0 8
    base ≤ rank → rank < base + l.gangSize → rankConsort s con rank = some rc →
    (rc.cid = c.cid → exec .peerContributionApply s = .next s) ∧
    (rc.cid ≠ c.cid → (coreAt s rc.core).freeze = none → arrayFree s (coreAt s rc.core) = true →
    let ok := racc < rc.nacc ∧ (target.getLsbD 22 = true → bits target.toNat 16 6 < rc.nflag)
    (¬ ok → ∃ k', exec .peerContributionApply s = .next (setCore s (unitOf s) k') ∧
      CmdPut (coreAt s (unitOf s)) k' 4 { c with failed := true, done := true }) ∧
    (ok → o = true → smGet 0 rc.nextSlot racc ≠ bits target.toNat 8 8 → exec .peerContributionApply s = .next s) ∧
    (ok → (o = true → smGet 0 rc.nextSlot racc = bits target.toNat 8 8) → ∃ rc' k' fl,
      exec .peerContributionApply s = .next (setCore (setCon s rc') (unitOf s) k') ∧
      CmdPut (coreAt s (unitOf s)) k' 4 { c with flags := fl, done := true } ∧
      Added rc rc' racc c.payload (slotOf o target) (rflagOf target)))) ∧
  (∀ (i : Nat) (a : PeerAdd) s rc, unitOf s = 256 + i → s.adds[i]? = some a → conAt s a.cid = some rc → (coreAt s rc.core).freeze = none →
    arrayFree s (coreAt s rc.core) = true →
    let ok := a.acc < rc.nacc ∧ ∀ f, a.rflag = some f → f < rc.nflag
    let u := { s with adds := s.adds.eraseIdx i }
    (¬ ok → exec .peerContributionApply s = .next u) ∧
    (ok → ∀ j, a.slot = some j → smGet 0 rc.nextSlot a.acc ≠ j → exec .peerContributionApply s = .next s) ∧
    (ok → (∀ j, a.slot = some j → smGet 0 rc.nextSlot a.acc = j) → ∃ rc', exec .peerContributionApply s = .next (setCon u rc') ∧
      Added rc rc' a.acc (smSets 0 [] (a.payload.filter fun c => decide (c.1 < 16384))) a.slot a.rflag))

/-! ## Issue, writes, and the end of courses -/

/-- R36, R45, R53 to R55, R145, R209, R210: an issue slot takes the clause of the course that no other candidate beats; CFWAIT words
take their thresholds as the clause issues. A fifth clause of a run with PRE = 0 traps. A clause of the Capo agent comes between
the words of another on slot 0 only while that one waits at a word.

R54, R110, R126, R213: a header that breaks its limits traps; a fetch from a pinned line waits, and one that fails traps at offset 0.

R175, R176: a clause issued during an etch abandons it where it mixes driver and others (2), or holds a word that no driver may (1).

R239: a fetched word is what memory holds, or what the core's cache or memory held of it since the last LAUNCH of its context.

That a header is checked before the flags, queues and thresholds of its clause are waited for, and that a resume inside a clause does
not count in the run of PRE = 0, are the model's choices (log 16), and so is the order of reasons 2 and
1 (log 26). -/
def Obligations.ClauseIssues : Prop :=
  (∀ s core want con c (r : Nat × Split × Look), bestCourse s core want = some (con, c, r) →
    con ∈ s.consorts ∧ con.core = core ∧ want con = true ∧ c ∈ con.courses ∧ lookCourse s (coreAt s core) con c = some r ∧
    ∀ con' ∈ s.consorts, con'.core = core → want con' = true → ∀ c' ∈ con'.courses,
      (lookCourse s (coreAt s core) con' c').isSome = true → wins s (con', c') (con, c) = false) ∧
  (∀ s (a b : Consort × Course), effPrio s b.1 b.2 < effPrio s a.1 a.2 → wins s a b = true ∧ wins s b a = false) ∧
  (∀ s con (c : Course), con.capo = false → (launchOf s con).prio ≤ 22 →
    effPrio s con c = min (min ((launchOf s con).prio + c.age / 4096) ((launchOf s con).prio + 3)) 22) ∧
  (∀ (islot : Nat) s con c spi sp h ws, islot < 4 → alGet (coreAt s (unitOf s)).issue islot = none →
    (islot = 0 → alGet (coreAt s (unitOf s)).issue 4 = none) →
    bestCourse s (unitOf s) (fun con => islot == 0 || !con.capo) = some (con, c, spi, sp, .issue h ws) →
    exec (.clauseIssue islot) s = .next (issueClause s (unitOf s) islot con c spi sp h ws)) ∧
  (∀ s i con0 con c spi sp h ws, alGet (coreAt s (unitOf s)).issue 0 = some i → alGet (coreAt s (unitOf s)).issue 4 = none →
    conAt s i.cid = some con0 → con0.capo = false →
    (i.waits = false → exec .capoInterleave s = .next s) ∧
    (i.waits = true → bestCourse s (unitOf s) (fun con => con.capo) = some (con, c, spi, sp, .issue h ws) →
      exec .capoInterleave s = .next (issueClause s (unitOf s) 4 con c spi sp h ws))) ∧
  (∀ s core islot con c spi sp h ws, conAt s con.cid = some con → crsAt con c.idx = some c → ∃ u,
    let drv := c.driver.getD (hDrv h)
    let ins := (starts 1 ws).filter fun i => decide (max 1 sp.off ≤ i.1)
    issueClause s core islot con c spi sp h ws = (if con.plate.mode = 1 ∧ hDrv h ≠ drv then abandonEtch u con.cid 2
      else if con.plate.mode = 1 ∧ drv = true ∧ ∃ i ∈ starts 1 ws, driverMay i.2 = false then abandonEtch u con.cid 1 else u) ∧
    u = { s with cores := u.cores, consorts := u.consorts, tlb := u.tlb } ∧
    (∃ i, alGet (coreAt u core).issue islot = some i ∧ i.cid = con.cid ∧ i.ci = c.idx ∧ i.sp = spi ∧ i.hdr = sp.pc ∧
      i.header = h ∧ i.words = ws ∧ i.off = max 1 sp.off ∧ i.await = none ∧ i.waits = false) ∧
    (∀ j, j ≠ islot → alGet (coreAt u core).issue j = alGet (coreAt s core).issue j) ∧
    ∃ con' c', conAt u con.cid = some con' ∧ crsAt con' c.idx = some c' ∧ con' = { con with courses := con'.courses, cf := con'.cf } ∧
      c' = { c with rr := (spi + 1) % 8, age := 0, driver := some drv, splits := c'.splits } ∧
      (∃ sp', alGet c'.splits spi = some sp' ∧ sp'.pc = sp.pc ∧ sp'.point = hPre h ∧
        sp'.preRun = if hPre h then 0 else if sp.off = 0 then sp.preRun + 1 else sp.preRun) ∧
      ∀ f, smGet 0 con'.cf f = if cfErrOf con f then smGet 0 con.cf f else smGet 0 con.cf f -
        BitVec.ofNat 16 (((thresholds con.nflag ins).filter fun t => t.1 == f).map (·.2.1)).sum) ∧
  (∀ s con (r : Nat), conAt s con.cid = some con → con.plate.mode = 1 → con.plate.finished = false →
    let u := setCon s { con with plate := { con.plate with mode := 0, reason := r } }
    (launchAt s con.launch = none → abandonEtch s con.cid r = u) ∧
    ∀ l, launchAt s con.launch = some l →
      abandonEtch s con.cid r = setLaunch u { l with abandon := if l.abandon = 0 then r else l.abandon }) ∧
  (∀ w i, decodeCtrl w = .ok i → driverMay [w] = true) ∧
  (∀ w0 w1 i, decodeCore w0 w1 = .ok i → driverMay [w0, w1] = (match i with
    | .xcopy _ => true | .xcopym _ _ => true | .mma _ _ => true | .mblk _ => true | .scla _ => true | .mdrain _ => true
    | .mdrainPeer _ => true | .mdrainOpeer _ => true | .mzero _ => true | .cfwait _ => true | .cfadd _ => true | .cfset _ => true
    | .cfrd _ => true | .tgive _ => true | .ttake _ => true | .pslot _ => true | .pguard _ => true | _ => false)) ∧
  (∀ s k con c sp, waitsPinned s (ctxOf s con) con.cid [sp.pc] = true → lookClause s k con c sp = .no) ∧
  (∀ s k con c sp e, waitsPinned s (ctxOf s con) con.cid [sp.pc] = false → fetch s k (ctxOf s con) sp.pc = .error e →
    lookClause s k con c sp = .trap ⟨e.1, e.2, sp.pc, 0, sp.pc + 4 * 0⟩) ∧
  (∀ s k con c sp h, waitsPinned s (ctxOf s con) con.cid [sp.pc] = false → fetch s k (ctxOf s con) sp.pc = .ok h →
    (headerOk h sp.loops = false ∨ (sp.off = 0 ∧ skips h sp.pc sp.loops = false ∧ hPre h = false ∧ 4 ≤ sp.preRun)) →
    lookClause s k con c sp = .trap ⟨cILL, BitVec.ofNat 64 iHEADER, sp.pc, 0, sp.pc + 4 * 0⟩) ∧
  (∀ (h : Word) (ls : List LoopRec), headerOk h ls = true → 1 ≤ hLen h ∧ hLen h ≤ 24 ∧ (hSetA h < 12 ∨ hSetA h = 15) ∧
    (hSetB h < 12 ∨ hSetB h = 15)) ∧
  (∀ s k (ctx : Nat × Nat) va w, fetch s k ctx va = .ok w → ∃ l, translate s ctx.1 ctx.2 .fetch va = .ok l ∧
    ((∃ b, loadLeaf s l va 4 = .ok b ∧ w = BitVec.ofNat 32 (ofBytes b)) ∨
     (∃ e ∈ k.icache, e.pasid = ctx.1 ∧ e.host = l.host ∧ e.pa = l.frame + va % 4096 ∧ e.word = w) ∨
     ∃ x ∈ s.launches, ∃ p ∈ x.code, ∃ b, x.pasid = ctx.1 ∧ w = BitVec.ofNat 32 (ofBytes b) ∧
       loadLeaf { s with mem := p.mem, lines := p.lines, keyIds := p.keyIds, hostmem := p.hostmem } l va 4 = .ok b))

/-- R37, R38, R84, R127, R221, R223 to R225, R230: a long-latency write lands what it is bound for, and its flags; an error that it
met is recorded then. R49: entries enter a queue in the order in which clauses issue, however late they land. R224: a course with an
error outstanding waits at its next boundary, a handler of another split too (the latter is the model's reading, log 10). WDOG comes to the
lowest split of the consort's first live course; pins of 2^16 cycles end and are counted; an error found late is recorded once it
may be, and kills the context, or halts its course under a debugger.

That WDOG kills a context with no live course left is the model's choice (log 34), and so is the DETAIL of both kills, doubleword 0 of
the record whatever the status (log 20). -/
def Obligations.LateEvents : Prop :=
  (∀ (ci k : Nat) s con c p, conAt s (unitOf s) = some con → crsAt con ci = some c → c.pend[k]? = some p →
    (p.reqs ≠ 0 → exec (.longLatencyWriteback ci k) s = .next s) ∧
    (p.reqs = 0 → p.holds = false → p.skip = [] → (p.lanes.map (·.1)).Nodup → (p.scalars.map (·.1)).Nodup →
      ∃ con' c', exec (.longLatencyWriteback ci k) s = .next (match p.record with
          | none => setCon s con'
          | some e => reap (imprecise (setCon s con') con.core e) con.cid) ∧ crsAt con' ci = some c' ∧
        con' = { con with courses := con'.courses, queues := con'.queues, turns := con'.turns } ∧
        c' = { c with v := c'.v, s := c'.s, marks := c'.marks, nstat := c.nstat ||| p.fl.setWidth 64, pend := c.pend.filter fun q => q.id != p.id } ∧
        (∀ r l, l < 64 → vGet c' r l = (alGet p.lanes (r * 64 + l)).getD (vGet c r l)) ∧
        (∀ r, r ≠ 0 → sGet c' r = (alGet p.scalars r).getD (sGet c r)) ∧
        (∀ q es, p.push = some (q, es) →
          let n := ((turnsOf con q).filter fun t => decide (t ≤ p.turn)).length
          queueOf con' q = (queueOf con q).take n ++ es ++ (queueOf con q).drop n ∧
          turnsOf con' q = (turnsOf con q).take n ++ List.replicate es.length p.turn ++ (turnsOf con q).drop n ∧
          ∀ r, r ≠ q → queueOf con' r = queueOf con r ∧ turnsOf con' r = turnsOf con r) ∧
        (p.push = none → con'.queues = con.queues ∧ con'.turns = con.turns))) ∧
  (∀ s con, conAt s (unitOf s) = some con →
    (con.wdLimit = 0 ∨ (con.wdRaised = true ∧ con.wdDue = false) ∨ con.wdSpent < 1024 * con.wdLimit → exec .wdog s = .next s) ∧
    (con.wdLimit ≠ 0 → con.wdRaised = false → 1024 * con.wdLimit ≤ con.wdSpent →
      (con.courses.all (·.ended) = false → exec .wdog s = .next (setCon s { con with wdRaised := true, wdDue := true })) ∧
      (con.courses.all (·.ended) = true →
        (16 ≤ (coreAt s con.core).fifo.length → exec .wdog s = .next s) ∧
        ((coreAt s con.core).fifo.length < 16 → ∃ s1, exec .wdog s = .next (killLaunch s1 con.launch con.cid
            (killStatus cWDOG 0 ((launchOf s con).gangSize != 0)) (BitVec.ofNat 64 ((wdogRec con).toNat % 2 ^ 64))) ∧
          s1 = { s with cores := s1.cores, consorts := s1.consorts } ∧
          (coreAt s1 con.core).fifo = (coreAt s con.core).fifo ++ [wdogRec con])))) ∧
  (∀ s k con (c : Course) p, con.wdDue = true → wdCourse con = some c.idx → mayIssue k con c true = true → fifoRoom k = true →
    c.splits.head? = some p →
    lookCourse s k con c = some (p.1, p.2, .trap ⟨cWDOG, 0, p.2.pc, p.2.off, p.2.pc + 4 * p.2.off⟩)) ∧
  (∀ (line : Nat) s, let k := coreAt s (unitOf s)
    let old := fun (p : Pin) => decide (p.since + 2 ^ 16 ≤ s.cycles)
    ((∃ p ∈ k.pins, p.line = line ∧ p.since + 2 ^ 16 ≤ s.cycles) → exec (.pinTimeout line) s = .next (setCore s (unitOf s) { k with
      pins := k.pins.filter (fun p => decide (s.cycles < p.since + 2 ^ 16))
      dirty := k.dirty.filter (fun d => !(k.pins.filter old).any fun p => p.line == d.line)
      pinTimeouts := k.pinTimeouts + (k.pins.filter old).length })) ∧
    ((∀ p ∈ k.pins, p.line = line → s.cycles < p.since + 2 ^ 16) → exec (.pinTimeout line) s = .next s)) ∧
  (∀ s, let k := coreAt s (unitOf s)
    (∀ e, k.storeErrs.find? (fun e => !impWaits s (unitOf s) e) = some e →
      exec .storeError s = .next (reap (imprecise (setCore s (unitOf s) { k with storeErrs := k.storeErrs.erase e }) (unitOf s) e) e.cid)) ∧
    ((∀ e ∈ k.storeErrs, impWaits s (unitOf s) e = true) → exec .storeError s = .next s)) ∧
  (∀ s core e con c, conAt s e.cid = some con → crsAt con e.ci = some c → (impWaits s core e = true ↔
    fifoRoom (coreAt s core) = false ∨ (c.gen = e.gen ∧ c.ended = false ∧
      ((∃ p ∈ (coreAt s core).issue, p.2.cid = e.cid ∧ p.2.ci = e.ci) ∨
       ∃ i sp t, trapPending c = some (i, sp, t) ∧ i < e.sp ∧ (alGet c.splits e.sp).isSome = true)))) ∧
  (∀ s k con (c : Course), (con.wdDue && wdCourse con == some c.idx) = false → trapPending c = none →
    (∃ e ∈ k.storeErrs, e.cid = con.cid ∧ e.ci = c.idx ∧ e.gen = c.gen) → lookCourse s k con c = none) ∧
  (∀ s core e, let k := coreAt s core
    (impWaits s core e = true → imprecise s core e = setCore s core { k with storeErrs := k.storeErrs ++ [e] }) ∧
    (impWaits s core e = false →
      (conAt s e.cid = none → imprecise s core e = setCore s core { k with fifo := k.fifo ++
        [faultRec cMEMERR (BitVec.ofNat 64 e.line) e.pc 6 0 e.slot e.sp e.gen true true false false] }) ∧
      (∀ con c, conAt s e.cid = some con → crsAt con e.ci = some c →
        let r := faultRec cMEMERR (BitVec.ofNat 64 e.line) e.pc 6 0 e.slot e.sp e.gen true c.ended false false
        (con.capo = false → debugged s (ctxOf s con).1 = false → imprecise s core e =
          killLaunch (setCore s core { k with fifo := k.fifo ++ [r] }) con.launch e.cid
            (killStatus cMEMERR 0 ((launchAt s con.launch).elim false fun l => decide (l.gangSize ≠ 0))) (BitVec.ofNat 64 (r.toNat % 2 ^ 64))) ∧
        (debugged s (ctxOf s con).1 = true → (coreAt (imprecise s core e) core).fifo = k.fifo ++ [r] ∧
          courseAt (imprecise s core e) e.cid e.ci = some { c with
            trapc := BitVec.ofNat 64 cMEMERR, trapv := BitVec.ofNat 64 e.line
            trappc := (alGet c.splits e.sp).elim (cursor e.pc 0) fun sp => cursor sp.pc sp.off
            halted := true, trapHalt := if (alGet c.splits e.sp).isSome then some e.sp else none
            splits := endSleeps (resetRun c.splits e.sp) })))) ∧
  (∀ (splits : List (Nat × Split)) (i j : Nat) sp, alGet splits j = some sp →
    alGet (endSleeps (resetRun splits i)) j = some { sp with wake := none, preRun := if j = i then 0 else sp.preRun })

/-- R35, R46, R95, R126, R134, R185, R186, R197, R224: a course ends, or waits for the next temporal iteration; a consort that has ended
releases its core, no error of its accesses being left to record; a print feeds its entries in order, each once its queue has room, and waits for pinned lines of the plate store.

That feeding stops at a request for pre-emption is the model's choice (log 23), and so is that the words of an entry, not its kind, say
what is fed (log 26). -/
def Obligations.CourseEvents : Prop :=
  (∀ (ci : Nat) s con c, conAt s (unitOf s) = some con → crsAt con ci = some c → con.capo = false →
    (courseDone s con c = false → exec (.courseEnd ci) s = .next s) ∧
    (courseDone s con c = true → con.plate.mode ≠ 1 → iterationsLeft (launchOf s con) con.tix = true →
      exec (.courseEnd ci) s = .next (reap (noteStep (setCon s (setCrs con { c with atEnd := true })) con.cid) con.cid)) ∧
    (courseDone s con c = true → con.plate.mode ≠ 1 → iterationsLeft (launchOf s con) con.tix = false →
      exec (.courseEnd ci) s = .next (reap (noteStep (setCon s (setCrs con { c with ended := true, splits := [] })) con.cid) con.cid))) ∧
  (∀ s con, conAt s con.cid = some con →
    (consortOver s con = false → reap s con.cid = s) ∧
    ((∃ c ∈ con.courses, ∃ p ∈ c.pend, p.record.isSome = true) ∨ (∃ e ∈ (coreAt s con.core).storeErrs, e.cid = con.cid) →
      consortOver s con = false) ∧
    (consortOver s con = true → conAt (reap s con.cid) con.cid = none ∧
      (∀ cid, cid ≠ con.cid → conAt (reap s con.cid) cid = conAt s cid) ∧
      ∀ l, launchAt s con.launch = some l → launchAt (reap s con.cid) con.launch = some { l with ended := l.ended + 1 })) ∧
  (∀ s con, conAt s (unitOf s) = some con →
    ((con.courses = [] ∨ con.courses.all (·.atEnd) = false ∨ iterationsLeft (launchOf s con) con.tix = false) →
      exec .temporalIteration s = .next s) ∧
    (con.courses ≠ [] → con.courses.all (·.atEnd) = true → iterationsLeft (launchOf s con) con.tix = true →
      ∃ con', exec .temporalIteration s = .next (setCon s con') ∧ con' = { con with tix := con'.tix, courses := con'.courses } ∧
        con'.tix = nextTix (launchOf s con) con.tix 4 ∧ con'.courses.length = con.courses.length ∧
        ∀ (k : Nat) (c : Course), con.courses[k]? = some c → ∃ c' : Course, con'.courses[k]? = some c' ∧ c'.atEnd = false ∧ c'.s = c.s ∧ c'.v = c.v ∧ c'.p = c.p ∧
          c'.recs = [] ∧ c'.splits = [(0, entrySplit c.entry (liveLanes (launchOf s con)))])) ∧
  (∀ (l : Launch) (tix : List Nat) (n : Nat), n < 4 → extentOf l n ≠ 0 → kindOf l n = 0 → tix.length = 4 →
    (∀ m, m < n → extentOf l m = 0 ∨ kindOf l m ≠ 0 ∨ extentOf l m ≤ tix.getD m 0 + 1) → tix.getD n 0 + 1 < extentOf l n →
    ∀ m, m < 4 → (nextTix l tix 4).getD m 0 = if m = n then tix.getD n 0 + 1
      else if m < n ∧ extentOf l m ≠ 0 ∧ kindOf l m = 0 then 0 else tix.getD m 0) ∧
  (∀ s con, conAt s (unitOf s) = some con →
    (con.plate.mode = 1 → exec .plateFeed s = .next (reap (etchFinish s con.cid) con.cid)) ∧
    ((con.plate.mode ≠ 1 ∧ con.plate.mode ≠ 2) ∨ (con.plate.mode = 2 ∧ (con.plate.feedDone = true ∨ con.preReq.isSome = true ∨ streamPinned s con = true)) →
      exec .plateFeed s = .next s) ∧
    (con.plate.mode = 2 → con.plate.feedDone = false → con.dying = false → con.held = false → con.preReq = none →
      (coreAt s con.core).freeze = none → streamPinned s con = false → streamOk s con = false →
      exec .plateFeed s = .next (plateEvent s con cPLATE 3)) ∧
    (con.plate.mode = 2 → con.plate.feedDone = false → con.dying = false → con.held = false → con.preReq = none →
      (coreAt s con.core).freeze = none → streamPinned s con = false → streamOk s con = true →
      let v := (con.plate.entries.getD con.plate.feed 0).toNat
      (bits v 124 4 = 0 → exec .plateFeed s =
        .next (reap (setCon s { con with plate := { con.plate with feedDone := true } }) con.cid)) ∧
      (bits v 124 4 = 11 → bits v 120 4 = 3 → tileGuardOk con v = true → exec .plateFeed s = .next (setCon s (fedOn con 1))) ∧
      (bits v 124 4 = 11 → bits v 120 4 = 3 → tileGuardOk con v = false → exec .plateFeed s = .next (plateEvent s con cPLATE 1)) ∧
      (∀ p n, 2 ≤ n → n ≤ 7 → bits v 124 4 = n → entryInstr v = some (.mzero p) →
        let plan := planMatrix (launchOf s con) con .mzero p (BitVec.ofNat 64 (bits v 64 23))
        (roomFor (coreAt s con.core) ([4] ++ engineClaims (coreAt s con.core)) = false → exec .plateFeed s = .next s) ∧
        (∀ e, plan = .error e → roomFor (coreAt s con.core) ([4] ++ engineClaims (coreAt s con.core)) = true →
          exec .plateFeed s = .next (plateEvent s con cPLATE 2)) ∧
        ∀ ps, plan = .ok ps →
        roomFor (coreAt s con.core) ([4] ++ engineClaims (coreAt s con.core)) = true →
        ∃ k' c, exec .plateFeed s = .next (setCon (setCore s con.core k') (fedOn con 1)) ∧ Queued (coreAt s con.core) k' 4 c ∧
          c.kind = .mzero p.d.toNat ∧ c.ci = none ∧ c.nbv = (launchOf s con).nbv ∧ c.issued = s.tick ∧ c.entry = some con.plate.feed)))

/-! ## The front end -/

/-- R188 to R193, R196, R413: a wake that passes its checks gives the queue its new tail, and one that fails a check is counted and
discarded; the queue to serve gives its next command; a completion record takes the next place of its ring. A ring access waits
for a line that a consort has pinned (R126), and so does a wake's access to the QCB. A ring access asks for a page that is not
present, and has failed when the page, granted, still is not there; a record that cannot be written yet is owed, and written before
any later one.

That a wake outside service has no effect is the model's choice (log 19); that round-robin takes the queue served longest ago, and that a
granted page is asked for once, are deduced (log 20). -/
def Obligations.QueueEvents : Prop :=
  (∀ (off : Nat) bytes pasid s,
    let qcb := fieldB bytes 0 8
    let b := qcbOf s qcb
    (serving s = false ∨ off < 0x10000 ∨ 0x20000 ≤ off ∨ qcbPinned s qcb = true → exec (.wakeWrite off bytes pasid) s = .next s) ∧
    (∀ k, serving s = true → 0x10000 ≤ off → off < 0x20000 → qcbPinned s qcb = false → wakeFails s off bytes pasid = some k → exec (.wakeWrite off bytes pasid) s =
      .next { s with wakeDiscards := s.wakeDiscards.set (k - 1) (s.wakeDiscards.getD (k - 1) 0 + 1) }) ∧
    (∀ q, serving s = true → 0x10000 ≤ off → off < 0x20000 → qcbPinned s qcb = false → wakeFails s off bytes pasid = none → queueFor s qcb = some q →
      (b.state = 3 → exec (.wakeWrite off bytes pasid) s = .next (qcbPut s qcb 12 (toBytes 4 (fieldB bytes 32 4)))) ∧
      (b.state ≠ 3 → q.cached = false → qcbOk b = false → exec (.wakeWrite off bytes pasid) s =
        .next (setQState (qcbPut s qcb 12 (toBytes 4 (fieldB bytes 32 4))) qcb 3)) ∧
      (b.state ≠ 3 → (q.cached = true ∨ qcbOk b = true) →
        let u := qcbPut (setQueueRec s { q with cached := true, spans := q.spans ++
          [(inc32 (fieldB bytes 32 4) b.tail, BitVec.ofNat 16 (fieldB bytes 12 2))] }) qcb 12 (toBytes 4 (fieldB bytes 32 4))
        exec (.wakeWrite off bytes pasid) s = .next (settle (if b.state = 0 then setQState u qcb 1 else u) qcb)))) ∧
  (∀ (off : Nat) bytes pasid s, wakeFails s off bytes (some pasid) = none →
    let b := qcbOf s (fieldB bytes 0 8)
    bytes.length = 64 ∧ off % 64 = 0 ∧ fieldB bytes 24 8 = (Config.capSeal (fieldB bytes 0 24)).toNat ∧
    fieldB bytes 14 3 / 16 % 2 ^ 20 = pasid ∧ fieldB bytes 12 2 % 2 = 1 ∧ fieldB bytes 12 2 < 64 ∧ fieldB bytes 14 3 % 16 = b.gen ∧
    b.state ≠ 4 ∧ inc32 b.tail b.head + inc32 (fieldB bytes 32 4) b.tail ≤ b.rsize) ∧
  (∀ s q, fetchFrom s = some q → q ∈ s.queues ∧ fetchable s q = true ∧ ∀ p ∈ s.queues, fetchable s p = true →
    (qcbOf s p.qcb).prio ≤ (qcbOf s q.qcb).prio ∧ ((qcbOf s p.qcb).prio = (qcbOf s q.qcb).prio → q.served ≤ p.served)) ∧
  (∀ s q, serving s = true → (∀ p ∈ s.queues, p.cmds = [] ∧ p.owed = [] ∧ p.retiring = none ∧ settle s p.qcb = s) →
    fetchFrom s = some q →
    let b := qcbOf s q.qcb
    let va := (b.ring + 64 * (b.head % b.rsize)) % 2 ^ 64
    (waitsPins s (b.pasid, b.root) [va] = true → exec .commandFetch s = .next s) ∧
    (∀ bs, waitsPins s (b.pasid, b.root) [va] = false → loadMany s b.pasid b.root va 8 = .ok bs →
      let c : QCmd := ⟨b.head, bs, (takeSpan q.spans).1, 0, s.cycles⟩
      cmdBad c = none → exec .commandFetch s = .next (qcbPut (setQueueRec s { q with
        cmds := [c], spans := (takeSpan q.spans).2, served := s.tick, granted := q.granted.filter (· != va) }) q.qcb 16
        (toBytes 4 ((b.head + 1) % 2 ^ 32)))) ∧
    (∀ bs, waitsPins s (b.pasid, b.root) [va] = false → loadMany s b.pasid b.root va 8 = .ok bs →
      let c : QCmd := ⟨b.head, bs, (takeSpan q.spans).1, 0, s.cycles⟩
      ∀ st, cmdBad c = some st → exec .commandFetch s = .next (pump (qcbPut (setQueueRec s { q with
        cmds := [c], spans := (takeSpan q.spans).2, served := s.tick, granted := q.granted.filter (· != va) }) q.qcb 16
        (toBytes 4 ((b.head + 1) % 2 ^ 32))) q.qcb 1)) ∧
    (waitsPins s (b.pasid, b.root) [va] = false → loadMany s b.pasid b.root va 8 = .error (.xlat rNotPresent) →
      exec .commandFetch s = .next (settle (ringPri s q.qcb va) q.qcb)) ∧
    (∀ e, waitsPins s (b.pasid, b.root) [va] = false → loadMany s b.pasid b.root va 8 = .error e → e ≠ .xlat rNotPresent →
      exec .commandFetch s = .next (settle (ringFault s q.qcb va) q.qcb))) ∧
  (∀ (c : QCmd), let op := fieldB c.bytes 0 1
    let fl := fieldB c.bytes 1 1
    let reserved := op = 0 ∨ 6 ≤ op ∨ (op = 1 ∧ 32 ≤ fl) ∨ (op = 2 ∧ 16 ≤ fl) ∨ (op = 3 ∧ 2 ≤ fl) ∨ (4 ≤ op ∧ fl ≠ 0)
    (reserved → cmdBad c = some stBADCMD) ∧ (¬ reserved → c.rights.getLsbD op = false → cmdBad c = some stDENIED) ∧
    (¬ reserved → c.rights.getLsbD op = true → cmdBad c = none)) ∧
  (∀ s qcb q c, queueFor s qcb = some q → (nextCmd s qcb = some c ↔ q.broken = false ∧ q.pri = false ∧ q.owed = [] ∧ q.retiring = none ∧
    inc32 (qcbOf s qcb).ctail (qcbOf s qcb).chead < (qcbOf s qcb).csize ∧ qcbPinned s qcb = false ∧
    q.cmds.find? (fun d => d.stage == 0) = some c ∧ ∀ d ∈ q.cmds, d.stage ≠ 0 → cmdOp d ≠ 4)) ∧
  (∀ s qcb n, ((∀ c, nextCmd s qcb = some c → cmdBad c = none) → pump s qcb n = s) ∧
    ∀ c st q, queueFor s qcb = some q → nextCmd s qcb = some c → cmdBad c = some st → pump s qcb (n + 1) = pump (if cmdOp c = 1 then
      finishGangs qcb (if st = stBADCMD then stBADCMD else stOK) q.cmds.length (finish s qcb c st 0) else finish s qcb c st 0) qcb n) ∧
  (∀ s qcb va q, queueFor s qcb = some q →
    (va ∈ q.granted → ringPri s qcb va = ringFault s qcb va) ∧
    (va ∉ q.granted → ∃ id, ringPri s qcb va = { (setQueueRec s { q with pri := true }) with
      pris := s.pris ++ [⟨id, (qcbOf s qcb).pasid, va, .queue qcb⟩] })) ∧
  (∀ s qcb d q, queueFor s qcb = some q →
    let b := qcbOf s qcb
    let va := (b.cring + 32 * (b.ctail % b.csize)) % 2 ^ 64
    let r := storeMany s (b.pasid, b.root) va 4 (recordBytes d (b.ctail / b.csize % 2 == 0) s.fabtime)
    let held := q.broken = true ∨ q.pri = true ∨ b.csize ≤ inc32 b.ctail b.chead ∨ qcbPinned s qcb = true ∨
      waitsPins s (b.pasid, b.root) [va] = true
    (held → tryRecord s qcb d = (s, false)) ∧
    (¬ held → (∀ u, r = .ok u → tryRecord s qcb d = (qcbPut (grantUsed u qcb va) qcb 32 (toBytes 4 ((b.ctail + 1) % 2 ^ 32)), true)) ∧
      (r = .error (.xlat rNotPresent) → tryRecord s qcb d = (ringPri s qcb va, false)) ∧
      (∀ e, r = .error e → e ≠ .xlat rNotPresent → tryRecord s qcb d = (ringFault s qcb va, false))) ∧
    (q.broken = true → putRecord s qcb d = s) ∧
    (q.broken = false →
      let u := setQueueRec s { q with owed := q.owed ++ [d] }
      (∀ e rest, q.owed = e :: rest → (tryRecord u qcb e).2 = false → putRecord s qcb d = (tryRecord u qcb e).1) ∧
      (q.owed = [] → (tryRecord u qcb d).2 = false → putRecord s qcb d = (tryRecord u qcb d).1) ∧
      (q.owed = [] → (tryRecord u qcb d).2 = true → ∀ p, queueFor (tryRecord u qcb d).1 qcb = some p →
        putRecord s qcb d = setQueueRec (tryRecord u qcb d).1 { p with owed := [] }))) ∧
  (∀ s qcb (c : QCmd) st detail, finish s qcb c st detail =
    settle (putRecord (dropCmd s qcb c.n) qcb ⟨st, detail, fieldB c.bytes 4 4, 0, 0, 0⟩) qcb) ∧
  (∀ (d : Done) (ph : Bool) (t : Nat), let r := recordBytes d ph t
    r.length = 32 ∧ fieldB r 0 4 = d.tag % 2 ^ 32 ∧ fieldB r 4 1 = d.status % 256 ∧ fieldB r 5 1 = d.abandon % 256 ∧
    fieldB r 6 2 = (d.plate + if ph then 0x8000 else 0) % 2 ^ 16 ∧ fieldB r 8 8 = d.count % 2 ^ 64 ∧ fieldB r 16 8 = t % 2 ^ 64 ∧
    fieldB r 24 8 = d.detail % 2 ^ 64) ∧
  (∀ s l q, launchAt s (unitOf s) = some l → queueFor s l.qcb = some q →
    let d : Done := ⟨l.status, if l.status = 14 then q.retiring.getD 0 else l.detail.toNat, l.tag.toNat, l.ended, platesDone l, l.abandon⟩
    let t := settle (putRecord (dropLaunch (dropCmd s l.qcb l.n) l) l.qcb d) l.qcb
    (launchOver s l = false → exec .launchComplete s = .next s) ∧
    (launchOver s l = true → (∃ n, exec .launchComplete s = .next (flushRetired t l.qcb n)) ∧
      (q.retiring = none → exec .launchComplete s = .next t)))

/-- R192 to R195, R198, R199, R202, R208: each command that may be dispatched has its effect and completes, or waits; one of a reserved
OP or flag, or without its right, has none (R193).

R126: an access of a command to a line that a consort has pinned waits.

R239: a LAUNCH, accepted or refused, drops its context's lines from the instruction caches, which issue nothing older from then on.

These are the model's choices: the STATE of a queue whose command waits, WQ for a DESTROY that names no queue or another PASID's, that an
append comes behind an earlier one that waits, and that a refused LAUNCH takes the GANG that bound it (log 20); BADCMD for an SRC
that is not aligned, and CREATE with DESTROY as CREATE (log 19); an append whose store fails adds nothing (log 15). -/
def Obligations.CommandEvents : Prop :=
  (∀ s q c, Alone s q c → isCreate c = true →
    let n := feedCount c
    (feedSrc c % 16 ≠ 0 → exec .feedCreate s = .next (finish s (unitOf s) c stBADCMD 0)) ∧
    (feedSrc c % 16 = 0 → ((wqAt s (feedNum c)).isSome ∨ ¬ ∃ e, 4 ≤ e ∧ e ≤ 20 ∧ n = 2 ^ e) →
      exec .feedCreate s = .next (finish s (unitOf s) c stWQ 0)) ∧
    (feedSrc c % 16 = 0 → wqAt s (feedNum c) = none → (∃ e, 4 ≤ e ∧ e ≤ 20 ∧ n = 2 ^ e) →
      exec .feedCreate s = .next (finish { s with workqs := s.workqs ++
        [⟨feedNum c, (queueCtx s).1, (queueCtx s).2, feedSrc c, n, 0, 0, true⟩] } (unitOf s) c stOK 0))) ∧
  (∀ s c, nextCmd s (unitOf s) = some c → cmdBad c ≠ none → ∀ ev ∈ [Instr.launch, .feedCreate, .feedDestroy, .feedAppend, .signalStore,
    .signalAdd, .wait, .gang], exec ev s = .next s) ∧
  (∀ s q c, Alone s q c → isDestroy c = true →
    (wqAt s (feedNum c) = none → exec .feedDestroy s = .next (finish s (unitOf s) c stWQ 0)) ∧
    ∀ w, wqAt s (feedNum c) = some w →
      let ok := w.isOpen = false ∧ w.count = 0 ∧ w.owner = (queueCtx s).1 ∧ refillAsleep s w.num = false
      (ok → exec .feedDestroy s = .next (finish { s with workqs := s.workqs.filter fun v => v.num != w.num } (unitOf s) c stOK 0)) ∧
      (¬ ok → exec .feedDestroy s = .next (finish s (unitOf s) c stWQ 0))) ∧
  (∀ s q c, Alone s q c → isAppend c = true →
    (wqAt s (feedNum c) = none → exec .feedAppend s = .next (finish s (unitOf s) c stWQ 0)) ∧
    ∀ w, wqAt s (feedNum c) = some w →
      (feedSrc c % 16 ≠ 0 → exec .feedAppend s = .next (finish s (unitOf s) c stBADCMD 0)) ∧
      (feedSrc c % 16 = 0 →
        ((w.isOpen = false ∨ w.owner ≠ (queueCtx s).1 ∨ w.cap < feedCount c) →
          exec .feedAppend s = .next (finish s (unitOf s) c stWQ 0)) ∧
        (w.isOpen = true → w.owner = (queueCtx s).1 → feedCount c ≤ w.cap → w.cap < w.count + feedCount c →
          exec .feedAppend s = .next (if (cmdFlags c).testBit 2 then finish s (unitOf s) c stFULL 0
            else setQState (setStage s (unitOf s) c 2) (unitOf s) 2)) ∧
        (w.isOpen = true → w.owner = (queueCtx s).1 → w.count + feedCount c ≤ w.cap →
          ∃ t, exec .feedAppend s = .next t ∧ Appends s t w c))) ∧
  (∀ s q c w, Next s q c → isAppend c = true → feedBehind q c = true → wqAt s (feedNum c) = some w → feedSrc c % 16 = 0 →
    w.isOpen = true → w.owner = (queueCtx s).1 → w.count + feedCount c ≤ w.cap → ∃ k, exec .feedAppend s = .next
      (pump (if (cmdFlags c).testBit 2 then feedAppend s (unitOf s) c w
        else setQState (setStage s (unitOf s) c 2) (unitOf s) 2) (unitOf s) k)) ∧
  (∀ s q c, queueFor s (unitOf s) = some q → q.cmds = [c] → isAppend c = true → c.stage = 2 →
    (qcbPinned s (unitOf s) = true → exec .feedRoom s = .next s) ∧
    (qcbPinned s (unitOf s) = false →
      (wqAt s (feedNum c) = none → exec .feedRoom s = .next (finish (awake s (unitOf s)) (unitOf s) c stWQ 0)) ∧
      ∀ w, wqAt s (feedNum c) = some w →
        let ok := w.isOpen = true ∧ w.owner = (queueCtx s).1 ∧ feedCount c ≤ w.cap
        (¬ ok → exec .feedRoom s = .next (finish (awake s (unitOf s)) (unitOf s) c stWQ 0)) ∧
        (ok → w.cap < w.count + feedCount c → exec .feedRoom s = .next s) ∧
        (ok → w.count + feedCount c ≤ w.cap → ∃ t, exec .feedRoom s = .next t ∧ Appends s t w c))) ∧
  (∀ s (w : WorkQ) r (u : State), (wqPush s w r = .ok u ↔ ∃ a b,
      store s w.owner w.root (wqAddr w w.count) (r.take 8) = .ok a ∧ store a w.owner w.root (wqAddr w w.count + 8) (r.drop 8) = .ok b ∧
      u = setWq b { w with count := w.count + 1 }) ∧
    (wqAt s w.num = some w → ∀ n, (pushAll s w.num r (n + 1) = .ok u ↔ ∃ v, wqPush s w (r.take 16) = .ok v ∧
        pushAll v w.num (r.drop 16) n = .ok u) ∧
      (pushAll s w.num r n = .ok u → wqAt u w.num = some { w with count := w.count + n }))) ∧
  (∀ s q c, Alone s q c → cmdOp c = 3 →
    let ev : Instr := if (cmdFlags c).testBit 0 then .signalAdd else .signalStore
    let old := load s (queueCtx s).1 (queueCtx s).2 (syncAddr c) 8
    (syncAddr c % 8 ≠ 0 → exec ev s = .next (finish s (unitOf s) c stBADCMD 0)) ∧
    (syncAddr c % 8 = 0 → waitsPins s (queueCtx s) [syncAddr c] = true → exec ev s = .next s) ∧
    (syncAddr c % 8 = 0 → waitsPins s (queueCtx s) [syncAddr c] = false →
      (∀ e, (cmdFlags c).testBit 0 = true → old = .error e → exec ev s = .next (finishErr s (unitOf s) c e (syncAddr c))) ∧
      ∀ b, ((cmdFlags c).testBit 0 = true → old = .ok b) →
        let r := store s (queueCtx s).1 (queueCtx s).2 (syncAddr c)
          (toBytes 8 (((if (cmdFlags c).testBit 0 then ofBytes b else 0) + syncValue c) % 2 ^ 64))
        (∀ e, r = .error e → exec ev s = .next (finishErr s (unitOf s) c e (syncAddr c))) ∧
        ∀ u, r = .ok u → exec ev s = .next (finish u (unitOf s) c stOK 0))) ∧
  (∀ s q c (d : QCmd), Next s q c → cmdOp c = 3 → q.cmds.head? = some d → d.n ≠ c.n →
    exec (if (cmdFlags c).testBit 0 then .signalAdd else .signalStore) s = .next s) ∧
  (∀ s q c (ev : Instr), (ev = .wait ∧ Alone s q c ∧ syncAddr c % 8 = 0) ∨
      (ev = .waitReread ∧ queueFor s (unitOf s) = some q ∧ q.cmds = [c] ∧ c.stage = 2) → cmdOp c = 4 →
    let old := load s (queueCtx s).1 (queueCtx s).2 (syncAddr c) 8
    (waitsPins s (queueCtx s) [syncAddr c] = true → exec ev s = .next s) ∧
    (waitsPins s (queueCtx s) [syncAddr c] = false →
      (∀ e, old = .error e → exec ev s = .next (finishErr s (unitOf s) c e (syncAddr c))) ∧
      ∀ b, old = .ok b → (ofBytes b < syncValue c → exec ev s = .next (setStage s (unitOf s) c 2)) ∧
        (syncValue c ≤ ofBytes b → ∃ u, Settled s u (queueCtx s) [syncAddr c] 8 ∧ exec ev s = .next (finish u (unitOf s) c stOK 0)))) ∧
  (∀ s q c, Alone s q c → cmdOp c = 4 → syncAddr c % 8 ≠ 0 → exec .wait s = .next (finish s (unitOf s) c stBADCMD 0)) ∧
  (∀ s q c, Alone s q c → cmdOp c = 5 →
    let total := fieldB c.bytes 18 2
    let waits := waitsPins s (queueCtx s) ((List.range (2 * total)).map fun i => (fieldB c.bytes 24 8 + i) % 2 ^ 64)
    ((total = 0 ∨ 256 < total) → exec .gang s = .next (finish s (unitOf s) c stBADCMD 0)) ∧
    (1 ≤ total → total ≤ 256 → waits = true → exec .gang s = .next s) ∧
    (1 ≤ total → total ≤ 256 → waits = false →
      (∀ e va, loadBytes s (queueCtx s) (fieldB c.bytes 24 8) (2 * total) = .error (e, va) →
        exec .gang s = .next (finishErr s (unitOf s) c e va)) ∧
      ∀ map, loadBytes s (queueCtx s) (fieldB c.bytes 24 8) (2 * total) = .ok map →
        ∃ u q', exec .gang s = .next u ∧ u = { s with queues := u.queues } ∧ queueFor u (unitOf s) = some q' ∧
          q' = { q with cmds := [{ c with stage := 1, since := s.cycles }], bind := some ((c.bytes.drop 8).take 16 ++ map) })) ∧
  (∀ s q c, Alone s q c → cmdOp c = 1 →
    let d := dropCode s (queueCtx s).1
    (launchWaits s (unitOf s) c = true → exec .launch s = .next s) ∧
    (launchWaits s (unitOf s) c = false →
      (∀ l, checkLaunch s (unitOf s) q c = .ok l → ∃ u q', exec .launch s = .next u ∧
        u = { d with launches := d.launches ++ [l], queues := u.queues } ∧ queueFor u (unitOf s) = some q' ∧
        q' = { q with cmds := [{ c with stage := 1, since := s.cycles }], bind := none }) ∧
      (∀ st v r, checkLaunch s (unitOf s) q c = .error (st, v) → queueFor (finish d (unitOf s) c st v) (unitOf s) = some r →
        exec .launch s = .next (setQueueRec (finish d (unitOf s) c st v) { r with bind := none })) ∧
      (launchOk c.bytes = false → checkLaunch s (unitOf s) q c = .error (stBADCMD, 0)))) ∧
  (∀ s q c, Next s q c → cmdOp c = 1 → (launchFree q c = false ∨ launchWaits s (unitOf s) c = true) → exec .launch s = .next s) ∧
  (∀ s q c, Next s q c → cmdOp c = 1 → launchFree q c = true → launchWaits s (unitOf s) c = false →
    let d := dropCode s (queueCtx s).1
    (∀ l, checkLaunch s (unitOf s) q c = .ok l → ∃ k, exec .launch s = .next (pump (finishGangs (unitOf s) stOK q.cmds.length
      (setStage { d with launches := d.launches ++ [l] } (unitOf s) c 1)) (unitOf s) k)) ∧
    (∀ st v, checkLaunch s (unitOf s) q c = .error (st, v) → ∃ k, exec .launch s = .next (pump (finishGangs (unitOf s)
      (if st = stBADCMD then stBADCMD else stOK) q.cmds.length (finish d (unitOf s) c st v)) (unitOf s) k))) ∧
  (∀ s qcb st n q, queueFor s qcb = some q →
    (q.cmds.find? gangBound = none → finishGangs qcb st (n + 1) s = setQueueRec s { q with bind := none }) ∧
    (∀ g, q.cmds.find? gangBound = some g → finishGangs qcb st (n + 1) s = finishGangs qcb st n (finish s qcb g st 0))) ∧
  (∀ s pasid, let u := dropCode s pasid
    u = { s with cores := u.cores, launches := u.launches } ∧
    (∀ k, alGet u.cores k = (alGet s.cores k).map fun e => { e with icache := e.icache.filter fun w => w.pasid != pasid }) ∧
    u.launches = s.launches.map fun l => if l.pasid = pasid then { l with code := [⟨s.mem, s.lines, s.keyIds, s.hostmem⟩] } else l)

/-- R32 to R35, R81, R203 to R207: a free core takes the next ticket of its die; a die without tickets takes the upper half of the
largest share, in order, and leaves its victim the lower one; a gang is placed whole, or its cores are reserved, their lower consorts asked to go, and in the end it fails. A start
that reads a pinned line of the plate store waits (R126).

The lowest place where a consort fits is the model's reading (log 21), and so is how room for a gang is counted (log 22). -/
def Obligations.Placement : Prop :=
  (∀ s l u pl fit, unitOf s < 256 →
    (claimOrder s (unitOf s / 64)).findSome? (fun l => (claimFit s (unitOf s) l).map fun f => (l, f)) = some (l, u, pl, fit) →
    exec .ticketClaim s = .next (enter (setShare s l (unitOf s / 64) (restUnits (l.shares.getD (unitOf s / 64) []))) l (unitOf s) u pl fit)) ∧
  (∀ s, (256 ≤ unitOf s ∨ ∀ l ∈ claimOrder s (unitOf s / 64), claimFit s (unitOf s) l = none) → exec .ticketClaim s = .next s) ∧
  (∀ s core (l : Launch) u, nextUnit (l.shares.getD (core / 64) []) = some u → plateWaits s l u = true → claimFit s core l = none) ∧
  (∀ s l gang cores gone w, (∀ v ∈ gangWants s l gang, v = w) → l.gangSize ≠ 0 → (roomOnce s l gang cores gone = true ↔
    l.gangSize ≤ (cores.map fun k => howMany w l.gangSize ((onCore s k).filter fun c => !gone c)).sum)) ∧
  (∀ (w : Want) n cons, howMany w 0 cons = 0 ∧ (fitOn cons w = none → howMany w (n + 1) cons = 0) ∧
    ∀ fit, fitOn cons w = some fit → howMany w (n + 1) cons = 1 + howMany w n (placed w fit :: cons)) ∧
  (∀ s die, (claimOrder s die).Pairwise fun a b => b.prio < a.prio ∨ (a.prio = b.prio ∧ a.order ≤ b.order)) ∧
  (∀ s die l, l ∈ claimOrder s die ↔ l ∈ s.launches ∧ l.gangSize = 0 ∧ l.shares.getD die [] ≠ []) ∧
  (∀ s l core index pl fit, conAt s s.nextCid = none → pl.mode = 0 → (startIdx l pl).zip fit.slots ≠ [] → ∃ con,
    let u := enter s l core index pl fit
    u = { s with consorts := u.consorts, nextCid := s.nextCid + 1, launches := u.launches } ∧ conAt u s.nextCid = some con ∧
    (∀ cid, cid ≠ s.nextCid → conAt u cid = conAt s cid) ∧ con.launch = l.lid ∧ con.index = index ∧ con.core = core ∧
    con.courses.map (fun c => (c.idx, c.slot)) = (startIdx l pl).zip fit.slots ∧ con.acc = [] ∧ con.cf = [] ∧ con.tpls = [] ∧
    con.tiles = [] ∧ con.nextSlot = [] ∧ con.queues = [] ∧ con.turns = [] ∧ con.resv = fit.resv ∧
    ∀ c ∈ con.courses, c.v = [] ∧ c.s = [] ∧ c.p = [] ∧ c.ncr = 0 ∧ c.nstat = 0 ∧ c.nbv = BitVec.ofNat 64 l.nbv ∧ c.chw = 0x0100 ∧
      c.msteps = 0x10000 ∧ c.splits = [(0, entrySplit ((fieldB l.kdesc 0 8 + fieldB l.kdesc (32 + 4 * c.idx) 4) % 2 ^ 64) (liveLanes l))]) ∧
  (∀ s l v, launchAt s (unitOf s / 4) = some l → l.shares.length = 4 → v < 4 →
    let n := fun (d : Nat) => shareSize (l.shares.getD d [])
    ((hasDies l = true ∨ l.shares.getD (unitOf s % 4) [] ≠ [] ∨ ∀ d, d < 4 → n d ≤ 1) → exec .ticketSteal s = .next s) ∧
    (hasDies l = false → l.shares.getD (unitOf s % 4) [] = [] → 2 ≤ n v → (∀ d, d < 4 → n d ≤ n v) → (∀ d, d < v → n d < n v) →
      ∃ l', exec .ticketSteal s = .next (setLaunch s l') ∧ l' = { l with shares := l'.shares } ∧
        shareSize (l'.shares.getD v []) = (n v + 1) / 2 ∧ shareSize (l'.shares.getD (unitOf s % 4) []) = n v / 2 ∧
        ticketsOf (l'.shares.getD v []) = (ticketsOf (l.shares.getD v [])).take ((n v + 1) / 2) ∧
        ticketsOf (l'.shares.getD (unitOf s % 4) []) = (ticketsOf (l.shares.getD v [])).drop ((n v + 1) / 2) ∧
        ∀ d, d < 4 → d ≠ v → d ≠ unitOf s % 4 → l'.shares.getD d [] = l.shares.getD d [])) ∧
  (∀ sh u, (∀ r ∈ sh, r.1 < r.2) → nextUnit sh = some u → ticketsOf sh = u :: ticketsOf (restUnits sh)) ∧
  (∀ (cores : List Nat) s l die w, gangOf s = some (l, die, w) →
    (cores.length ≠ l.gangSize → exec (.gangPlace cores) s = .next s) ∧
    (cores.length = l.gangSize →
      let l' := { l with shares := l.shares.set die (restUnits (l.shares.getD die [])), waits := smDel l.waits die }
      let at_ := cores.zip ((List.range l.gangSize).map (w.gang * l.gangSize + ·))
      (∀ u, placeAll l' at_ (setLaunch s l') = some u → exec (.gangPlace cores) s = .next u) ∧
      (placeAll l' at_ (setLaunch s l') = none → exec (.gangPlace cores) s = .next s))) ∧
  (∀ l core index rest s u, placeAll l ((core, index) :: rest) s = some u → core < 256 ∧ reservedOver s core l.prio = false ∧
    plateWaits s l index = false ∧ ∃ fit,
    fitOn (onCore s core) (wantOf l (startIdx l (platePlan s l index)).length) = some fit ∧
    placeAll l rest (enter s l core index (platePlan s l index) fit) = some u) ∧
  (∀ (cores : List Nat) s l die w, gangOf s = some (l, die, w) → cores.Nodup → (∀ k ∈ cores, k < 256) → w.reserved = [] →
    (s.cycles < w.since + 1024 * (qcbOf s l.qcb).gwait → exec (.gangReserve cores) s = .next s) ∧
    (w.since + 1024 * (qcbOf s l.qcb).gwait ≤ s.cycles →
      roomOnce s l w.gang cores (fun c => !c.capo && decide (conPrio s c < l.prio)) = true →
      exec (.gangReserve cores) s = .next (setLaunch s { l with waits := alSet l.waits die { w with reserved := cores } }))) ∧
  (∀ s l die w, gangOf s = some (l, die, w) →
    let lower := fun (c : Consort) => !c.capo && decide (conPrio s c < l.prio) && w.reserved.contains c.core && atPoints s c
    (s.cycles < w.since + 1024 * (qcbOf s l.qcb).gmax → exec .gangPreempt s = .next s) ∧
    (w.since + 1024 * (qcbOf s l.qcb).gmax ≤ s.cycles → w.preempted = false →
      (roomOnce s l w.gang w.reserved lower = false → exec .gangPreempt s = .next (gangFails s l)) ∧
      (roomOnce s l w.gang w.reserved lower = true → ∃ u, exec .gangPreempt s = .next u ∧
        u = { s with launches := u.launches, consorts := s.consorts.map fun c => if lower c then askPreempt s c else c } ∧
        u.launches = (setLaunch s { l with waits := alSet l.waits die { w with preempted := true } }).launches)) ∧
    (s.cycles < w.since + 2 * (1024 * (qcbOf s l.qcb).gmax) → exec .gangTimeout s = .next s) ∧
    (w.since + 2 * (1024 * (qcbOf s l.qcb).gmax) ≤ s.cycles → exec .gangTimeout s = .next (gangFails s l))) ∧
  (∀ s l, launchAt s l.lid = some l → launchAt (gangFails s l) l.lid = some { l with
    shares := [], waits := [], status := if l.status = 0 then stUNPLACEABLE else l.status })

/-- R101, R208, R226: a gang across packages sends READY when it is placed, starts on every READY and no ABORT, and is else torn
down; the survivors of a gang that lost a member, or that met a package which did not start, record PEER FAILED, have their
level-1 tiles frozen, and go in time. R280: no message comes from a package that is lost, or with no link up, and its members have failed.

What a lost package or a late ABORT means to a gang, which package never started (a free value), and what the record and the trap
registers name, are the model's (log 22). -/
def Obligations.Gangs : Prop :=
  (∀ s l g, spanAt s = some (l, g) →
    ((g.sent = true ∨ g.decided = true ∨ spanPlaced s l = false ∨ g.start < s.fabtime + 2 ^ 17) → exec .gangReadySend s = .next s) ∧
    (g.sent = false → g.decided = false → spanPlaced s l = true → s.fabtime + 2 ^ 17 ≤ g.start → ∃ u, exec .gangReadySend s = .next u ∧
      u = { (setLaunch s { l with span := some { g with sent := true } }) with ready := u.ready, readyOut := u.readyOut } ∧
      u.ready = s.ready ++ (if g.pkgs.contains s.pkg then [(g.gid, s.pkg)] else []) ∧
      u.readyOut = s.readyOut ++ (g.pkgs.filter (· != s.pkg)).map fun p => (g.gid, p)) ∧
    (∀ pkg : Nat, g.sent = true → g.aborted = false → g.decided = false → (g.gid, pkg) ∈ s.readyOut → ∃ u,
      exec (.gangReadyUndeliverable pkg) s = .next u ∧
      u = { (gangLate s { l with span := some { g with aborted := true, decided := true } }) with
        readyOut := u.readyOut, abortsOut := u.abortsOut } ∧
      (∀ p, (g.gid, p) ∈ u.abortsOut ↔ (g.gid, p) ∈ s.abortsOut ∨ (p ∈ g.pkgs ∧ p ≠ s.pkg ∧ p ≠ pkg ∧ p ∉ s.lostPkgs))) ∧
    (s.fabtime + 2 ^ 15 < g.start → exec .gangDecide s = .next s) ∧
    (g.start ≤ s.fabtime + 2 ^ 15 → g.decided = false →
      let go := spanPlaced s l = true ∧ (∀ p ∈ g.pkgs, (g.gid, p) ∈ s.ready) ∧ ∀ a ∈ s.aborts, a.1 ≠ g.gid
      (go → exec .gangDecide s = .next (setLaunch s { l with span := some { g with decided := true, going := true } })) ∧
      (¬ go → exec .gangDecide s = .next (gangLate s { l with span := some { g with decided := true, going := false } }))) ∧
    ((g.going = false ∨ s.fabtime < g.start) → exec .gangStart s = .next s) ∧
    (g.going = true → g.start ≤ s.fabtime → exec .gangStart s =
      .next { s with consorts := s.consorts.map fun c => if c.launch = l.lid then { c with held := false } else c })) ∧
  (∀ (gid pkg : Nat) s, (s.links = 0 ∨ pkg ∈ s.lostPkgs → exec (.gangReady gid pkg) s = .next s ∧ exec (.gangAbort gid pkg) s = .next s) ∧
    (s.links ≠ 0 → pkg ∉ s.lostPkgs →
    (∃ u, exec (.gangReady gid pkg) s = .next u ∧ u = { s with ready := u.ready, heard := alSet s.heard pkg s.cycles } ∧
      ∀ m, m ∈ u.ready ↔ m = (gid, pkg) ∨ m ∈ s.ready) ∧
    (∃ u, exec (.gangAbort gid pkg) s = .next u ∧ u = { s with aborts := u.aborts, heard := alSet s.heard pkg s.cycles } ∧
      ∀ m, m ∈ u.aborts ↔ m = (gid, pkg) ∨ m ∈ s.aborts))) ∧
  (∀ s l, launchAt s l.lid = some l → (∀ c ∈ s.consorts, c.launch = l.lid → conAt (gangLate s l) c.cid = none) ∧
    launchAt (gangLate s l) l.lid = some { l with shares := [], waits := [], status := if l.status = 0 then stLATE else l.status }) ∧
  (∀ s con l, conAt s (unitOf s) = some con → launchAt s con.launch = some l → con.capo = false → con.dying = false → con.failAt = none →
    let lost := l.failed.contains (con.index / l.gangSize) = true ∨ ∃ g, l.span = some g ∧ ∃ p ∈ g.pkgs, p ≠ s.pkg ∧ (s.links = 0 ∨ p ∈ s.lostPkgs)
    let late := ∃ g, l.span = some g ∧ g.going = true ∧ ((∃ a ∈ s.aborts, a.1 = g.gid) ∨
      ∃ p ∈ g.pkgs, p ≠ s.pkg ∧ Config.neverStarted g.gid p = true)
    let met := ∃ d ∈ gangMembers s con, someParked d .gbar = true ∨ someParked d .sstep = true ∨
      ∃ c ∈ allCmds (coreAt s d.core), c.cid = d.cid ∧ peerAccess c = true
    (l.gangSize ≠ 0 → (lost ∨ (late ∧ met)) → (coreAt s con.core).fifo.length < 16 → ∃ r l' con',
      exec .gangPeerFailure s = .next (setCon (setLaunch (modCore s con.core fun k => { k with fifo := k.fifo ++ [r] }) l') con') ∧
      r.toNat / 2 ^ 40 % 2 ^ 8 = cPEER ∧ r.toNat / 2 ^ 48 % 2 ^ 8 = 2 ∧ con' = { con with failAt := some s.cycles, tiles := con'.tiles, courses := con'.courses } ∧
      (∀ ci c, crsAt con ci = some c → crsAt con' ci = some (if flagCourse con none = some ci then
        { c with trapc := BitVec.ofNat 64 cPEER, trapv := 2 } else c)) ∧
      (∀ h t, tileAt con h = some t → tileAt con' h = some (if t.lvl then { t with frz := true } else t)) ∧
      l'.status = (if l.status = 0 then stFAILED else l.status) ∧ l'.shares = [] ∧ con.index / l.gangSize ∈ l'.failed) ∧
    ((l.gangSize = 0 ∨ (¬ lost ∧ ¬ (late ∧ met)) ∨ 16 ≤ (coreAt s con.core).fifo.length) → exec .gangPeerFailure s = .next s)) ∧
  (∀ s con t, conAt s (unitOf s) = some con → con.failAt = some t →
    (consortOver s { con with failAt := none } = true →
      exec .survivorTeardown s = .next (reap (setCon s { con with failAt := none }) con.cid)) ∧
    (consortOver s { con with failAt := none } = false →
      (s.cycles < t + 2 ^ 20 → exec .survivorTeardown s = .next s) ∧
      (t + 2 ^ 20 ≤ s.cycles → inIssue s con = true → exec .survivorTeardown s = .next (setCon s { con with dying := true })) ∧
      (t + 2 ^ 20 ≤ s.cycles → inIssue s con = false → exec .survivorTeardown s = .next (tearDown s con.cid)) ∧
      conAt (tearDown s con.cid) con.cid = none))

/-- R226 to R229: a consort at its points is saved with its commands; a request lapses after 2^16 cycles; a saved consort comes back with
its commands in their order, and its registers as they were.

The save first closes Chord tiles whose window has passed and those with a row of the consort (R165, R167), waits for a pinned line of
the save area (R126), and writes the image, encrypted under the key slot of a leaf of the context, to the context's save area.

The image's address and bytes and which leaf it is are free values, slot 0 serves a context without one, and a restore does not read the
image back: the model's choice (log 23). -/
def Obligations.Preemption : Prop :=
  (∀ s con, conAt s (unitOf s) = some con →
    ((con.preReq = none ∨ con.capo = true ∨ atPoints s con = false) → exec .preemptSave s = .next s) ∧
    (con.preReq ≠ none → con.capo = false → con.dying = false → con.held = false → atPoints s con = true →
      let s0 := closeOver s con.core
      let k := coreAt s0 con.core
      let con0 := (conAt s0 con.cid).getD con
      let mine := k.openTiles.find? fun t => t.rows.any fun r => r.cid == con0.cid
      let pinned := spanPinned s0 (Config.saveArea s0.tick) (Config.saveImage s0.tick).length
      (∀ t, mine = some t → exec .preemptSave s = .next (closeTile s0 con0.core t)) ∧
      (mine = none → (k.freeze.isSome = true ∨ drained k con0 = false ∨ pinned = true) → exec .preemptSave s = .next s0) ∧
      (mine = none → k.freeze = none → drained k con0 = true → pinned = false → ∃ u v,
        exec .preemptSave s = .next u ∧ u = writeImage { (dropConsort s0 con0.cid) with saved := s0.saved ++ [v], unseen := s0.unseen } (ctxOf s0 con0) ∧
        v.consort = { con0 with preReq := none, courses := con0.courses.map fun c =>
          { c with splits := c.splits.map fun p => (p.1, { p.2 with preRun := 0 }) } } ∧
        v.cmds = cmdsOf k con0.cid ∧ conAt u con0.cid = none ∧ u.saved = s0.saved ++ [v])) ∧
    (∀ t, con.preReq = some t →
      ((s.cycles < t + 2 ^ 16 ∨ atPoints s con = true) → exec .preemptWithdraw s = .next s) ∧
      (t + 2 ^ 16 ≤ s.cycles → atPoints s con = false → exec .preemptWithdraw s = .next (setCon s { con with preReq := none })))) ∧
  (∀ s ctx, let slot := match translate s ctx.1 ctx.2 .read (Config.saveLeaf s.tick) with
      | .ok l => if l.host then 0 else l.key
      | .error _ => 0
    writeImage s ctx = writeLines (fun _ _ => slot) ((Config.saveImage s.tick).length + 1) s (Config.saveArea s.tick) (Config.saveImage s.tick)) ∧
  (∀ s core v fit, core < 256 → s.saved.find? (fun v => v.consort.cid == unitOf s) = some v →
    reservedOver s core (conPrio s v.consort) = false →
    roomFor (coreAt s core) (v.cmds.map (·.1) ++ engineClaims (coreAt s core)) = true →
    fitOn (onCore s core) { (wantOf (launchOf s v.consort) v.consort.courses.length) with window := v.consort.plate.window } = some fit →
    conAt s v.consort.cid = none → v.consort.courses.length ≤ fit.slots.length → (∀ c ∈ v.cmds, c.1 < 5) → ∃ u con,
    exec (.consortRestore core) s = .next u ∧ u = { s with cores := u.cores, consorts := s.consorts ++ [con], saved := u.saved } ∧
    conAt u con.cid = some con ∧ (∀ w ∈ u.saved, w.consort.cid ≠ con.cid) ∧ con.cid = v.consort.cid ∧ con.core = core ∧
    con.cf = v.consort.cf ∧ con.acc = v.consort.acc ∧ con.tpls = v.consort.tpls ∧ con.nextSlot = v.consort.nextSlot ∧
    con.queues = v.consort.queues ∧ con.turns = v.consort.turns ∧ con.wdSpent = v.consort.wdSpent ∧ con.wdLimit = v.consort.wdLimit ∧ con.resv = fit.resv ∧
    con.courses.length = v.consort.courses.length ∧
    (∀ (i : Nat) (c : Course), v.consort.courses[i]? = some c → ∃ k, fit.slots[i]? = some k ∧
      con.courses[i]? = some { c with slot := k, splits := c.splits.map fun p => (p.1, wakeRefill p.2) }) ∧
    (coreAt u core).seq = (coreAt s core).seq + v.cmds.length ∧
    ∀ q, q < 5 → (queueAt (coreAt u core) q).length = (queueAt (coreAt s core) q).length + (v.cmds.filter fun c => c.1 == q).length) ∧
  (∀ sp, pointOf sp = true ↔ sp.point = true ∧ inFlight sp = false ∧ ∀ l ∈ sp.loops, l.upto = none) ∧
  (∀ sp m, (sp.park = .refill m → wakeRefill sp = { sp with park := .ready }) ∧ ((∀ m, sp.park ≠ .refill m) → wakeRefill sp = sp)) ∧
  (∀ s con, Rung s 0x12 → conAt s (unitOf s) = some con → con.capo = false → ∃ con',
    exec .preempt s = .next (answer (setCon s con') mbOK []) ∧ con'.preReq = (if con.preReq.isSome then con.preReq else some s.cycles) ∧
    con' = { con with preReq := con'.preReq, courses := con'.courses }) ∧
  (∀ s, Rung s 0x12 → (conAt s (unitOf s)).elim true (·.capo) = true → exec .preempt s = .next (badcmd s))

/-- R231, R232: a debugger attaches to a context, and halts, steps, resumes, reads and writes its live courses.

R94: the tile table reads by handle in its 64-bit form. R232: with FORCE a pending lane is dropped.

How a queue's entry is named, that the tile table is not written, and the answer to a write of a pending register are the
model's choices (log 27). -/
def Obligations.Debugging : Prop :=
  (∀ (pasid : BitVec 20) s, Rung s 0x13 → ∃ u, exec (.debugAttach pasid) s = .next (answer u mbOK []) ∧
    u = { s with attached := u.attached } ∧ ∀ p, p ∈ u.attached ↔ p = pasid.toNat ∨ p ∈ s.attached) ∧
  (∀ (ci : Nat) s, Rung s 0x13 → ((conAt s (unitOf s)).bind (crsAt · ci) = none ∨
      ∃ con c, conAt s (unitOf s) = some con ∧ crsAt con ci = some c ∧ (c.ended = true ∨ debugged s (ctxOf s con).1 = false)) →
    exec (.debugHalt ci) s = .next (badcmd s) ∧ exec (.debugStep ci) s = .next (badcmd s) ∧ exec (.debugResume ci) s = .next (badcmd s) ∧
    ∀ t v f, exec (.debugRead ci t) s = .next (badcmd s) ∧ exec (.debugWrite ci t v f) s = .next (badcmd s)) ∧
  (∀ s con c, Debugs s con c →
    let running := (coreAt s con.core).issue.any fun i => i.2.cid == con.cid && i.2.ci == c.idx
    (∃ c', exec (.debugHalt c.idx) s = .next (answer (setCon s (setCrs con c')) mbOK []) ∧
      c' = { c with splits := c'.splits, haltReq := c.haltReq || running, halted := c.halted || !running } ∧
      ∀ i sp, alGet c.splits i = some sp → alGet c'.splits i = some { sp with wake := none }) ∧
    (c.halted = false → exec (.debugStep c.idx) s = .next (badcmd s) ∧ exec (.debugResume c.idx) s = .next (badcmd s)) ∧
    (c.halted = true → exec (.debugStep c.idx) s =
        .next (answer (setCon s (setCrs con { (atTrappc c) with halted := false, stepOne := true })) mbOK []) ∧
      exec (.debugResume c.idx) s =
        .next (answer (setCon s (setCrs con { (atTrappc c) with halted := false, stepOne := false })) mbOK []))) ∧
  (∀ (c : Course) (spi : Nat) (sp : Split), c.trapHalt = some spi → alGet c.splits spi = some sp →
    alGet (atTrappc c).splits spi = some { sp with pc := c.trappc.toNat % 2 ^ 57, off := c.trappc.toNat / 2 ^ 59 % 32, preRun := 0 }) ∧
  (∀ s con c t, Debugs s con c →
    (targetOk con c t = false → exec (.debugRead c.idx t) s = .next (badcmd s)) ∧
    (targetOk con c t = true → targetPending (coreAt s con.core) con.cid c t = true → exec (.debugRead c.idx t) s = .next s) ∧
    (targetOk con c t = true → targetPending (coreAt s con.core) con.cid c t = false →
      exec (.debugRead c.idx t) s = .next (answer s mbOK (targetBytes { con with chstat := chstatNow s con } c t)))) ∧
  (∀ con c h (t : TileEnt), (tileAt con h = some t → targetBytes con c (.tile h) = toBytes 8 (entryWord t)) ∧
    (alGet con.tiles h = none → targetBytes con c (.tile h) = toBytes 8 0) ∧
    entryWord t % 2 ^ 4 = (if t.v then 1 else 0) + (if t.own then 2 else 0) + (if t.lvl then 4 else 0) + (if t.frz then 8 else 0) ∧
    entryWord t / 2 ^ 4 % 2 ^ 5 = 0 ∧ entryWord t / 2 ^ 9 % 2 ^ 4 = t.ty % 16 ∧ entryWord t / 2 ^ 13 % 2 ^ 7 = (t.rows - 1) % 128 ∧
    entryWord t / 2 ^ 20 % 2 ^ 7 = (t.cols - 1) % 128 ∧ entryWord t / 2 ^ 27 % 2 ^ 3 = t.grp % 8 ∧
    entryWord t / 2 ^ 30 % 2 ^ 5 = t.base % 32 ∧ entryWord t / 2 ^ 35 = (t.ngr - 1) % 32) ∧
  (∀ con c q entry lane x, (alGet con.queues q).bind (·[entry]?) = some x →
    targetBytes con c (.queue q entry lane) = (x[lane]?).elim [] fun y => toBytes 4 y.val.toNat ++ [y.tag]) ∧
  (∀ s con c t (v : DWord), Debugs s con c → targetOk con c t = true →
    let pending := targetPending (coreAt s con.core) con.cid c t
    (pending = true → exec (.debugWrite c.idx t v false) s = .next (answer s mbOK [1])) ∧
    (pending = false → (∀ n, t ≠ .csr n) → (∀ h, t ≠ .tile h) → ∃ con', exec (.debugWrite c.idx t v false) s =
      .next (answer (setCon s con') mbOK [0]) ∧ (match t with
        | .v _ _ => ∃ c', con' = setCrs con c' ∧ targetBytes con c' t = toBytes 4 v.toNat ++ [0]
        | .s r => ∃ c', con' = setCrs con c' ∧ targetBytes con c' t = toBytes 8 (if r = 0 then 0 else v.toNat)
        | .p r => ∃ c', con' = setCrs con c' ∧ targetBytes con c' t = toBytes 8 (if r = 0 then 2 ^ 64 - 1 else v.toNat)
        | .queue q entry lane => con' = { con with queues := con'.queues } ∧
          queueLane con' q entry lane = some ⟨v.setWidth 32, 0⟩ ∧
          ∀ q' e' l', (q', e', l') ≠ (q, entry, lane) → queueLane con' q' e' l' = queueLane con q' e' l'
        | _ => True)) ∧
    (∀ h, t = .tile h → exec (.debugWrite c.idx t v false) s = .next (badcmd s)) ∧
    (∀ n, t = .csr n → (∀ c', writeCourseCsr c n v = some c' →
        exec (.debugWrite c.idx t v false) s = .next (answer (setCon s (setCrs con c')) mbOK [0])) ∧
      (writeCourseCsr c n v = none → exec (.debugWrite c.idx t v false) s = .next (badcmd s))) ∧
    (pending = true → ∀ r l, t = .v r l → ∃ c', exec (.debugWrite c.idx t v true) s =
      .next (answer (setCon s (setCrs con c')) mbOK [0]) ∧ vGet c' r l = ⟨v.setWidth 32, 0⟩ ∧
      ∀ p ∈ c'.pend, p.vregs.contains r = true → p.skip.contains (r * 64 + l) = true))

/-- R6, R9, R105, R109, R111, R278 to R283, R286, R287: power-up; PRI responses and ATS invalidations; host and fabric accesses; links;
the clock; reads and writes of BAR0.

R8, R280, R285: the configuration image in force fixes the partition, the HDMI heads and the cap floor, and one that is missing a
size in range fails step 3; a package is lost when 2^20 core cycles pass without a sign of it.

A request of at most 0x700 bytes (log 3), the layout of STCODE, the limits of a configuration image and what a power-up keeps
(log 27), the range of a throttled clock (log 4), what is a sign of a package (log 22), and that an access which meets a pinned
line is done again at a later step (log 30) are the model's. -/
def Obligations.HostLink : Prop :=
  (∀ (failStep failSub id : Nat) peerIds (up : BitVec 18) s,
    let on := powerOn s
    let first := if boardOf on.cfgImage = none ∧ (failStep = 0 ∨ 3 < failStep) then 3 else failStep
    ∃ u, exec (.powerUp failStep failSub id peerIds up) s = .next u ∧ u = { on with
        mbox := u.mbox, ident := id, keys := u.keys, board := u.board, pkg := u.pkg, peers := u.peers, heard := u.heard, links := u.links
        consorts := u.consorts, nextCid := u.nextCid } ∧ u.mbox.ready = true ∧ u.mem = [] ∧ u.lines = [] ∧ u.staged = [] ∧
      (∀ bd, boardOf on.cfgImage = some bd → (first = 0 ∨ 3 < first) → u.board = bd) ∧
      (first = 0 → u.mbox.safe = false ∧ u.mbox.stcode = 0 ∧ u.links = up ∧ u.keys = [0] ∧
        u.pkg = (peerIds.filter fun p => decide (p < id)).length ∧
        (∀ p, p ∈ u.peers ↔ p ≤ peerIds.length ∧ p ≠ u.pkg) ∧ u.consorts.length = 256 ∧
          ∀ (k : Nat) (con : Consort), u.consorts[k]? = some con → con.core = k ∧ con.capo = true ∧ con.cid = k) ∧
      (1 ≤ first → first ≤ 7 → u.mbox.safe = true ∧ u.consorts = [] ∧
        u.mbox.stcode = BitVec.ofNat 16 (first * 256 + failSub % 256))) ∧
  (∀ s, (s.staged = [] → (powerOn s).fwImage = s.fwImage ∧ (powerOn s).cfgImage = s.cfgImage) ∧
    ∀ i, s.staged = [i] → (powerOn s).fwImage = (if (Config.imageConfig i).isSome then s.fwImage else i) ∧
      (powerOn s).cfgImage = (if (Config.imageConfig i).isSome then i else s.cfgImage)) ∧
  (boardOf [] = some ⟨4, 0, 600⟩ ∧ ∀ cfg bd, cfg ≠ [] → (boardOf cfg = some bd ↔ 1 ≤ bd.fp ∧ bd.fp ≤ 6 ∧ 600 ≤ bd.floor ∧ bd.floor ≤ 1500 ∧
    Config.imageConfig cfg = some ⟨some bd.fp, bd.hdmi, bd.floor⟩)) ∧
  (∀ s p, s.pris.find? (fun p => p.id == unitOf s) = some p →
    let s1 := { s with pris := s.pris.filter fun r => r != p }
    (∀ cid ci con c, p.who = .course cid ci → conAt s cid = some con → crsAt con ci = some c →
      exec (.priResponse true) s = .next (setCon s1 (setCrs con { c with waitCapo := false, trapHalt := none })) ∧
      (debugged s (ctxOf s con).1 = true →
        exec (.priResponse false) s = .next (setCon s1 (setCrs con { c with waitCapo := false, halted := true, splits := endSleeps c.splits }))) ∧
      (debugged s (ctxOf s con).1 = false →
        exec (.priResponse false) s = .next (killXlat s1 con (refusedDetail c (c.trapHalt.getD 0))))) ∧
    (∀ qcb b, p.who = .queue qcb → qcbPinned s qcb = true → exec (.priResponse b) s = .next s) ∧
    (∀ qcb q, p.who = .queue qcb → qcbPinned s qcb = false → queueFor s qcb = some q →
      exec (.priResponse true) s = .next (settle (flushOwed (setQueueRec s1 { q with pri := false, granted := p.va :: q.granted }) qcb
        q.owed.length) qcb) ∧
      exec (.priResponse false) s = .next (settle (ringFault (setQueueRec s1 { q with pri := false }) qcb p.va) qcb)) ∧
    (∀ core, p.who = .freeze core → exec (.priResponse true) s = .next s1)) ∧
  (∀ (pasid va : Nat) s, ∃ u, exec (.atsInvalidation pasid va) s = .next u ∧ OnlyTlb s u ∧
    ∀ e, e ∈ u.tlb ↔ e ∈ s.tlb ∧
      ¬ (e.pasid = pasid ∧ e.vframe ≤ va / 4096 ∧ va / 4096 < e.vframe + e.frames ∧ e.leaf.host = true)) ∧
  (∀ (pa : Nat) (b : Byte) (bs : List Byte) s key, pa % 64 + bs.length < 64 → placeOf s pa = .mem key →
    (spanPinned s pa (bs.length + 1) = true → exec (.hostMemoryWrite pa (b :: bs)) s = .next s) ∧
    (spanPinned s pa (bs.length + 1) = false →
      (∀ u, memWrite s key 0 (b :: bs) = .ok u → exec (.hostMemoryWrite pa (b :: bs)) s = .next u) ∧
      (∀ e, memWrite s key 0 (b :: bs) = .error e → exec (.hostMemoryWrite pa (b :: bs)) s = .next s))) ∧
  (∀ s key slot bs u, memWrite s key slot bs = .ok u → u = { s with mem := u.mem, lines := u.lines, unseen := u.unseen } ∧
    (∀ a, smGet 0 u.mem a = if key ≤ a ∧ a < key + bs.length then bs.getD (a - key) 0 else smGet 0 s.mem a) ∧
    alGet u.lines (key / 64) = some ⟨slot, smGet 0 s.keyIds slot, false⟩ ∧
    (∀ n, n ≠ key / 64 → alGet u.lines n = alGet s.lines n) ∧
    ∀ e, e ∈ u.unseen ↔ e ∈ s.unseen ∧ e.reached false key bs.length = false) ∧
  (∀ s off n, exec (.hostMemoryRead (.bar0 off) n) s =
    .next { s with hostReads := s.hostReads ++ [((List.range n).map fun i => bar0Byte s (off + i), false)] }) ∧
  (∀ s o, (o < 8 → bar0Byte s o = BitVec.ofNat 8 (mbstat s.mbox / 2 ^ (8 * o))) ∧
    (8 ≤ o → o < 0x100 → bar0Byte s o = 0) ∧
    (0x100 ≤ o → o < 0x800 → bar0Byte s o = s.mbox.request.getD (o - 0x100) 0) ∧
    (0x800 ≤ o → o < 0x1000 → bar0Byte s o = s.mbox.response.getD (o - 0x800) 0) ∧
    (0x1000 ≤ o → o < 0x20000 → bar0Byte s o = 0) ∧
    (∀ h i, h < 4 → i < 0x40 → o = 0x20000 + 0x40 * h + i →
      bar0Byte s o = if i < 32 then (headAt s h).staged.getD i 0 else 0) ∧
    (0x20100 ≤ o → bar0Byte s o = 0)) ∧
  (∀ m : Mailbox, mbstat m % 2 ^ 8 = (if m.ready then 1 else 0) + (if m.busy then 2 else 0) + (if m.safe then 4 else 0) ∧
    mbstat m / 2 ^ 8 % 2 ^ 8 = m.result.toNat ∧ mbstat m / 2 ^ 16 = m.stcode.toNat) ∧
  (∀ (pa n : Nat) s key, 1 ≤ n → pa % 64 + n ≤ 64 → placeOf s pa = .mem key →
    (spanPinned s pa n = true → exec (.hostMemoryRead (.mem pa) n) s = .next s) ∧
    (spanPinned s pa n = false → exec (.hostMemoryRead (.mem pa) n) s =
    .next { s with hostReads := s.hostReads ++ [if lineOk s (key / 64) 0 then ((List.range n).map fun i => smGet 0 s.mem (key + i), false)
      else (List.replicate n 0, true)] })) ∧
  (∀ (pkg pa : Nat) req s, (s.links = 0 ∨ s.peers.contains pkg = false ∨ s.lostPkgs.contains pkg = true) →
    exec (.fabricAccess pkg pa req) s = .next s) ∧
  (∀ (pkg pa slot : Nat) s, s.links ≠ 0 → s.peers.contains pkg = true → s.lostPkgs.contains pkg = false →
    let u := { s with heard := alSet s.heard pkg s.cycles }
    exec (.fabricAccess pkg pa .read) s = .next u ∧
    (∀ a, exec (.fabricAccess pkg pa (.add a)) s = .next { u with adds := s.adds ++ [a] }) ∧
    (∀ bs, s.keys.contains slot = false → exec (.fabricAccess pkg pa (.write slot bs)) s = .next u) ∧
    (∀ (b : Byte) (bs : List Byte) key, s.keys.contains slot = true → pa % 64 + bs.length < 64 → placeOf s (pa % 2 ^ 39) = .mem key →
      (spanPinned s (pa % 2 ^ 39) (bs.length + 1) = true → exec (.fabricAccess pkg pa (.write slot (b :: bs))) s = .next s) ∧
      (spanPinned s (pa % 2 ^ 39) (bs.length + 1) = false →
        (∀ t, memWrite u key slot (b :: bs) = .ok t → exec (.fabricAccess pkg pa (.write slot (b :: bs))) s = .next t) ∧
        (∀ e, memWrite u key slot (b :: bs) = .error e → exec (.fabricAccess pkg pa (.write slot (b :: bs))) s = .next u)))) ∧
  (∀ s, let due := s.peers.contains (unitOf s) = true ∧ s.lostPkgs.contains (unitOf s) = false ∧
      (alGet s.heard (unitOf s)).getD 0 + 2 ^ 20 ≤ s.cycles
    (due → exec .fabricTimeout s = .next { s with lostPkgs := s.lostPkgs ++ [unitOf s] }) ∧ (¬ due → exec .fabricTimeout s = .next s)) ∧
  (∀ s, unitOf s < 18 → (s.links.getLsbD (unitOf s) = false → exec .linkFail s = .next s) ∧
    (s.links.getLsbD (unitOf s) = true → ∃ u, exec .linkFail s = .next u ∧ u = { s with links := u.links, fabricLog := u.fabricLog } ∧
      (∀ i, i < 18 → u.links.getLsbD i = (s.links.getLsbD i && decide (i ≠ unitOf s))) ∧
      u.fabricLog = s.fabricLog ++ [⟨0, 0, unitOf s, 0, 0⟩])) ∧
  (∀ (khz : Nat) s, exec (.powerThrottle khz) s = .next (if 1 ≤ khz ∧ khz ≤ 1500000 then { s with khz := khz } else s)) ∧
  (∀ (v : DWord) s, ((s.mbox.busy = true ∨ s.mbox.ready = false) → exec (.registerWrite 8 v) s = .next s) ∧
    (s.mbox.busy = false → s.mbox.ready = true → bits v.toNat 8 11 ≤ 0x700 → exec (.registerWrite 8 v) s = .next { s with mbox := { s.mbox with
      busy := true, waiting := some (BitVec.ofNat 8 (v.toNat % 256), s.mbox.request.take (bits v.toNat 8 11)) } })) ∧
  (∀ (off : Nat) (v : DWord) s, 0x100 ≤ off → off + 8 ≤ 0x800 → s.mbox.request.length = 0x700 → ∃ rq, exec (.registerWrite off v) s =
    .next { s with mbox := { s.mbox with request := rq } } ∧ rq.length = 0x700 ∧ ∀ i, i < 0x700 → rq.getD i 0 =
      if off - 0x100 ≤ i ∧ i < off - 0x100 + 8 then BitVec.ofNat 8 (v.toNat / 2 ^ (8 * (i - (off - 0x100)))) else s.mbox.request.getD i 0) ∧
  (∀ (off : Nat) (v : DWord) s, 0x10000 ≤ off → off < 0x20000 → exec (.registerWrite off v) s = .next (if serving s then
    { s with wakeDiscards := s.wakeDiscards.set 0 (s.wakeDiscards.getD 0 0 + 1) } else s)) ∧
  (∀ (off : Nat) (v : DWord) s, off ≠ 8 → (off < 0x100 ∨ (0x7F8 < off ∧ off < 0x10000) ∨ 0x20100 ≤ off) →
    exec (.registerWrite off v) s = .next s) ∧
  (∀ (off : Nat) (v : DWord) s, 0x20000 ≤ off → off < 0x20100 → exec (.registerWrite off v) s =
    .next (poseWrite s ((off - 0x20000) / 0x40) (off % 0x40) (toBytes 8 v.toNat)))

/-- R190, R211, R212, R220, R281, R283 to R287: each mailbox command that may run has its effect and its answer; the end of a command
clears BUSY and fires vector 0.

R211: a retirement adds 1 to GEN, drops what is not dispatched, kills the context's launches and ends with one record RETIRED that
carries the dropped count, and STATE 4. R126: an access to a pinned line waits.

The order of bytes in a response (log 3), what KEYLOAD refuses, and how much EVENTS returns at once (log 27) are the model's
choices. -/
def Obligations.MailboxCommands : Prop :=
  (∀ s, (s.mbox.busy = false → exec .mailboxCommandComplete s = .next s) ∧
    (s.mbox.busy = true → s.mbox.waiting = none → (∀ q ∈ s.queues, q.retiring = none) → exec .mailboxCommandComplete s =
      .next { s with msix := s.msix ||| 1, mbox := { s.mbox with busy := false } }) ∧
    (∀ o rq, s.mbox.busy = true → s.mbox.waiting = some (o, rq) → s.mbox.safe = true → mbOps.contains o.toNat = true →
      ¬ (1 ≤ o.toNat ∧ o.toNat ≤ 3) → exec .mailboxCommandComplete s = .next { s with msix := s.msix ||| 1, mbox := { s.mbox with
        busy := false, waiting := none, result := 3, response := [] } }) ∧
    (∀ o rq, s.mbox.busy = true → s.mbox.waiting = some (o, rq) → mbOps.contains o.toNat = false →
      exec .mailboxCommandComplete s = .next { s with msix := s.msix ||| 1, mbox := { s.mbox with
        busy := false, waiting := none, result := 1, response := [] } })) ∧
  (∀ s r bs, answer s r bs = { s with mbox := { s.mbox with waiting := none, result := BitVec.ofNat 8 r, response := bs.take 0x800 } }) ∧
  (∀ s, Rung s 1 → exec .ident s = .next (answer s mbOK
    (Config.partNumber ++ Config.imageVersion (running s false) ++ Config.imageVersion (running s true) ++ toBytes 8 s.ident ++ toBytes 2 s.pkg))) ∧
  (∀ (nonce : List Byte) s, Rung s 2 → (nonce.length ≠ 64 → exec (.attest nonce) s = .next (badcmd s)) ∧
    (nonce.length = 64 → ∃ r, exec (.attest nonce) s = .next (answer s mbOK (r ++ Config.reportSignature r)) ∧
      r = nonce ++ sha512 (running s false) ++ sha512 (running s true) ++ toBytes 2 s.mbox.stcode.toNat ++ toBytes 8 s.ident)) ∧
  (∀ s config, running s config = (let i := if config then s.cfgImage else s.fwImage
    if i = [] then Config.factoryImage config else i)) ∧
  (∀ (image : List Byte) s, Rung s 3 → exec (.fwload image) s = .next (if Config.imageSigned image then
    answer { s with staged := s.staged ++ [image] } mbOK [] else answer s mbDENIED [])) ∧
  (∀ (qcb : DWord) (pasid : BitVec 20) (rights : BitVec 16) s, Rung s 0x10 →
    (qcbPinned s qcb.toNat = true → exec (.capmint qcb pasid rights) s = .next s) ∧
    (qcbPinned s qcb.toNat = false → (qcb.toNat % 256 ≠ 0 ∨ qcbBytes s qcb.toNat = none ∨ 64 ≤ rights.toNat) →
      exec (.capmint qcb pasid rights) s = .next (badcmd s)) ∧
    (qcbPinned s qcb.toNat = false → qcb.toNat % 256 = 0 → qcbBytes s qcb.toNat ≠ none → rights.toNat < 64 → ∃ u cap,
      exec (.capmint qcb pasid rights) s = .next (answer u mbOK cap) ∧ u = { s with queues := u.queues } ∧
      (queueFor u qcb.toNat).isSome ∧ (∀ q ∈ s.queues, q ∈ u.queues) ∧ cap.length = 32 ∧ fieldB cap 0 8 = qcb.toNat ∧
      fieldB cap 8 4 = (qcbOf s qcb.toNat).rsize % 2 ^ 32 ∧ fieldB cap 12 2 = rights.toNat ∧
      fieldB cap 14 3 = (pasid.toNat * 16 + (qcbOf s qcb.toNat).gen) % 2 ^ 24 ∧ fieldB cap 17 7 = 0 ∧
      fieldB cap 24 8 = (Config.capSeal (fieldB cap 0 24)).toNat)) ∧
  (∀ (pasid : BitVec 20) s, Rung s 0x11 → (∀ q ∈ s.queues, (qcbOf s q.qcb).pasid ≠ pasid.toNat) → (∀ l ∈ s.launches, l.pasid ≠ pasid.toNat) →
    exec (.retire pasid) s = .next (answer { s with workqs := s.workqs.filter fun w => w.owner != pasid.toNat } mbOK [])) ∧
  (∀ (pasid : BitVec 20) s l q, Rung s 0x11 → s.launches = [l] → l.pasid = pasid.toNat → s.consorts = [] → s.queues = [q] →
    (qcbOf s q.qcb).pasid ≠ pasid.toNat → ∃ u l', exec (.retire pasid) s = .next (answer u mbOK []) ∧ u.launches = [l'] ∧
      l' = { l with shares := [], waits := [], status := stRETIRED, detail := 0, failed := l'.failed }) ∧
  (∀ (pasid : BitVec 20) s, Rung s 0x11 →
    let mine := (s.queues.filter fun q => (qcbOf s q.qcb).pasid == pasid.toNat).map (·.qcb)
    ((∃ q ∈ mine, qcbPinned s q = true) → exec (.retire pasid) s = .next s) ∧
    ((∀ q ∈ mine, qcbPinned s q = false) → exec (.retire pasid) s = .next (answer (mine.foldl retireQueue
      ((s.launches.filter fun l => l.pasid == pasid.toNat).foldl retireLaunch
        { s with workqs := s.workqs.filter fun w => w.owner != pasid.toNat })) mbOK []))) ∧
  (∀ s l, launchAt s l.lid = some l → conAt s s.nextCid = none → let u := retireLaunch s l
    (∃ l', launchAt u l.lid = some l' ∧ l' = { l with shares := [], waits := [], status := stRETIRED, detail := 0, failed := l'.failed }) ∧
    (∀ con ∈ u.consorts, con.launch = l.lid → con.capo = true ∨ con.dying = true) ∧ ∀ v ∈ u.saved, v.consort.launch ≠ l.lid) ∧
  (∀ s qcb q, queueFor s qcb = some q → let b := qcbOf s qcb
    let dropped := inc32 b.tail b.head + (q.cmds.filter fun c => c.stage == 0).length
    retireQueue s qcb = flushRetired (setQueueRec
      { (qcbPut s qcb 50 [BitVec.ofNat 8 (b.pasid / 2 ^ 16 + (b.gen + 1) % 16 * 16)]) with
        pris := (qcbPut s qcb 50 [BitVec.ofNat 8 (b.pasid / 2 ^ 16 + (b.gen + 1) % 16 * 16)]).pris.filter fun p => p.who != .queue qcb }
      { (newQueue qcb) with
        cmds := q.cmds.filter (fun c => c.stage != 0), owed := q.owed, broken := q.broken, retiring := some dropped }) qcb ((q.cmds.filter fun c => c.stage != 0).length + 1)) ∧
  (∀ (bs : List Byte), bs.length = 64 → let b := parseQcb bs
    parseQcb (bs.set 50 (BitVec.ofNat 8 (b.pasid / 2 ^ 16 + (b.gen + 1) % 16 * 16))) = { b with gen := (b.gen + 1) % 16 }) ∧
  (∀ s qcb q n dropped, queueFor s qcb = some q → q.retiring = some dropped →
    (∀ c, q.cmds.find? (fun c => cmdOp c != 1) = some c → flushRetired s qcb (n + 1) = flushRetired (finish s qcb c stRETIRED dropped) qcb n) ∧
    ((∀ c ∈ q.cmds, cmdOp c = 1) → (q.cmds ≠ [] ∨ q.owed ≠ [] ∨ qcbPinned s qcb = true) → flushRetired s qcb (n + 1) = s) ∧
    (q.cmds = [] → q.owed = [] → qcbPinned s qcb = false → let r := tryRecord s qcb ⟨stRETIRED, dropped, 0, 0, 0, 0⟩
      let ends := r.2 = true ∨ ∀ v, queueFor r.1 qcb = some v → v.broken = true
      (ends → flushRetired s qcb (n + 1) = setQueueRec (setQState r.1 qcb 4) (newQueue qcb)) ∧
      (¬ ends → flushRetired s qcb (n + 1) = r.1))) ∧
  (∀ (kind : Nat) (pasid : BitVec 20) (va : DWord) s, Rung s 0x14 → (2 < kind → exec (.tlbflush kind pasid va) s = .next (badcmd s)) ∧
    (kind ≤ 2 → ∃ u, exec (.tlbflush kind pasid va) s = .next (answer u mbOK []) ∧ Invalidated s u kind pasid.toNat va.toNat)) ∧
  (∀ s, Rung s 0x21 → ∃ nh nf nr out, exec .events s = .next (answer { s with
    headLog := s.headLog.drop nh, fabricLog := s.fabricLog.drop nf, ringFaults := s.ringFaults.drop nr
    wakeDiscards := [0, 0, 0, 0, 0, 0] } mbOK out) ∧
    out = (s.headLog.take nh ++ s.fabricLog.take nf).flatMap (fun r => [r.cause, r.sub, r.addr, r.head, r.band].flatMap (toBytes 8)) ++
      (s.ringFaults.take nr).flatMap (fun r => toBytes 8 r.addr ++ toBytes 8 r.qcb) ++ s.wakeDiscards.flatMap (toBytes 8) ∧
    (s.wakeDiscards.length = 6 → out.length ≤ 0x800) ∧
    (40 * (s.headLog.length + s.fabricLog.length) + 16 * s.ringFaults.length ≤ 2000 →
      s.headLog.length ≤ nh ∧ s.fabricLog.length ≤ nf ∧ s.ringFaults.length ≤ nr)) ∧
  (∀ (slot : Nat) (wrapped : List Byte) s, Rung s 0x30 →
    ((slot = 0 ∨ 4096 ≤ slot) → exec (.keyloadLoad slot wrapped) s = .next (badcmd s) ∧ exec (.keyloadZeroise slot) s = .next (badcmd s)) ∧
    (1 ≤ slot → slot < 4096 →
      exec (.keyloadZeroise slot) s = .next (answer { s with keys := s.keys.filter (· != slot) } mbOK []) ∧
      (Config.keyUnwraps wrapped = true → ∃ u, exec (.keyloadLoad slot wrapped) s = .next (answer u mbOK []) ∧
        u = { s with keys := u.keys, keyIds := u.keyIds } ∧ (∀ k, k ∈ u.keys ↔ k = slot ∨ k ∈ s.keys) ∧
        (∀ n, smGet 0 u.keyIds n = if n = slot then Config.keyOf wrapped else smGet 0 s.keyIds n) ∧
        ∀ n i, alGet s.lines n = some i → i.key = slot → i.id ≠ Config.keyOf wrapped → lineOk u n slot = false))) ∧
  (∀ (w : Nat) s, Rung s 0x31 → exec (.powercap w) s = .next (if s.board.floor ≤ w ∧ w ≤ 1500 then answer { s with cap := w } mbOK [] else badcmd s)) ∧
  (∀ (csr : Nat) (v : DWord) s, Rung s 0x22 → 0xC00 ≤ csr → csr ≤ 0xC04 →
    exec (.dispcsrRead csr) s = .next (answer s mbOK (toBytes 8 (readDisp s csr).toNat)) ∧
    (csr = 0xC03 → exec (.dispcsrWrite csr v) s = .next (badcmd s)) ∧
    (csr ≠ 0xC03 → (∀ u, writeDisp s csr v = some u → exec (.dispcsrWrite csr v) s = .next (answer u mbOK [])) ∧
      (writeDisp s csr v = none → exec (.dispcsrWrite csr v) s = .next (badcmd s)))) ∧
  (∀ (modes : List (Nat × HeadMode)) s, Rung s 0x20 →
    (modesetWaits s modes = true → exec (.modeset modes) s = .next s) ∧
    (modesetWaits s modes = false → modesOk s modes = false → exec (.modeset modes) s = .next (badcmd s)) ∧
    (∀ h m, modes = [(h, m)] → modesetWaits s modes = false → modesOk s modes = true → exec (.modeset modes) s = .next (answer (setMode s h m) mbOK [])))

/-! ## Burin -/

/-- R252, R319, R320, R324, R326, R335, R341 to R344, R405: each vector operation writes every lane of its register from the lanes
of the bundle's snapshot; LCMP writes a mask register; LPACK and LUNPK write packed fields; a form that is not legal traps ILL.

The sub-code is a free value (log 17). -/
def Obligations.BurinLanes : Prop :=
  (∀ i d ty f, burinLane i = some (d, ty, f) → ∀ s b x, RunsB s b x →
    (i.wf = true → ∃ x', exec i s = .next (slotDone s b x') ∧ WritesBW x x' d.toNat (laneBits ty) (laneCount ty) (f x)) ∧
    (i.wf = false → exec i s = .next (burinIll s b))) ∧
  (∀ (stg : BitVec 2) (d : BitVec 3) (a b : BitVec 6) (ty : BitVec 2) (fn : BitVec 3) s c x, fn.toNat ≤ 5 → RunsB s c x →
    ∃ x', exec (.lcmp stg d a b ty fn) s = .next (slotDone s c x') ∧ x' = { x with regs := { x.regs with m := x'.regs.m } } ∧
      (∀ r, r ≠ d.toNat ∨ r = 0 → smGet 0 x'.regs.m r = smGet 0 x.regs.m r) ∧
      (d ≠ 0 → ∀ k, k < 32 → (smGet 0 x'.regs.m d.toNat).getLsbD k = (decide (k < laneCount ty) &&
        (if intLane ty then intCmp fn.toNat (srcI x ty a k) (srcI x ty b k)
         else lcmpTest fn.toNat (fCmp (laneFmt ty) (src x ty a k) (src x ty b k)))))) ∧
  (∀ (stg : BitVec 2) (d a : BitVec 6) (ty : BitVec 2) (fn : BitVec 3) s b x, RunsB s b x →
    ¬ (ty = 1 ∧ fn.toNat ≤ 1 ∨ ty = 2 ∧ fn = 2) →
    exec (.lpack stg d a ty fn) s = .next (burinIll s b) ∧ exec (.lunpk stg d a ty fn) s = .next (burinIll s b)) ∧
  (∀ (stg : BitVec 2) (d a : BitVec 6) (ty : BitVec 2) (fn : BitVec 3) s b x, ty = 1 ∧ fn.toNat ≤ 1 ∨ ty = 2 ∧ fn = 2 → RunsB s b x →
    let h := fun k => bw x a.toNat / 2 ^ (16 * k) % 2 ^ 16
    let by8 := fun k => bw x a.toNat / 2 ^ (8 * k) % 2 ^ 8
    let w32 := fun k => bw x a.toNat / 2 ^ (32 * k) % 2 ^ 32
    (∃ x', exec (.lpack stg d a ty fn) s = .next (slotDone s b x') ∧
      (fn = 0 → WritesBW x x' d.toNat 32 16 fun p => if p < 8 then packUnorm 1023 (h (4 * p)) + packUnorm 1023 (h (4 * p + 1)) * 2 ^ 10 +
        packUnorm 1023 (h (4 * p + 2)) * 2 ^ 20 + packUnorm 3 (h (4 * p + 3)) * 2 ^ 30 else 0) ∧
      (fn = 1 → WritesBW x x' d.toNat 8 64 fun k => if k < 32 then packUnorm 255 (h k) else 0) ∧
      (fn = 2 → WritesBW x x' d.toNat 16 32 fun k => if k < 16 then laneNarrow 16 true (signedOf 32 (w32 k)) else 0)) ∧
    (∃ x', exec (.lunpk stg d a ty fn) s = .next (slotDone s b x') ∧
      (fn = 0 → WritesBW x x' d.toNat 16 32 fun k => if k % 4 = 3 then unpackUnorm 3 (w32 (k / 4) / 2 ^ 30 % 4)
        else unpackUnorm 1023 (w32 (k / 4) / 2 ^ (10 * (k % 4)) % 2 ^ 10)) ∧
      (fn = 1 → WritesBW x x' d.toNat 16 32 fun k => unpackUnorm 255 (by8 k)) ∧
      (fn = 2 → WritesBW x x' d.toNat 32 16 fun k => wrapTo 32 (signedOf 16 (h k)))))

/-- R253, R259 to R263, R265, R297, R309, R312, R314, R321, R323, R336, R340, R355, R359: the slot-3 operations. FSMP's coordinates
are floors, clamped to the frame, a NaN read as 0.

R121, R131: a load of FACQ or FSMP finds what is there, or what a write replaced that nothing orders before it (which is the model's
reading, log 10).

R126, R263: an invocation's end releases its hold; a line that a consort has pinned keeps it till later.

The sub-code of a LOUT of another head is a free value (log 17). -/
def Obligations.BurinSlot3 : Prop :=
  (∀ (stg : BitVec 2) (d a b : BitVec 6) (ty : BitVec 2) (r : BitVec 3) s c x, intLane ty = true → RunsB s c x →
    let addr := (bw x a.toNat % 2 ^ 32 + 64 * r.toNat) % 2 ^ 19
    (addr % 64 = 0 →
      (∃ x', exec (.lbld stg d a ty r) s = .next (slotDone s c x') ∧
        WritesBW x x' d.toNat 8 64 fun i => (smGet 0 x.lb (addr + i)).toNat) ∧
      (x.late = true → exec (.lbst stg a b ty r) s = .next (slotDone s c x)) ∧
      (x.late = false → ∃ x', exec (.lbst stg a b ty r) s = .next (slotDone s c x') ∧ x' = { x with lb := x'.lb } ∧
        ∀ j, smGet 0 x'.lb j = if addr ≤ j ∧ j < addr + 64 then BitVec.ofNat 8 (bw x b.toNat / 2 ^ (8 * (j - addr))) else smGet 0 x.lb j)) ∧
    (addr % 64 ≠ 0 → exec (.lbld stg d a ty r) s = .next (burinTrap s c cALIGN 0) ∧
      exec (.lbst stg a b ty r) s = .next (burinTrap s c cALIGN 0))) ∧
  (∀ (stg : BitVec 2) (d a b : BitVec 6) s c x, RunsB s c x →
    let addr := bw x b.toNat % 2 ^ 32
    (addr % 64 ≠ 0 → exec (.lmma stg d a b) s = .next (burinTrap s c cALIGN 0)) ∧
    (addr % 64 = 0 → ∃ x', exec (.lmma stg d a b) s = .next (slotDone s c x') ∧ WritesBW x x' d.toNat 16 32 fun j =>
      lmmaLane (bw x d.toNat / 2 ^ (16 * j) % 2 ^ 16) ((List.range 64).map fun k =>
        (bw x a.toNat / 2 ^ (8 * k) % 2 ^ 8, (smGet 0 x.lb ((addr + (32 * k + j)) % 2 ^ 19)).toNat)))) ∧
  (∀ (stg : BitVec 2) (d : BitVec 6) s b x, RunsB s b x →
    (bandStarted s x = false → exec (.facq stg d) s = .next s ∧ exec (.posel stg d) s = .next s ∧ exec (.bwait stg 0) s = .next s) ∧
    (∀ p, (myBand s x).pose = some p → p.length = 32 →
      (∃ x', exec (.posel stg d) s = .next (slotDone s b x') ∧
        WritesBW x x' d.toNat 8 64 fun i => ((p[i]?).getD 0).toNat) ∧
      exec (.bwait stg 0) s = .next (slotDone s b x)) ∧
    (loutsPending x = true → exec (.bwait stg 1) s = .next s) ∧
    (loutsPending x = false → exec (.bwait stg 1) s = .next (slotDone s b x))) ∧
  (∀ (stg : BitVec 2) (d : BitVec 6) s b x, RunsB s b x → burinPinned s x.head (headAt s x.head).mode.slots = true →
    exec (.facq stg d) s = .next s) ∧
  (∀ s b, ((burinAt s b).hold = none → releaseHold s b = s) ∧
    ∀ slot, (burinAt s b).hold = some slot →
      let s1 := setBurin s b { (burinAt s b) with hold := none }
      (∀ u, addHold s1 (burinAt s b).head slot false = .ok u → releaseHold s b = u) ∧
      (∀ e, addHold s1 (burinAt s b).head slot false = .error e → ∃ r, releaseHold s b = { s1 with headLog := s.headLog ++ [r] } ∧
        r.cause = (errCause e).1 ∧ r.sub = slot)) ∧
  (∀ s b, ((burinAt s b).hold = none → tryRelease s b = s) ∧
    ∀ slot, (burinAt s b).hold = some slot →
      let va := (headAt s (burinAt s b).head).mode.slots.getD slot 0 + 8
      (waitsPins s (dispCtx s (burinAt s b).head) [va] = true → tryRelease s b = s) ∧
      (waitsPins s (dispCtx s (burinAt s b).head) [va] = false → tryRelease s b = releaseHold s b)) ∧
  (∀ s b discard, ∃ x, endInvocation s b discard = setBurin (tryRelease s b) b x ∧
    x = { (burinAt (tryRelease s b) b) with
      running := false, exiting := false, bundle := [], pos := 0, npc := none, loops := [], acq := none, landing := x.landing
      src := (burinAt (tryRelease s b) b).regs } ∧
    ∀ l, l ∈ x.landing ↔ l ∈ (burinAt (tryRelease s b) b).landing ∧ (discard = true → l.fsmp = false)) ∧
  (∀ s h slot up n, let va := (headAt s h).mode.slots.getD slot 0 + 8
    load s (dispCtx s h).1 (dispCtx s h).2 va 4 = .ok n → addHold s h slot up =
      store s (dispCtx s h).1 (dispCtx s h).2 va (toBytes 4 (if up then ofBytes n + 1 else ofBytes n + (2 ^ 32 - 1)))) ∧
  (∀ (stg : BitVec 2) (d : BitVec 6) s b x, RunsB s b x → bandStarted s x = true →
    burinPinned s x.head (headAt s x.head).mode.slots = false →
    let slots := (headAt s x.head).mode.slots
    let s1 := releaseHold s b
    let y := burinAt s1 b
    let ctx := dispCtx s1 y.head
    let rd := fun va n => loadSeen s1 .burin ctx.1 ctx.2 va n
    (∀ e, rd (slots.getD 0 0) 8 = .error e → exec (.facq stg d) s = .next (burinTrap s1 b (errCause e).1 (errCause e).2)) ∧
    ∀ g0 g1 g2 g3, rd (slots.getD 0 0) 8 = .ok g0 → rd (slots.getD 1 0) 8 = .ok g1 → rd (slots.getD 2 0) 8 = .ok g2 → rd (slots.getD 3 0) 8 = .ok g3 →
    let gens := [ofBytes g0, ofBytes g1, ofBytes g2, ofBytes g3]
    ∃ s2, Looked s1 s2 .burin ctx ((List.range 4).map (slots.getD · 0)) 8 ∧
    ((∀ g ∈ gens, g = 0) → exec (.facq stg d) s = .next (slotDone s2 b (land { y with acq := none } d.toNat 0 false))) ∧
    (∀ i wh col dep mot ts, i < 4 → gens.getD i 0 ≠ 0 → (∀ j, j < 4 → gens.getD j 0 ≤ gens.getD i 0) →
      (∀ j, j < i → gens.getD j 0 < gens.getD i 0) → rd (slots.getD i 0 + 16) 4 = .ok wh → rd (slots.getD i 0 + 24) 8 = .ok col →
      rd (slots.getD i 0 + 32) 8 = .ok dep → rd (slots.getD i 0 + 40) 8 = .ok mot → rd (slots.getD i 0 + 48) 8 = .ok ts →
      ∃ s3 s4, Looked s2 s3 .burin ctx [slots.getD i 0 + 16] 4 ∧
      Looked s3 s4 .burin ctx ([24, 32, 40, 48].map (slots.getD i 0 + ·)) 8 ∧ ∀ u, addHold s4 x.head i true = .ok u →
      exec (.facq stg d) s = .next (slotDone u b (land { (burinAt u b) with
        hold := some i, acq := some ⟨ofBytes wh % 2 ^ 16, ofBytes wh / 2 ^ 16, ofBytes col, ofBytes dep, ofBytes mot⟩ } d.toNat
        (gens.getD i 0 + i * 2 ^ 64 + ofBytes ts * 2 ^ 96) false)))) ∧
  (∀ (stg : BitVec 2) (d a b : BitVec 6) (fn : BitVec 3) s c x, fn.toNat ≤ 2 → RunsB s c x →
    (x.acq = none → exec (.fsmp stg d a b fn) s = .next (slotDone s c (land x d.toNat 0 true))) ∧
    (∀ q, x.acq = some q →
      let base := if fn = 0 then q.colour else if fn = 1 then q.depth else q.motion
      let n := if fn = 1 then 2 else 4
      let va := fun k => (base + texel q.height (bw x b.toNat / 2 ^ (32 * k) % 2 ^ 32) * ((n * q.width + 255) / 256 * 256) +
        n * texel q.width (bw x a.toNat / 2 ^ (32 * k) % 2 ^ 32)) % 2 ^ 64
      (burinPinned s x.head ((List.range 16).map va) = true → exec (.fsmp stg d a b fn) s = .next s) ∧
      (burinPinned s x.head ((List.range 16).map va) = false →
        (∀ vs, readSamples s (dispCtx s x.head) n ((List.range 16).map va) = .ok vs → ∃ t,
          Looked s t .burin (dispCtx s x.head) ((List.range 16).map va) n ∧
          exec (.fsmp stg d a b fn) s = .next (slotDone t c (land x d.toNat (packLanes 32 vs) true))) ∧
        (∀ e, readSamples s (dispCtx s x.head) n ((List.range 16).map va) = .error e →
          exec (.fsmp stg d a b fn) s = .next (burinTrap s c (errCause e).1 (errCause e).2))))) ∧
  (∀ s ctx n va vas, inGddr s ctx va = false → readSamples s ctx n (va :: vas) = .error (.xlat rRange)) ∧
  (∀ s (ctx : Nat × Nat) n va vas, readSamples s ctx n [] = .ok [] ∧ (inGddr s ctx va = true →
    (∀ e, loadSeen s .burin ctx.1 ctx.2 va n = .error e → readSamples s ctx n (va :: vas) = .error e) ∧
    ∀ b, loadSeen s .burin ctx.1 ctx.2 va n = .ok b → readSamples s ctx n (va :: vas) =
      (readSamples s ctx n vas).map (ofBytes b :: ·))) ∧
  (∀ n v : Nat, 1 ≤ n → (∀ i, fmtF32.unpack v = .nan i → texel n v = 0) ∧
    (fmtF32.unpack v = .inf true → texel n v = 0) ∧ (fmtF32.unpack v = .inf false → texel n v = n - 1) ∧
    ∀ neg m e, fmtF32.unpack v = .fin neg m e →
      let w : Int := if neg then -m else m
      let fl := if 0 ≤ e then w * 2 ^ e.toNat else w / 2 ^ (-e).toNat
      (texel n v : Int) = max 0 (min ((n : Int) - 1) fl)) ∧
  (∀ s (ctx : Nat × Nat) va l, translate s ctx.1 ctx.2 .read va = .ok l → (inGddr s ctx va = true ↔ l.host = false ∧
    ∃ key, placeOf s (l.frame + va % 4096) = .mem key ∧ key / 2 ^ 39 = s.pkg ∧ Config.gddrBase ≤ key % 2 ^ 39)) ∧
  (∀ (stg : BitVec 2) (d : BitVec 3) s b x, RunsB s b x →
    let h := headAt s x.head
    ∃ x', exec (.dlchk stg d) s = .next (slotDone s b x') ∧ x' = { x with regs := { x.regs with m := x'.regs.m } } ∧
      (d ≠ 0 → smGet 0 x'.regs.m d.toNat =
        if bandLine h x.frame x.band (guardOf h x.frame) ≤ beamLine h + 2 then 0xFFFFFFFF else 0)) ∧
  (∀ (stg : BitVec 2) (a : BitVec 6) (h : BitVec 3) s b x, h.toNat ≤ 3 → RunsB s b x →
    let line := bw x a.toNat % 2 ^ 32 % 16
    let addr := bw x a.toNat / 2 ^ 32 % 2 ^ 32
    (h.toNat ≠ x.head → exec (.lout stg a h) s = .next (burinIll s b)) ∧
    (h.toNat = x.head → addr % 64 ≠ 0 → exec (.lout stg a h) s = .next (burinTrap s b cALIGN 0)) ∧
    (h.toNat = x.head → addr % 64 = 0 → supplyOver s x = true → exec (.lout stg a h) s = .next (slotDone s b x)) ∧
    (h.toNat = x.head → addr % 64 = 0 → supplyOver s x = false → alGet (myBand s x).lines line ≠ some .reproj →
      ∃ y, exec (.lout stg a h) s = .next (slotDone (setHead s x.head y) b { x with louts := x.louts ++ [⟨x.frame, x.band, line, addr⟩] }) ∧
        y = { (headAt s x.head) with bands := y.bands } ∧ alGet (bandAt y x.frame x.band).lines line = some .due)) ∧
  (∀ (stg : BitVec 2) (a : BitVec 6) s b x, RunsB s b x →
    (supplyOver s x = true → exec (.rpj stg a) s = .next (slotDone s b x)) ∧
    (supplyOver s x = false → ∃ y, exec (.rpj stg a) s = .next (slotDone (setHead s x.head y) b x) ∧
      y = { (headAt s x.head) with bands := y.bands } ∧
      ∀ i, i < 16 → alGet (bandAt y x.frame x.band).lines i =
        if signedOf 32 (bw x a.toNat) ≤ i then some .reproj else alGet (myBand s x).lines i))

/-! ## The display -/

/-- R256, R257, R266, R267: a mode set that is accepted begins the head's lead-in with the cores, image and entry named; a refused one
breaks a limit.

R257, R260, R265, R266: a band's start latches the committed pose, and its deadline closes the band; invocations start on the core's
next band; results land, rows are read, and the scan-out presents each line.

R261: a line without its own row is reprojected, by the pixel rule written there, and is 0 in frame 0; a write or a read that fails is
recorded in the head's event log, with its cause and address.

That rows are read in the order of their LOUTs, that GDDR is judged at the mode set, and that a line waits for the bundle in
progress are the model's readings (log 28). -/
def Obligations.DisplayEvents : Prop :=
   ((∀ s h m, coresOf m.cores ≠ [] → let u := setMode s h m
      let x := headAt u h
      x.on = true ∧ x.mode = m ∧ x.frame = 0 ∧ x.line = 0 ∧ x.nextStart = 0 ∧ x.nextDeadline = 0 ∧ x.bands = [] ∧
      x.lead = bits s.poselead.toNat (16 * h) 10 ∧ x.guard = bits s.dlguard.toNat (16 * h) 8 ∧
      ∀ b ∈ coresOf m.cores, (burinAt u b).running = false ∧ (burinAt u b).regs = ⟨[], [], []⟩ ∧
        ∀ i, i < m.image.length → m.image.length ≤ 2 ^ 16 → smGet 0 (burinAt u b).lb (0x70000 + i) = m.image.getD i 0) ∧
    (∀ s modes, modesOk s modes = true → ∀ h m, (h, m) ∈ modes → h < 4 ∧ 16 ≤ m.hwidth ∧ m.hwidth ≤ 7680 ∧ 16 ≤ m.hheight ∧
      m.hheight ≤ 4320 ∧ m.hheight % 16 = 0 ∧ m.hwidth < m.htotal ∧ m.hheight + bits s.poselead.toNat (16 * h) 10 < m.vtotal ∧
      m.pixclk ≤ 240 * m.htotal * m.vtotal ∧ m.cores ≠ 0 ∧ m.slots.length = 4 ∧
      (∀ a ∈ m.slots, a % 64 = 0 ∧ inGddr s (m.pasid, m.root) a = true) ∧ m.pbuf0 % 256 = 0 ∧ m.pbuf1 % 256 = 0 ∧
      (∀ a, a = m.pbuf0 ∨ a = m.pbuf1 → ∀ k, k * 4096 < m.hwidth * m.hheight * 4 → inGddr s (m.pasid, m.root) ((a + 4096 * k) % 2 ^ 64) = true) ∧
      ∀ h' m', (h', m') ∈ modesAfter s modes → h' ≠ h → alGet modes h = some m → m.cores &&& m'.cores = 0)) ∧
   ((∀ s, let x := headAt s (unitOf s)
      let f := x.nextStart / bandCount x
      let b := x.nextStart % bandCount x
      (instantDue x x.nextStart leadOf = false → exec .bandStart s = .next s) ∧
      (instantDue x x.nextStart leadOf = true → ∃ y, exec .bandStart s = .next (setHead s (unitOf s) y) ∧
        y = { x with bands := y.bands, nextStart := x.nextStart + 1, poses := x.poses ++ [(f, b, x.committed)] } ∧
        (bandAt y f b).pose = some x.committed ∧ (bandAt y f b).lines = (bandAt x f b).lines ∧
        ∀ f' b', (f', b') ≠ (f, b) → bandAt y f' b' = bandAt x f' b')) ∧
    (∀ x k lead, instantDue x k lead = true ↔ x.on = true ∧
      (k / bandCount x + 1) * x.mode.vtotal + 16 * (k % bandCount x) - lead x (k / bandCount x) ≤ x.frame * x.mode.vtotal + x.line) ∧
    (∀ s, let x := headAt s (unitOf s)
      let f := x.nextDeadline / bandCount x
      let b := x.nextDeadline % bandCount x
      ((x.nextStart ≤ x.nextDeadline ∨ instantDue x x.nextDeadline guardOf = false) → exec .bandDeadline s = .next s) ∧
      (x.nextDeadline < x.nextStart → instantDue x x.nextDeadline guardOf = true → ∃ u, exec .bandDeadline s = .next u ∧
        (headAt u (unitOf s)).nextDeadline = x.nextDeadline + 1 ∧ (bandAt (headAt u (unitOf s)) f b).closed = true ∧
        (∀ i, i < 16 → alGet (bandAt (headAt u (unitOf s)) f b).lines i = some ((alGet (bandAt x f b).lines i).getD .reproj)) ∧
        ((∀ i, i < 16 → (alGet (bandAt x f b).lines i).isSome = true) → u.bandmiss = s.bandmiss ∧ u.dlguard = s.dlguard) ∧
        ((∃ i, i < 16 ∧ alGet (bandAt x f b).lines i = none) → unitOf s < 4 →
          u.bandmiss = s.bandmiss ||| BitVec.ofNat 64 (2 ^ (16 * unitOf s + b % 16)) ∧
          bits u.dlguard.toNat (16 * unitOf s + 8) 8 = (bits s.dlguard.toNat (16 * unitOf s + 8) 8 + 1) % 256) ∧
        ∀ c, (alGet s.burins c).isSome = true → (burinAt u c).late = ((burinAt s c).late ||
          ((burinAt s c).running && (burinAt s c).head == unitOf s && (burinAt s c).frame == f && (burinAt s c).band == b)))) ∧
    (∀ s h g, (∀ j, j < h → ¬ ((headAt s j).on = true ∧ (alGet (headAt s j).nextBand (unitOf s)).isSome = true)) → h < 4 →
      (headAt s h).on = true → alGet (headAt s h).nextBand (unitOf s) = some g →
      let x := headAt s h
      let n := bandCount x
      let c := burinAt s (unitOf s)
      (c.running = true → exec .burinInvocationStart s = .next s) ∧
      (c.running = false → c.hold.isSome = true →
        (tryRelease s (unitOf s) = s → exec .burinInvocationStart s = .next s) ∧
        exec .burinInvocationStart s = exec .burinInvocationStart (tryRelease s (unitOf s))) ∧
      (c.running = false → c.hold = none → ∃ y, exec .burinInvocationStart s = .next (setBurin (setHead s h { x with nextBand := y }) (unitOf s) { c with
          running := true, exiting := false, pc := x.mode.entry, npc := none, loops := [], bundle := [], pos := 0, head := h, band := g % n
          frame := g / n, late := decide (g < x.nextDeadline), acq := none, src := c.regs }) ∧
        (g % n + (coresOf x.mode.cores).length < n → alGet y (unitOf s) = some (g + (coresOf x.mode.cores).length)) ∧
        (n ≤ g % n + (coresOf x.mode.cores).length →
          alGet y (unitOf s) = some ((g / n + 1) * n + g % n % (coresOf x.mode.cores).length)))) ∧
    (∀ s l rest, (burinAt s (unitOf s)).landing = l :: rest → ∃ c', exec .burinWriteback s = .next (setBurin s (unitOf s) c') ∧
      c' = { (burinAt s (unitOf s)) with regs := c'.regs, src := c'.src, landing := rest } ∧ smGet 0 c'.regs.w l.reg = l.val ∧
      smGet 0 c'.src.w l.reg = l.val ∧ (∀ r, r ≠ l.reg → smGet 0 c'.regs.w r = smGet 0 (burinAt s (unitOf s)).regs.w r) ∧
      c'.regs.s = (burinAt s (unitOf s)).regs.s ∧ c'.regs.m = (burinAt s (unitOf s)).regs.m) ∧
    (∀ s, unitOf s < 4 → exec .poseCommit s = .next (setHead s (unitOf s) { (headAt s (unitOf s)) with
      committed := (headAt s (unitOf s)).staged })) ∧
    (∀ s l rest, let c := burinAt s (unitOf s)
      let x := headAt s c.head
      c.louts = l :: rest → alGet (bandAt x l.frame l.band).lines l.line = some .due → ∃ u px, exec .loutRowRead s = .next u ∧
        u = { s with burins := u.burins, heads := u.heads } ∧ (burinAt u (unitOf s)) = { c with louts := rest } ∧
        alGet (bandAt (headAt u c.head) l.frame l.band).lines l.line = some (.row px) ∧ px.length = x.mode.hwidth ∧
        ∀ i, i < x.mode.hwidth → (px.getD i 0).toNat = ofBytes ((List.range 4).map fun j => smGet 0 c.lb ((l.addr + (4 * i + j)) % 2 ^ 19))) ∧
    (∀ s, let x := headAt s (unitOf s)
      let due := instantDue x x.nextStart leadOf = true ∨ (x.nextDeadline < x.nextStart ∧ instantDue x x.nextDeadline guardOf = true)
      let runs := ∃ c ∈ s.burins, c.2.running = true ∧ c.2.head = unitOf s ∧ c.2.bundle ≠ []
      ((x.on = false ∨ due ∨ runs) → exec .scanoutLine s = .next s) ∧
      (x.on = true → ¬ due → ¬ runs →
        ((x.frame = 0 ∨ x.mode.hheight ≤ x.line) → exec .scanoutLine s = .next (setHead s (unitOf s) (nextLine x))) ∧
        (∀ px, x.frame ≠ 0 → x.line < x.mode.hheight →
          alGet (bandAt x (x.frame - 1) (x.line / 16)).lines (x.line % 16) = some (.row px) →
          (∀ c ∈ s.burins, c.2.head = unitOf s → ∀ l ∈ c.2.louts,
            ¬ (l.frame = x.frame - 1 ∧ l.band = x.line / 16 ∧ l.line = x.line % 16)) →
          (scanPinned s (unitOf s) (x.frame - 1) = true → exec .scanoutLine s = .next s) ∧
          (scanPinned s (unitOf s) (x.frame - 1) = false →
            ∃ u, exec .scanoutLine s = .next (setHead u (unitOf s) (nextLine (headAt u (unitOf s)))) ∧
              u = presentLine (unitOf s) (x.line / 16) (pbufOf x.mode (x.frame - 1) + 4 * (x.line * x.mode.hwidth)) px s)) ∧
        (x.frame ≠ 0 → x.line < x.mode.hheight → scanPinned s (unitOf s) (x.frame - 1) = false →
          (∀ c ∈ s.burins, c.2.head = unitOf s → ∀ l ∈ c.2.louts,
            ¬ (l.frame = x.frame - 1 ∧ l.band = x.line / 16 ∧ l.line = x.line % 16)) →
          (let ln := alGet (bandAt x (x.frame - 1) (x.line / 16)).lines (x.line % 16)
           ln = none ∨ ln = some .reproj) →
          ∃ u, exec .scanoutLine s = .next (setHead u (unitOf s) (nextLine (headAt u (unitOf s)))) ∧
            let p := reprojLine s (unitOf s) (x.frame - 1) (x.line / 16) x.line
            u = presentLine (unitOf s) (x.line / 16) (pbufOf x.mode (x.frame - 1) + 4 * (x.line * x.mode.hwidth)) p.1 p.2) ∧
        (x.frame ≠ 0 → x.line < x.mode.hheight →
          alGet (bandAt x (x.frame - 1) (x.line / 16)).lines (x.line % 16) = some .due → exec .scanoutLine s = .next s))) ∧
    (∀ x : Head, (x.line + 1 < x.mode.vtotal → nextLine x = { x with line := x.line + 1 }) ∧
      (x.mode.vtotal ≤ x.line + 1 → (nextLine x).line = 0 ∧ (nextLine x).frame = x.frame + 1)) ∧
    (∀ (h b va : Nat) (p : Word) ps s u, store s (dispCtx s h).1 (dispCtx s h).2 (va % 2 ^ 64) (toBytes 4 p.toNat) = .ok u →
      presentLine h b va (p :: ps) s = presentLine h b (va + 4) ps u) ∧
    (∀ (h b va : Nat) s, presentLine h b va [] s = s) ∧
    (∀ (h b va : Nat) (p : Word) ps s e, store s (dispCtx s h).1 (dispCtx s h).2 (va % 2 ^ 64) (toBytes 4 p.toNat) = .error e →
      presentLine h b va (p :: ps) s = { s with headLog := s.headLog ++ [⟨(errCause e).1, (errCause e).2, va % 2 ^ 64, h, b⟩] }) ∧
    (∀ s h b y, reprojLine s h 0 b y = (List.replicate (headAt s h).mode.hwidth 0, s)) ∧
    (∀ s h f b y, f ≠ 0 →
      let m := (headAt s h).mode
      let pose := fun g => (((headAt s h).poses.find? fun p => p.1 == g && p.2.1 == b).map (·.2.2)).getD []
      let src := fun x => sourceOf m (rotOf (quatOf (pose f))) (transpose3 (rotOf (quatOf (pose (f - 1))))) x y
      let va := fun (p : Nat × Nat) => (pbufOf m (f + 1) + 4 * (p.2 * m.hwidth + p.1)) % 2 ^ 64
      let old := fun p => load s (dispCtx s h).1 (dispCtx s h).2 (va p) 4
      let r := reprojLine s h f b y
      r.1 = (List.range m.hwidth).map (fun x => match src x with
        | none => 0
        | some p => match old p with
          | .ok bs => BitVec.ofNat 32 (ofBytes bs)
          | .error _ => 0) ∧
      r.2 = { s with headLog := s.headLog ++ (List.range m.hwidth).filterMap fun x => (src x).bind fun p => match old p with
        | .ok _ => none
        | .error e => some ⟨(errCause e).1, (errCause e).2, va p, h, b⟩ }) ∧
    (∀ m rot rot0T x y, let half := fun (n : Nat) => rAdd (f32Of n) 0x3F000000
      let d := matVec rot0T (matVec rot [rDiv (rSub (half x) m.kcx.toNat) m.kfx.toNat, rDiv (rSub (half y) m.kcy.toNat) m.kfy.toNat, f32Of 1])
      let qx := rDiv (rMul m.kfx.toNat (d.getD 0 0)) (d.getD 2 0)
      let qy := rDiv (rMul m.kfy.toNat (d.getD 1 0)) (d.getD 2 0)
      ((fCmp fmtF32 (d.getD 2 0) 0 ≠ some .gt ∨ floorF qx = none ∨ floorF qy = none) → sourceOf m rot rot0T x y = none) ∧
      (fCmp fmtF32 (d.getD 2 0) 0 = some .gt → (floorF qx).isSome = true → (floorF qy).isSome = true → ∀ u v,
        sourceOf m rot rot0T x y = some (u, v) ↔ floorF (rAdd qx m.kcx.toNat) = some (u : Int) ∧
          floorF (rAdd qy m.kcy.toNat) = some (v : Int) ∧ u < m.hwidth ∧ v < m.hheight)) ∧
    (∀ m v, matVec m v = m.map fun r => rAdd (rAdd (rMul (r.getD 0 0) (v.getD 0 0)) (rMul (r.getD 1 0) (v.getD 1 0)))
      (rMul (r.getD 2 0) (v.getD 2 0))) ∧
    (∀ w x y z, let sq := rDiv (f32Of 2) (rAdd (rAdd (rAdd (rMul w w) (rMul x x)) (rMul y y)) (rMul z z))
      let one := fun a b => rSub (f32Of 1) (rMul sq (rAdd (rMul a a) (rMul b b)))
      let sub := fun a b c d => rMul sq (rSub (rMul a b) (rMul c d))
      let add := fun a b c d => rMul sq (rAdd (rMul a b) (rMul c d))
      rotOf (w, x, y, z) = [[one y z, sub x y w z, add x z w y], [add x y w z, one x z, sub y z w x], [sub x z w y, add y z w x, one x y]]) ∧
    (∀ m i j, i < 3 → j < 3 → m.length = 3 → ((transpose3 m).getD i []).getD j 0 = (m.getD j []).getD i 0) ∧
    (∀ v, (∀ i, fmtF32.unpack v = .nan i → floorF v = none) ∧ (∀ i, fmtF32.unpack v = .inf i → floorF v = none) ∧
      ∀ neg m e, fmtF32.unpack v = .fin neg m e →
        let w : Int := if neg then -m else m
        floorF v = some (if 0 ≤ e then w * 2 ^ e.toNat else w / 2 ^ (-e).toNat)))

/-! ## Encodings -/

/-- R57, R60, R63, R69, R70: words of each half of the opcode space, built from the tables, and what they decode to. -/
def Obligations.DecodeWords : Prop :=
  decodeWords [0x00000000] = .ok (.nop, []) ∧
  decodeWords [0x20084180] = .ok (.sadd 1 2 3, []) ∧
  decodeWords [0x300FFFFF] = .ok (.smovi 1 0x7FFFF, []) ∧
  decodeWords [0x34280022] = .ok (.srd 5 34, []) ∧
  decodeWords [0x02227FFE] = .ok (.br 1 4 0x7FFE, []) ∧
  decodeWords [0x0E0A0803] = .ok (.loopi 20 1 3, []) ∧
  decodeWords [0x80040206, 0x00C00000] = .ok (.vadd { (default : P) with d := 2, a := 1, b := 3, ty := 12 }, []) ∧
  decodeWords [0xD0004400, 0x00000070] = .ok (.fence { (default : P) with a := 0x22, x3 := 7 }, []) ∧
  decodeWords [0xE2060A0E, 0x088331EA] =
    .ok (.mma { (default : P) with d := 3, a := 5, b := 7, c := 8, ty := 8, rm := 1, sat := 1, bk := 3, x3 := 6, g := 5 } 3, []) ∧
  decodeWords [0xF40A0002, 0x08020100] = .ok (.csrr { (default : P) with d := 5, b := 1, c := 8, bk := 2 }, []) ∧
  decodeBurin 0x81A21961 = .ok (.ladd 3 17 3 11 0 1) ∧ decodeBurin 0xAC841888 = .ok (.lmma 1 2 3 4) ∧
  decodeBurin 0xAE004802 = .ok (.lout 0 9 2) ∧ decodeSlot 2 0 = .ok .nop

/-- R56, R57, R60, R63, R69, R70: every well-formed instruction that has words is what its words decode to, on the machine they are
for; no bit of an encoding is dropped. -/
def Obligations.EncodeDecode : Prop :=
  ∀ i : Instr, i.wf = true → i.hasWords = true → decodeAs i.isBurin (encode i) = .ok i

/-- R57, R63, R66, R71: words that decode have one meaning, which encodes as those very words and is well-formed; the reserved opcodes
decode to nothing. -/
def Obligations.DecodeEncode : Prop :=
  (∀ (ws rest : List Word) (i : Instr), decodeWords ws = .ok (i, rest) → ws = encode i ++ rest ∧ i.wf = true ∧ i.isBurin = false) ∧
  (∀ (w : Word) (i : Instr), decodeBurin w = .ok i → [w] = encode i ∧ i.wf = true ∧ i.isBurin = true) ∧
  (∀ (w : Word) (ws : List Word), (0x0C ≤ w.toNat / 2 ^ 25 ∧ w.toNat / 2 ^ 25 < 0x10) ∨ (0x1B ≤ w.toNat / 2 ^ 25 ∧ w.toNat / 2 ^ 25 < 0x40) →
    decodeWords (w :: ws) = .error .ctrlOpcode) ∧
  (∀ (w0 w1 : Word) (ws : List Word), (w0.toNat / 2 ^ 25 = 0x57 ∨ 0x7D ≤ w0.toNat / 2 ^ 25) →
    decodeWords (w0 :: w1 :: ws) = .error (.laneOpcode (fieldsOf w0 w1))) ∧
  (∀ w : Word, (w.toNat / 2 ^ 25 < 0x40 ∨ 0x5B ≤ w.toNat / 2 ^ 25 ∨ (0x4D ≤ w.toNat / 2 ^ 25 ∧ w.toNat / 2 ^ 25 < 0x50)) →
    decodeBurin w = .error .burin)

/-! ## The machine -/

/-- R36, R55, R65, R66, R69, R71: a step runs the instruction that the bits at its place decode to, once time has passed, and then the turn
is free. R126: the invalidation of a plate, its STATE made 2, that a pinned line held back comes once it may.

What moves when no agent is named (log 1) and how time passes (log 2) are the model's choices. -/
def Obligations.StepRuns : Prop :=
  (∀ (s : State) (core islot : Nat) (iss : Issue) (i : Instr) (rest : List Word), mover s = .slot core islot →
    alGet (coreAt s core).issue islot = some iss → decodeWords (iss.words.drop (iss.off - 1)) = .ok (i, rest) →
    step s = freeTurn (exec i { (elapse s) with turn := .slot core islot })) ∧
  (∀ (s : State) (core islot : Nat) (iss : Issue) (e : DecodeErr), mover s = .slot core islot →
    alGet (coreAt s core).issue islot = some iss → decodeWords (iss.words.drop (iss.off - 1)) = .error e →
    step s = freeTurn (.next (badWord { (elapse s) with turn := .slot core islot } e))) ∧
  (∀ (s : State) (b : Nat) (i : Instr), mover s = .burin b → (burinAt s b).running = true → (burinAt s b).bundle ≠ [] →
    decodeSlot (burinAt s b).pos ((burinAt s b).bundle.getD (burinAt s b).pos 0) = .ok i →
    step s = freeTurn (exec i { (elapse s) with turn := .burin b })) ∧
  (∀ (s : State) (b : Nat), mover s = .burin b → (burinAt s b).running = true → (burinAt s b).bundle = [] →
    step s = freeTurn (.next (fetchBundle { (elapse s) with turn := .burin b } b))) ∧
  (∀ (s : State) (b : Nat), mover s = .burin b → (burinAt s b).running = false →
    step s = freeTurn (.next (tryRelease { (elapse s) with turn := .burin b } b))) ∧
  (∀ (s : State) (u : Nat) (i : Instr), mover s = .event u i → i.hasWords = false →
    step s = freeTurn (exec i { (elapse s) with turn := .event u i })) ∧
  (∀ s : State, s.turn ≠ .free → mover s = s.turn) ∧
  (∀ s : State, let u := elapse s
    u = { s with tick := s.tick + 1, cycles := u.cycles, fabtime := u.fabtime, bcycles := u.bcycles, consorts := u.consorts
                 launches := u.launches, mem := u.mem, lines := u.lines, hostmem := u.hostmem, unseen := u.unseen, plateDue := u.plateDue
                 heads := u.heads } ∧
    s.cycles < u.cycles ∧ s.fabtime ≤ u.fabtime ∧ s.bcycles < u.bcycles ∧ (s.plateDue = [] →
      u.mem = s.mem ∧ u.lines = s.lines ∧ u.hostmem = s.hostmem ∧ u.unseen = s.unseen ∧ u.plateDue = [] ∧
        u.heads = s.heads) ∧
    (u.launches.map fun l => { l with waits := [], code := [] }) = s.launches.map fun l => { l with waits := [], code := [] }) ∧
  (∀ s, platesInvalid s = s.plateDue.foldl (fun t d => plateInvalid t d.1.1 d.1.2 d.2) { s with plateDue := [] }) ∧
  (∀ s pasid root addr, (waitsPins s (pasid, root) [addr] = true →
      plateInvalid s pasid root addr = { s with plateDue := s.plateDue ++ [((pasid, root), addr)] }) ∧
    (waitsPins s (pasid, root) [addr] = false →
      (∀ u, store s pasid root (addr + 5) [2] = .ok u → plateInvalid s pasid root addr = u) ∧
      ∀ e, store s pasid root (addr + 5) [2] = .error e → plateInvalid s pasid root addr = s)) ∧
  (∀ o : Host.Outcome State Fault Refusal, ∀ t, freeTurn o = .next t → ∃ u, o = .next u ∧ t = { u with turn := .free })

/-- The manual gives every instruction and event an effect, so no step stops the machine. -/
def Obligations.NeverStops : Prop := ∀ s : State, ∃ t, step s = .next t ∧ t.turn = .free

/-- R266, R281, R283: after reset no line of memory is written, READY, BUSY, SAFE, RESULT and STCODE are 0, and the display registers hold
their reset values; the canonical form of memory holds. -/
def Obligations.ResetState : Prop :=
  State.reset.mem = [] ∧ State.reset.lines = [] ∧ State.reset.mbox.ready = false ∧ State.reset.mbox.busy = false ∧
  State.reset.mbox.safe = false ∧ State.reset.mbox.result = 0 ∧ State.reset.mbox.stcode = 0 ∧
  (∀ h, h < 4 → State.reset.poselead.toNat / 2 ^ (16 * h) % 2 ^ 16 = 32 ∧ State.reset.dlguard.toNat / 2 ^ (16 * h) % 2 ^ 16 = 4) ∧
  State.reset.dres = 12 ∧ State.reset.bandmiss = 0 ∧ (∀ c, (coreAt State.reset c).wdogl = 0) ∧
  (∀ key slot n, memRead State.reset key n slot = .ok (List.replicate n 0)) ∧ MemWf State.reset

/-- MEMORY: every step keeps memory, the module's and the host's, in its canonical form, so equal memories are equal data. -/
def Obligations.MemoryForm : Prop := ∀ s t : State, MemWf s → step s = .next t → MemWf t
end

