-- ==== Sys2Proof/Laws/State.lean ====
section
/-! SUPPORT. What an update of one part of the state leaves alone, field by field. -/

namespace Sys2Proof.Machine

@[simp] theorem setCore_turn (s : State) (k : Nat) (c : Core) : (setCore s k c).turn = s.turn := rfl
@[simp] theorem setCore_tick (s : State) (k : Nat) (c : Core) : (setCore s k c).tick = s.tick := rfl
@[simp] theorem setCore_cycles (s : State) (k : Nat) (c : Core) : (setCore s k c).cycles = s.cycles := rfl
@[simp] theorem setCore_fabtime (s : State) (k : Nat) (c : Core) : (setCore s k c).fabtime = s.fabtime := rfl
@[simp] theorem setCore_bcycles (s : State) (k : Nat) (c : Core) : (setCore s k c).bcycles = s.bcycles := rfl
@[simp] theorem setCore_mem (s : State) (k : Nat) (c : Core) : (setCore s k c).mem = s.mem := rfl
@[simp] theorem setCore_lines (s : State) (k : Nat) (c : Core) : (setCore s k c).lines = s.lines := rfl
@[simp] theorem setCore_hostmem (s : State) (k : Nat) (c : Core) : (setCore s k c).hostmem = s.hostmem := rfl
@[simp] theorem setCore_tlb (s : State) (k : Nat) (c : Core) : (setCore s k c).tlb = s.tlb := rfl
@[simp] theorem setCore_unseen (s : State) (k : Nat) (c : Core) : (setCore s k c).unseen = s.unseen := rfl
@[simp] theorem setCore_plateDue (s : State) (k : Nat) (c : Core) : (setCore s k c).plateDue = s.plateDue := rfl
@[simp] theorem setCore_consorts (s : State) (k : Nat) (c : Core) : (setCore s k c).consorts = s.consorts := rfl
@[simp] theorem setCore_nextCid (s : State) (k : Nat) (c : Core) : (setCore s k c).nextCid = s.nextCid := rfl
@[simp] theorem setCore_launches (s : State) (k : Nat) (c : Core) : (setCore s k c).launches = s.launches := rfl
@[simp] theorem setCore_queues (s : State) (k : Nat) (c : Core) : (setCore s k c).queues = s.queues := rfl
@[simp] theorem setCore_workqs (s : State) (k : Nat) (c : Core) : (setCore s k c).workqs = s.workqs := rfl
@[simp] theorem setCore_saved (s : State) (k : Nat) (c : Core) : (setCore s k c).saved = s.saved := rfl
@[simp] theorem setCore_pris (s : State) (k : Nat) (c : Core) : (setCore s k c).pris = s.pris := rfl
@[simp] theorem setCore_adds (s : State) (k : Nat) (c : Core) : (setCore s k c).adds = s.adds := rfl
@[simp] theorem setCore_ready (s : State) (k : Nat) (c : Core) : (setCore s k c).ready = s.ready := rfl
@[simp] theorem setCore_aborts (s : State) (k : Nat) (c : Core) : (setCore s k c).aborts = s.aborts := rfl
@[simp] theorem setCore_abortsOut (s : State) (k : Nat) (c : Core) : (setCore s k c).abortsOut = s.abortsOut := rfl
@[simp] theorem setCore_readyOut (s : State) (k : Nat) (c : Core) : (setCore s k c).readyOut = s.readyOut := rfl
@[simp] theorem setCore_burins (s : State) (k : Nat) (c : Core) : (setCore s k c).burins = s.burins := rfl
@[simp] theorem setCore_heads (s : State) (k : Nat) (c : Core) : (setCore s k c).heads = s.heads := rfl
@[simp] theorem setCore_headLog (s : State) (k : Nat) (c : Core) : (setCore s k c).headLog = s.headLog := rfl
@[simp] theorem setCore_poselead (s : State) (k : Nat) (c : Core) : (setCore s k c).poselead = s.poselead := rfl
@[simp] theorem setCore_dlguard (s : State) (k : Nat) (c : Core) : (setCore s k c).dlguard = s.dlguard := rfl
@[simp] theorem setCore_dres (s : State) (k : Nat) (c : Core) : (setCore s k c).dres = s.dres := rfl
@[simp] theorem setCore_bandmiss (s : State) (k : Nat) (c : Core) : (setCore s k c).bandmiss = s.bandmiss := rfl
@[simp] theorem setCore_mbox (s : State) (k : Nat) (c : Core) : (setCore s k c).mbox = s.mbox := rfl
@[simp] theorem setCore_pkg (s : State) (k : Nat) (c : Core) : (setCore s k c).pkg = s.pkg := rfl
@[simp] theorem setCore_ident (s : State) (k : Nat) (c : Core) : (setCore s k c).ident = s.ident := rfl
@[simp] theorem setCore_peers (s : State) (k : Nat) (c : Core) : (setCore s k c).peers = s.peers := rfl
@[simp] theorem setCore_lostPkgs (s : State) (k : Nat) (c : Core) : (setCore s k c).lostPkgs = s.lostPkgs := rfl
@[simp] theorem setCore_heard (s : State) (k : Nat) (c : Core) : (setCore s k c).heard = s.heard := rfl
@[simp] theorem setCore_links (s : State) (k : Nat) (c : Core) : (setCore s k c).links = s.links := rfl
@[simp] theorem setCore_fabricLog (s : State) (k : Nat) (c : Core) : (setCore s k c).fabricLog = s.fabricLog := rfl
@[simp] theorem setCore_ringFaults (s : State) (k : Nat) (c : Core) : (setCore s k c).ringFaults = s.ringFaults := rfl
@[simp] theorem setCore_wakeDiscards (s : State) (k : Nat) (c : Core) : (setCore s k c).wakeDiscards = s.wakeDiscards := rfl
@[simp] theorem setCore_keys (s : State) (k : Nat) (c : Core) : (setCore s k c).keys = s.keys := rfl
@[simp] theorem setCore_keyIds (s : State) (k : Nat) (c : Core) : (setCore s k c).keyIds = s.keyIds := rfl
@[simp] theorem setCore_attached (s : State) (k : Nat) (c : Core) : (setCore s k c).attached = s.attached := rfl
@[simp] theorem setCore_staged (s : State) (k : Nat) (c : Core) : (setCore s k c).staged = s.staged := rfl
@[simp] theorem setCore_fwImage (s : State) (k : Nat) (c : Core) : (setCore s k c).fwImage = s.fwImage := rfl
@[simp] theorem setCore_cfgImage (s : State) (k : Nat) (c : Core) : (setCore s k c).cfgImage = s.cfgImage := rfl
@[simp] theorem setCore_board (s : State) (k : Nat) (c : Core) : (setCore s k c).board = s.board := rfl
@[simp] theorem setCore_cap (s : State) (k : Nat) (c : Core) : (setCore s k c).cap = s.cap := rfl
@[simp] theorem setCore_khz (s : State) (k : Nat) (c : Core) : (setCore s k c).khz = s.khz := rfl
@[simp] theorem setCore_msix (s : State) (k : Nat) (c : Core) : (setCore s k c).msix = s.msix := rfl
@[simp] theorem setCore_hostReads (s : State) (k : Nat) (c : Core) : (setCore s k c).hostReads = s.hostReads := rfl

@[simp] theorem setCon_turn (s : State) (c : Consort) : (setCon s c).turn = s.turn := rfl
@[simp] theorem setCon_tick (s : State) (c : Consort) : (setCon s c).tick = s.tick := rfl
@[simp] theorem setCon_cycles (s : State) (c : Consort) : (setCon s c).cycles = s.cycles := rfl
@[simp] theorem setCon_fabtime (s : State) (c : Consort) : (setCon s c).fabtime = s.fabtime := rfl
@[simp] theorem setCon_bcycles (s : State) (c : Consort) : (setCon s c).bcycles = s.bcycles := rfl
@[simp] theorem setCon_mem (s : State) (c : Consort) : (setCon s c).mem = s.mem := rfl
@[simp] theorem setCon_lines (s : State) (c : Consort) : (setCon s c).lines = s.lines := rfl
@[simp] theorem setCon_hostmem (s : State) (c : Consort) : (setCon s c).hostmem = s.hostmem := rfl
@[simp] theorem setCon_tlb (s : State) (c : Consort) : (setCon s c).tlb = s.tlb := rfl
@[simp] theorem setCon_unseen (s : State) (c : Consort) : (setCon s c).unseen = s.unseen := rfl
@[simp] theorem setCon_plateDue (s : State) (c : Consort) : (setCon s c).plateDue = s.plateDue := rfl
@[simp] theorem setCon_cores (s : State) (c : Consort) : (setCon s c).cores = s.cores := rfl
@[simp] theorem setCon_nextCid (s : State) (c : Consort) : (setCon s c).nextCid = s.nextCid := rfl
@[simp] theorem setCon_launches (s : State) (c : Consort) : (setCon s c).launches = s.launches := rfl
@[simp] theorem setCon_queues (s : State) (c : Consort) : (setCon s c).queues = s.queues := rfl
@[simp] theorem setCon_workqs (s : State) (c : Consort) : (setCon s c).workqs = s.workqs := rfl
@[simp] theorem setCon_saved (s : State) (c : Consort) : (setCon s c).saved = s.saved := rfl
@[simp] theorem setCon_pris (s : State) (c : Consort) : (setCon s c).pris = s.pris := rfl
@[simp] theorem setCon_adds (s : State) (c : Consort) : (setCon s c).adds = s.adds := rfl
@[simp] theorem setCon_ready (s : State) (c : Consort) : (setCon s c).ready = s.ready := rfl
@[simp] theorem setCon_aborts (s : State) (c : Consort) : (setCon s c).aborts = s.aborts := rfl
@[simp] theorem setCon_abortsOut (s : State) (c : Consort) : (setCon s c).abortsOut = s.abortsOut := rfl
@[simp] theorem setCon_readyOut (s : State) (c : Consort) : (setCon s c).readyOut = s.readyOut := rfl
@[simp] theorem setCon_burins (s : State) (c : Consort) : (setCon s c).burins = s.burins := rfl
@[simp] theorem setCon_heads (s : State) (c : Consort) : (setCon s c).heads = s.heads := rfl
@[simp] theorem setCon_headLog (s : State) (c : Consort) : (setCon s c).headLog = s.headLog := rfl
@[simp] theorem setCon_poselead (s : State) (c : Consort) : (setCon s c).poselead = s.poselead := rfl
@[simp] theorem setCon_dlguard (s : State) (c : Consort) : (setCon s c).dlguard = s.dlguard := rfl
@[simp] theorem setCon_dres (s : State) (c : Consort) : (setCon s c).dres = s.dres := rfl
@[simp] theorem setCon_bandmiss (s : State) (c : Consort) : (setCon s c).bandmiss = s.bandmiss := rfl
@[simp] theorem setCon_mbox (s : State) (c : Consort) : (setCon s c).mbox = s.mbox := rfl
@[simp] theorem setCon_pkg (s : State) (c : Consort) : (setCon s c).pkg = s.pkg := rfl
@[simp] theorem setCon_ident (s : State) (c : Consort) : (setCon s c).ident = s.ident := rfl
@[simp] theorem setCon_peers (s : State) (c : Consort) : (setCon s c).peers = s.peers := rfl
@[simp] theorem setCon_lostPkgs (s : State) (c : Consort) : (setCon s c).lostPkgs = s.lostPkgs := rfl
@[simp] theorem setCon_heard (s : State) (c : Consort) : (setCon s c).heard = s.heard := rfl
@[simp] theorem setCon_links (s : State) (c : Consort) : (setCon s c).links = s.links := rfl
@[simp] theorem setCon_fabricLog (s : State) (c : Consort) : (setCon s c).fabricLog = s.fabricLog := rfl
@[simp] theorem setCon_ringFaults (s : State) (c : Consort) : (setCon s c).ringFaults = s.ringFaults := rfl
@[simp] theorem setCon_wakeDiscards (s : State) (c : Consort) : (setCon s c).wakeDiscards = s.wakeDiscards := rfl
@[simp] theorem setCon_keys (s : State) (c : Consort) : (setCon s c).keys = s.keys := rfl
@[simp] theorem setCon_keyIds (s : State) (c : Consort) : (setCon s c).keyIds = s.keyIds := rfl
@[simp] theorem setCon_attached (s : State) (c : Consort) : (setCon s c).attached = s.attached := rfl
@[simp] theorem setCon_staged (s : State) (c : Consort) : (setCon s c).staged = s.staged := rfl
@[simp] theorem setCon_fwImage (s : State) (c : Consort) : (setCon s c).fwImage = s.fwImage := rfl
@[simp] theorem setCon_cfgImage (s : State) (c : Consort) : (setCon s c).cfgImage = s.cfgImage := rfl
@[simp] theorem setCon_board (s : State) (c : Consort) : (setCon s c).board = s.board := rfl
@[simp] theorem setCon_cap (s : State) (c : Consort) : (setCon s c).cap = s.cap := rfl
@[simp] theorem setCon_khz (s : State) (c : Consort) : (setCon s c).khz = s.khz := rfl
@[simp] theorem setCon_msix (s : State) (c : Consort) : (setCon s c).msix = s.msix := rfl
@[simp] theorem setCon_hostReads (s : State) (c : Consort) : (setCon s c).hostReads = s.hostReads := rfl

@[simp] theorem setLaunch_turn (s : State) (l : Launch) : (setLaunch s l).turn = s.turn := rfl
@[simp] theorem setLaunch_tick (s : State) (l : Launch) : (setLaunch s l).tick = s.tick := rfl
@[simp] theorem setLaunch_cycles (s : State) (l : Launch) : (setLaunch s l).cycles = s.cycles := rfl
@[simp] theorem setLaunch_fabtime (s : State) (l : Launch) : (setLaunch s l).fabtime = s.fabtime := rfl
@[simp] theorem setLaunch_bcycles (s : State) (l : Launch) : (setLaunch s l).bcycles = s.bcycles := rfl
@[simp] theorem setLaunch_mem (s : State) (l : Launch) : (setLaunch s l).mem = s.mem := rfl
@[simp] theorem setLaunch_lines (s : State) (l : Launch) : (setLaunch s l).lines = s.lines := rfl
@[simp] theorem setLaunch_hostmem (s : State) (l : Launch) : (setLaunch s l).hostmem = s.hostmem := rfl
@[simp] theorem setLaunch_tlb (s : State) (l : Launch) : (setLaunch s l).tlb = s.tlb := rfl
@[simp] theorem setLaunch_unseen (s : State) (l : Launch) : (setLaunch s l).unseen = s.unseen := rfl
@[simp] theorem setLaunch_plateDue (s : State) (l : Launch) : (setLaunch s l).plateDue = s.plateDue := rfl
@[simp] theorem setLaunch_cores (s : State) (l : Launch) : (setLaunch s l).cores = s.cores := rfl
@[simp] theorem setLaunch_consorts (s : State) (l : Launch) : (setLaunch s l).consorts = s.consorts := rfl
@[simp] theorem setLaunch_nextCid (s : State) (l : Launch) : (setLaunch s l).nextCid = s.nextCid := rfl
@[simp] theorem setLaunch_queues (s : State) (l : Launch) : (setLaunch s l).queues = s.queues := rfl
@[simp] theorem setLaunch_workqs (s : State) (l : Launch) : (setLaunch s l).workqs = s.workqs := rfl
@[simp] theorem setLaunch_saved (s : State) (l : Launch) : (setLaunch s l).saved = s.saved := rfl
@[simp] theorem setLaunch_pris (s : State) (l : Launch) : (setLaunch s l).pris = s.pris := rfl
@[simp] theorem setLaunch_adds (s : State) (l : Launch) : (setLaunch s l).adds = s.adds := rfl
@[simp] theorem setLaunch_ready (s : State) (l : Launch) : (setLaunch s l).ready = s.ready := rfl
@[simp] theorem setLaunch_aborts (s : State) (l : Launch) : (setLaunch s l).aborts = s.aborts := rfl
@[simp] theorem setLaunch_abortsOut (s : State) (l : Launch) : (setLaunch s l).abortsOut = s.abortsOut := rfl
@[simp] theorem setLaunch_readyOut (s : State) (l : Launch) : (setLaunch s l).readyOut = s.readyOut := rfl
@[simp] theorem setLaunch_burins (s : State) (l : Launch) : (setLaunch s l).burins = s.burins := rfl
@[simp] theorem setLaunch_heads (s : State) (l : Launch) : (setLaunch s l).heads = s.heads := rfl
@[simp] theorem setLaunch_headLog (s : State) (l : Launch) : (setLaunch s l).headLog = s.headLog := rfl
@[simp] theorem setLaunch_poselead (s : State) (l : Launch) : (setLaunch s l).poselead = s.poselead := rfl
@[simp] theorem setLaunch_dlguard (s : State) (l : Launch) : (setLaunch s l).dlguard = s.dlguard := rfl
@[simp] theorem setLaunch_dres (s : State) (l : Launch) : (setLaunch s l).dres = s.dres := rfl
@[simp] theorem setLaunch_bandmiss (s : State) (l : Launch) : (setLaunch s l).bandmiss = s.bandmiss := rfl
@[simp] theorem setLaunch_mbox (s : State) (l : Launch) : (setLaunch s l).mbox = s.mbox := rfl
@[simp] theorem setLaunch_pkg (s : State) (l : Launch) : (setLaunch s l).pkg = s.pkg := rfl
@[simp] theorem setLaunch_ident (s : State) (l : Launch) : (setLaunch s l).ident = s.ident := rfl
@[simp] theorem setLaunch_peers (s : State) (l : Launch) : (setLaunch s l).peers = s.peers := rfl
@[simp] theorem setLaunch_lostPkgs (s : State) (l : Launch) : (setLaunch s l).lostPkgs = s.lostPkgs := rfl
@[simp] theorem setLaunch_heard (s : State) (l : Launch) : (setLaunch s l).heard = s.heard := rfl
@[simp] theorem setLaunch_links (s : State) (l : Launch) : (setLaunch s l).links = s.links := rfl
@[simp] theorem setLaunch_fabricLog (s : State) (l : Launch) : (setLaunch s l).fabricLog = s.fabricLog := rfl
@[simp] theorem setLaunch_ringFaults (s : State) (l : Launch) : (setLaunch s l).ringFaults = s.ringFaults := rfl
@[simp] theorem setLaunch_wakeDiscards (s : State) (l : Launch) : (setLaunch s l).wakeDiscards = s.wakeDiscards := rfl
@[simp] theorem setLaunch_keys (s : State) (l : Launch) : (setLaunch s l).keys = s.keys := rfl
@[simp] theorem setLaunch_keyIds (s : State) (l : Launch) : (setLaunch s l).keyIds = s.keyIds := rfl
@[simp] theorem setLaunch_attached (s : State) (l : Launch) : (setLaunch s l).attached = s.attached := rfl
@[simp] theorem setLaunch_staged (s : State) (l : Launch) : (setLaunch s l).staged = s.staged := rfl
@[simp] theorem setLaunch_fwImage (s : State) (l : Launch) : (setLaunch s l).fwImage = s.fwImage := rfl
@[simp] theorem setLaunch_cfgImage (s : State) (l : Launch) : (setLaunch s l).cfgImage = s.cfgImage := rfl
@[simp] theorem setLaunch_board (s : State) (l : Launch) : (setLaunch s l).board = s.board := rfl
@[simp] theorem setLaunch_cap (s : State) (l : Launch) : (setLaunch s l).cap = s.cap := rfl
@[simp] theorem setLaunch_khz (s : State) (l : Launch) : (setLaunch s l).khz = s.khz := rfl
@[simp] theorem setLaunch_msix (s : State) (l : Launch) : (setLaunch s l).msix = s.msix := rfl
@[simp] theorem setLaunch_hostReads (s : State) (l : Launch) : (setLaunch s l).hostReads = s.hostReads := rfl

@[simp] theorem setHead_turn (s : State) (h : Nat) (x : Head) : (setHead s h x).turn = s.turn := rfl
@[simp] theorem setHead_tick (s : State) (h : Nat) (x : Head) : (setHead s h x).tick = s.tick := rfl
@[simp] theorem setHead_cycles (s : State) (h : Nat) (x : Head) : (setHead s h x).cycles = s.cycles := rfl
@[simp] theorem setHead_fabtime (s : State) (h : Nat) (x : Head) : (setHead s h x).fabtime = s.fabtime := rfl
@[simp] theorem setHead_bcycles (s : State) (h : Nat) (x : Head) : (setHead s h x).bcycles = s.bcycles := rfl
@[simp] theorem setHead_mem (s : State) (h : Nat) (x : Head) : (setHead s h x).mem = s.mem := rfl
@[simp] theorem setHead_lines (s : State) (h : Nat) (x : Head) : (setHead s h x).lines = s.lines := rfl
@[simp] theorem setHead_hostmem (s : State) (h : Nat) (x : Head) : (setHead s h x).hostmem = s.hostmem := rfl
@[simp] theorem setHead_tlb (s : State) (h : Nat) (x : Head) : (setHead s h x).tlb = s.tlb := rfl
@[simp] theorem setHead_unseen (s : State) (h : Nat) (x : Head) : (setHead s h x).unseen = s.unseen := rfl
@[simp] theorem setHead_plateDue (s : State) (h : Nat) (x : Head) : (setHead s h x).plateDue = s.plateDue := rfl
@[simp] theorem setHead_cores (s : State) (h : Nat) (x : Head) : (setHead s h x).cores = s.cores := rfl
@[simp] theorem setHead_consorts (s : State) (h : Nat) (x : Head) : (setHead s h x).consorts = s.consorts := rfl
@[simp] theorem setHead_nextCid (s : State) (h : Nat) (x : Head) : (setHead s h x).nextCid = s.nextCid := rfl
@[simp] theorem setHead_launches (s : State) (h : Nat) (x : Head) : (setHead s h x).launches = s.launches := rfl
@[simp] theorem setHead_queues (s : State) (h : Nat) (x : Head) : (setHead s h x).queues = s.queues := rfl
@[simp] theorem setHead_workqs (s : State) (h : Nat) (x : Head) : (setHead s h x).workqs = s.workqs := rfl
@[simp] theorem setHead_saved (s : State) (h : Nat) (x : Head) : (setHead s h x).saved = s.saved := rfl
@[simp] theorem setHead_pris (s : State) (h : Nat) (x : Head) : (setHead s h x).pris = s.pris := rfl
@[simp] theorem setHead_adds (s : State) (h : Nat) (x : Head) : (setHead s h x).adds = s.adds := rfl
@[simp] theorem setHead_ready (s : State) (h : Nat) (x : Head) : (setHead s h x).ready = s.ready := rfl
@[simp] theorem setHead_aborts (s : State) (h : Nat) (x : Head) : (setHead s h x).aborts = s.aborts := rfl
@[simp] theorem setHead_abortsOut (s : State) (h : Nat) (x : Head) : (setHead s h x).abortsOut = s.abortsOut := rfl
@[simp] theorem setHead_readyOut (s : State) (h : Nat) (x : Head) : (setHead s h x).readyOut = s.readyOut := rfl
@[simp] theorem setHead_burins (s : State) (h : Nat) (x : Head) : (setHead s h x).burins = s.burins := rfl
@[simp] theorem setHead_headLog (s : State) (h : Nat) (x : Head) : (setHead s h x).headLog = s.headLog := rfl
@[simp] theorem setHead_poselead (s : State) (h : Nat) (x : Head) : (setHead s h x).poselead = s.poselead := rfl
@[simp] theorem setHead_dlguard (s : State) (h : Nat) (x : Head) : (setHead s h x).dlguard = s.dlguard := rfl
@[simp] theorem setHead_dres (s : State) (h : Nat) (x : Head) : (setHead s h x).dres = s.dres := rfl
@[simp] theorem setHead_bandmiss (s : State) (h : Nat) (x : Head) : (setHead s h x).bandmiss = s.bandmiss := rfl
@[simp] theorem setHead_mbox (s : State) (h : Nat) (x : Head) : (setHead s h x).mbox = s.mbox := rfl
@[simp] theorem setHead_pkg (s : State) (h : Nat) (x : Head) : (setHead s h x).pkg = s.pkg := rfl
@[simp] theorem setHead_ident (s : State) (h : Nat) (x : Head) : (setHead s h x).ident = s.ident := rfl
@[simp] theorem setHead_peers (s : State) (h : Nat) (x : Head) : (setHead s h x).peers = s.peers := rfl
@[simp] theorem setHead_lostPkgs (s : State) (h : Nat) (x : Head) : (setHead s h x).lostPkgs = s.lostPkgs := rfl
@[simp] theorem setHead_heard (s : State) (h : Nat) (x : Head) : (setHead s h x).heard = s.heard := rfl
@[simp] theorem setHead_links (s : State) (h : Nat) (x : Head) : (setHead s h x).links = s.links := rfl
@[simp] theorem setHead_fabricLog (s : State) (h : Nat) (x : Head) : (setHead s h x).fabricLog = s.fabricLog := rfl
@[simp] theorem setHead_ringFaults (s : State) (h : Nat) (x : Head) : (setHead s h x).ringFaults = s.ringFaults := rfl
@[simp] theorem setHead_wakeDiscards (s : State) (h : Nat) (x : Head) : (setHead s h x).wakeDiscards = s.wakeDiscards := rfl
@[simp] theorem setHead_keys (s : State) (h : Nat) (x : Head) : (setHead s h x).keys = s.keys := rfl
@[simp] theorem setHead_keyIds (s : State) (h : Nat) (x : Head) : (setHead s h x).keyIds = s.keyIds := rfl
@[simp] theorem setHead_attached (s : State) (h : Nat) (x : Head) : (setHead s h x).attached = s.attached := rfl
@[simp] theorem setHead_staged (s : State) (h : Nat) (x : Head) : (setHead s h x).staged = s.staged := rfl
@[simp] theorem setHead_fwImage (s : State) (h : Nat) (x : Head) : (setHead s h x).fwImage = s.fwImage := rfl
@[simp] theorem setHead_cfgImage (s : State) (h : Nat) (x : Head) : (setHead s h x).cfgImage = s.cfgImage := rfl
@[simp] theorem setHead_board (s : State) (h : Nat) (x : Head) : (setHead s h x).board = s.board := rfl
@[simp] theorem setHead_cap (s : State) (h : Nat) (x : Head) : (setHead s h x).cap = s.cap := rfl
@[simp] theorem setHead_khz (s : State) (h : Nat) (x : Head) : (setHead s h x).khz = s.khz := rfl
@[simp] theorem setHead_msix (s : State) (h : Nat) (x : Head) : (setHead s h x).msix = s.msix := rfl
@[simp] theorem setHead_hostReads (s : State) (h : Nat) (x : Head) : (setHead s h x).hostReads = s.hostReads := rfl

@[simp] theorem setBurin_turn (s : State) (b : Nat) (x : Burin) : (setBurin s b x).turn = s.turn := rfl
@[simp] theorem setBurin_tick (s : State) (b : Nat) (x : Burin) : (setBurin s b x).tick = s.tick := rfl
@[simp] theorem setBurin_cycles (s : State) (b : Nat) (x : Burin) : (setBurin s b x).cycles = s.cycles := rfl
@[simp] theorem setBurin_fabtime (s : State) (b : Nat) (x : Burin) : (setBurin s b x).fabtime = s.fabtime := rfl
@[simp] theorem setBurin_bcycles (s : State) (b : Nat) (x : Burin) : (setBurin s b x).bcycles = s.bcycles := rfl
@[simp] theorem setBurin_mem (s : State) (b : Nat) (x : Burin) : (setBurin s b x).mem = s.mem := rfl
@[simp] theorem setBurin_lines (s : State) (b : Nat) (x : Burin) : (setBurin s b x).lines = s.lines := rfl
@[simp] theorem setBurin_hostmem (s : State) (b : Nat) (x : Burin) : (setBurin s b x).hostmem = s.hostmem := rfl
@[simp] theorem setBurin_tlb (s : State) (b : Nat) (x : Burin) : (setBurin s b x).tlb = s.tlb := rfl
@[simp] theorem setBurin_unseen (s : State) (b : Nat) (x : Burin) : (setBurin s b x).unseen = s.unseen := rfl
@[simp] theorem setBurin_plateDue (s : State) (b : Nat) (x : Burin) : (setBurin s b x).plateDue = s.plateDue := rfl
@[simp] theorem setBurin_cores (s : State) (b : Nat) (x : Burin) : (setBurin s b x).cores = s.cores := rfl
@[simp] theorem setBurin_consorts (s : State) (b : Nat) (x : Burin) : (setBurin s b x).consorts = s.consorts := rfl
@[simp] theorem setBurin_nextCid (s : State) (b : Nat) (x : Burin) : (setBurin s b x).nextCid = s.nextCid := rfl
@[simp] theorem setBurin_launches (s : State) (b : Nat) (x : Burin) : (setBurin s b x).launches = s.launches := rfl
@[simp] theorem setBurin_queues (s : State) (b : Nat) (x : Burin) : (setBurin s b x).queues = s.queues := rfl
@[simp] theorem setBurin_workqs (s : State) (b : Nat) (x : Burin) : (setBurin s b x).workqs = s.workqs := rfl
@[simp] theorem setBurin_saved (s : State) (b : Nat) (x : Burin) : (setBurin s b x).saved = s.saved := rfl
@[simp] theorem setBurin_pris (s : State) (b : Nat) (x : Burin) : (setBurin s b x).pris = s.pris := rfl
@[simp] theorem setBurin_adds (s : State) (b : Nat) (x : Burin) : (setBurin s b x).adds = s.adds := rfl
@[simp] theorem setBurin_ready (s : State) (b : Nat) (x : Burin) : (setBurin s b x).ready = s.ready := rfl
@[simp] theorem setBurin_aborts (s : State) (b : Nat) (x : Burin) : (setBurin s b x).aborts = s.aborts := rfl
@[simp] theorem setBurin_abortsOut (s : State) (b : Nat) (x : Burin) : (setBurin s b x).abortsOut = s.abortsOut := rfl
@[simp] theorem setBurin_readyOut (s : State) (b : Nat) (x : Burin) : (setBurin s b x).readyOut = s.readyOut := rfl
@[simp] theorem setBurin_heads (s : State) (b : Nat) (x : Burin) : (setBurin s b x).heads = s.heads := rfl
@[simp] theorem setBurin_headLog (s : State) (b : Nat) (x : Burin) : (setBurin s b x).headLog = s.headLog := rfl
@[simp] theorem setBurin_poselead (s : State) (b : Nat) (x : Burin) : (setBurin s b x).poselead = s.poselead := rfl
@[simp] theorem setBurin_dlguard (s : State) (b : Nat) (x : Burin) : (setBurin s b x).dlguard = s.dlguard := rfl
@[simp] theorem setBurin_dres (s : State) (b : Nat) (x : Burin) : (setBurin s b x).dres = s.dres := rfl
@[simp] theorem setBurin_bandmiss (s : State) (b : Nat) (x : Burin) : (setBurin s b x).bandmiss = s.bandmiss := rfl
@[simp] theorem setBurin_mbox (s : State) (b : Nat) (x : Burin) : (setBurin s b x).mbox = s.mbox := rfl
@[simp] theorem setBurin_pkg (s : State) (b : Nat) (x : Burin) : (setBurin s b x).pkg = s.pkg := rfl
@[simp] theorem setBurin_ident (s : State) (b : Nat) (x : Burin) : (setBurin s b x).ident = s.ident := rfl
@[simp] theorem setBurin_peers (s : State) (b : Nat) (x : Burin) : (setBurin s b x).peers = s.peers := rfl
@[simp] theorem setBurin_lostPkgs (s : State) (b : Nat) (x : Burin) : (setBurin s b x).lostPkgs = s.lostPkgs := rfl
@[simp] theorem setBurin_heard (s : State) (b : Nat) (x : Burin) : (setBurin s b x).heard = s.heard := rfl
@[simp] theorem setBurin_links (s : State) (b : Nat) (x : Burin) : (setBurin s b x).links = s.links := rfl
@[simp] theorem setBurin_fabricLog (s : State) (b : Nat) (x : Burin) : (setBurin s b x).fabricLog = s.fabricLog := rfl
@[simp] theorem setBurin_ringFaults (s : State) (b : Nat) (x : Burin) : (setBurin s b x).ringFaults = s.ringFaults := rfl
@[simp] theorem setBurin_wakeDiscards (s : State) (b : Nat) (x : Burin) : (setBurin s b x).wakeDiscards = s.wakeDiscards := rfl
@[simp] theorem setBurin_keys (s : State) (b : Nat) (x : Burin) : (setBurin s b x).keys = s.keys := rfl
@[simp] theorem setBurin_keyIds (s : State) (b : Nat) (x : Burin) : (setBurin s b x).keyIds = s.keyIds := rfl
@[simp] theorem setBurin_attached (s : State) (b : Nat) (x : Burin) : (setBurin s b x).attached = s.attached := rfl
@[simp] theorem setBurin_staged (s : State) (b : Nat) (x : Burin) : (setBurin s b x).staged = s.staged := rfl
@[simp] theorem setBurin_fwImage (s : State) (b : Nat) (x : Burin) : (setBurin s b x).fwImage = s.fwImage := rfl
@[simp] theorem setBurin_cfgImage (s : State) (b : Nat) (x : Burin) : (setBurin s b x).cfgImage = s.cfgImage := rfl
@[simp] theorem setBurin_board (s : State) (b : Nat) (x : Burin) : (setBurin s b x).board = s.board := rfl
@[simp] theorem setBurin_cap (s : State) (b : Nat) (x : Burin) : (setBurin s b x).cap = s.cap := rfl
@[simp] theorem setBurin_khz (s : State) (b : Nat) (x : Burin) : (setBurin s b x).khz = s.khz := rfl
@[simp] theorem setBurin_msix (s : State) (b : Nat) (x : Burin) : (setBurin s b x).msix = s.msix := rfl
@[simp] theorem setBurin_hostReads (s : State) (b : Nat) (x : Burin) : (setBurin s b x).hostReads = s.hostReads := rfl

@[simp] theorem logHead_turn (s : State) (r : LogRec) : (logHead s r).turn = s.turn := rfl
@[simp] theorem logHead_tick (s : State) (r : LogRec) : (logHead s r).tick = s.tick := rfl
@[simp] theorem logHead_cycles (s : State) (r : LogRec) : (logHead s r).cycles = s.cycles := rfl
@[simp] theorem logHead_fabtime (s : State) (r : LogRec) : (logHead s r).fabtime = s.fabtime := rfl
@[simp] theorem logHead_bcycles (s : State) (r : LogRec) : (logHead s r).bcycles = s.bcycles := rfl
@[simp] theorem logHead_mem (s : State) (r : LogRec) : (logHead s r).mem = s.mem := rfl
@[simp] theorem logHead_lines (s : State) (r : LogRec) : (logHead s r).lines = s.lines := rfl
@[simp] theorem logHead_hostmem (s : State) (r : LogRec) : (logHead s r).hostmem = s.hostmem := rfl
@[simp] theorem logHead_tlb (s : State) (r : LogRec) : (logHead s r).tlb = s.tlb := rfl
@[simp] theorem logHead_unseen (s : State) (r : LogRec) : (logHead s r).unseen = s.unseen := rfl
@[simp] theorem logHead_plateDue (s : State) (r : LogRec) : (logHead s r).plateDue = s.plateDue := rfl
@[simp] theorem logHead_cores (s : State) (r : LogRec) : (logHead s r).cores = s.cores := rfl
@[simp] theorem logHead_consorts (s : State) (r : LogRec) : (logHead s r).consorts = s.consorts := rfl
@[simp] theorem logHead_nextCid (s : State) (r : LogRec) : (logHead s r).nextCid = s.nextCid := rfl
@[simp] theorem logHead_launches (s : State) (r : LogRec) : (logHead s r).launches = s.launches := rfl
@[simp] theorem logHead_queues (s : State) (r : LogRec) : (logHead s r).queues = s.queues := rfl
@[simp] theorem logHead_workqs (s : State) (r : LogRec) : (logHead s r).workqs = s.workqs := rfl
@[simp] theorem logHead_saved (s : State) (r : LogRec) : (logHead s r).saved = s.saved := rfl
@[simp] theorem logHead_pris (s : State) (r : LogRec) : (logHead s r).pris = s.pris := rfl
@[simp] theorem logHead_adds (s : State) (r : LogRec) : (logHead s r).adds = s.adds := rfl
@[simp] theorem logHead_ready (s : State) (r : LogRec) : (logHead s r).ready = s.ready := rfl
@[simp] theorem logHead_aborts (s : State) (r : LogRec) : (logHead s r).aborts = s.aborts := rfl
@[simp] theorem logHead_abortsOut (s : State) (r : LogRec) : (logHead s r).abortsOut = s.abortsOut := rfl
@[simp] theorem logHead_readyOut (s : State) (r : LogRec) : (logHead s r).readyOut = s.readyOut := rfl
@[simp] theorem logHead_burins (s : State) (r : LogRec) : (logHead s r).burins = s.burins := rfl
@[simp] theorem logHead_heads (s : State) (r : LogRec) : (logHead s r).heads = s.heads := rfl
@[simp] theorem logHead_poselead (s : State) (r : LogRec) : (logHead s r).poselead = s.poselead := rfl
@[simp] theorem logHead_dlguard (s : State) (r : LogRec) : (logHead s r).dlguard = s.dlguard := rfl
@[simp] theorem logHead_dres (s : State) (r : LogRec) : (logHead s r).dres = s.dres := rfl
@[simp] theorem logHead_bandmiss (s : State) (r : LogRec) : (logHead s r).bandmiss = s.bandmiss := rfl
@[simp] theorem logHead_mbox (s : State) (r : LogRec) : (logHead s r).mbox = s.mbox := rfl
@[simp] theorem logHead_pkg (s : State) (r : LogRec) : (logHead s r).pkg = s.pkg := rfl
@[simp] theorem logHead_ident (s : State) (r : LogRec) : (logHead s r).ident = s.ident := rfl
@[simp] theorem logHead_peers (s : State) (r : LogRec) : (logHead s r).peers = s.peers := rfl
@[simp] theorem logHead_lostPkgs (s : State) (r : LogRec) : (logHead s r).lostPkgs = s.lostPkgs := rfl
@[simp] theorem logHead_heard (s : State) (r : LogRec) : (logHead s r).heard = s.heard := rfl
@[simp] theorem logHead_links (s : State) (r : LogRec) : (logHead s r).links = s.links := rfl
@[simp] theorem logHead_fabricLog (s : State) (r : LogRec) : (logHead s r).fabricLog = s.fabricLog := rfl
@[simp] theorem logHead_ringFaults (s : State) (r : LogRec) : (logHead s r).ringFaults = s.ringFaults := rfl
@[simp] theorem logHead_wakeDiscards (s : State) (r : LogRec) : (logHead s r).wakeDiscards = s.wakeDiscards := rfl
@[simp] theorem logHead_keys (s : State) (r : LogRec) : (logHead s r).keys = s.keys := rfl
@[simp] theorem logHead_keyIds (s : State) (r : LogRec) : (logHead s r).keyIds = s.keyIds := rfl
@[simp] theorem logHead_attached (s : State) (r : LogRec) : (logHead s r).attached = s.attached := rfl
@[simp] theorem logHead_staged (s : State) (r : LogRec) : (logHead s r).staged = s.staged := rfl
@[simp] theorem logHead_fwImage (s : State) (r : LogRec) : (logHead s r).fwImage = s.fwImage := rfl
@[simp] theorem logHead_cfgImage (s : State) (r : LogRec) : (logHead s r).cfgImage = s.cfgImage := rfl
@[simp] theorem logHead_board (s : State) (r : LogRec) : (logHead s r).board = s.board := rfl
@[simp] theorem logHead_cap (s : State) (r : LogRec) : (logHead s r).cap = s.cap := rfl
@[simp] theorem logHead_khz (s : State) (r : LogRec) : (logHead s r).khz = s.khz := rfl
@[simp] theorem logHead_msix (s : State) (r : LogRec) : (logHead s r).msix = s.msix := rfl
@[simp] theorem logHead_hostReads (s : State) (r : LogRec) : (logHead s r).hostReads = s.hostReads := rfl

@[simp] theorem vSet_idx (c : Course) (r l : Nat) (x : LaneVal) : (vSet c r l x).idx = c.idx := rfl
@[simp] theorem vSet_slot (c : Course) (r l : Nat) (x : LaneVal) : (vSet c r l x).slot = c.slot := rfl
@[simp] theorem vSet_width (c : Course) (r l : Nat) (x : LaneVal) : (vSet c r l x).width = c.width := rfl
@[simp] theorem vSet_entry (c : Course) (r l : Nat) (x : LaneVal) : (vSet c r l x).entry = c.entry := rfl
@[simp] theorem vSet_p (c : Course) (r l : Nat) (x : LaneVal) : (vSet c r l x).p = c.p := rfl
@[simp] theorem vSet_s (c : Course) (r l : Nat) (x : LaneVal) : (vSet c r l x).s = c.s := rfl
@[simp] theorem vSet_marks (c : Course) (r l : Nat) (x : LaneVal) : (vSet c r l x).marks = c.marks := rfl
@[simp] theorem vSet_ncr (c : Course) (r l : Nat) (x : LaneVal) : (vSet c r l x).ncr = c.ncr := rfl
@[simp] theorem vSet_nstat (c : Course) (r l : Nat) (x : LaneVal) : (vSet c r l x).nstat = c.nstat := rfl
@[simp] theorem vSet_nbv (c : Course) (r l : Nat) (x : LaneVal) : (vSet c r l x).nbv = c.nbv := rfl
@[simp] theorem vSet_chw (c : Course) (r l : Nat) (x : LaneVal) : (vSet c r l x).chw = c.chw := rfl
@[simp] theorem vSet_msteps (c : Course) (r l : Nat) (x : LaneVal) : (vSet c r l x).msteps = c.msteps := rfl
@[simp] theorem vSet_trapc (c : Course) (r l : Nat) (x : LaneVal) : (vSet c r l x).trapc = c.trapc := rfl
@[simp] theorem vSet_trappc (c : Course) (r l : Nat) (x : LaneVal) : (vSet c r l x).trappc = c.trappc := rfl
@[simp] theorem vSet_trapv (c : Course) (r l : Nat) (x : LaneVal) : (vSet c r l x).trapv = c.trapv := rfl
@[simp] theorem vSet_splits (c : Course) (r l : Nat) (x : LaneVal) : (vSet c r l x).splits = c.splits := rfl
@[simp] theorem vSet_recs (c : Course) (r l : Nat) (x : LaneVal) : (vSet c r l x).recs = c.recs := rfl
@[simp] theorem vSet_rr (c : Course) (r l : Nat) (x : LaneVal) : (vSet c r l x).rr = c.rr := rfl
@[simp] theorem vSet_pend (c : Course) (r l : Nat) (x : LaneVal) : (vSet c r l x).pend = c.pend := rfl
@[simp] theorem vSet_nextId (c : Course) (r l : Nat) (x : LaneVal) : (vSet c r l x).nextId = c.nextId := rfl
@[simp] theorem vSet_inHandler (c : Course) (r l : Nat) (x : LaneVal) : (vSet c r l x).inHandler = c.inHandler := rfl
@[simp] theorem vSet_trapHalt (c : Course) (r l : Nat) (x : LaneVal) : (vSet c r l x).trapHalt = c.trapHalt := rfl
@[simp] theorem vSet_waitCapo (c : Course) (r l : Nat) (x : LaneVal) : (vSet c r l x).waitCapo = c.waitCapo := rfl
@[simp] theorem vSet_halted (c : Course) (r l : Nat) (x : LaneVal) : (vSet c r l x).halted = c.halted := rfl
@[simp] theorem vSet_haltReq (c : Course) (r l : Nat) (x : LaneVal) : (vSet c r l x).haltReq = c.haltReq := rfl
@[simp] theorem vSet_stepOne (c : Course) (r l : Nat) (x : LaneVal) : (vSet c r l x).stepOne = c.stepOne := rfl
@[simp] theorem vSet_atEnd (c : Course) (r l : Nat) (x : LaneVal) : (vSet c r l x).atEnd = c.atEnd := rfl
@[simp] theorem vSet_ended (c : Course) (r l : Nat) (x : LaneVal) : (vSet c r l x).ended = c.ended := rfl
@[simp] theorem vSet_gen (c : Course) (r l : Nat) (x : LaneVal) : (vSet c r l x).gen = c.gen := rfl
@[simp] theorem vSet_age (c : Course) (r l : Nat) (x : LaneVal) : (vSet c r l x).age = c.age := rfl
@[simp] theorem vSet_driver (c : Course) (r l : Nat) (x : LaneVal) : (vSet c r l x).driver = c.driver := rfl

@[simp] theorem sSet_idx (c : Course) (r : Nat) (x : DWord) : (sSet c r x).idx = c.idx := by unfold sSet; split <;> rfl
@[simp] theorem sSet_slot (c : Course) (r : Nat) (x : DWord) : (sSet c r x).slot = c.slot := by unfold sSet; split <;> rfl
@[simp] theorem sSet_width (c : Course) (r : Nat) (x : DWord) : (sSet c r x).width = c.width := by unfold sSet; split <;> rfl
@[simp] theorem sSet_entry (c : Course) (r : Nat) (x : DWord) : (sSet c r x).entry = c.entry := by unfold sSet; split <;> rfl
@[simp] theorem sSet_v (c : Course) (r : Nat) (x : DWord) : (sSet c r x).v = c.v := by unfold sSet; split <;> rfl
@[simp] theorem sSet_p (c : Course) (r : Nat) (x : DWord) : (sSet c r x).p = c.p := by unfold sSet; split <;> rfl
@[simp] theorem sSet_ncr (c : Course) (r : Nat) (x : DWord) : (sSet c r x).ncr = c.ncr := by unfold sSet; split <;> rfl
@[simp] theorem sSet_nstat (c : Course) (r : Nat) (x : DWord) : (sSet c r x).nstat = c.nstat := by unfold sSet; split <;> rfl
@[simp] theorem sSet_nbv (c : Course) (r : Nat) (x : DWord) : (sSet c r x).nbv = c.nbv := by unfold sSet; split <;> rfl
@[simp] theorem sSet_chw (c : Course) (r : Nat) (x : DWord) : (sSet c r x).chw = c.chw := by unfold sSet; split <;> rfl
@[simp] theorem sSet_msteps (c : Course) (r : Nat) (x : DWord) : (sSet c r x).msteps = c.msteps := by unfold sSet; split <;> rfl
@[simp] theorem sSet_trapc (c : Course) (r : Nat) (x : DWord) : (sSet c r x).trapc = c.trapc := by unfold sSet; split <;> rfl
@[simp] theorem sSet_trappc (c : Course) (r : Nat) (x : DWord) : (sSet c r x).trappc = c.trappc := by unfold sSet; split <;> rfl
@[simp] theorem sSet_trapv (c : Course) (r : Nat) (x : DWord) : (sSet c r x).trapv = c.trapv := by unfold sSet; split <;> rfl
@[simp] theorem sSet_splits (c : Course) (r : Nat) (x : DWord) : (sSet c r x).splits = c.splits := by unfold sSet; split <;> rfl
@[simp] theorem sSet_recs (c : Course) (r : Nat) (x : DWord) : (sSet c r x).recs = c.recs := by unfold sSet; split <;> rfl
@[simp] theorem sSet_rr (c : Course) (r : Nat) (x : DWord) : (sSet c r x).rr = c.rr := by unfold sSet; split <;> rfl
@[simp] theorem sSet_pend (c : Course) (r : Nat) (x : DWord) : (sSet c r x).pend = c.pend := by unfold sSet; split <;> rfl
@[simp] theorem sSet_nextId (c : Course) (r : Nat) (x : DWord) : (sSet c r x).nextId = c.nextId := by unfold sSet; split <;> rfl
@[simp] theorem sSet_inHandler (c : Course) (r : Nat) (x : DWord) : (sSet c r x).inHandler = c.inHandler := by unfold sSet; split <;> rfl
@[simp] theorem sSet_trapHalt (c : Course) (r : Nat) (x : DWord) : (sSet c r x).trapHalt = c.trapHalt := by unfold sSet; split <;> rfl
@[simp] theorem sSet_waitCapo (c : Course) (r : Nat) (x : DWord) : (sSet c r x).waitCapo = c.waitCapo := by unfold sSet; split <;> rfl
@[simp] theorem sSet_halted (c : Course) (r : Nat) (x : DWord) : (sSet c r x).halted = c.halted := by unfold sSet; split <;> rfl
@[simp] theorem sSet_haltReq (c : Course) (r : Nat) (x : DWord) : (sSet c r x).haltReq = c.haltReq := by unfold sSet; split <;> rfl
@[simp] theorem sSet_stepOne (c : Course) (r : Nat) (x : DWord) : (sSet c r x).stepOne = c.stepOne := by unfold sSet; split <;> rfl
@[simp] theorem sSet_atEnd (c : Course) (r : Nat) (x : DWord) : (sSet c r x).atEnd = c.atEnd := by unfold sSet; split <;> rfl
@[simp] theorem sSet_ended (c : Course) (r : Nat) (x : DWord) : (sSet c r x).ended = c.ended := by unfold sSet; split <;> rfl
@[simp] theorem sSet_gen (c : Course) (r : Nat) (x : DWord) : (sSet c r x).gen = c.gen := by unfold sSet; split <;> rfl
@[simp] theorem sSet_age (c : Course) (r : Nat) (x : DWord) : (sSet c r x).age = c.age := by unfold sSet; split <;> rfl
@[simp] theorem sSet_driver (c : Course) (r : Nat) (x : DWord) : (sSet c r x).driver = c.driver := by unfold sSet; split <;> rfl

@[simp] theorem pSet_idx (c : Course) (r : Nat) (lanes vals : Mask) : (pSet c r lanes vals).idx = c.idx := by unfold pSet; split <;> rfl
@[simp] theorem pSet_slot (c : Course) (r : Nat) (lanes vals : Mask) : (pSet c r lanes vals).slot = c.slot := by unfold pSet; split <;> rfl
@[simp] theorem pSet_width (c : Course) (r : Nat) (lanes vals : Mask) : (pSet c r lanes vals).width = c.width := by unfold pSet; split <;> rfl
@[simp] theorem pSet_entry (c : Course) (r : Nat) (lanes vals : Mask) : (pSet c r lanes vals).entry = c.entry := by unfold pSet; split <;> rfl
@[simp] theorem pSet_v (c : Course) (r : Nat) (lanes vals : Mask) : (pSet c r lanes vals).v = c.v := by unfold pSet; split <;> rfl
@[simp] theorem pSet_s (c : Course) (r : Nat) (lanes vals : Mask) : (pSet c r lanes vals).s = c.s := by unfold pSet; split <;> rfl
@[simp] theorem pSet_marks (c : Course) (r : Nat) (lanes vals : Mask) : (pSet c r lanes vals).marks = c.marks := by unfold pSet; split <;> rfl
@[simp] theorem pSet_ncr (c : Course) (r : Nat) (lanes vals : Mask) : (pSet c r lanes vals).ncr = c.ncr := by unfold pSet; split <;> rfl
@[simp] theorem pSet_nstat (c : Course) (r : Nat) (lanes vals : Mask) : (pSet c r lanes vals).nstat = c.nstat := by unfold pSet; split <;> rfl
@[simp] theorem pSet_nbv (c : Course) (r : Nat) (lanes vals : Mask) : (pSet c r lanes vals).nbv = c.nbv := by unfold pSet; split <;> rfl
@[simp] theorem pSet_chw (c : Course) (r : Nat) (lanes vals : Mask) : (pSet c r lanes vals).chw = c.chw := by unfold pSet; split <;> rfl
@[simp] theorem pSet_msteps (c : Course) (r : Nat) (lanes vals : Mask) : (pSet c r lanes vals).msteps = c.msteps := by unfold pSet; split <;> rfl
@[simp] theorem pSet_trapc (c : Course) (r : Nat) (lanes vals : Mask) : (pSet c r lanes vals).trapc = c.trapc := by unfold pSet; split <;> rfl
@[simp] theorem pSet_trappc (c : Course) (r : Nat) (lanes vals : Mask) : (pSet c r lanes vals).trappc = c.trappc := by unfold pSet; split <;> rfl
@[simp] theorem pSet_trapv (c : Course) (r : Nat) (lanes vals : Mask) : (pSet c r lanes vals).trapv = c.trapv := by unfold pSet; split <;> rfl
@[simp] theorem pSet_splits (c : Course) (r : Nat) (lanes vals : Mask) : (pSet c r lanes vals).splits = c.splits := by unfold pSet; split <;> rfl
@[simp] theorem pSet_recs (c : Course) (r : Nat) (lanes vals : Mask) : (pSet c r lanes vals).recs = c.recs := by unfold pSet; split <;> rfl
@[simp] theorem pSet_rr (c : Course) (r : Nat) (lanes vals : Mask) : (pSet c r lanes vals).rr = c.rr := by unfold pSet; split <;> rfl
@[simp] theorem pSet_pend (c : Course) (r : Nat) (lanes vals : Mask) : (pSet c r lanes vals).pend = c.pend := by unfold pSet; split <;> rfl
@[simp] theorem pSet_nextId (c : Course) (r : Nat) (lanes vals : Mask) : (pSet c r lanes vals).nextId = c.nextId := by unfold pSet; split <;> rfl
@[simp] theorem pSet_inHandler (c : Course) (r : Nat) (lanes vals : Mask) : (pSet c r lanes vals).inHandler = c.inHandler := by unfold pSet; split <;> rfl
@[simp] theorem pSet_trapHalt (c : Course) (r : Nat) (lanes vals : Mask) : (pSet c r lanes vals).trapHalt = c.trapHalt := by unfold pSet; split <;> rfl
@[simp] theorem pSet_waitCapo (c : Course) (r : Nat) (lanes vals : Mask) : (pSet c r lanes vals).waitCapo = c.waitCapo := by unfold pSet; split <;> rfl
@[simp] theorem pSet_halted (c : Course) (r : Nat) (lanes vals : Mask) : (pSet c r lanes vals).halted = c.halted := by unfold pSet; split <;> rfl
@[simp] theorem pSet_haltReq (c : Course) (r : Nat) (lanes vals : Mask) : (pSet c r lanes vals).haltReq = c.haltReq := by unfold pSet; split <;> rfl
@[simp] theorem pSet_stepOne (c : Course) (r : Nat) (lanes vals : Mask) : (pSet c r lanes vals).stepOne = c.stepOne := by unfold pSet; split <;> rfl
@[simp] theorem pSet_atEnd (c : Course) (r : Nat) (lanes vals : Mask) : (pSet c r lanes vals).atEnd = c.atEnd := by unfold pSet; split <;> rfl
@[simp] theorem pSet_ended (c : Course) (r : Nat) (lanes vals : Mask) : (pSet c r lanes vals).ended = c.ended := by unfold pSet; split <;> rfl
@[simp] theorem pSet_gen (c : Course) (r : Nat) (lanes vals : Mask) : (pSet c r lanes vals).gen = c.gen := by unfold pSet; split <;> rfl
@[simp] theorem pSet_age (c : Course) (r : Nat) (lanes vals : Mask) : (pSet c r lanes vals).age = c.age := by unfold pSet; split <;> rfl
@[simp] theorem pSet_driver (c : Course) (r : Nat) (lanes vals : Mask) : (pSet c r lanes vals).driver = c.driver := by unfold pSet; split <;> rfl

end Sys2Proof.Machine
end

