-- ==== Sys2Proof/Laws/Tables.lean ====
section
/-! SUPPORT. The tables of the machine: reading after writing, and the canonical form that every write keeps. -/

namespace Sys2Proof.Machine

section Records

variable {α : Type}

@[simp] theorem alGet_nil (k : Nat) : alGet ([] : List (Nat × α)) k = none := rfl

theorem alGet_ins_self (m : List (Nat × α)) (k : Nat) (v : α) (h : alGet m k = none) : alGet (smIns k v m) k = some v := by
  induction m with
  | nil => simp [smIns, alGet]
  | cons c t ih =>
    obtain ⟨k', v'⟩ := c
    simp only [alGet] at h
    split at h
    · cases h
    · next hk => by_cases hl : k < k' <;> simp [smIns, alGet, hl, hk, ih h]

theorem alGet_ins_other (m : List (Nat × α)) (k j : Nat) (v : α) (h : j ≠ k) : alGet (smIns k v m) j = alGet m j := by
  induction m with
  | nil => simp [smIns, alGet, h]
  | cons c t ih =>
    obtain ⟨k', v'⟩ := c
    by_cases hl : k < k' <;> simp [smIns, alGet, hl, h, ih]

@[simp] theorem alGet_del_self (m : List (Nat × α)) (k : Nat) : alGet (smDel m k) k = none := by
  induction m with
  | nil => rfl
  | cons c t ih =>
    obtain ⟨k', v'⟩ := c
    by_cases hk : k' = k
    · simpa [smDel, hk] using ih
    · simpa [smDel, hk, alGet, Ne.symm hk] using ih

theorem alGet_del_other (m : List (Nat × α)) (k j : Nat) (h : j ≠ k) : alGet (smDel m k) j = alGet m j := by
  induction m with
  | nil => rfl
  | cons c t ih =>
    obtain ⟨k', v'⟩ := c
    by_cases hk : k' = k
    · subst hk; simpa [smDel, alGet, h] using ih
    · by_cases hj : j = k' <;> simp_all [smDel, alGet]

/-- A record reads back. -/
@[simp] theorem alGet_set_self (m : List (Nat × α)) (k : Nat) (v : α) : alGet (alSet m k v) k = some v :=
  alGet_ins_self _ _ _ (alGet_del_self m k)

/-- Other records stay. -/
theorem alGet_set_other (m : List (Nat × α)) (k j : Nat) (v : α) (h : j ≠ k) : alGet (alSet m k v) j = alGet m j := by
  rw [alSet, alGet_ins_other _ _ _ _ h, alGet_del_other _ _ _ h]

theorem alGet_set (m : List (Nat × α)) (k j : Nat) (v : α) : alGet (alSet m k v) j = if j = k then some v else alGet m j := by
  split
  · next h => subst h; simp
  · next h => exact alGet_set_other m k j v h

end Records

section Cells

variable {α : Type} [DecidableEq α] (d : α)

omit [DecidableEq α] in
theorem smGet_eq_alGet (m : List (Nat × α)) (k : Nat) : smGet d m k = (alGet m k).getD d := by
  induction m with
  | nil => rfl
  | cons c t ih =>
    obtain ⟨k', v'⟩ := c
    by_cases h : k = k' <;> simp [smGet, alGet, h, ih]

/-- A cell reads back. -/
@[simp] theorem smGet_set_self (m : SMap α) (k : Nat) (v : α) : smGet d (smSet d m k v) k = v := by
  unfold smSet
  split
  · next h => rw [smGet_eq_alGet, alGet_del_self]; simp [h]
  · rw [smGet_eq_alGet, alGet_ins_self _ _ _ (alGet_del_self m k)]; rfl

/-- Other cells stay. -/
theorem smGet_set_other (m : SMap α) (k j : Nat) (v : α) (h : j ≠ k) : smGet d (smSet d m k v) j = smGet d m j := by
  unfold smSet
  split
  · rw [smGet_eq_alGet, smGet_eq_alGet, alGet_del_other _ _ _ h]
  · rw [smGet_eq_alGet, smGet_eq_alGet, alGet_ins_other _ _ _ _ h, alGet_del_other _ _ _ h]

theorem smGet_set (m : SMap α) (k j : Nat) (v : α) : smGet d (smSet d m k v) j = if j = k then v else smGet d m j := by
  split
  · next h => subst h; simp
  · next h => exact smGet_set_other d m k j v h

theorem smWf_cons (k : Nat) (v : α) (t : SMap α) :
    smWf d ((k, v) :: t) = true ↔ v ≠ d ∧ (∀ c ∈ t, k < c.1) ∧ smWf d t = true := by
  simp [smWf, and_assoc]

theorem smWf_del (m : SMap α) (k : Nat) (h : smWf d m = true) : smWf d (smDel m k) = true := by
  induction m with
  | nil => rfl
  | cons c t ih =>
    obtain ⟨k', v'⟩ := c
    obtain ⟨hv, ht, hw⟩ := (smWf_cons d k' v' t).1 h
    by_cases hk : k' = k
    · simpa [smDel, hk] using ih hw
    · have : smDel ((k', v') :: t) k = (k', v') :: smDel t k := by simp [smDel, hk]
      rw [this, smWf_cons]
      exact ⟨hv, fun c hc => ht c (List.mem_filter.1 hc).1, ih hw⟩

omit [DecidableEq α] in
theorem mem_smIns (m : List (Nat × α)) (k : Nat) (v : α) (c : Nat × α) (h : c ∈ smIns k v m) : c = (k, v) ∨ c ∈ m := by
  induction m with
  | nil => simpa [smIns] using h
  | cons e t ih =>
    obtain ⟨k', v'⟩ := e
    by_cases hl : k < k'
    · simpa [smIns, hl] using h
    · simp only [smIns, hl, if_false, List.mem_cons] at h ⊢
      rcases h with h | h
      · exact .inr (.inl h)
      · exact (ih h).imp id .inr

theorem smWf_ins (m : SMap α) (k : Nat) (v : α) (h : smWf d m = true) (hv : v ≠ d) (hk : ∀ c ∈ m, c.1 ≠ k) :
    smWf d (smIns k v m) = true := by
  induction m with
  | nil => simp [smIns, smWf, hv]
  | cons e t ih =>
    obtain ⟨k', v'⟩ := e
    obtain ⟨hv', ht, hw⟩ := (smWf_cons d k' v' t).1 h
    by_cases hl : k < k'
    · simp only [smIns, hl, if_true, smWf_cons]
      exact ⟨hv, by
        intro c hc
        rcases List.mem_cons.1 hc with rfl | hc
        · exact hl
        · exact lt_trans hl (ht c hc), hv', ht, hw⟩
    · simp only [smIns, hl, if_false, smWf_cons]
      refine ⟨hv', ?_, ih hw fun c hc => hk c (List.mem_cons_of_mem _ hc)⟩
      intro c hc
      rcases mem_smIns t k v c hc with rfl | hc
      · have := hk (k', v') List.mem_cons_self
        simp at this ⊢; omega
      · exact ht c hc

/-- Every write of a cell keeps the canonical form. -/
theorem smWf_set (m : SMap α) (k : Nat) (v : α) (h : smWf d m = true) : smWf d (smSet d m k v) = true := by
  unfold smSet
  split
  · exact smWf_del d m k h
  · next hv =>
    exact smWf_ins d _ k v (smWf_del d m k h) hv fun c hc => by simpa using (List.mem_filter.1 hc).2

/-- Every write of several cells keeps the canonical form. -/
theorem smWf_sets (l : List (Nat × α)) (m : SMap α) (h : smWf d m = true) : smWf d (smSets d m l) = true := by
  induction l generalizing m with
  | nil => exact h
  | cons c t ih => exact ih _ (smWf_set d m c.1 c.2 h)

/-- Cells that are not written stay. -/
theorem smGet_sets_other (l : List (Nat × α)) (m : SMap α) (j : Nat) (h : ∀ c ∈ l, c.1 ≠ j) :
    smGet d (smSets d m l) j = smGet d m j := by
  induction l generalizing m with
  | nil => rfl
  | cons c t ih =>
    have hc := h c List.mem_cons_self
    exact (ih _ fun e he => h e (List.mem_cons_of_mem _ he)).trans (smGet_set_other d m c.1 j c.2 (Ne.symm hc))

end Cells

section Places

variable {α : Type}

/-- Replacing what a test names: the first match is the new element. -/
theorem find_putWhere_self (l : List α) (t : α → Bool) (x : α) (hx : t x = true) (h : (l.find? t).isSome) :
    (putWhere l t x).find? t = some x := by
  induction l with
  | nil => simp at h
  | cons y ys ih =>
    by_cases hy : t y = true
    · simp [putWhere, hy, hx]
    · have hy' : t y = false := by simpa using hy
      simp only [putWhere, List.map_cons, hy', Bool.false_eq_true, if_false, List.find?_cons] at h ⊢
      exact ih h

/-- A search by another test, one that meets neither the new element nor what it replaces, finds what it found. -/
theorem find_putWhere_other (l : List α) (t u : α → Bool) (x : α) (hx : u x = false) (h : ∀ y, t y = true → u y = false) :
    (putWhere l t x).find? u = l.find? u := by
  induction l with
  | nil => rfl
  | cons y ys ih =>
    by_cases hy : t y = true
    · simpa [putWhere, hy, hx, h y hy] using ih
    · have hy' : t y = false := by simpa using hy
      simp only [putWhere, List.map_cons, hy', Bool.false_eq_true, if_false, List.find?_cons] at ih ⊢
      rw [ih]

end Places

end Sys2Proof.Machine
end

