-- ==== Sys2Proof/Laws/Memory.lean ====
section
/-! SUPPORT. Memory: what a read after a write gives, and the canonical form that every operation over memory keeps. -/

namespace Sys2Proof.Machine

open Sys2Proof.Safety

/-- The canonical form is a matter of the two memories alone. -/
theorem memWf_congr {s t : State} (h : MemWf s) (hm : t.mem = s.mem) (hh : t.hostmem = s.hostmem) : MemWf t := by
  unfold MemWf; rw [hm, hh]; exact h

theorem reset_memWf : MemWf State.reset := ⟨rfl, rfl⟩

/-! ## Writes by place -/

/-- A write within a line keeps the form. -/
theorem memWrite_wf {s t : State} {key slot : Nat} {bs : List Byte} (h : memWrite s key slot bs = .ok t) (hw : MemWf s) :
    MemWf t := by
  unfold memWrite at h
  split at h
  · cases h; exact ⟨smWf_sets 0 _ _ hw.1, hw.2⟩
  · cases h

/-- What a write within a line changes: memory, the line's record, and the old values of its bytes that loads may still see. -/
theorem memWrite_frame {s t : State} {key slot : Nat} {bs : List Byte} (h : memWrite s key slot bs = .ok t) :
    t = { s with mem := t.mem, lines := t.lines, unseen := t.unseen } := by
  unfold memWrite at h
  split at h
  · cases h; rfl
  · cases h

/-- A byte outside those written reads as before. -/
theorem memWrite_other {s t : State} {key slot : Nat} {bs : List Byte} (h : memWrite s key slot bs = .ok t) (a : Nat)
    (ha : a < key ∨ key + bs.length ≤ a) : smGet 0 t.mem a = smGet 0 s.mem a := by
  unfold memWrite at h
  split at h
  · cases h
    refine smGet_sets_other 0 _ _ _ ?_
    intro c hc
    obtain ⟨i, hi, rfl⟩ := List.mem_map.1 hc
    have := List.mem_range.1 hi
    simp only; omega
  · cases h

theorem setHead_wf {s : State} (h : Nat) (x : Head) (hw : MemWf s) : MemWf (setHead s h x) := hw

theorem poseWrite_wf {s : State} (h off : Nat) (bs : List Byte) (hw : MemWf s) : MemWf (poseWrite s h off bs) := hw

theorem regWrite_wf {s : State} (off : Nat) (bs : List Byte) (hw : MemWf s) : MemWf (regWrite s off bs) := by
  unfold regWrite; split <;> exact hw

/-- A write by physical address keeps the form. -/
theorem physWrite_wf {s t : State} {pa slot : Nat} {bs : List Byte} (h : physWrite s pa slot bs = .ok t) (hw : MemWf s) :
    MemWf t := by
  unfold physWrite at h
  split at h
  · exact memWrite_wf h hw
  · cases h; exact regWrite_wf _ _ hw
  · cases h; exact hw
  · cases h
  · cases h

/-- A store by a leaf keeps the form, in the module's memory or the host's. -/
theorem storeLeaf_wf {s t : State} {l : Leaf} {va : Nat} {bs : List Byte} (h : storeLeaf s l va bs = .ok t) (hw : MemWf s) :
    MemWf t := by
  unfold storeLeaf at h
  simp only at h
  split at h
  · cases h; exact ⟨hw.1, smWf_sets 0 _ _ hw.2⟩
  · exact physWrite_wf h hw

/-- A store by virtual address keeps the form. -/
theorem store_wf {s t : State} {pasid root va : Nat} {bs : List Byte} (h : store s pasid root va bs = .ok t) (hw : MemWf s) :
    MemWf t := by
  unfold store at h
  cases ht : translate s pasid root .write va with
  | error e => rw [ht] at h; cases h
  | ok l => rw [ht] at h; exact storeLeaf_wf h hw

theorem storeMany_wf {s t : State} {ctx : Nat × Nat} {va n : Nat} {bs : List Byte} (h : storeMany s ctx va n bs = .ok t)
    (hw : MemWf s) : MemWf t := by
  induction n generalizing s va bs with
  | zero => simp only [storeMany] at h; cases h; exact hw
  | succ n ih =>
    simp only [storeMany] at h
    cases hs : store s ctx.1 ctx.2 va (bs.take 8) with
    | error e => rw [hs] at h; cases h
    | ok u => rw [hs] at h; exact ih h (store_wf hs hw)

/-! ## Cached translations -/

theorem tlbNote_wf {s : State} (pasid root va : Nat) (hw : MemWf s) : MemWf (tlbNote s pasid root va) := by
  unfold tlbNote; split
  · split; exact hw
  · exact hw

theorem noteAll_wf {s : State} (ctx : Nat × Nat) (vas : List Nat) (hw : MemWf s) : MemWf (noteAll s ctx vas) := by
  unfold noteAll
  induction vas generalizing s with
  | nil => exact hw
  | cons v vs ih => exact ih (tlbNote_wf _ _ _ hw)

theorem tlbDrop_wf {s : State} (kind pasid va : Nat) (hw : MemWf s) : MemWf (tlbDrop s kind pasid va) := hw

/-- Noting a translation changes the cached translations alone. -/
theorem tlbNote_onlyTlb (s : State) (pasid root va : Nat) : OnlyTlb s (tlbNote s pasid root va) := by
  unfold tlbNote OnlyTlb; split
  · split; rfl
  · rfl

theorem onlyTlb_trans {s t u : State} (h : OnlyTlb s t) (h' : OnlyTlb t u) : OnlyTlb s u := by
  unfold OnlyTlb at *; rw [h', h]

theorem noteAll_onlyTlb (s : State) (ctx : Nat × Nat) (vas : List Nat) : OnlyTlb s (noteAll s ctx vas) := by
  unfold noteAll
  induction vas generalizing s with
  | nil => rfl
  | cons v vs ih => exact onlyTlb_trans (tlbNote_onlyTlb s _ _ v) (ih _)

/-! ## Accesses of courses -/

/-- Noting what a write replaced changes no memory. -/
theorem noteOld_wf {s s' : State} (w : Writer) (whole : List Inst) (via : Nat × Nat) (host : Bool) (key n : Nat) (hw : MemWf s') :
    MemWf (noteOld s w whole via host key n s') := by
  unfold noteOld; split <;> exact hw

/-- Noting that a reader no longer finds old bytes changes no memory. -/
theorem noteSeen_wf {s : State} (r : Reader) (host : Bool) (key n : Nat) (hw : MemWf s) : MemWf (noteSeen s r host key n) := hw

/-- A store of a course, before or after a write that it does not see, keeps the form. -/
theorem storeSeen_wf {s t : State} {pasid cid ci va : Nat} {whole : List Inst} {l : Leaf} {bs : List Byte}
    (h : storeSeen s pasid cid ci whole l va bs = .ok t) (hw : MemWf s) : MemWf t := by
  unfold storeSeen at h
  split at h
  · exact storeLeaf_wf h hw
  · simp only at h
    split at h
    · cases hs : storeLeaf s l va bs with
      | error e => rw [hs] at h; cases h
      | ok u => rw [hs] at h; cases h; exact noteOld_wf _ _ _ _ _ _ (storeLeaf_wf hs hw)
    · simp only [bind, Except.bind] at h
      split at h
      · cases h
      · split at h
        · cases h
        · next hs => cases h; exact memWf_congr (storeLeaf_wf hs hw) rfl rfl

theorem storeOne_wf {t s : State} {ctx : Nat × Nat} {x : Cur} {policy va : Nat} {bs : List Byte} (hw : MemWf s) :
    MemWf (storeOne t ctx s x policy va bs).1 := by
  unfold storeOne
  split
  · next s' h =>
    cases ht : translate t ctx.1 ctx.2 .write va with
    | error e => rw [ht] at h; cases h
    | ok l => rw [ht] at h; exact storeSeen_wf h hw
  · exact hw

theorem atomOne_wf {t s : State} {con : Consort} {ci : Nat} {ctx : Nat × Nat} {scope ty fn : Nat} {rm : Rm} {va d e : Nat}
    (hw : MemWf s) : MemWf (atomOne t s con ci ctx scope ty fn rm va d e).1 := by
  unfold atomOne
  simp only
  split
  · exact hw
  · split
    · exact hw
    · split
      · cases spotOf s _ va with
        | none => exact hw
        | some p => exact noteSeen_wf _ _ _ _ hw
      · split
        · next h => exact storeSeen_wf h hw
        · exact hw

theorem wqPush_wf {s t : State} {w : WorkQ} {rec : List Byte} (h : wqPush s w rec = .ok t) (hw : MemWf s) : MemWf t := by
  unfold wqPush at h
  simp only at h
  cases h1 : store s w.owner w.root (wqAddr w w.count) (rec.take 8) with
  | error e => rw [h1] at h; cases h
  | ok u =>
    rw [h1] at h
    simp only [bind, Except.bind] at h
    cases h2 : store u w.owner w.root (wqAddr w w.count + 8) (rec.drop 8) with
    | error e => rw [h2] at h; cases h
    | ok v => rw [h2] at h; cases h; exact memWf_congr (store_wf h2 (store_wf h1 hw)) rfl rfl

/-- Writing a plate's STATE, or noting that the write waits on a pinned line, keeps the form. -/
theorem plateInvalid_wf {s : State} (pasid root addr : Nat) (hw : MemWf s) : MemWf (plateInvalid s pasid root addr) := by
  unfold plateInvalid; split
  · exact hw
  · split
    · next h => exact store_wf h hw
    · exact hw

/-- Making the writes of STATE that waited keeps the form. -/
theorem platesInvalid_wf {s : State} (hw : MemWf s) : MemWf (platesInvalid s) := by
  unfold platesInvalid
  suffices h : ∀ (l : List ((Nat × Nat) × Nat)) (t : State), MemWf t →
      MemWf (l.foldl (fun s d => plateInvalid s d.1.1 d.1.2 d.2) t) from h _ _ hw
  intro l
  induction l with
  | nil => intro t ht; exact ht
  | cons d l ih => intro t ht; exact ih _ (plateInvalid_wf _ _ _ ht)

theorem qcbPut_wf {s : State} (qcb off : Nat) (bs : List Byte) (hw : MemWf s) : MemWf (qcbPut s qcb off bs) := by
  unfold qcbPut; split
  · next h => exact physWrite_wf h hw
  · exact hw

end Sys2Proof.Machine
end

