-- ==== Sys2Proof/Laws/PerInstr.lean ====
section
/-! SUPPORT. Facts about instructions as syntax, one lemma per constructor. -/

namespace Sys2Proof.Laws.HalfBit

open Sys2Proof

/-- R55, R60, R69: an instruction has at most two words, and bit 31 of its first word is set when it has two or is a Burin slot
operation, and only then; an event has none. -/
def Statement (i : Instr) : Prop :=
  (encode i).length ≤ 2 ∧ ∀ w ∈ (encode i).head?, w.getLsbD 31 = (i.isBurin || (encode i).length == 2)

theorem bitCore (op : BitVec 7) (d a b : BitVec 8) (z : BitVec 1) :
    (op ++ d ++ a ++ b ++ z : BitVec 32).getLsbD 31 = op.getLsbD 6 := by
  simp only [BitVec.getLsbD_append]; simp

theorem bitL (op : BitVec 7) (stg : BitVec 2) (d a b : BitVec 6) (ty : BitVec 2) (fn : BitVec 3) :
    (op ++ stg ++ d ++ a ++ b ++ ty ++ fn : BitVec 32).getLsbD 31 = op.getLsbD 6 := by
  simp only [BitVec.getLsbD_append]; simp

theorem bitR (op : BitVec 7) (a b c : BitVec 6) (d : BitVec 7) : (op ++ a ++ b ++ c ++ d : BitVec 32).getLsbD 31 = op.getLsbD 6 := by
  simp only [BitVec.getLsbD_append]; simp

theorem bitI (op : BitVec 7) (a b : BitVec 6) (c : BitVec 13) : (op ++ a ++ b ++ c : BitVec 32).getLsbD 31 = op.getLsbD 6 := by
  simp only [BitVec.getLsbD_append]; simp

theorem bitB (op : BitVec 7) (a : BitVec 4) (s : BitVec 6) (c : BitVec 15) : (op ++ a ++ s ++ c : BitVec 32).getLsbD 31 = op.getLsbD 6 := by
  simp only [BitVec.getLsbD_append]; simp

/-- An event has no words. -/
theorem noWords {j : Instr} (h : encode j = []) : Statement j := by
  unfold Statement; rw [h]; simp

/-- One word, or two. -/
theorem oneWord {j : Instr} {w : Word} (h : encode j = [w]) (hw : w.getLsbD 31 = j.isBurin) : Statement j := by
  unfold Statement; rw [h]
  exact ⟨by simp, fun v hv => by simp only [List.head?_cons, Option.mem_def, Option.some.injEq] at hv; subst hv; rw [hw]; simp⟩

theorem twoWords {j : Instr} {op : Nat} {fn : BitVec 4} {p : P} (h : encode j = encCore op fn p)
    (ho : (BitVec.ofNat 7 op).getLsbD 6 = true) : Statement j := by
  unfold Statement; rw [h]
  exact ⟨by simp [encCore], fun v hv => by
    simp [encCore] at hv; subst hv
    rw [encode0, bitCore, ho]; simp [encCore]⟩

theorem powerUp (failStep failSub ident : Nat) (peerIdents : List Nat) (up : BitVec 18) : Statement (.powerUp failStep failSub ident peerIdents up) := noWords rfl
theorem wakeWrite (off : Nat) (bytes : List Byte) (pasid : Option Nat) : Statement (.wakeWrite off bytes pasid) := noWords rfl
theorem gangPlace (cores : List Nat) : Statement (.gangPlace cores) := noWords rfl
theorem gangReserve (cores : List Nat) : Statement (.gangReserve cores) := noWords rfl
theorem gangReady (gid pkg : Nat) : Statement (.gangReady gid pkg) := noWords rfl
theorem gangReadyUndeliverable (pkg : Nat) : Statement (.gangReadyUndeliverable pkg) := noWords rfl
theorem gangAbort (gid pkg : Nat) : Statement (.gangAbort gid pkg) := noWords rfl
theorem clauseIssue (islot : Nat) : Statement (.clauseIssue islot) := noWords rfl
theorem longLatencyWriteback (ci k : Nat) : Statement (.longLatencyWriteback ci k) := noWords rfl
theorem courseEnd (ci : Nat) : Statement (.courseEnd ci) := noWords rfl
theorem copyBegin (ch : Nat) : Statement (.copyBegin ch) := noWords rfl
theorem copyLineTransfer (ch i : Nat) : Statement (.copyLineTransfer ch i) := noWords rfl
theorem freezeResume (fix : FreezeFix) : Statement (.freezeResume fix) := noWords rfl
theorem copyComplete (ch : Nat) : Statement (.copyComplete ch) := noWords rfl
theorem peerTileWrite (src : PeerSource) : Statement (.peerTileWrite src) := noWords rfl
theorem chordTileClose (tile : Nat) : Statement (.chordTileClose tile) := noWords rfl
theorem chordWriteback (k : Nat) : Statement (.chordWriteback k) := noWords rfl
theorem smarchWriteback (k : Nat) : Statement (.smarchWriteback k) := noWords rfl
theorem ttakeComplete (islot : Nat) : Statement (.ttakeComplete islot) := noWords rfl
theorem pinTimeout (line : Nat) : Statement (.pinTimeout line) := noWords rfl
theorem sleepExpire (ci sp : Nat) : Statement (.sleepExpire ci sp) := noWords rfl
theorem yieldExpire (ci sp : Nat) : Statement (.yieldExpire ci sp) := noWords rfl
theorem consortRestore (core : Nat) : Statement (.consortRestore core) := noWords rfl
theorem priResponse (success : Bool) : Statement (.priResponse success) := noWords rfl
theorem atsInvalidation (pasid va : Nat) : Statement (.atsInvalidation pasid va) := noWords rfl
theorem hostMemoryWrite (pa : Nat) (bytes : List Byte) : Statement (.hostMemoryWrite pa bytes) := noWords rfl
theorem hostMemoryRead (addr : HostAddr) (n : Nat) : Statement (.hostMemoryRead addr n) := noWords rfl
theorem fabricAccess (pkg pa : Nat) (req : FabricReq) : Statement (.fabricAccess pkg pa req) := noWords rfl
theorem powerThrottle (khz : Nat) : Statement (.powerThrottle khz) := noWords rfl
theorem fltrecRead (sd : BitVec 6) : Statement (.fltrecRead sd) := noWords rfl
theorem registerWrite (off : Nat) (value : DWord) : Statement (.registerWrite off value) := noWords rfl
theorem attest (nonce : List Byte) : Statement (.attest nonce) := noWords rfl
theorem fwload (image : List Byte) : Statement (.fwload image) := noWords rfl
theorem capmint (qcb : DWord) (pasid : BitVec 20) (rights : BitVec 16) : Statement (.capmint qcb pasid rights) := noWords rfl
theorem retire (pasid : BitVec 20) : Statement (.retire pasid) := noWords rfl
theorem debugAttach (pasid : BitVec 20) : Statement (.debugAttach pasid) := noWords rfl
theorem debugHalt (ci : Nat) : Statement (.debugHalt ci) := noWords rfl
theorem debugStep (ci : Nat) : Statement (.debugStep ci) := noWords rfl
theorem debugResume (ci : Nat) : Statement (.debugResume ci) := noWords rfl
theorem debugRead (ci : Nat) (t : DebugTarget) : Statement (.debugRead ci t) := noWords rfl
theorem debugWrite (ci : Nat) (t : DebugTarget) (value : DWord) (force : Bool) : Statement (.debugWrite ci t value force) := noWords rfl
theorem tlbflush (kind : Nat) (pasid : BitVec 20) (va : DWord) : Statement (.tlbflush kind pasid va) := noWords rfl
theorem modeset (modes : List (Nat × HeadMode)) : Statement (.modeset modes) := noWords rfl
theorem dispcsrRead (csr : Nat) : Statement (.dispcsrRead csr) := noWords rfl
theorem dispcsrWrite (csr : Nat) (value : DWord) : Statement (.dispcsrWrite csr value) := noWords rfl
theorem keyloadLoad (slot : Nat) (wrapped : List Byte) : Statement (.keyloadLoad slot wrapped) := noWords rfl
theorem keyloadZeroise (slot : Nat) : Statement (.keyloadZeroise slot) := noWords rfl
theorem powercap (watts : Nat) : Statement (.powercap watts) := noWords rfl
theorem br (cond : BitVec 4) (sa : BitVec 6) (off : BitVec 15) : Statement (.br cond sa off) := oneWord rfl (bitB _ _ _ _)
theorem call (off : BitVec 15) : Statement (.call off) := oneWord rfl (bitB _ _ _ _)
theorem calli (sa : BitVec 6) : Statement (.calli sa) := oneWord rfl (bitR _ _ _ _ _)
theorem jmpi (sa : BitVec 6) : Statement (.jmpi sa) := oneWord rfl (bitR _ _ _ _ _)
theorem loop (sa : BitVec 6) (stages : BitVec 4) (len : BitVec 15) : Statement (.loop sa stages len) := oneWord rfl (by simp only [BitVec.getLsbD_append]; simp [Instr.isBurin])
theorem loopi (count : BitVec 10) (stages : BitVec 4) (len : BitVec 11) : Statement (.loopi count stages len) := oneWord rfl (by simp only [BitVec.getLsbD_append]; simp [Instr.isBurin])
theorem lbrk (cond : BitVec 4) (sa : BitVec 6) : Statement (.lbrk cond sa) := oneWord rfl (bitB _ _ _ _)
theorem lcnt (sd : BitVec 6) (fn : BitVec 7) : Statement (.lcnt sd fn) := oneWord rfl (bitR _ _ _ _ _)
theorem sadd (sd sa sb : BitVec 6) : Statement (.sadd sd sa sb) := oneWord rfl (bitR _ _ _ _ _)
theorem ssub (sd sa sb : BitVec 6) : Statement (.ssub sd sa sb) := oneWord rfl (bitR _ _ _ _ _)
theorem sand (sd sa sb : BitVec 6) : Statement (.sand sd sa sb) := oneWord rfl (bitR _ _ _ _ _)
theorem sor (sd sa sb : BitVec 6) : Statement (.sor sd sa sb) := oneWord rfl (bitR _ _ _ _ _)
theorem sxor (sd sa sb : BitVec 6) : Statement (.sxor sd sa sb) := oneWord rfl (bitR _ _ _ _ _)
theorem sshl (sd sa sb : BitVec 6) : Statement (.sshl sd sa sb) := oneWord rfl (bitR _ _ _ _ _)
theorem sshr (sd sa sb : BitVec 6) : Statement (.sshr sd sa sb) := oneWord rfl (bitR _ _ _ _ _)
theorem ssha (sd sa sb : BitVec 6) : Statement (.ssha sd sa sb) := oneWord rfl (bitR _ _ _ _ _)
theorem smul (sd sa sb : BitVec 6) : Statement (.smul sd sa sb) := oneWord rfl (bitR _ _ _ _ _)
theorem smulh (sd sa sb : BitVec 6) : Statement (.smulh sd sa sb) := oneWord rfl (bitR _ _ _ _ _)
theorem smin (sd sa sb : BitVec 6) : Statement (.smin sd sa sb) := oneWord rfl (bitR _ _ _ _ _)
theorem smax (sd sa sb : BitVec 6) : Statement (.smax sd sa sb) := oneWord rfl (bitR _ _ _ _ _)
theorem sminu (sd sa sb : BitVec 6) : Statement (.sminu sd sa sb) := oneWord rfl (bitR _ _ _ _ _)
theorem smaxu (sd sa sb : BitVec 6) : Statement (.smaxu sd sa sb) := oneWord rfl (bitR _ _ _ _ _)
theorem sslt (sd sa sb : BitVec 6) : Statement (.sslt sd sa sb) := oneWord rfl (bitR _ _ _ _ _)
theorem ssltu (sd sa sb : BitVec 6) : Statement (.ssltu sd sa sb) := oneWord rfl (bitR _ _ _ _ _)
theorem sseq (sd sa sb : BitVec 6) : Statement (.sseq sd sa sb) := oneWord rfl (bitR _ _ _ _ _)
theorem saddi (sd sa : BitVec 6) (imm : BitVec 13) : Statement (.saddi sd sa imm) := oneWord rfl (bitI _ _ _ _)
theorem sandi (sd sa : BitVec 6) (imm : BitVec 13) : Statement (.sandi sd sa imm) := oneWord rfl (bitI _ _ _ _)
theorem sori (sd sa : BitVec 6) (imm : BitVec 13) : Statement (.sori sd sa imm) := oneWord rfl (bitI _ _ _ _)
theorem sxori (sd sa : BitVec 6) (imm : BitVec 13) : Statement (.sxori sd sa imm) := oneWord rfl (bitI _ _ _ _)
theorem sshli (sd sa : BitVec 6) (amt : BitVec 6) : Statement (.sshli sd sa amt) := oneWord rfl (bitI _ _ _ _)
theorem sshri (sd sa : BitVec 6) (amt : BitVec 6) : Statement (.sshri sd sa amt) := oneWord rfl (bitI _ _ _ _)
theorem sshai (sd sa : BitVec 6) (amt : BitVec 6) : Statement (.sshai sd sa amt) := oneWord rfl (bitI _ _ _ _)
theorem smovi (sd : BitVec 6) (imm : BitVec 19) : Statement (.smovi sd imm) := oneWord rfl (by simp only [BitVec.getLsbD_append]; simp [Instr.isBurin])
theorem slea (sd sa sb : BitVec 6) (k : BitVec 3) : Statement (.slea sd sa sb k) := oneWord rfl (bitR _ _ _ _ _)
theorem srd (sd : BitVec 6) (n : BitVec 13) : Statement (.srd sd n) := oneWord rfl (bitI _ _ _ _)
theorem vadd (p : P) : Statement (.vadd p) := twoWords rfl rfl
theorem vsub (p : P) : Statement (.vsub p) := twoWords rfl rfl
theorem vmul (p : P) : Statement (.vmul p) := twoWords rfl rfl
theorem vmulh (p : P) : Statement (.vmulh p) := twoWords rfl rfl
theorem vmad (p : P) : Statement (.vmad p) := twoWords rfl rfl
theorem vmin (p : P) : Statement (.vmin p) := twoWords rfl rfl
theorem vmax (p : P) : Statement (.vmax p) := twoWords rfl rfl
theorem vdiv (p : P) : Statement (.vdiv p) := twoWords rfl rfl
theorem vand (p : P) : Statement (.vand p) := twoWords rfl rfl
theorem vor (p : P) : Statement (.vor p) := twoWords rfl rfl
theorem vxor (p : P) : Statement (.vxor p) := twoWords rfl rfl
theorem vandn (p : P) : Statement (.vandn p) := twoWords rfl rfl
theorem vorn (p : P) : Statement (.vorn p) := twoWords rfl rfl
theorem vxnor (p : P) : Statement (.vxnor p) := twoWords rfl rfl
theorem vshl (p : P) : Statement (.vshl p) := twoWords rfl rfl
theorem vshr (p : P) : Statement (.vshr p) := twoWords rfl rfl
theorem vsha (p : P) : Statement (.vsha p) := twoWords rfl rfl
theorem vrol (p : P) : Statement (.vrol p) := twoWords rfl rfl
theorem vcmp (p : P) (fn : BitVec 4) : Statement (.vcmp p fn) := twoWords rfl rfl
theorem vsel (p : P) : Statement (.vsel p) := twoWords rfl rfl
theorem vcvt (p : P) (fn : BitVec 4) : Statement (.vcvt p fn) := twoWords rfl rfl
theorem vpopc (p : P) : Statement (.vpopc p) := twoWords rfl rfl
theorem vclz (p : P) : Statement (.vclz p) := twoWords rfl rfl
theorem vctz (p : P) : Statement (.vctz p) := twoWords rfl rfl
theorem vbrev (p : P) : Statement (.vbrev p) := twoWords rfl rfl
theorem vbfe (p : P) : Statement (.vbfe p) := twoWords rfl rfl
theorem vbfi (p : P) : Statement (.vbfi p) := twoWords rfl rfl
theorem vmov (p : P) : Statement (.vmov p) := twoWords rfl rfl
theorem vmovi (p : P) : Statement (.vmovi p) := twoWords rfl rfl
theorem vbcast (p : P) : Statement (.vbcast p) := twoWords rfl rfl
theorem vget (p : P) : Statement (.vget p) := twoWords rfl rfl
theorem vperm (p : P) : Statement (.vperm p) := twoWords rfl rfl
theorem vscan (p : P) (fn : BitVec 4) : Statement (.vscan p fn) := twoWords rfl rfl
theorem vred (p : P) (fn : BitVec 4) : Statement (.vred p fn) := twoWords rfl rfl
theorem vwacc (p : P) : Statement (.vwacc p) := twoWords rfl rfl
theorem vrcp (p : P) : Statement (.vrcp p) := twoWords rfl rfl
theorem vrsq (p : P) : Statement (.vrsq p) := twoWords rfl rfl
theorem vsqrt (p : P) : Statement (.vsqrt p) := twoWords rfl rfl
theorem vexp2 (p : P) : Statement (.vexp2 p) := twoWords rfl rfl
theorem vlog2 (p : P) : Statement (.vlog2 p) := twoWords rfl rfl
theorem vsin (p : P) : Statement (.vsin p) := twoWords rfl rfl
theorem vcos (p : P) : Statement (.vcos p) := twoWords rfl rfl
theorem vtanh (p : P) : Statement (.vtanh p) := twoWords rfl rfl
theorem vfclass (p : P) : Statement (.vfclass p) := twoWords rfl rfl
theorem vpack (p : P) : Statement (.vpack p) := twoWords rfl rfl
theorem vunpk (p : P) : Statement (.vunpk p) := twoWords rfl rfl
theorem pand (p : P) : Statement (.pand p) := twoWords rfl rfl
theorem por (p : P) : Statement (.por p) := twoWords rfl rfl
theorem pxor (p : P) : Statement (.pxor p) := twoWords rfl rfl
theorem pandn (p : P) : Statement (.pandn p) := twoWords rfl rfl
theorem pnot (p : P) : Statement (.pnot p) := twoWords rfl rfl
theorem pmov (p : P) : Statement (.pmov p) := twoWords rfl rfl
theorem pany (p : P) : Statement (.pany p) := twoWords rfl rfl
theorem pall (p : P) : Statement (.pall p) := twoWords rfl rfl
theorem pbal (p : P) : Statement (.pbal p) := twoWords rfl rfl
theorem setx (p : P) : Statement (.setx p) := twoWords rfl rfl
theorem getx (p : P) : Statement (.getx p) := twoWords rfl rfl
theorem brd (p : P) (fn : BitVec 4) : Statement (.brd p fn) := twoWords rfl rfl
theorem join (p : P) : Statement (.join p) := twoWords rfl rfl
theorem refill (p : P) : Statement (.refill p) := twoWords rfl rfl
theorem ld (p : P) : Statement (.ld p) := twoWords rfl rfl
theorem st (p : P) : Statement (.st p) := twoWords rfl rfl
theorem lds (p : P) : Statement (.lds p) := twoWords rfl rfl
theorem sts (p : P) : Statement (.sts p) := twoWords rfl rfl
theorem ldsp (p : P) : Statement (.ldsp p) := twoWords rfl rfl
theorem chk (p : P) (fn : BitVec 4) : Statement (.chk p fn) := twoWords rfl rfl
theorem ldt (p : P) : Statement (.ldt p) := twoWords rfl rfl
theorem stt (p : P) : Statement (.stt p) := twoWords rfl rfl
theorem atom (p : P) (fn : BitVec 4) : Statement (.atom p fn) := twoWords rfl rfl
theorem atoms (p : P) (fn : BitVec 4) : Statement (.atoms p fn) := twoWords rfl rfl
theorem fence (p : P) : Statement (.fence p) := twoWords rfl rfl
theorem wpush (p : P) : Statement (.wpush p) := twoWords rfl rfl
theorem talloc (p : P) : Statement (.talloc p) := twoWords rfl rfl
theorem tfree (p : P) : Statement (.tfree p) := twoWords rfl rfl
theorem tgive (p : P) : Statement (.tgive p) := twoWords rfl rfl
theorem ttake (p : P) : Statement (.ttake p) := twoWords rfl rfl
theorem xcopy (p : P) : Statement (.xcopy p) := twoWords rfl rfl
theorem xcopym (p : P) (fn : BitVec 4) : Statement (.xcopym p fn) := twoWords rfl rfl
theorem xtpl (p : P) : Statement (.xtpl p) := twoWords rfl rfl
theorem mma (p : P) (fn : BitVec 4) : Statement (.mma p fn) := twoWords rfl rfl
theorem mblk (p : P) : Statement (.mblk p) := twoWords rfl rfl
theorem scla (p : P) : Statement (.scla p) := twoWords rfl rfl
theorem mzero (p : P) : Statement (.mzero p) := twoWords rfl rfl
theorem mdrain (p : P) : Statement (.mdrain p) := twoWords rfl rfl
theorem mdrainPeer (p : P) : Statement (.mdrainPeer p) := twoWords rfl rfl
theorem mdrainOpeer (p : P) : Statement (.mdrainOpeer p) := twoWords rfl rfl
theorem cfwait (p : P) : Statement (.cfwait p) := twoWords rfl rfl
theorem cfadd (p : P) : Statement (.cfadd p) := twoWords rfl rfl
theorem cfset (p : P) : Statement (.cfset p) := twoWords rfl rfl
theorem cfrd (p : P) : Statement (.cfrd p) := twoWords rfl rfl
theorem chord (p : P) (fn : BitVec 4) : Statement (.chord p fn) := twoWords rfl rfl
theorem smarch (p : P) : Statement (.smarch p) := twoWords rfl rfl
theorem bar (p : P) : Statement (.bar p) := twoWords rfl rfl
theorem gbar (p : P) : Statement (.gbar p) := twoWords rfl rfl
theorem sstep (p : P) : Statement (.sstep p) := twoWords rfl rfl
theorem trap (p : P) : Statement (.trap p) := twoWords rfl rfl
theorem eret (p : P) : Statement (.eret p) := twoWords rfl rfl
theorem csrr (p : P) : Statement (.csrr p) := twoWords rfl rfl
theorem csrw (p : P) : Statement (.csrw p) := twoWords rfl rfl
theorem tlbinv (p : P) : Statement (.tlbinv p) := twoWords rfl rfl
theorem dbgbrk (p : P) : Statement (.dbgbrk p) := twoWords rfl rfl
theorem pslot (p : P) : Statement (.pslot p) := twoWords rfl rfl
theorem pguard (p : P) : Statement (.pguard p) := twoWords rfl rfl
theorem sleep (p : P) : Statement (.sleep p) := twoWords rfl rfl
theorem ladd (stg : BitVec 2) (d a b : BitVec 6) (ty : BitVec 2) (fn : BitVec 3) : Statement (.ladd stg d a b ty fn) := oneWord rfl (bitL _ _ _ _ _ _ _)
theorem lsub (stg : BitVec 2) (d a b : BitVec 6) (ty : BitVec 2) (fn : BitVec 3) : Statement (.lsub stg d a b ty fn) := oneWord rfl (bitL _ _ _ _ _ _ _)
theorem lmul (stg : BitVec 2) (d a b : BitVec 6) (ty : BitVec 2) (fn : BitVec 3) : Statement (.lmul stg d a b ty fn) := oneWord rfl (bitL _ _ _ _ _ _ _)
theorem lmad (stg : BitVec 2) (d a b : BitVec 6) (ty : BitVec 2) (fn : BitVec 3) : Statement (.lmad stg d a b ty fn) := oneWord rfl (bitL _ _ _ _ _ _ _)
theorem lmin (stg : BitVec 2) (d a b : BitVec 6) (ty : BitVec 2) (fn : BitVec 3) : Statement (.lmin stg d a b ty fn) := oneWord rfl (bitL _ _ _ _ _ _ _)
theorem lmax (stg : BitVec 2) (d a b : BitVec 6) (ty : BitVec 2) (fn : BitVec 3) : Statement (.lmax stg d a b ty fn) := oneWord rfl (bitL _ _ _ _ _ _ _)
theorem lsel (stg : BitVec 2) (d a b : BitVec 6) (ty : BitVec 2) (fn : BitVec 3) : Statement (.lsel stg d a b ty fn) := oneWord rfl (bitL _ _ _ _ _ _ _)
theorem lcmp (stg : BitVec 2) (d : BitVec 3) (a b : BitVec 6) (ty : BitVec 2) (fn : BitVec 3) : Statement (.lcmp stg d a b ty fn) := oneWord rfl (bitL _ _ _ _ _ _ _)
theorem lcvt (stg : BitVec 2) (d a : BitVec 6) (ty : BitVec 2) (fn : BitVec 3) : Statement (.lcvt stg d a ty fn) := oneWord rfl (bitL _ _ _ _ _ _ _)
theorem lshf (stg : BitVec 2) (d a b : BitVec 6) (ty : BitVec 2) (fn : BitVec 3) : Statement (.lshf stg d a b ty fn) := oneWord rfl (bitL _ _ _ _ _ _ _)
theorem llog (stg : BitVec 2) (d a b : BitVec 6) (ty : BitVec 2) (fn : BitVec 3) : Statement (.llog stg d a b ty fn) := oneWord rfl (bitL _ _ _ _ _ _ _)
theorem lpack (stg : BitVec 2) (d a : BitVec 6) (ty : BitVec 2) (fn : BitVec 3) : Statement (.lpack stg d a ty fn) := oneWord rfl (bitL _ _ _ _ _ _ _)
theorem lunpk (stg : BitVec 2) (d a : BitVec 6) (ty : BitVec 2) (fn : BitVec 3) : Statement (.lunpk stg d a ty fn) := oneWord rfl (bitL _ _ _ _ _ _ _)
theorem wxy (stg : BitVec 2) (d a b : BitVec 6) : Statement (.wxy stg d a b) := oneWord rfl (bitL _ _ _ _ _ _ _)
theorem lbld (stg : BitVec 2) (d a : BitVec 6) (ty : BitVec 2) (r : BitVec 3) : Statement (.lbld stg d a ty r) := oneWord rfl (bitL _ _ _ _ _ _ _)
theorem lbst (stg : BitVec 2) (a b : BitVec 6) (ty : BitVec 2) (r : BitVec 3) : Statement (.lbst stg a b ty r) := oneWord rfl (bitL _ _ _ _ _ _ _)
theorem fsmp (stg : BitVec 2) (d a b : BitVec 6) (fn : BitVec 3) : Statement (.fsmp stg d a b fn) := oneWord rfl (bitL _ _ _ _ _ _ _)
theorem facq (stg : BitVec 2) (d : BitVec 6) : Statement (.facq stg d) := oneWord rfl (bitL _ _ _ _ _ _ _)
theorem posel (stg : BitVec 2) (d : BitVec 6) : Statement (.posel stg d) := oneWord rfl (bitL _ _ _ _ _ _ _)
theorem lmma (stg : BitVec 2) (d a b : BitVec 6) : Statement (.lmma stg d a b) := oneWord rfl (bitL _ _ _ _ _ _ _)
theorem lout (stg : BitVec 2) (a : BitVec 6) (h : BitVec 3) : Statement (.lout stg a h) := oneWord rfl (bitL _ _ _ _ _ _ _)
theorem dlchk (stg : BitVec 2) (d : BitVec 3) : Statement (.dlchk stg d) := oneWord rfl (bitL _ _ _ _ _ _ _)
theorem rpj (stg : BitVec 2) (a : BitVec 6) : Statement (.rpj stg a) := oneWord rfl (bitL _ _ _ _ _ _ _)
theorem bwait (stg : BitVec 2) (fn : BitVec 3) : Statement (.bwait stg fn) := oneWord rfl (bitL _ _ _ _ _ _ _)
theorem commandFetch : Statement .commandFetch := noWords rfl
theorem launch : Statement .launch := noWords rfl
theorem feedCreate : Statement .feedCreate := noWords rfl
theorem feedDestroy : Statement .feedDestroy := noWords rfl
theorem feedAppend : Statement .feedAppend := noWords rfl
theorem feedRoom : Statement .feedRoom := noWords rfl
theorem signalStore : Statement .signalStore := noWords rfl
theorem signalAdd : Statement .signalAdd := noWords rfl
theorem wait : Statement .wait := noWords rfl
theorem waitReread : Statement .waitReread := noWords rfl
theorem gang : Statement .gang := noWords rfl
theorem launchComplete : Statement .launchComplete := noWords rfl
theorem ticketClaim : Statement .ticketClaim := noWords rfl
theorem ticketSteal : Statement .ticketSteal := noWords rfl
theorem gangPreempt : Statement .gangPreempt := noWords rfl
theorem gangTimeout : Statement .gangTimeout := noWords rfl
theorem gangReadySend : Statement .gangReadySend := noWords rfl
theorem gangDecide : Statement .gangDecide := noWords rfl
theorem capoInterleave : Statement .capoInterleave := noWords rfl
theorem temporalIteration : Statement .temporalIteration := noWords rfl
theorem plateFeed : Statement .plateFeed := noWords rfl
theorem matrixStart : Statement .matrixStart := noWords rfl
theorem matrixComplete : Statement .matrixComplete := noWords rfl
theorem peerContributionApply : Statement .peerContributionApply := noWords rfl
theorem chordPass : Statement .chordPass := noWords rfl
theorem brickLoad : Statement .brickLoad := noWords rfl
theorem barComplete : Statement .barComplete := noWords rfl
theorem gbarComplete : Statement .gbarComplete := noWords rfl
theorem sstepComplete : Statement .sstepComplete := noWords rfl
theorem wdog : Statement .wdog := noWords rfl
theorem storeError : Statement .storeError := noWords rfl
theorem gangPeerFailure : Statement .gangPeerFailure := noWords rfl
theorem survivorTeardown : Statement .survivorTeardown := noWords rfl
theorem preemptSave : Statement .preemptSave := noWords rfl
theorem preemptWithdraw : Statement .preemptWithdraw := noWords rfl
theorem fabricTimeout : Statement .fabricTimeout := noWords rfl
theorem linkFail : Statement .linkFail := noWords rfl
theorem bandStart : Statement .bandStart := noWords rfl
theorem bandDeadline : Statement .bandDeadline := noWords rfl
theorem scanoutLine : Statement .scanoutLine := noWords rfl
theorem burinInvocationStart : Statement .burinInvocationStart := noWords rfl
theorem burinWriteback : Statement .burinWriteback := noWords rfl
theorem poseCommit : Statement .poseCommit := noWords rfl
theorem mailboxCommandComplete : Statement .mailboxCommandComplete := noWords rfl
theorem ident : Statement .ident := noWords rfl
theorem preempt : Statement .preempt := noWords rfl
theorem events : Statement .events := noWords rfl
theorem nop : Statement .nop := oneWord rfl rfl
theorem ret : Statement .ret := oneWord rfl (bitR _ _ _ _ _)
theorem exit : Statement .exit := oneWord rfl (bitR _ _ _ _ _)
theorem yield : Statement .yield := oneWord rfl (bitR _ _ _ _ _)
theorem gangStart : Statement .gangStart := noWords rfl
theorem loutRowRead : Statement .loutRowRead := noWords rfl

end Sys2Proof.Laws.HalfBit
end

