-- ==== Sys2Proof/Laws/Registers.lean ====
section
/-! SUPPORT. Registers, cores, consorts and courses: reading after writing. -/

namespace Sys2Proof.Machine

open Sys2Proof.Safety

/-! ## Registers (R27) -/

theorem sGet_sSet (c : Course) (r j : Nat) (v : DWord) : sGet (sSet c r v) j = if j = r ∧ r ≠ 0 then v else sGet c j := by
  unfold sGet sSet
  by_cases hr : r = 0
  · simp [hr]
  · by_cases hj : j = 0
    · have : ¬ j = r := by omega
      simp [hj, Ne.symm hr]
    · simp only [hr, if_false, hj, smGet_set]
      simp [hr]

theorem sSet_only (c : Course) (r : Nat) (v : DWord) : OnlyS c (sSet c r v) := by
  unfold sSet OnlyS; split <;> rfl

/-- Writing a scalar register. -/
theorem sSet_writes (c : Course) (r : Nat) (v : DWord) : WritesS c (sSet c r v) r v := ⟨sSet_only c r v, fun j => sGet_sSet c r j v⟩

theorem pGet_pSet (c : Course) (r j l : Nat) (lanes vals : Mask) :
    pGet (pSet c r lanes vals) j l = if j = r ∧ r ≠ 0 ∧ lanes.getLsbD l then vals.getLsbD l else pGet c j l := by
  unfold pGet pSet
  by_cases hr : r = 0
  · simp [hr]
  · by_cases hj : j = 0
    · simp [hj, Ne.symm hr]
    · simp only [hr, if_false, hj, smGet_set]
      by_cases hjr : j = r
      · subst hjr
        rw [if_pos rfl, BitVec.getLsbD_or, BitVec.getLsbD_and, BitVec.getLsbD_and, BitVec.getLsbD_not]
        by_cases hl : l < 64
        · cases lanes.getLsbD l <;> simp [hl, hr]
        · have h1 : lanes.getLsbD l = false := BitVec.getLsbD_of_ge _ _ (by omega)
          have h2 : (smGet 0 c.p j).getLsbD l = false := BitVec.getLsbD_of_ge _ _ (by omega)
          rw [h1, h2]; simp
      · simp [hjr]

/-- Writing a predicate. -/
theorem pSet_writes (c : Course) (r : Nat) (lanes vals : Mask) : WritesP c (pSet c r lanes vals) r lanes vals :=
  ⟨by unfold pSet; split <;> rfl, fun j l _ => pGet_pSet c r j l lanes vals⟩

theorem vGet_vSet (c : Course) (r l r' l' : Nat) (x : LaneVal) (h : l < 64) (h' : l' < 64) :
    vGet (vSet c r l x) r' l' = if r' = r ∧ l' = l then x else vGet c r' l' := by
  unfold vGet vSet
  simp only [smGet_set]
  by_cases e : r' = r ∧ l' = l
  · obtain ⟨rfl, rfl⟩ := e; simp
  · have : ¬ r' * 64 + l' = r * 64 + l := by omega
    simp [e, this]

theorem bsSet_writes (x : Burin) (r : Nat) (v : DWord) : WritesBS x (bsSet x r v) r v := by
  unfold bsSet WritesBS
  split
  · next h => simp [h]
  · next h => exact ⟨rfl, fun j => by simp [smGet_set, h]⟩

/-! ## Masks -/

theorem lanesOf_mem (m : Mask) (width l : Nat) : l ∈ lanesOf m width ↔ l < width ∧ m.getLsbD l = true := by
  simp [lanesOf]

/-- The bits of a mask of lanes that a test names. -/
theorem maskSum_testBit (t : Nat → Bool) (n l : Nat) :
    ((List.range n).foldl (fun a i => if t i then a + 2 ^ i else a) 0) < 2 ^ n ∧
      ((List.range n).foldl (fun a i => if t i then a + 2 ^ i else a) 0).testBit l = (decide (l < n) && t l) := by
  induction n with
  | zero => simp
  | succ n ih =>
    rw [List.range_succ, List.foldl_append]
    simp only [List.foldl_cons, List.foldl_nil]
    generalize (List.range n).foldl (fun a i => if t i then a + 2 ^ i else a) 0 = a at ih
    obtain ⟨hl, hb⟩ := ih
    by_cases ht : t n = true
    · simp only [ht, if_true]
      refine ⟨by rw [Nat.pow_succ]; omega, ?_⟩
      rw [Nat.add_comm a]
      rcases lt_trichotomy l n with h | h | h
      · rw [Nat.testBit_two_pow_add_gt h, hb]
        simp [h, Nat.lt_succ_of_lt h]
      · subst h
        rw [Nat.testBit_two_pow_add_eq, hb]
        simp [ht]
      · have h2 : 2 ^ n + a < 2 ^ l :=
          lt_of_lt_of_le (by rw [Nat.pow_succ]; omega) (Nat.pow_le_pow_right (by norm_num) (Nat.succ_le_of_lt h))
        rw [Nat.testBit_lt_two_pow h2]
        have : ¬ l < n + 1 := by omega
        simp [this]
    · have ht' : t n = false := by simpa using ht
      simp only [ht', Bool.false_eq_true, if_false]
      refine ⟨by rw [Nat.pow_succ]; omega, ?_⟩
      rw [hb]
      rcases lt_trichotomy l n with h | h | h
      · simp [h, Nat.lt_succ_of_lt h]
      · subst h; simp [ht']
      · have : ¬ l < n + 1 := by omega
        have h' : ¬ l < n := by omega
        simp [this, h']

/-- Each lane of a mask by its test. -/
theorem maskOf_getLsbD (width l : Nat) (t : Nat → Bool) (h : l < 64) : (maskOf width t).getLsbD l = (decide (l < width) && t l) := by
  unfold maskOf
  rw [BitVec.getLsbD_ofNat]
  simp [h, (maskSum_testBit t width l).2]

/-! ## Cores, consorts and courses -/

@[simp] theorem coreAt_setCore_self (s : State) (k : Nat) (c : Core) : coreAt (setCore s k c) k = c := by
  simp [coreAt, setCore]

theorem coreAt_setCore_other (s : State) (k j : Nat) (c : Core) (h : j ≠ k) : coreAt (setCore s k c) j = coreAt s j := by
  simp [coreAt, setCore, alGet_set_other _ _ _ _ h]

@[simp] theorem coreAt_setCon (s : State) (k : Nat) (c : Consort) : coreAt (setCon s c) k = coreAt s k := rfl
@[simp] theorem conAt_setCore (s : State) (k : Nat) (c : Core) (cid : Nat) : conAt (setCore s k c) cid = conAt s cid := rfl

theorem conAt_setCon_self (s : State) (c : Consort) (h : (conAt s c.cid).isSome) : conAt (setCon s c) c.cid = some c :=
  find_putWhere_self _ _ _ (by simp) h

theorem conAt_setCon_other (s : State) (c : Consort) (cid : Nat) (h : cid ≠ c.cid) : conAt (setCon s c) cid = conAt s cid :=
  find_putWhere_other _ _ _ _ (by simpa using Ne.symm h) fun y hy => by
    have : y.cid = c.cid := by simpa using hy
    simpa [this] using Ne.symm h

theorem crsAt_setCrs_self (con : Consort) (c : Course) (h : (crsAt con c.idx).isSome) : crsAt (setCrs con c) c.idx = some c :=
  find_putWhere_self _ _ _ (by simp) h

theorem crsAt_setCrs_other (con : Consort) (c : Course) (ci : Nat) (h : ci ≠ c.idx) : crsAt (setCrs con c) ci = crsAt con ci :=
  find_putWhere_other _ _ _ _ (by simpa using Ne.symm h) fun y hy => by
    have : y.idx = c.idx := by simpa using hy
    simpa [this] using Ne.symm h

/-- A consort that is found has the number it was looked for by. -/
theorem conAt_cid {s : State} {cid : Nat} {con : Consort} (h : conAt s cid = some con) : con.cid = cid := by
  simpa using List.find?_some h

theorem crsAt_idx {con : Consort} {ci : Nat} {c : Course} (h : crsAt con ci = some c) : c.idx = ci := by
  simpa using List.find?_some h

@[simp] theorem burinAt_setBurin_self (s : State) (b : Nat) (x : Burin) : burinAt (setBurin s b x) b = x := by
  simp [burinAt, setBurin]

theorem burinAt_setBurin_other (s : State) (b c : Nat) (x : Burin) (h : c ≠ b) : burinAt (setBurin s b x) c = burinAt s c := by
  simp [burinAt, setBurin, alGet_set_other _ _ _ _ h]

@[simp] theorem headAt_setHead_self (s : State) (h : Nat) (x : Head) : headAt (setHead s h x) h = x := by
  simp [headAt, setHead]

theorem headAt_setHead_other (s : State) (h j : Nat) (x : Head) (e : j ≠ h) : headAt (setHead s h x) j = headAt s j := by
  simp [headAt, setHead, alGet_set_other _ _ _ _ e]

/-! ## The word in issue -/

/-- A word's parts belong together. -/
theorem cur_parts {s : State} {x : Cur} (h : cur? s = some x) :
    s.turn = .slot x.core x.islot ∧ x.k = coreAt s x.core ∧ alGet x.k.issue x.islot = some x.iss ∧ conAt s x.iss.cid = some x.con ∧
      crsAt x.con x.iss.ci = some x.c ∧ alGet x.c.splits x.iss.sp = some x.sp ∧ x.spi = x.iss.sp := by
  unfold cur? at h
  split at h
  · next core islot ht =>
    simp only [Option.bind_eq_bind, Option.bind_eq_some_iff] at h
    obtain ⟨iss, h1, con, h2, c, h3, sp, h4, h5⟩ := h
    cases h5
    exact ⟨ht, rfl, h1, h2, h3, h4, rfl⟩
  · cases h

/-- A word that may run, runs. -/
theorem onWord_runs {s : State} {x : Cur} {vr sr : List Nat} (h : Runs s x vr sr) (f : Cur → State) : onWord s vr sr f = f x := by
  simp [onWord, h.cur, h.free, h.clear, h.alone]

theorem onBurin_runs {s : State} {b : Nat} {x : Burin} (h : RunsB s b x) (f : Nat → Burin → State) : onBurin s f = f b x := by
  unfold onBurin
  rw [h.turn]
  have : x.bundle.isEmpty = false := by
    cases hb : x.bundle with
    | nil => exact absurd hb h.bundle
    | cons => rfl
  simp [h.at_, h.running, this]

/-! ## Queues (R48, R49) -/

/-- Entries of a push enter the queue behind those of earlier words and before those of later ones. -/
theorem queueOf_enqueueAt (con : Consort) (q r turn : Nat) (es : List (List LaneVal)) : queueOf (enqueueAt con q turn es) r =
    if r = q then (queueOf con q).take ((turnsOf con q).filter fun t => decide (t ≤ turn)).length ++ es ++
      (queueOf con q).drop ((turnsOf con q).filter fun t => decide (t ≤ turn)).length else queueOf con r := by
  unfold queueOf enqueueAt
  simp only [alGet_set]
  split <;> rfl

theorem turnsOf_enqueueAt (con : Consort) (q r turn : Nat) (es : List (List LaneVal)) : turnsOf (enqueueAt con q turn es) r =
    if r = q then (turnsOf con q).take ((turnsOf con q).filter fun t => decide (t ≤ turn)).length ++ List.replicate es.length turn ++
      (turnsOf con q).drop ((turnsOf con q).filter fun t => decide (t ≤ turn)).length else turnsOf con r := by
  unfold turnsOf enqueueAt
  simp only [alGet_set]
  split <;> rfl

end Sys2Proof.Machine
end

