-- ==== Sys2Proof/Laws/Shared.lean ====
section
/-! SUPPORT. The operations that the meanings share: each keeps the canonical form of memory, whatever it does. -/

namespace Sys2Proof.Machine

open Sys2Proof.Safety

/-! ## The parts of the state -/

theorem setCore_wf {s : State} (k : Nat) (c : Core) (h : MemWf s) : MemWf (setCore s k c) := h
theorem modCore_wf {s : State} (k : Nat) (f : Core → Core) (h : MemWf s) : MemWf (modCore s k f) := h
theorem setCon_wf {s : State} (c : Consort) (h : MemWf s) : MemWf (setCon s c) := h
theorem setLaunch_wf {s : State} (l : Launch) (h : MemWf s) : MemWf (setLaunch s l) := h
theorem setBurin_wf {s : State} (b : Nat) (x : Burin) (h : MemWf s) : MemWf (setBurin s b x) := h
theorem setWq_wf {s : State} (w : WorkQ) (h : MemWf s) : MemWf (setWq s w) := h

theorem modCrs_wf {s : State} (cid ci : Nat) (f : Course → Course) (h : MemWf s) : MemWf (modCrs s cid ci f) := by
  unfold modCrs; split
  · exact h
  · split <;> exact h

theorem foldl_wf {α : Type} (f : State → α → State) (l : List α) {s : State} (hf : ∀ s a, MemWf s → MemWf (f s a)) (h : MemWf s) :
    MemWf (l.foldl f s) := by
  induction l generalizing s with
  | nil => exact h
  | cons a l ih => exact ih (hf s a h)

/-! ## Writes that come to be seen -/

/-- Showing writes changes what is unseen alone. -/
theorem reveal_only (s : State) (i : Inst) (t : Unseen → Bool) : reveal s i t = { s with unseen := (reveal s i t).unseen } := rfl
theorem reveal_wf {s : State} (i : Inst) (t : Unseen → Bool) (h : MemWf s) : MemWf (reveal s i t) := h
theorem releaseTo_wf {s : State} (i : Inst) (cid ci : Nat) (h : MemWf s) : MemWf (releaseTo s i cid ci) := h
theorem sawCopies_wf {s : State} (cid ci t : Nat) (h : MemWf s) : MemWf (sawCopies s cid ci t) := h

/-! ## Consorts that go -/

theorem dropConsort_wf {s : State} (cid : Nat) (h : MemWf s) : MemWf (dropConsort s cid) := by
  unfold dropConsort; split <;> exact h

theorem tearDown_wf {s : State} (cid : Nat) (h : MemWf s) : MemWf (tearDown s cid) := by
  unfold tearDown; split
  · exact h
  · simp only; split
    · exact dropConsort_wf _ (plateInvalid_wf _ _ _ h)
    · exact dropConsort_wf _ h

theorem killLaunch_wf {s : State} (lid cid status : Nat) (detail : DWord) (h : MemWf s) : MemWf (killLaunch s lid cid status detail) := by
  unfold killLaunch; split
  · exact tearDown_wf _ h
  · refine foldl_wf _ _ ?_ h
    intro s a hs
    split
    · split
      · exact modCore_wf _ _ hs
      · exact tearDown_wf _ hs
    · exact hs

theorem sweepDying_wf {s : State} (cid : Nat) (h : MemWf s) : MemWf (sweepDying s cid) := by
  unfold sweepDying; split
  · split
    · exact tearDown_wf _ h
    · exact h
  · exact h

/-! ## Traps -/

theorem keepTrap_wf {s : State} (cid ci spi : Nat) (t : PendTrap) (h : MemWf s) : MemWf (keepTrap s cid ci spi t) := modCrs_wf _ _ _ h

theorem capoTakes_wf {s : State} (cid ci spi : Nat) (t : PendTrap) (h : MemWf s) : MemWf (capoTakes s cid ci spi t) := by
  unfold capoTakes; split
  · exact h
  · split
    · exact h
    · simp only; split
      · exact keepTrap_wf _ _ _ _ h
      · split
        · exact modCrs_wf _ _ _ (modCrs_wf _ _ _ h)
        · split
          · exact memWf_congr (modCrs_wf _ _ _ (modCrs_wf _ _ _ (setCore_wf _ _ h))) rfl rfl
          · split
            · exact modCrs_wf _ _ _ (modCrs_wf _ _ _ h)
            · exact killLaunch_wf _ _ _ _ (modCrs_wf _ _ _ h)

theorem imprecise_wf {s : State} (core : Nat) (e : StoreErr) (h : MemWf s) : MemWf (imprecise s core e) := by
  unfold imprecise; simp only; split
  · exact h
  · split
    · exact h
    · split
      · exact modCrs_wf _ _ _ h
      · exact killLaunch_wf _ _ _ _ h

theorem deliver_wf {s : State} (cid ci spi : Nat) (t : PendTrap) (h : MemWf s) : MemWf (deliver s cid ci spi t) := by
  unfold deliver; split
  · exact h
  · split
    · exact h
    · simp only; split
      · exact keepTrap_wf _ _ _ _ h
      · split
        · exact modCrs_wf _ _ _ h
        · exact capoTakes_wf _ _ _ _ h

theorem leaveSlot_wf {s : State} (x : Cur) (sps : List (Nat × Split)) (h : MemWf s) : MemWf (leaveSlot x sps s) := h
theorem freeSlot_wf {s : State} (x : Cur) (h : MemWf s) : MemWf (freeSlot x s) := h
theorem putCur_wf {s : State} (x : Cur) (h : MemWf s) : MemWf (putCur s x) := h
theorem waitHere_wf {s : State} (x : Cur) (h : MemWf s) : MemWf (waitHere s x) := h

theorem trapAt_wf {s : State} (x : Cur) (off cause : Nat) (v : DWord) (h : MemWf s) : MemWf (trapAt s x off cause v) :=
  sweepDying_wf _ (deliver_wf _ _ _ _ (freeSlot_wf _ h))

theorem trap_wf {s : State} (x : Cur) (cause : Nat) (v : DWord) (h : MemWf s) : MemWf (trap s x cause v) := trapAt_wf _ _ _ _ h
theorem ill_wf {s : State} (x : Cur) (sub : Nat) (h : MemWf s) : MemWf (ill s x sub) := trap_wf _ _ _ h

/-! ## Moving on -/

theorem endAt_wf {s : State} (x : Cur) (pc : Nat) (ls : List LoopRec) (h : MemWf s) : MemWf (endAt s x pc ls) :=
  sweepDying_wf _ (freeSlot_wf _ h)

theorem fallOn_wf {s : State} (x : Cur) (hdr e : Nat) (h : MemWf s) : MemWf (fallOn s x hdr e) := by
  unfold fallOn; split
  · exact endAt_wf _ _ _ h
  · exact sweepDying_wf _ (deliver_wf _ _ _ _ (freeSlot_wf _ h))

theorem endClause_wf {s : State} (x : Cur) (h : MemWf s) : MemWf (endClause s x) := fallOn_wf _ _ _ h

theorem retire_wf {s : State} (x : Cur) (n : Nat) (h : MemWf s) : MemWf (retire s x n) := by
  unfold retire; simp only; split
  · exact endClause_wf _ h
  · exact putCur_wf _ h

theorem branch_wf {s : State} (x : Cur) (target : Nat) (h : MemWf s) : MemWf (branch s x target) := by
  unfold branch; split
  · exact endAt_wf _ _ _ h
  · exact ill_wf _ _ h

theorem freeSplit_wf {s : State} (x : Cur) (h : MemWf s) : MemWf (freeSplit s x) := sweepDying_wf _ (leaveSlot_wf _ _ h)

theorem afterJoin_wf {s : State} (x : Cur) (addr : Nat) (h : MemWf s) : MemWf (afterJoin s x addr) := by
  unfold afterJoin; simp only; split
  · split
    · exact fallOn_wf _ _ _ h
    · exact sweepDying_wf _ (freeSlot_wf _ h)
  · exact sweepDying_wf _ (freeSlot_wf _ h)

theorem exitArrival_wf {s : State} (x : Cur) (a : Arrival) (h : MemWf s) : MemWf (exitArrival s x a) := by
  unfold exitArrival; split
  · exact freeSplit_wf _ h
  · split
    · exact afterJoin_wf _ _ h
    · exact freeSplit_wf _ h
  · exact sweepDying_wf _ (freeSlot_wf _ h)
  · exact afterJoin_wf _ _ h

theorem beginLong_wf {s : State} (x : Cur) (p : PendWrite) (h : MemWf s) : MemWf (beginLong s x p) := by
  unfold beginLong; simp only; split
  · exact waitHere_wf _ h
  · exact retire_wf _ _ h

/-! ## Words: what keeps the form in their continuation keeps it -/

theorem passWord_wf {s : State} (x : Cur) (h : MemWf s) : MemWf (passWord s x) := retire_wf _ _ h

theorem onWord_wf {s : State} (vr sr : List Nat) (f : Cur → State) (h : MemWf s) (hf : ∀ x, MemWf (f x)) :
    MemWf (onWord s vr sr f) := by
  unfold onWord; split
  · exact h
  · split
    · exact waitHere_wf _ h
    · exact hf _

theorem lastWord_wf {s : State} (sr : List Nat) (f : Cur → State) (h : MemWf s) (hf : ∀ x, MemWf (f x)) : MemWf (lastWord s sr f) :=
  onWord_wf _ _ _ h fun x => by
    split
    · exact hf x
    · exact ill_wf _ _ h

theorem courseWord_wf {s : State} (p : P) (f : Free) (l : Bool) (sr : List Nat) (k : Cur → State) (h : MemWf s)
    (hk : ∀ x, MemWf (k x)) : MemWf (courseWord s p f l sr k) :=
  onWord_wf _ _ _ h fun x => by
    split
    · exact ill_wf _ _ h
    · split
      · exact ill_wf _ _ h
      · exact hk x

theorem laneWord_wf {s : State} (p : P) (f : Free) (l : Bool) (vr sr : List Nat) (k : Cur → Mask → State) (h : MemWf s)
    (hk : ∀ x m, MemWf (k x m)) : MemWf (laneWord s p f l vr sr k) :=
  onWord_wf _ _ _ h fun x => by
    simp only
    split
    · exact retire_wf _ _ h
    · split
      · exact ill_wf _ _ h
      · exact hk x _

theorem accessWord_wf {s : State} (p : P) (f : Form) (sr rd : List Nat) (d : Option Nat) (k : Cur → List Nat → State) (h : MemWf s)
    (hk : ∀ x ls, MemWf (k x ls)) : MemWf (accessWord s p f sr rd d k) :=
  onWord_wf _ _ _ h fun x => by
    simp only
    split
    · exact passWord_wf _ h
    · split
      · exact ill_wf _ _ h
      · split
        · exact waitHere_wf _ h
        · exact hk x _

theorem courseAccess_wf {s : State} (p : P) (f : Free) (l : Bool) (sr : List Nat) (addr : Cur → Nat) (n : Nat) (a : Acc)
    (k : Cur → Nat × Nat → Nat → State) (h : MemWf s) (hk : ∀ x c v, MemWf (k x c v)) :
    MemWf (courseAccess s p f l sr addr n a k) :=
  courseWord_wf _ _ _ _ _ h fun x => by
    simp only
    split
    · exact trap_wf _ _ _ h
    · split
      · exact waitHere_wf _ h
      · exact hk _ _ _

/-! ## Burin -/

theorem addHold_wf {s t : State} {h slot : Nat} {up : Bool} (e : addHold s h slot up = .ok t) (hw : MemWf s) : MemWf t := by
  unfold addHold at e
  simp only at e
  cases h1 : load s (dispCtx s h).1 (dispCtx s h).2 ((headAt s h).mode.slots.getD slot 0 + 8) 4 with
  | error x => rw [h1] at e; cases e
  | ok b => rw [h1] at e; exact store_wf e hw

theorem releaseHold_wf {s : State} (b : Nat) (h : MemWf s) : MemWf (releaseHold s b) := by
  unfold releaseHold; simp only; split
  · exact h
  · split
    · next e => exact addHold_wf e h
    · exact h

theorem tryRelease_wf {s : State} (b : Nat) (h : MemWf s) : MemWf (tryRelease s b) := by
  unfold tryRelease; simp only; split
  · exact h
  · exact releaseHold_wf b h

theorem endInvocation_wf {s : State} (b : Nat) (d : Bool) (h : MemWf s) : MemWf (endInvocation s b d) :=
  setBurin_wf _ _ (tryRelease_wf b h)

theorem burinTrap_wf {s : State} (b cause sub : Nat) (h : MemWf s) : MemWf (burinTrap s b cause sub) :=
  endInvocation_wf _ _ (memWf_congr h rfl rfl)

theorem burinIll_wf {s : State} (b : Nat) (h : MemWf s) : MemWf (burinIll s b) := burinTrap_wf _ _ _ h

theorem slotDone_wf {s : State} (b : Nat) (x : Burin) (h : MemWf s) : MemWf (slotDone s b x) := by
  unfold slotDone; split
  · exact h
  · split
    · exact endInvocation_wf _ _ h
    · split
      · exact h
      · split
        · exact h
        · exact burinTrap_wf _ _ _ h

theorem onBurin_wf {s : State} (f : Nat → Burin → State) (h : MemWf s) (hf : ∀ b x, MemWf (f b x)) : MemWf (onBurin s f) := by
  unfold onBurin; split
  · split
    · exact hf _ _
    · exact h
  · exact h

end Sys2Proof.Machine
end

