-- ==== Sys2Proof/Tests/Slice0.lean ====
section
/-! SUPPORT. Tests: words written out from the encoding tables, ill-formed terms that each check refuses, single steps with
results from the manual or worked out by hand from its rules, and for each statement with hypotheses a state and operands that
meet them. -/

set_option Elab.async false

namespace Sys2Proof.Tests

open Sys2Proof Sys2Proof.Machine Sys2Proof.Safety

/-! ## Decoding: every instruction's word, from R56 to R70 and the opcode table -/

/-- The fields of the two-word words below: D 1, A 2, B 3, C 4, TY n32, RM RNA, SAT 1, MOD 5, BK 10, X3 3, G 6, GN 1. -/
def pT : P := { d := 1, a := 2, b := 3, c := 4, ty := 6, rm := 1, sat := 1, mod := 5, bk := 2, x3 := 3, g := 6, gn := 1, z := 0 }

def controlWords : List (Nat × Instr) :=
  [(0x00000000, .nop), (0x02C27FFE, .br 6 4 0x7ffe), (0x04007FFE, .call 0x7ffe), (0x06004000, .calli 2), (0x08000000, .ret),
   (0x0A004000, .jmpi 2), (0x0C240009, .loop 4 8 9), (0x0E0A0803, .loopi 20 1 3), (0x10620000, .lbrk 3 4), (0x12080003, .lcnt 1 3),
   (0x14000000, .exit), (0x16000000, .yield), (0x20084180, .sadd 1 2 3), (0x20084181, .ssub 1 2 3), (0x20084182, .sand 1 2 3),
   (0x20084183, .sor 1 2 3), (0x20084184, .sxor 1 2 3), (0x20084185, .sshl 1 2 3), (0x20084186, .sshr 1 2 3), (0x20084187, .ssha 1 2 3),
   (0x20084188, .smul 1 2 3), (0x20084189, .smulh 1 2 3), (0x2008418A, .smin 1 2 3), (0x2008418B, .smax 1 2 3),
   (0x2008418C, .sminu 1 2 3), (0x2008418D, .smaxu 1 2 3), (0x2008418E, .sslt 1 2 3), (0x2008418F, .ssltu 1 2 3),
   (0x20084190, .sseq 1 2 3), (0x22085FFC, .saddi 1 2 0x1ffc), (0x24084005, .sandi 1 2 5), (0x26084005, .sori 1 2 5),
   (0x28084005, .sxori 1 2 5), (0x2A084005, .sshli 1 2 5), (0x2C084005, .sshri 1 2 5), (0x2E084005, .sshai 1 2 5),
   (0x300FFFFF, .smovi 1 0x7ffff), (0x32084187, .slea 1 2 3 7), (0x34080022, .srd 1 34)]

def burinWords : List (Nat × Instr) :=
  [(0x81021071, .ladd 2 1 2 3 2 1), (0x83021071, .lsub 2 1 2 3 2 1), (0x85021071, .lmul 2 1 2 3 2 1), (0x87021071, .lmad 2 1 2 3 2 1),
   (0x89021071, .lmin 2 1 2 3 2 1), (0x8B021071, .lmax 2 1 2 3 2 1), (0x8D021077, .lsel 2 1 2 3 2 7), (0x8F021075, .lcmp 2 1 2 3 2 5),
   (0x91021017, .lcvt 2 1 2 2 7), (0x93021073, .lshf 2 1 2 3 2 3), (0x95021073, .llog 2 1 2 3 2 3), (0x97021009, .lpack 2 1 2 1 1),
   (0x99021009, .lunpk 2 1 2 1 1), (0xAB021078, .wxy 2 1 2 3), (0xA1021016, .lbld 2 1 2 2 6), (0xA3001076, .lbst 2 2 3 2 6),
   (0xA502107A, .fsmp 2 1 2 3 2), (0xA7020000, .facq 2 1), (0xA9020000, .posel 2 1), (0xAD021068, .lmma 2 1 2 3),
   (0xAF001003, .lout 2 2 3), (0xB1020000, .dlchk 2 1), (0xB3001000, .rpj 2 2), (0xB5000001, .bwait 2 1)]

def laneWords : List (Nat × Nat × Instr) :=
  [(0x80020406, 0x04603B3D, .vadd pT), (0x82020406, 0x04603B3D, .vsub pT), (0x84020406, 0x04603B3D, .vmul pT),
   (0x86020406, 0x04603B3D, .vmulh pT), (0x88020406, 0x04603B3D, .vmad pT), (0x8A020406, 0x04603B3D, .vmin pT),
   (0x8C020406, 0x04603B3D, .vmax pT), (0x8E020406, 0x04603B3D, .vdiv pT), (0x90020406, 0x04603B3D, .vand pT),
   (0x90020406, 0x04613B3D, .vor pT), (0x90020406, 0x04623B3D, .vxor pT), (0x90020406, 0x04633B3D, .vandn pT),
   (0x90020406, 0x04643B3D, .vorn pT), (0x90020406, 0x04653B3D, .vxnor pT), (0x92020406, 0x04603B3D, .vshl pT),
   (0x92020406, 0x04613B3D, .vshr pT), (0x92020406, 0x04623B3D, .vsha pT), (0x92020406, 0x04633B3D, .vrol pT),
   (0x94020406, 0x04673B3D, .vcmp pT 7), (0x96020406, 0x04603B3D, .vsel pT), (0x98020406, 0x046E3B3D, .vcvt pT 14),
   (0x9A020406, 0x04603B3D, .vpopc pT), (0x9A020406, 0x04613B3D, .vclz pT), (0x9A020406, 0x04623B3D, .vctz pT),
   (0x9A020406, 0x04633B3D, .vbrev pT), (0x9A020406, 0x04643B3D, .vbfe pT), (0x9A020406, 0x04653B3D, .vbfi pT),
   (0x9C020406, 0x04603B3D, .vmov pT), (0x9C020406, 0x04613B3D, .vmovi pT), (0x9C020406, 0x04623B3D, .vbcast pT),
   (0x9C020406, 0x04633B3D, .vget pT), (0x9E020406, 0x04603B3D, .vperm pT), (0xA0020406, 0x046D3B3D, .vscan pT 13),
   (0xA2020406, 0x04653B3D, .vred pT 5), (0xA4020406, 0x04603B3D, .vwacc pT), (0xA6020406, 0x04603B3D, .vrcp pT),
   (0xA6020406, 0x04613B3D, .vrsq pT), (0xA6020406, 0x04623B3D, .vsqrt pT), (0xA6020406, 0x04633B3D, .vexp2 pT),
   (0xA6020406, 0x04643B3D, .vlog2 pT), (0xA6020406, 0x04653B3D, .vsin pT), (0xA6020406, 0x04663B3D, .vcos pT),
   (0xA6020406, 0x04673B3D, .vtanh pT), (0xA8020406, 0x04603B3D, .vfclass pT), (0xAA020406, 0x04603B3D, .vpack pT),
   (0xAC020406, 0x04603B3D, .vunpk pT), (0xB0020406, 0x04603B3D, .pand pT), (0xB0020406, 0x04613B3D, .por pT),
   (0xB0020406, 0x04623B3D, .pxor pT), (0xB0020406, 0x04633B3D, .pandn pT), (0xB0020406, 0x04643B3D, .pnot pT),
   (0xB0020406, 0x04653B3D, .pmov pT)]

def coreWords : List (Nat × Nat × Instr) :=
  [(0xB2020406, 0x04603B3D, .pany pT), (0xB2020406, 0x04613B3D, .pall pT), (0xB2020406, 0x04623B3D, .pbal pT),
   (0xB4020406, 0x04603B3D, .setx pT), (0xB4020406, 0x04613B3D, .getx pT), (0xB6020406, 0x04613B3D, .brd pT 1),
   (0xB8020406, 0x04603B3D, .join pT), (0xBA020406, 0x04603B3D, .refill pT), (0xBC020406, 0x04603B3D, .ld pT),
   (0xBE020406, 0x04603B3D, .st pT), (0xC0020406, 0x04603B3D, .lds pT), (0xC2020406, 0x04603B3D, .sts pT),
   (0xC4020406, 0x04603B3D, .ldsp pT), (0xC6020406, 0x046F3B3D, .chk pT 15), (0xC8020406, 0x04603B3D, .ldt pT),
   (0xCA020406, 0x04603B3D, .stt pT), (0xCC020406, 0x046A3B3D, .atom pT 10), (0xCE020406, 0x04693B3D, .atoms pT 9),
   (0xD0020406, 0x04603B3D, .fence pT), (0xD2020406, 0x04603B3D, .wpush pT), (0xD4020406, 0x04603B3D, .talloc pT),
   (0xD6020406, 0x04603B3D, .tfree pT), (0xD8020406, 0x04603B3D, .tgive pT), (0xDA020406, 0x04603B3D, .ttake pT),
   (0xDC020406, 0x04603B3D, .xcopy pT), (0xDE020406, 0x04633B3D, .xcopym pT 3), (0xE0020406, 0x04603B3D, .xtpl pT),
   (0xE2020406, 0x04633B3D, .mma pT 3), (0xE4020406, 0x04603B3D, .mblk pT), (0xE6020406, 0x04603B3D, .scla pT),
   (0xEA020406, 0x04603B3D, .mzero pT), (0xE8020406, 0x04603B3D, .mdrain pT), (0xE8020406, 0x04613B3D, .mdrainPeer pT),
   (0xE8020406, 0x04623B3D, .mdrainOpeer pT), (0xEC020406, 0x04603B3D, .cfwait pT), (0xEC020406, 0x04613B3D, .cfadd pT),
   (0xEC020406, 0x04623B3D, .cfset pT), (0xEC020406, 0x04633B3D, .cfrd pT), (0xEE020406, 0x046F3B3D, .chord pT 15),
   (0xF0020406, 0x04603B3D, .smarch pT), (0xF2020406, 0x04603B3D, .bar pT), (0xF2020406, 0x04613B3D, .gbar pT),
   (0xF2020406, 0x04623B3D, .sstep pT), (0xF4020406, 0x04603B3D, .trap pT), (0xF4020406, 0x04613B3D, .eret pT),
   (0xF4020406, 0x04623B3D, .csrr pT), (0xF4020406, 0x04633B3D, .csrw pT), (0xF4020406, 0x04643B3D, .tlbinv pT),
   (0xF4020406, 0x04653B3D, .dbgbrk pT), (0xF6020406, 0x04603B3D, .pslot pT), (0xF6020406, 0x04613B3D, .pguard pT),
   (0xF8020406, 0x04603B3D, .sleep pT)]

def decodesOne (l : List (Nat × Instr)) : Bool := l.all fun e => decodeTableWord 32 e.1 == some e.2
def decodesTwo (l : List (Nat × Nat × Instr)) : Bool := l.all fun e => decodeTableWord 64 (e.1 + e.2.1 * 2 ^ 32) == some e.2.2

theorem test_control_words_decode : decodesOne controlWords = true := by decide +kernel
theorem test_burin_words_decode : decodesOne burinWords = true := by decide +kernel
theorem test_lane_words_decode : decodesTwo laneWords = true := by decide +kernel
theorem test_core_words_decode : decodesTwo coreWords = true := by decide +kernel

/-- Every word above is well-formed, and is the encoding of its instruction. -/
theorem test_encoder_agrees : (controlWords ++ burinWords).all (fun e => e.2.wf && encode e.2 == [BitVec.ofNat 32 e.1]) = true ∧
    (laneWords ++ coreWords).all (fun e => e.2.2.wf && encode e.2.2 == [BitVec.ofNat 32 e.1, BitVec.ofNat 32 e.2.1]) = true := by
  decide +kernel

/-- Words that the manual prints with its examples (R118, R222, R297 to R404). -/
theorem test_printed_words :
    decodeTableWord 64 0x00000050D0006200 = some (.fence { (default : P) with a := 0x31, x3 := 5 }) ∧
    decodeTableWord 64 0x00000010DC061004 = some (.xcopy { (default : P) with d := 3, a := 8, b := 2, x3 := 1 }) ∧
    decodeTableWord 64 0x04910000E2020406 =
      some (.mma { (default : P) with d := 1, a := 2, b := 3, c := 4, ty := 9 } 1) ∧
    decodeTableWord 64 0x04010000EE281004 = some (.chord { (default : P) with d := 20, a := 8, b := 2, c := 4 } 1) ∧
    decodeTableWord 64 0x02690050CC060A02 =
      some (.atom { (default : P) with d := 3, a := 5, b := 1, c := 2, ty := 6, x3 := 5 } 9) ∧
    decodeTableWord 64 0x00030008B0020406 = some (.pandn { (default : P) with d := 1, a := 2, b := 3, g := 4 }) ∧
    decodeTableWord 32 0x24B29FFC = some (.sandi 22 20 0x1FFC) ∧ decodeTableWord 32 0x34380043 = some (.srd 7 67) ∧
    decodeTableWord 32 0x10218000 = some (.lbrk 1 3) ∧ decodeTableWord 32 0xA414A058 = some (.fsmp 0 10 20 2 0) ∧
    decodeTableWord 32 0x900E301D = some (.lcvt 0 7 6 3 5) ∧ decodeTableWord 32 0xB4000001 = some (.bwait 0 1) := by
  decide +kernel

/-- R57, R63, R71: reserved opcodes and fields that must be 0 are refused, each by name. -/
theorem test_refused_words :
    decodeWords [0x18000000] = .error .ctrlOpcode ∧ decodeWords [0x36000000] = .error .ctrlOpcode ∧
    decodeWords [0x20084191] = .error .ctrlField ∧ decodeWords [0x02E00000] = .error .ctrlField ∧
    decodeWords [0x0C000001] = .error .ctrlField ∧ decodeWords [0x80040206] = .error .short ∧
    decodeBurin 0xB6000000 = .error .burin ∧ decodeBurin 0x20084180 = .error .burin ∧
    decodeBurin 0xAE004804 = .error .burin := by
  decide +kernel

/-! ## Well-formedness: an ill-formed term for each check -/

theorem test_wf_refuses_core : ([.br 7 1 0, .br 0 1 0, .lbrk 7 1, .loop 1 0 1, .loop 1 1 0, .loopi 1 0 1, .loopi 1 1 0, .lcnt 1 4,
    .srd 1 128, .vcmp pT 8, .vcvt pT 15, .vscan pT 6, .vscan pT 14, .vred pT 6, .brd pT 2, .atom pT 11, .atoms pT 11, .xcopym pT 4,
    .mma pT 4] : List Instr).all (fun i => !i.wf) = true := by decide +kernel
theorem test_wf_refuses_burin : ([.ladd 0 1 2 3 1 1, .lsub 0 1 2 3 0 2, .lmul 0 1 2 3 3 1, .lmad 0 1 2 3 0 7, .lmin 0 1 2 3 1 1,
    .lmax 0 1 2 3 0 2, .lcmp 0 1 2 3 0 6, .lshf 0 1 2 3 0 4, .lshf 0 1 2 3 1 0, .llog 0 1 2 3 0 5, .llog 0 1 2 3 3 0, .llog 0 1 2 3 0 4,
    .lpack 0 1 2 0 0, .lpack 0 1 2 1 3, .lunpk 0 1 2 3 2, .lbld 0 1 2 1 0, .lbst 0 1 2 3 0, .fsmp 0 1 2 3 3, .lout 0 1 4,
    .bwait 0 2] : List Instr).all (fun i => !i.wf) = true := by decide +kernel
theorem test_wf_refuses_events : ([.wakeWrite 0x100000 [] none, .clauseIssue 4, .longLatencyWriteback 16 0, .courseEnd 16, .copyBegin 4,
    .copyLineTransfer 4 0, .copyComplete 4, .peerTileWrite (.channel 4), .fabricAccess 0 0 (.write 4096 []),
    .ttakeComplete 4, .sleepExpire 16 0, .sleepExpire 0 8, .yieldExpire 16 0, .yieldExpire 0 8, .consortRestore 256, .registerWrite 0x100000 0, .debugHalt 16, .debugStep 16, .debugResume 16,
    .debugRead 16 (.s 1), .debugWrite 16 (.s 1) 0 false, .tlbflush 3 0 0, .keyloadLoad 4096 [], .keyloadZeroise 4096]
    : List Instr).all (fun i => !i.wf) = true := by decide +kernel

/-! ## Single steps -/

/-- Reset with key slot 0, a page table at 0 that maps the first 1 GiB onto itself, and a launch of PASID 5 with root 0. -/
def base : State := { State.reset with
  keys := [0], mem := [(0, 0x01), (1, 0x10), (0x1000, 0x01), (0x1001, 0x20), (0x2000, 0x0F)]
  launches := [{ noLaunch with lid := 0, pasid := 5, root := 0, prio := 4 }] }

/-- A clause of the words given, at its first word, of one course of 32 lanes on core 0. -/
def clause (ws : List Word) : State := readyClause base ws

/-- The parts of the clause whose turn it is. -/
def parts (s : State) (h : (cur? s).isSome = true) : Cur := (cur? s).get h

/-- Change the consort of the clause, or its course. -/
def onCon (s : State) (f : Consort → Consort) : State := { s with consorts := s.consorts.map f }
def onCrs (s : State) (f : Course → Course) : State := onCon s fun c => { c with courses := c.courses.map f }

/-- What an outcome leaves: the state, the course, a scalar register, a lane. -/
def after (o : Host.Outcome State Fault Refusal) : State := match o with
  | .next t => t
  | _ => State.reset
def crsOf (s : State) : Option Course := courseAt s 0 0
def sOf (o : Host.Outcome State Fault Refusal) (r : Nat) : Option DWord := (crsOf (after o)).map (sGet · r)
def vOf (o : Host.Outcome State Fault Refusal) (r l : Nat) : Option LaneVal := (crsOf (after o)).map (vGet · r l)

/-- Two words of a clause, with s1 = all ones, s2 = 1, s3 = 2^63, s4 = 0x4000. -/
def sc : State := onCrs (clause [0, 0]) fun c => { c with s := [(1, 0xFFFFFFFFFFFFFFFF), (2, 1), (3, 0x8000000000000000), (4, 0x4000)] }

/-- R360: results wrap, and comparisons are signed or unsigned; s0 takes no value (R27). -/
theorem test_scalar_alu : sOf (exec (.sadd 5 1 2) sc) 5 = some 0 ∧ sOf (exec (.ssub 5 2 1) sc) 5 = some 2 ∧
    sOf (exec (.ssha 5 3 1) sc) 5 = some 0xFFFFFFFFFFFFFFFF ∧ sOf (exec (.sshr 5 3 1) sc) 5 = some 1 ∧
    sOf (exec (.smulh 5 1 2) sc) 5 = some 0xFFFFFFFFFFFFFFFF ∧ sOf (exec (.sslt 5 1 2) sc) 5 = some 1 ∧
    sOf (exec (.ssltu 5 1 2) sc) 5 = some 0 ∧ sOf (exec (.smax 5 1 2) sc) 5 = some 1 ∧
    sOf (exec (.smaxu 5 1 2) sc) 5 = some 0xFFFFFFFFFFFFFFFF ∧ sOf (exec (.sadd 0 1 1) sc) 0 = some 0 := by decide +kernel

/-- R361, R364, R367: immediates extend their sign. -/
theorem test_scalar_immediates : sOf (exec (.saddi 5 2 0x1FFC) sc) 5 = some 0xFFFFFFFFFFFFFFFD ∧
    sOf (exec (.smovi 5 0x7FFFE) sc) 5 = some 0xFFFFFFFFFFFFFFFE ∧ sOf (exec (.sandi 5 4 0x1FFC) sc) 5 = some 0x4000 ∧
    sOf (exec (.slea 5 4 2 3) sc) 5 = some 0x4008 := by decide +kernel

/-- R295, R299: a branch on zero, and the return address of CALL. -/
theorem test_control : let s := onCrs (clause [0]) fun c => { c with s := [(1, 5)] }
    let pcOf := fun o => (crsOf (after o)).bind fun c => (alGet c.splits 0).map (·.pc)
    pcOf (exec (.br 1 0 4) s) = some 0x1010 ∧ pcOf (exec (.br 1 1 4) s) = some 0x1008 ∧
    pcOf (exec (.call 0x7FFF) s) = some 0xFFC ∧ sOf (exec (.call 0x7FFF) s) 63 = some 0x1008 := by decide +kernel

def vP (f : P) : P := { f with d := 3, a := 1, b := 2 }
/-- v1 and v2 of lane 0: the largest i32 and 1 as integers; as floats 1.0 and 2^-24. -/
def vs (a b : Word) : State := onCrs (clause [0, 0]) fun c => { c with v := [(64, ⟨a, 0⟩), (128, ⟨b, 0⟩)] }

/-- R381: integers wrap, or clamp with SAT; a tie goes to even (R78); the poison of a source is passed on (R222). -/
theorem test_vadd : vOf (exec (.vadd (vP { (default : P) with ty := 2 })) (vs 0x7FFFFFFF 1)) 3 0 = some ⟨0x80000000, 0⟩ ∧
    vOf (exec (.vadd (vP { (default : P) with ty := 2, sat := 1 })) (vs 0x7FFFFFFF 1)) 3 0 = some ⟨0x7FFFFFFF, 0⟩ ∧
    vOf (exec (.vadd (vP { (default : P) with ty := 10 })) (vs 0x3F800000 0x33800000)) 3 0 = some ⟨0x3F800000, 0⟩ ∧
    vOf (exec (.vadd (vP { (default : P) with ty := 10, rm := 3 })) (vs 0x3F800000 0x33800000)) 3 0 = some ⟨0x3F800001, 0⟩ := by
  decide +kernel

/-- R242, R384: 1.0 / 3.0 in f32, and an integer division by 0. -/
theorem test_vdiv : vOf (exec (.vdiv (vP { (default : P) with ty := 10 })) (vs 0x3F800000 0x40400000)) 3 0 = some ⟨0x3EAAAAAB, 0⟩ ∧
    vOf (exec (.vdiv (vP { (default : P) with ty := 6 })) (vs 7 0)) 3 0 = some ⟨0xFFFFFFFF, 0⟩ := by decide +kernel

/-- R399: a shift amount is taken modulo the width. -/
theorem test_vshl : vOf (exec (.vshl (vP { (default : P) with ty := 6 })) (vs 1 33)) 3 0 = some ⟨2, 0⟩ := by decide +kernel

/-- R41, R352: SETX of 0x00FF, and the ballot of p0 under it. -/
theorem test_setx_pbal : let p : P := { (default : P) with b := 0xFF, bk := 2 }
    sOf (exec (.pbal { (default : P) with d := 5 }) { (after (exec (.setx p) (clause [0, 0, 0, 0]))) with turn := .slot 0 0 }) 5 =
      some 0xFF := by decide +kernel

/-- R143: a count wraps at 2^15 and keeps ERR. -/
theorem test_cfadd : let s := onCon (clause [0, 0]) fun c => { c with cf := [(7, 0xFFFF)] }
    ((conAt (after (exec (.cfadd { (default : P) with d := 7, b := 1, bk := 2 }) s)) 0).map fun c => smGet 0 c.cf 7) = some 0x8000 := by
  decide +kernel

/-- R331, R372: the low 2 bytes of a scalar register stored at 0x4000, little-endian, and no other byte. -/
theorem test_store : (store sc 5 0 0x4000 (toBytes 2 0x123456)).toOption.map (·.mem) = some (base.mem ++ [(0x4000, 0x56), (0x4001, 0x34)]) := by
  decide +kernel

/-- R213, R216, R231: TRAP in a kernel without a trap entry goes to the Capo agent, which halts a debugged course. -/
theorem test_trap : (crsOf (after (exec (.trap { (default : P) with b := 9, bk := 2 }) { sc with attached := [5] }))).map
    (fun c => (c.trapc, c.trapv, c.halted)) = some (1, 9, true) := by decide +kernel

/-- R77, R341: R = 1.0 and A = 1.0 pack to 0xC00003FF. -/
theorem test_lpack : let s := base.withFetchWord 32 0x96124008
    let s := setBurin s 0 { (burinAt s 0) with src := ⟨[(8, 0x3C00000000003C00)], [], []⟩ }
    smGet 0 (burinAt (after (exec (.lpack 0 9 8 1 0) s)) 0).regs.w 9 = 0xC00003FF := by decide +kernel

/-- R343: a rotate of 16-bit lanes. -/
theorem test_lshf : let s := base.withFetchWord 32 0x96124008
    let s := setBurin s 0 { (burinAt s 0) with src := ⟨[(2, 0x8001), (3, 0x0011)], [], []⟩ }
    smGet 0 (burinAt (after (exec (.lshf 0 1 2 3 0 3) s)) 0).regs.w 1 = 0x0003 := by decide +kernel

/-- R281: a written line under another key slot fails its check. -/
theorem test_wrong_key : lineOk { base with lines := [(1, ⟨3, 0, false⟩)] } 1 0 = false ∧ lineOk base 1 7 = true := by decide +kernel

/-- The page table of the tests maps 0x4000 to itself, and an address above 2^57 is not canonical (R105, R107). -/
theorem test_translate : (translate base 5 0 .read 0x4000).toOption.map (·.frame) = some 0x4000 ∧
    translate base 5 0 .read (2 ^ 57) = .error (.xlat rNonCanon) := by decide +kernel


/-! ## Hypotheses: for each statement, states and operands that meet them -/

/-- A loop record of a loop word without a stage. -/
def lr (start stop count stages t : Nat) : LoopRec := ⟨start, stop, count, stages, t, 0, 0, none⟩
theorem runs_idle (s : State) (h : (cur? s).isSome = true) (hp : (parts s h).c.pend = []) (vs ss : List Nat)
    (ho : overtaken (parts s h) = false := by rfl) : Runs s (parts s h) vs ss :=
  ⟨(Option.some_get h).symm, by simp [hp], by simp [interlocked, hp], ho⟩
theorem runsB_of (s : State) (b : Nat)
    (h : s.turn = .burin b ∧ (burinAt s b).running = true ∧ (burinAt s b).bundle ≠ []) : RunsB s b (burinAt s b) :=
  ⟨h.1, rfl, h.2.1, h.2.2⟩
theorem belongs_of (s : State) (x : Cur)
    (h : (conAt s x.con.cid).isSome = true ∧ (crsAt x.con x.c.idx).isSome = true ∧ x.con.dying = false) : Belongs s x :=
  ⟨h.1, h.2.1, h.2.2⟩

/-- The parts of the two words; of one word; of three; of one word with a loop stack; in an etch with s1 volatile. -/
def xc : Cur := parts sc rfl
def s1 : State := onCrs (clause [0]) fun c => { c with s := [(1, 1), (2, 3), (4, 0x4000), (63, 0x4000)] }
def x1 : Cur := parts s1 rfl
def s3 : State := clause [0, 0, 0]
def x3 : Cur := parts s3 rfl
def inLoops (ls : List LoopRec) : State := onCrs s1 fun c => { c with splits := c.splits.map fun p => (p.1, { p.2 with loops := ls }) }
def xLoops (ls : List LoopRec) : Cur := parts (inLoops ls) rfl
def sEtch : State := onCon s1 fun c => { c with
  plate := { c.plate with mode := 1 }, courses := c.courses.map fun c => { c with driver := some true, marks := [(1, .volatile)] } }
def xEtch : Cur := parts sEtch rfl
theorem runs_sc (vs ss : List Nat) : Runs sc xc vs ss := runs_idle _ _ rfl _ _
theorem runs_s1 (vs ss : List Nat) : Runs s1 x1 vs ss := runs_idle _ _ rfl _ _
theorem runs_s3 (vs ss : List Nat) : Runs s3 x3 vs ss := runs_idle _ _ rfl _ _
theorem runs_etch (vs ss : List Nat) : Runs sEtch xEtch vs ss := runs_idle _ _ rfl _ _
theorem runs_loops (ls : List LoopRec) (vs ss : List Nat) : Runs (inLoops ls) (xLoops ls) vs ss := runs_idle _ _ rfl _ _

/-- A Burin core at the first slot of a bundle, with s1 = 5, s2 = 0 and s3 = 32, and loops; and at the last slot. -/
def burinLoops (ls : List LoopRec) : State := let s := base.withFetchWord 32 0x81A21961
  setBurin s 0 { (burinAt s 0) with pos := 0, loops := ls, src := ⟨[], [(1, 5), (3, 32)], []⟩ }
def sB : State := burinLoops []
def xB : Burin := burinAt sB 0
theorem runs_burin (ls : List LoopRec) : RunsB (burinLoops ls) 0 (burinAt (burinLoops ls) 0) := runsB_of _ _ ⟨rfl, rfl, List.cons_ne_nil _ _⟩
theorem runs_sB : RunsB sB 0 xB := runs_burin []

theorem hyp_WordDone : Belongs sc xc ∧ Belongs s1 x1 ∧ ¬ Last xc 1 ∧ Last xc 2 ∧ (fallTo xc.iss.hdr (nextClause xc) xc.sp.loops).isSome ∧
    nextClause x1 = 0x1008 ∧ x1.iss.hdr = 0x1000 ∧
    (xLoops [lr 0x1000 0x1008 2 1 0]).sp.loops = [lr 0x1000 0x1008 2 1 0] ∧ nextClause (xLoops [lr 0x1000 0x1008 2 1 0]) = 0x1008 := by
  refine ⟨belongs_of _ _ (by decide +kernel), belongs_of _ _ (by decide +kernel), ?_⟩
  unfold Last
  decide +kernel
/-- The loop clauses of WordDone, each at the edge of its range, for the body that ends at this clause, the next, or past it. -/
theorem hyp_WordDone_loops : let x := x1
    (nextClause x = (lr 0x1000 0x1008 3 1 1).stop ∧ 1 + 2 < 3 + 1) ∧
    (nextClause x = (lr 0x1000 0x1008 2 1 1).stop ∧ ¬ 1 + 2 < 2 + 1) ∧
    (let l : LoopRec := { lr 0x1000 0x1008 3 2 2 with upto := some 2 }
     nextClause x = l.stop ∧ l.upto = some 2 ∧ 2 < l.count ∧ 2 + l.stages ≤ l.t + 2) ∧
    ((lr 0x1000 0x100C 2 1 1).start ≤ x.iss.hdr ∧ nextClause x < 0x100C) ∧
    ((lr 0x1000 0x1004 2 1 1).start ≤ x.iss.hdr ∧ x.iss.hdr < 0x1004 ∧ 0x1004 < nextClause x) := by decide +kernel

theorem hyp_ScalarWords : scalarFn (.sadd 5 1 2) = some (5, [1, 2], fun r => r 1 + r 2) ∧ Runs sc xc [] [5, 1, 2] ∧ RunsB sB 0 xB :=
  ⟨rfl, runs_sc _ _, runs_sB⟩

theorem hyp_BundleOrder : xB.pos < 3 ∧ (∃ x : Burin, x = { xB with pos := 3 } ∧ 3 ≤ x.pos ∧ x.exiting = false ∧ x.npc = none ∧
      fallTo x.pc (x.pc + 16) x.loops = some (x.pc + 16, [], false)) ∧
    (∃ x : Burin, x = { xB with pos := 3, npc := some 64 } ∧ 3 ≤ x.pos ∧ x.exiting = false ∧ x.npc = some 64) := by
  refine ⟨by decide +kernel, ⟨_, rfl, by decide +kernel⟩, ⟨_, rfl, by decide +kernel⟩⟩
/-- A bundle whose first word, at address 0, is no operation. -/
theorem hyp_BundleOrder_ill : let s := setBurin base 0 { xB with bundle := [] }
    (burinAt s 0).late = false ∧ instantsDue (headAt s (burinAt s 0).head) = false ∧ (fetchWords s coreInit (dispCtx s (burinAt s 0).head) (burinAt s 0).pc 4).toOption.map (·.length) = some 4 ∧
    (match fetchWords s coreInit (dispCtx s (burinAt s 0).head) (burinAt s 0).pc 4 with
      | .ok ws => (match decodeSlot 0 (ws.getD 0 0) with
        | .error _ => true
        | .ok _ => false)
      | .error _ => false) = true := by decide +kernel

/-- A bundle at 0x4000 of no-ops, of which slot 1 names stage 1, outside a loop. -/
theorem hyp_BundleOrder_stage : let s := setBurin { base with mem := base.mem ++ [(0x4006, 0x80)] } 0 { xB with bundle := [], pc := 0x4000 }
    let x := burinAt s 0
    ∃ ws, fetchWords s coreInit (dispCtx s x.head) x.pc 4 = .ok ws ∧ decodeSlot 0 (ws.getD 0 0) = .ok .nop ∧
      (x.loops.head?).elim 1 (·.stages) ≤ stageOf 1 (ws.getD 1 0) := ⟨[0, 0x800000, 0, 0], by decide +kernel⟩

theorem hyp_SpecialSources : Runs sc xc [] [5] ∧ (srdVal sc xc 1).isSome ∧ etching xc = false ∧ srdVal sc xc 0 = none ∧
    Runs sEtch xEtch [] [5] ∧ (srdVal sEtch xEtch 40).isSome ∧ etching xEtch = true ∧ (launchAt sc xc.con.launch).isSome ∧
    RunsB sB 0 xB ∧ (burinSrc sB 0 xB 1).isSome ∧ burinSrc sB 0 xB 127 = none :=
  ⟨runs_sc _ _, by decide +kernel, by decide +kernel, by decide +kernel, runs_etch _ _, by decide +kernel, by decide +kernel,
    by decide +kernel, runs_sB, by decide +kernel, by decide +kernel⟩

theorem hyp_ControlFlow : Runs s1 x1 [] [1] ∧ isLast x1 1 = true ∧ ¬ condHolds 1 (sGet x1.c 1) ∧ condHolds 2 (sGet x1.c 1) ∧
    IsTarget 0x1010 x1.iss.hdr 4 4 ∧ IsTarget (2 ^ 64 - 4) 0 4 0x7FFF ∧ Jumps 0x1010 x1.sp.loops [] ∧
    Runs (inLoops [lr 0x1000 0x1008 2 2 0]) (xLoops [lr 0x1000 0x1008 2 2 0]) [] [1] ∧
    JumpsBadly 0x1010 (xLoops [lr 0x1000 0x1008 2 2 0]).sp.loops ∧
    isVolatile x1.c 4 = false ∧ (sGet x1.c 4).toNat % 4 = 0 ∧ isVolatile x1.c 2 = false ∧ (sGet x1.c 2).toNat % 4 ≠ 0 ∧
    (Jumps (sGet x1.c 4).toNat x1.sp.loops [] ∧ Runs sc xc [] (List.range 64) ∧ isLast xc 1 = false) := by
  refine ⟨runs_s1 _ _, by decide +kernel, by show ¬ (_ : Int) = 0; decide +kernel, by show (_ : Int) ≠ 0; decide +kernel,
    by unfold IsTarget; decide +kernel, by unfold IsTarget; decide +kernel, rfl, runs_loops _ _ _, ⟨by decide +kernel, by decide +kernel⟩, by decide +kernel, by decide +kernel,
    by decide +kernel, by decide +kernel, rfl, runs_sc _ _, by decide +kernel⟩

theorem hyp_Loops : Runs s1 x1 [] [2] ∧ isLast x1 1 = true ∧ etching x1 = false ∧ (sGet x1.c 2).toNat ≠ 0 ∧ x1.sp.loops.length < 4 ∧
    (sGet x1.c 5).toNat = 0 ∧ 4 ≤ (xLoops (List.replicate 4 (lr 0 0 0 1 0))).sp.loops.length ∧
    condHolds 2 (sGet x1.c 2) ∧ ¬ condHolds 1 (sGet x1.c 2) ∧ x1.sp.loops = [] ∧
    Runs sEtch xEtch [] [1] ∧ isLast xEtch 1 = true ∧ etching xEtch = true ∧ isVolatile xEtch.c 1 = true ∧ (sGet xEtch.c 1).toNat ≠ 0 ∧
    xEtch.sp.loops.length < 4 := by
  refine ⟨runs_s1 _ _, by decide +kernel, by decide +kernel, by decide +kernel, by decide +kernel, by decide +kernel, by decide +kernel,
    by show (_ : Int) ≠ 0; decide +kernel, by show ¬ (_ : Int) = 0; decide +kernel, by decide +kernel, runs_etch _ _, by decide +kernel⟩
/-- In an etch: LOOP of a register that is not volatile, LOOPI, and LBRK of one that is and one that is not. -/
theorem hyp_Loops_etch : Runs sEtch xEtch [] [2] ∧ Runs sEtch xEtch [] [] ∧ isVolatile xEtch.c 2 = false ∧ (sGet xEtch.c 2).toNat ≠ 0 ∧
    (3 : BitVec 12).toNat ≠ 0 ∧ xEtch.sp.loops = [] := ⟨runs_etch _ _, runs_etch _ _, by decide +kernel⟩
theorem hyp_Loops_breaks : let x := xLoops [lr 0x1000 0x1008 2 1 0]
    let y := xLoops [lr 0x1000 0x1008 2 2 0]
    isLast x 1 = true ∧ etching x = false ∧ x.sp.loops.map (·.stages) = [1] ∧ y.sp.loops.map (·.stages) = [2] ∧
    y.iss.header.extractLsb' 0 3 = 0 ∧
    ({ y with iss := { y.iss with header := 1 } } : Cur).iss.header.extractLsb' 0 3 ≠ 0 := by decide +kernel

def jr (count : Nat) (d : Option Deferred) : JoinRec := ⟨0x1000, none, count, 0, 0, d⟩
/-- One word, in a split of join record 2. -/
def sJoin (j : JoinRec) : State := onCrs s1 fun c => { c with
  recs := [(2, j)], splits := c.splits.map fun p => (p.1, { p.2 with jrec := some 2 }) }
def xJoin (j : JoinRec) : Cur := parts (sJoin j) rfl
def jrLast : JoinRec := jr 1 (some ⟨1, 1, 0x2000, [], false⟩)
theorem hyp_ExitYield : Runs s1 x1 [] [] ∧ isLast x1 1 = true ∧ x1.sp.jrec = none ∧ (refills s1 x1.con && onlySplit x1) = false ∧
    (∀ j, Runs (sJoin j) (xJoin j) [] [] ∧ (xJoin j).sp.jrec = some 2) ∧
    alGet (xJoin (jr 2 none)).c.recs 2 = some (jr 2 none) ∧ 2 ≤ (jr 2 none).count ∧
    alGet (xJoin jrLast).c.recs 2 = some jrLast ∧ jrLast.count = 1 ∧ jrLast.deferred.isSome ∧ Belongs (sJoin jrLast) (xJoin jrLast) :=
  ⟨runs_s1 _ _, by decide +kernel, by decide +kernel, by decide +kernel, fun _ => ⟨runs_idle _ _ rfl _ _, rfl⟩, by decide +kernel,
    by decide +kernel, rfl, rfl, rfl, belongs_of _ _ (by decide +kernel)⟩
/-- A consort of a launch with REFILL, whose course has one split. -/
theorem hyp_ExitYield_refill : let s := { s1 with launches := s1.launches.map fun l => { l with refill := true } }
    ∃ x, Runs s x [] [] ∧ isLast x 1 = true ∧ x.sp.jrec = none ∧ (refills s x.con && onlySplit x) = true :=
  ⟨parts _ rfl, runs_idle _ _ rfl _ _, by decide +kernel⟩

/-- A record whose members are all gone but this one, with masks, of a join clause at 0x4000 that holds its JOIN alone. -/
theorem hyp_ExitYield_merges : let j : JoinRec := { jr 1 none with addr := 0x4000, accM := 1, accE := 1 }
    let s := { sJoin j with mem := base.mem ++ [(0x4003, 0x10)] }
    ∃ b, alGet (xJoin j).c.recs 2 = some j ∧ j.count = 1 ∧ j.deferred = none ∧ j.accM ≠ 0 ∧
      load s (ctxOf s (xJoin j).con).1 (ctxOf s (xJoin j).con).2 j.addr 4 = .ok b ∧ ofBytes b / 2 ^ 27 = 2 :=
  ⟨[0, 0, 0, 0x10], rfl, rfl, rfl, by decide +kernel, by decide +kernel, by decide +kernel⟩

/-- An arrival at a record that awaits more, that has a deferred half, that has masks, and that has none, outermost or not. -/
theorem hyp_ExitYield_arrive : (∀ j ∈ [jr 2 none, jr 1 none, jrLast, { (jr 1 none) with parent := some 1 }],
      alGet [(2, j), (1, jr 2 none)] 2 = some j) ∧ 2 ≤ (jr 2 none).count ∧ jrLast.deferred = some ⟨1, 1, 0x2000, [], false⟩ ∧
    (jr 1 none).deferred = none ∧ (jr 1 none).accM ||| 1 ≠ 0 ∧ (jr 1 none).accM ||| 0 = 0 ∧ (jr 1 none).parent = none := by decide +kernel
/-- A join clause at 0x4000 of two words, which can be read; and one that cannot. -/
theorem hyp_ExitYield_after : let s := { s1 with mem := base.mem ++ [(0x4003, 0x18)] }
    (load s (ctxOf s x1.con).1 (ctxOf s x1.con).2 0x4000 4).toOption.map (fun b => ofBytes b / 2 ^ 27) = some 3 ∧
    (load s (ctxOf s x1.con).1 (ctxOf s x1.con).2 (2 ^ 57) 4).toOption = none ∧ Belongs s1 x1 :=
  ⟨by decide +kernel, by decide +kernel, belongs_of _ _ (by decide +kernel)⟩
/-- The running split's store, a store of split 3, and one that waits at record 2, which is completed. -/
theorem hyp_ExitYield_stores : let x := xJoin (jr 1 none)
    (∀ sp ∈ [some x.spi, some 3, some 10, none], ∃ d : Dirty, d = ⟨0x100, x.con.cid, x.c.idx, 1, sp⟩) ∧ 3 < 8 ∧ 3 ≠ x.spi ∧ 8 + 2 ≠ x.spi ∧
    (alGet x.c.recs 2).isSome = true ∧ alGet (smDel x.c.recs 2) 2 = none := by
  refine ⟨fun sp _ => ⟨_, rfl⟩, ?_⟩
  decide +kernel

theorem hyp_BurinControl : RunsB sB 0 xB ∧ ¬ condHolds 1 (bs xB 1) ∧ condHolds 2 (bs xB 1) ∧ IsTarget 64 xB.pc 16 4 ∧ Jumps 64 xB.loops [] ∧
    JumpsBadly 64 (burinAt (burinLoops [lr 0 16 2 2 0]) 0).loops ∧ (bs xB 1).toNat % 16 ≠ 0 ∧ (bs xB 3).toNat % 16 = 0 ∧
    (bs xB 1).toNat ≠ 0 ∧ (bs xB 2).toNat = 0 ∧ xB.loops.length < 4 ∧
    4 ≤ (burinAt (burinLoops (List.replicate 4 (lr 0 16 2 1 0))) 0).loops.length ∧
    (burinAt (burinLoops [lr 0 16 2 1 0]) 0).loops = [lr 0 16 2 1 0] ∧ (∀ ls, RunsB (burinLoops ls) 0 (burinAt (burinLoops ls) 0)) := by
  refine ⟨runs_sB, by show ¬ (_ : Int) = 0; decide +kernel, by show (_ : Int) ≠ 0; decide +kernel, by unfold IsTarget; decide +kernel, rfl,
    ⟨by decide +kernel, by decide +kernel⟩, by decide +kernel, by decide +kernel, by decide +kernel, by decide +kernel, by decide +kernel,
    by decide +kernel, rfl, runs_burin⟩

/-- Two words, with v1 and v2 of lane 0; and the same with the flag of a division by 0 enabled. -/
def sv : State := vs 0x3F800000 0x3F800000
def xv : Cur := parts sv rfl
theorem runs_sv (vs ss : List Nat) : Runs sv xv vs ss := runs_idle _ _ rfl _ _
def sFpx : State := onCrs (vs 0x3F800000 0) fun c => { c with ncr := 0x3F00 }
def xFpx : Cur := parts sFpx rfl
theorem runs_fpx (vs ss : List Nat) : Runs sFpx xFpx vs ss := runs_idle _ _ rfl _ _
/-- The same two words with no lane active. -/
def sNone : State := onCrs sv fun c => { c with splits := c.splits.map fun p => (p.1, { p.2 with exec := 0 }) }
def xNone : Cur := parts sNone rfl
theorem runs_none (vs ss : List Nat) : Runs sNone xNone vs ss := runs_idle _ _ rfl _ _

theorem hyp_LaneResults_arith : ∃ q, laneArith (.vadd (vP { (default : P) with ty := 10 })) = some q ∧ Runs sv xv (vregsOf q.form.regs) (bScalar q.p) ∧
    active xv q.p ≠ 0 ∧ formErr sv xv q.p q.form = none ∧ queuesReady xv q.reads (some q.p.d.toNat) = true ∧
    fpx? xv.c ((lanesOf (active xv q.p) xv.c.width).map (q.lane sv xv)) = none :=
  ⟨_, rfl, runs_sv _ _, by decide +kernel, by decide +kernel, by decide +kernel, by decide +kernel⟩
/-- A result that is pushed on queue 0. -/
theorem hyp_LaneResults_bits : ∃ q, laneBitwise (.vand { (default : P) with d := 248, a := 1, b := 2, ty := 6 }) = some q ∧
    Runs sv xv (vregsOf q.form.regs) (bScalar q.p) ∧ active xv q.p ≠ 0 ∧ formErr sv xv q.p q.form = none ∧
    queuesReady xv q.reads (some q.p.d.toNat) = true ∧ fpx? xv.c ((lanesOf (active xv q.p) xv.c.width).map (q.lane sv xv)) = none :=
  ⟨_, rfl, runs_sv _ _, by decide +kernel, by decide +kernel, by decide +kernel, by decide +kernel⟩
theorem hyp_LaneResults_function : ∃ q, laneFunction (.vsqrt { (default : P) with d := 3, a := 1, ty := 10 }) = some q ∧
    Runs sv xv (vregsOf q.form.regs) (bScalar q.p) ∧ active xv q.p ≠ 0 ∧ formErr sv xv q.p q.form = none ∧
    queuesReady xv q.reads (some q.p.d.toNat) = true ∧ fpx? xv.c ((lanesOf (active xv q.p) xv.c.width).map (q.lane sv xv)) = none :=
  ⟨_, rfl, runs_sv _ _, by decide +kernel, by decide +kernel, by decide +kernel, by decide +kernel⟩
theorem hyp_LaneResults_move : ∃ q, laneMove (.vmov { (default : P) with d := 4, b := 2, ty := 7 }) = some q ∧
    Runs sv xv (vregsOf q.form.regs) (bScalar q.p) ∧ active xv q.p ≠ 0 ∧ formErr sv xv q.p q.form = none ∧
    queuesReady xv q.reads (some q.p.d.toNat) = true ∧ fpx? xv.c ((lanesOf (active xv q.p) xv.c.width).map (q.lane sv xv)) = none :=
  ⟨_, rfl, runs_sv _ _, by decide +kernel, by decide +kernel, by decide +kernel, by decide +kernel⟩

theorem hyp_Scans : let p : P := { (default : P) with d := 3, a := 1, ty := 2 }
    Runs sc xc (vregsOf (scanForm p 0).regs) (bScalar p) ∧ active xc p ≠ 0 ∧ formErr sc xc p (scanForm p 0) = none ∧
    queuesReady xc [p.a.toNat] (some p.d.toNat) = true ∧ enabled xc.c = 0 ∧ ∀ l, (srcVal xc (regW p.ty.toNat) p.a.toNat l).2 = 0 :=
  ⟨runs_sc _ _, by decide +kernel, by decide +kernel, by decide +kernel, by decide +kernel, fun _ => rfl⟩

theorem hyp_PackedLanes : let p : P := { (default : P) with d := 8, a := 1, ty := 0 }
    let win := window p.a.toNat (32 / tyBits p.ty.toNat)
    let f : Form := { stdForm p packTypes false false 0 false false with
      other := decide (p.a.toNat < 248), regs := (p.d.toNat, 32) :: win.map (fun r => (r, 32)) }
    let win' := window p.d.toNat (32 / tyBits p.ty.toNat)
    let g : Form := { stdForm p packTypes false false 0 false false with
      other := decide (p.d.toNat < 248), regs := (p.a.toNat, 32) :: win'.map (fun r => (r, 32)) }
    packTypes.contains p.ty.toNat = true ∧ p.a.toNat + 32 / tyBits p.ty.toNat ≤ 248 ∧ Runs sv xv (vregsOf f.regs) (bScalar p) ∧ active xv p ≠ 0 ∧
    formErr sv xv p f = none ∧ queuesReady xv [] (some p.d.toNat) = true ∧
    p.d.toNat + 32 / tyBits p.ty.toNat ≤ 248 ∧ Runs sv xv (vregsOf g.regs) [] ∧ formErr sv xv p { g with regs := [] } = none ∧
    formErr sv xv p g = none ∧ queuesReady xv [p.a.toNat] none = true :=
  ⟨by decide +kernel, by decide +kernel, runs_sv _ _, by decide +kernel, by decide +kernel, by decide +kernel, by decide +kernel,
    runs_sv _ _, by decide +kernel, by decide +kernel, by decide +kernel⟩

/-- VUNPK with a queue register as D, and with a window that ends at v249. -/
theorem hyp_PackedLanes_stops : (∀ d ∈ [(248 : BitVec 8), 246], let p : P := { (default : P) with d := d, a := 1, ty := 0 }
    active xv p ≠ 0 ∧ formErr sv xv p { stdForm p packTypes false false 0 false false with regs := [] } = none) ∧
    (∀ vs ss, Runs sv xv vs ss) ∧ 248 < (246 : BitVec 8).toNat + 32 / tyBits 0 := ⟨by decide +kernel, runs_sv, by decide⟩

theorem hyp_LaneTests : let p : P := { (default : P) with d := 1, a := 1, b := 2, ty := 2 }
    let reads := readsOf p true true false
    let f : Form := { stdForm p (setW ++ setF) false false 0 true false with
      other := decide (p.d.toNat < 8), regs := reads.map (fun r => (r, regW p.ty.toNat)) }
    let outs := laneWise sv p true false (fun _ a b _ => let r := cmpTest p.ty.toNat 0 a b; (if r.1 then 1 else 0, r.2)) xv
      (lanesOf (active xv p) xv.c.width)
    Runs sv xv (vregsOf f.regs) (bScalar p) ∧ active xv p ≠ 0 ∧ formErr sv xv p f = none ∧ queuesReady xv reads none = true ∧
    (∀ o ∈ outs, o.tag = 0) ∧ fpx? xv.c outs = none ∧ tyInt p.ty.toNat = true :=
  ⟨runs_sv _ _, by decide +kernel, by decide +kernel, by decide +kernel, by decide +kernel, by decide +kernel, by decide +kernel⟩
theorem hyp_LaneTests_get : let p : P := { (default : P) with d := 1, a := 1, b := 31, ty := 6, bk := 2 }
    let f : Form := { stdForm p setN false false 0 true false with
      bks := [1, 2], other := decide (p.d.toNat < 64), regs := [(p.a.toNat, regW p.ty.toNat)] }
    Runs sv xv (vregsOf f.regs) (p.d.toNat :: bScalar p) ∧ active xv p ≠ 0 ∧ formErr sv xv p f = none ∧ queuesReady xv [p.a.toNat] none = true ∧
    (srcVal xv (regW p.ty.toNat) p.a.toNat ((operandB sv xv p 0).1 % 2 ^ 32 % xv.c.width)).2 = 0 :=
  ⟨runs_sv _ _, by decide +kernel, by decide +kernel, by decide +kernel, by decide +kernel⟩

theorem hyp_LaneClassTraps : let p : P := vP { (default : P) with ty := 10 }
    ∃ q, laneArith (.vdiv p) = some q ∧ Runs sNone xNone (vregsOf q.form.regs) (bScalar q.p) ∧ active xNone p = 0 ∧
    Runs sFpx xFpx (vregsOf q.form.regs) (bScalar q.p) ∧ active xFpx p ≠ 0 ∧ formErr sFpx xFpx p q.form = none ∧
    queuesReady xFpx q.reads (some p.d.toNat) = true ∧
    (fpx? xFpx.c ((lanesOf (active xFpx p) xFpx.c.width).map (q.lane sFpx xFpx))).isSome = true :=
  ⟨_, rfl, runs_none _ _, by decide +kernel, runs_fpx _ _, by decide +kernel, by decide +kernel, by decide +kernel, by decide +kernel⟩
/-- A lane type that VADD does not take, and an empty queue as a source. -/
theorem hyp_LaneClassTraps_stops : (∃ q, laneArith (.vadd (vP { (default : P) with ty := 4 })) = some q ∧ active xv q.p ≠ 0 ∧
      (formErr sv xv q.p q.form).isSome = true) ∧
    ∃ q, laneArith (.vadd { (default : P) with d := 3, a := 248, b := 2, ty := 6 }) = some q ∧ active xv q.p ≠ 0 ∧
      formErr sv xv q.p q.form = none ∧ queuesReady xv q.reads (some q.p.d.toNat) = false :=
  ⟨⟨_, rfl, by decide +kernel, by decide +kernel⟩, _, rfl, by decide +kernel, by decide +kernel, by decide +kernel⟩

theorem hyp_Predicates : let p : P := { (default : P) with d := 1, a := 2, b := 3 }
    let q : P := { (default : P) with d := 5, a := 1 }
    (∃ op, predFn (.pand p) = some (p, true, op)) ∧ Runs sc xc [] [] ∧ active xc p ≠ 0 ∧
    fieldsOk p { d := true, a := true, b := true } = true ∧ (isP p.d && isP p.a && isP p.b) = true ∧
    (∃ f, reduceFn (.pany q) = some (q, f)) ∧ Runs sc xc [] [q.d.toNat] ∧ guarded q = false ∧
    fieldsOk q { d := true, a := true } = true ∧ (isS q.d && isP q.a) = true ∧ active xNone p = 0 ∧ Runs sNone xNone [] [] ∧
    fieldsOk { (default : P) with d := 5 } { d := true } = true :=
  ⟨⟨_, rfl⟩, runs_sc _ _, by decide +kernel, by decide +kernel, by decide +kernel, ⟨_, rfl⟩, runs_sc _ _, by decide +kernel,
    by decide +kernel, by decide +kernel, by decide +kernel, runs_none _ _, by decide +kernel⟩
theorem hyp_Predicates_setx : let p : P := { (default : P) with b := 0xFF, c := 0xFF, bk := 2 }
    let q : P := { (default : P) with b := 63, bk := 1 }
    Runs sc xc [] (if p.bk = 1 then [p.b.toNat] else []) ∧ Runs sc xc [] (if q.bk = 1 then [q.b.toNat] else []) ∧
    (∀ r ∈ [p, q], guarded r = false ∧ fieldsOk r { b := true, c := r.bk == 2, bk := true } = true ∧
      (r.bk == 2 || (r.bk == 1 && isS r.b)) = true) :=
  ⟨runs_sc _ _, runs_sc _ _, by decide +kernel⟩

/-- BRD at the last two words: p1 holds on the lanes named, of 32; join at 3 words past, target too. -/
def pBrd (mod : BitVec 3) : P := { (default : P) with a := 3, b := 3, mod := mod, bk := 2 }
def sBrd (recs splits : Nat) : State := onCrs (clause [0, 0]) fun c => { c with
  p := [(1, 0xFFFF)], recs := (List.range recs).map fun k => (k, jr 2 none)
  splits := c.splits ++ (List.range splits).map fun k => (k + 1, entrySplit 0x1000 0) }
def xBrd (recs splits : Nat) : Cur := parts (sBrd recs splits) rfl
theorem hyp_Divergence : (∀ r k, Runs (sBrd r k) (xBrd r k) [] []) ∧ isLast (xBrd 0 0) 2 = true ∧ isLast x3 2 = false ∧ Runs s3 x3 [] [] ∧
    (∀ m ∈ [0, 1, 2], guarded (pBrd m) = false ∧ (pBrd m).bk = 2 ∧
      fieldsOk (pBrd m) { d := true, a := true, b := true, c := true, mod := true, bk := true } = true ∧
      (xBrd 0 0).iss.words.length + 1 ≤ imm16 (pBrd m) ∧ imm16 (pBrd m) ≤ (pBrd m).d.toNat * 256 + (pBrd m).a.toNat) ∧
    ¬ ((xBrd 0 0).iss.words.length + 1 ≤ imm16 { (pBrd 0) with b := 2 } ∧ imm16 { (pBrd 0) with b := 2 } ≤ 0 * 256 + 3) :=
  ⟨fun _ _ => runs_idle _ _ rfl _ _, by decide +kernel, by decide +kernel, runs_s3 _ _, by decide +kernel, by decide +kernel⟩
/-- No lane, every lane and half of the lanes taken; and join records and split entries free or not. -/
theorem hyp_Divergence_cases : let x := xBrd 0 0
    let t := fun m => x.sp.exec &&& pMask x.c m
    let f := fun m => x.sp.m &&& ~~~t m
    t 2 = 0 ∧ t 0 ≠ 0 ∧ f 0 = 0 ∧ t 1 ≠ 0 ∧ f 1 ≠ 0 ∧ freeKey x.c.recs 16 = some 0 ∧ freeKey x.c.splits 8 = some 1 ∧
    freeKey (xBrd 16 0).c.recs 16 = none ∧ freeKey (xBrd 0 7).c.splits 8 = none ∧
    (fallTo x.iss.hdr (nextClause x) x.sp.loops).isSome = true ∧ x.sp.loops = [] := by decide +kernel
theorem hyp_Divergence_belongs : Belongs (sBrd 0 0) (xBrd 0 0) ∧ Belongs (sBrd 0 7) (xBrd 0 7) ∧ Jumps 0x100C (xBrd 0 0).sp.loops [] :=
  ⟨belongs_of _ _ (by decide +kernel), belongs_of _ _ (by decide +kernel), rfl⟩

/-- A clause whose header has a bit set. -/
def withHeader (s : State) (h : Word) : State := { s with
  cores := s.cores.map fun k => (k.1, { k.2 with issue := k.2.issue.map fun i => (i.1, { i.2 with header := i.2.header ||| h }) }) }
def sJ (j : JoinRec) : State := withHeader (sJoin j) 0x20
def xJ (j : JoinRec) : Cur := parts (sJ j) rfl
theorem hyp_Joining : (∀ j, Runs (sJ j) (xJ j) [] []) ∧ (let x := xJ (jr 1 none);
      (x.iss.off == 1 && x.iss.header.getLsbD 5) = true ∧ x.sp.jrec = some 2 ∧ alGet x.c.recs 2 = some (jr 1 none) ∧
      (jr 1 none).addr = x.iss.hdr ∧ (jr 1 none).count = 1 ∧ (jr 1 none).deferred = none ∧ (jr 1 none).accM ||| x.sp.m ≠ 0) ∧
    (let x := xJ { (jr 1 none) with addr := 0x2000 };
      alGet x.c.recs 2 = some { (jr 1 none) with addr := 0x2000 } ∧ 0x2000 ≠ x.iss.hdr) ∧
    alGet (xJ (jr 2 none)).c.recs 2 = some (jr 2 none) ∧ 2 ≤ (jr 2 none).count ∧ (parts (withHeader s1 0x20) rfl).sp.jrec = none ∧
    guarded default = false ∧ fieldsOk default {} = true :=
  ⟨fun _ => runs_idle _ _ rfl _ _, by decide +kernel, by decide +kernel, by decide +kernel, by decide +kernel, by decide +kernel,
    by decide +kernel, by decide +kernel⟩

/-- What a last arrival at the record leads to: 1 the gathered masks, 2 nothing, 3 the deferred half, 4 no split. -/
def lastKind (j : JoinRec) (m e : Mask) : Nat := match (arrive (xJ j).c.recs 2 m e 17).2 with
  | .merged _ _ _ a => if a = (xJ j).iss.hdr then 1 else 0
  | .gone a => if a = (xJ j).iss.hdr then 2 else 0
  | .deferred _ _ => 3
  | .freed => 4
theorem hyp_Joining_last : lastKind (jr 1 none) 1 1 = 1 ∧ lastKind (jr 1 none) 0 0 = 2 ∧ lastKind jrLast 1 1 = 3 ∧
    lastKind { (jr 1 none) with parent := some 3 } 0 0 = 4 ∧ lastKind { (jr 1 none) with addr := 0x2000 } 1 1 = 0 ∧
    (let s := { (sJ (jr 1 none)) with launches := s1.launches.map fun l => { l with refill := true } };
      (refills s (parts s rfl).con && onlySplit (parts s rfl)) = true) ∧ (refills (sJ (jr 1 none)) (xJ (jr 1 none)).con) = false := by
  decide +kernel

/-- A work queue of 16 records at 0x4000 with the count given; lane 0 of the split is vacant, and s1 names the queue. -/
def wqOf (owner count : Nat) (o : Bool) : WorkQ := ⟨9, owner, 0, 0x4000, 16, 0, count, o⟩
def sWq (w : WorkQ) (m : Mask) : State := withHeader { (onCrs (clause [0, 0]) fun c => { c with
    s := [(1, 9)], splits := c.splits.map fun p => (p.1, { p.2 with m := m, exec := m }) }) with
  workqs := [w], launches := base.launches.map fun l => { l with refill := true } } 0x40
def xWq (w : WorkQ) (m : Mask) : Cur := parts (sWq w m) rfl
def pWq : P := { (default : P) with d := 8, a := 1, mod := 1 }
theorem hyp_Refilling : (∀ w m, Runs (sWq w m) (xWq w m) ((List.range 4).map (8 + ·)) [1]) ∧ (let s := sWq (wqOf 5 1 true) 0xFFFFFFFE;
      let x := xWq (wqOf 5 1 true) 0xFFFFFFFE;
      x.iss.header.getLsbD 6 = true ∧ refills s x.con = true ∧ guarded pWq = false ∧
      fieldsOk { pWq with mod := 0 } { d := true, a := true } = true ∧ isS pWq.a = true ∧ windowOk x 8 4 = true ∧
      wqAt s ((sGet x.c 1).toNat % 2 ^ 16) = some (wqOf 5 1 true) ∧ 5 = (ctxOf s x.con).1 ∧ x.sp.jrec = none ∧
      waitsPinned s (5, 0) x.con.cid (wqSpan (wqOf 5 1 true) 0 (min 1 (vacant x).length)) = false ∧
      (match refillLanes 9 8 s x (vacant x) with
        | .ok (_, x') => decide (x'.sp.m ≠ 0)
        | .error _ => false) = true ∧
      (load s 5 0 0x4000 8).toOption.isSome = true ∧ (load s 5 0 0x4008 8).toOption.isSome = true ∧ vacant x = [0]) :=
  ⟨fun _ _ => runs_idle _ _ rfl _ _, by decide +kernel⟩
/-- A REFILL inside divergence. -/
theorem hyp_Refilling_diverged : let s := onCrs (sWq (wqOf 5 1 true) 1) fun c => { c with splits := c.splits.map fun p => (p.1, { p.2 with jrec := some 2 }) }
    ∃ x, Runs s x ((List.range 4).map (8 + ·)) [1] ∧ x.sp.jrec.isSome = true := ⟨parts _ rfl, runs_idle _ _ rfl _ _, rfl⟩
/-- Another context's queue; an empty one; and one with no lane left, which sleeps. -/
theorem hyp_Refilling_stops : (wqOf 4 1 true).owner ≠ (ctxOf (sWq (wqOf 4 1 true) 1) (xWq (wqOf 4 1 true) 1).con).1 ∧
    (wqOf 5 0 true).count = 0 ∧
    (match refillLanes 9 8 (sWq (wqOf 5 0 true) 0) (xWq (wqOf 5 0 true) 0) (vacant (xWq (wqOf 5 0 true) 0)) with
      | .ok (s', x') => decide (x'.sp.m = 0) && ((wqAt s' 9).map fun w => (w.count, w.isOpen)) == some (0, true)
      | .error _ => false) = true := by decide +kernel
theorem hyp_Refilling_push : let s := sWq (wqOf 5 0 true) 1
    let x := xWq (wqOf 5 0 true) 1
    active x pWq ≠ 0 ∧ fieldsOk pWq { d := true, a := true, mod := true } = true ∧
    wqAt s ((sGet x.c 1).toNat % 2 ^ 16) = some (wqOf 5 0 true) ∧ lanesOf (active x pWq) x.c.width = [0] ∧
    waitsPinned s (5, 0) x.con.cid (wqSpan (wqOf 5 0 true) 0 1) = false ∧
    (∀ j, j < 4 → (vGet x.c (8 + j) 0).tag = 0) ∧
    (match pushLanes 9 8 s x 0 (lanesOf (active x pWq) x.c.width) with
      | .ok (_, _, ok) => decide (ok = 1)
      | .error _ => false) = true ∧ (wqOf 5 16 true).cap ≤ (wqOf 5 16 true).count ∧ (wqOf 5 15 true).count < (wqOf 5 15 true).cap := by
  decide +kernel

/-- v8 is poisoned in lane 31, v9 in lane 30 and v8 not. -/
def sChk : State := onCrs (clause [0, 0]) fun c => { c with v := [(8 * 64 + 31, ⟨0, 1⟩), (9 * 64 + 30, ⟨0, 8⟩)] }
def xChk : Cur := parts sChk rfl
theorem hyp_PoisonCheck : Runs sChk xChk ((List.range 2).map (8 + ·)) [] ∧ (let p : P := { (default : P) with a := 8 };
      active xChk p ≠ 0 ∧ fieldsOk p { a := true } = true ∧ windowOk xChk 8 2 = true ∧ windowOk xChk 247 2 = false ∧
      fieldsOk { p with d := 1 } { a := true } = false ∧ 30 < xChk.c.width ∧ (active xChk p).getLsbD 30 = true ∧
      (vGet xChk.c (8 + 1) 30).tag ≠ 0 ∧ (vGet xChk.c 8 30).tag = 0 ∧
      (∀ m, m < 30 → ∀ j, j ≤ 1 → (vGet xChk.c (8 + j) m).tag = 0) ∧ xChk.c.width ≤ 64) ∧ active xNone default = 0 :=
  ⟨runs_idle _ _ rfl _ _, by decide +kernel, by decide +kernel⟩
theorem hyp_PoisonCheck_clean : ∀ l, l < xNone.c.width → ∀ j, j ≤ 15 → (vGet xNone.c (8 + j) l).tag = 0 := by decide +kernel

theorem isOk_of {ε α : Type} (r : Except ε α) (h : r.toOption.isSome = true) : ∃ a, r = .ok a := by
  cases r with
  | ok a => exact ⟨a, rfl⟩
  | error e => simp [Except.toOption] at h
theorem accessOk_of (s : State) (ctx : Nat × Nat) (a : Acc) (n : Nat) (tags : List (Nat × Byte)) (accs : List LaneAcc)
    (h : (tags.all (fun u => u.2 == 0) && accs.all fun c => c.va % n == 0 && (translate s ctx.1 ctx.2 a c.va).toOption.isSome) = true) :
    AccessOk s ctx a n tags accs := by
  simp only [Bool.and_eq_true, List.all_eq_true, beq_iff_eq] at h
  exact ⟨h.1, fun c hc => (h.2 c hc).1, fun c hc => isOk_of _ (h.2 c hc).2⟩

/-- Two words whose header names the flags 0 and none. -/
def sFlag : State := { sc with
  cores := sc.cores.map fun k => (k.1, { k.2 with issue := k.2.issue.map fun i => (i.1, { i.2 with header := 0x10000780 }) }) }
theorem hyp_LongLatency : flagFor (parts sFlag rfl) = some 0 ∧ flagFor xc = none ∧ Belongs sc xc :=
  ⟨by decide +kernel, by decide +kernel, belongs_of _ _ (by decide +kernel)⟩

/-- An access at 0x4000, of 4 bytes, of lane type n32. -/
def pLd : P := { (default : P) with d := 8, a := 4, ty := 6, bk := 2 }
theorem hyp_LaneLoads : let f := memForm pLd (List.range 8) [0, 1, 2] [8] (dataW pLd) 4 false true
    let ls := lanesOf (active xc pLd) xc.c.width
    Runs sc xc (vregsOf f.regs) (memScalars pLd) ∧ active xc pLd ≠ 0 ∧ formErr sc xc pLd f = none ∧
    queuesReady xc (offReads pLd) (some 8) = true ∧
    AccessOk sc (ctxOf sc xc.con) .read 4 ((laneAccs xc pLd ls).map fun c => (c.lane, c.tag)) (laneAccs xc pLd ls) ∧
    waitsPinned sc (ctxOf sc xc.con) xc.con.cid (ls.map (laneVa xc pLd)) = false ∧
    (∀ l ∈ ls, ∃ b, loadSeen sc xc.reader (ctxOf sc xc.con).1 (ctxOf sc xc.con).2 (laneVa xc pLd l) 4 = .ok b) ∧
    waitsPinned sc (ctxOf sc xc.con) xc.con.cid (((laneAccs xc pLd ls).filter fun c => c.tag == 0 && c.va % 4 == 0).map (·.va)) = false :=
  ⟨runs_sc _ _, by decide +kernel, by decide +kernel, by decide +kernel, accessOk_of _ _ _ _ _ _ (by decide +kernel), by decide +kernel,
    fun l hl => isOk_of _ ((by decide +kernel : ∀ l ∈ lanesOf (active xc pLd) xc.c.width,
      (loadSeen sc xc.reader (ctxOf sc xc.con).1 (ctxOf sc xc.con).2 (laneVa xc pLd l) 4).toOption.isSome = true) l hl), by decide +kernel⟩
/-- A lane's load that does not translate, and one of uncorrectable data. -/
theorem hyp_LaneLoads_fails : (match loadSeen sc xc.reader 5 0 (2 ^ 57) 4, loadSeen { sc with lines := [(0x100, ⟨0, 0, true⟩)] } xc.reader 5 0 0x4000 4 with
      | .error (.xlat r), .error .mem => decide (r = rNonCanon)
      | _, _ => false) = true ∧ (2 ^ 57) % 4 = 0 := by decide +kernel
/-- A byte that a copy wrote over, where the load finds what it replaced. -/
theorem hyp_LaneLoads_late (h : Config.seeOld sc.tick 0x8000 = true) : let u : Unseen := ⟨[.copy 0 3 false], false, 0x4000, [1], [], [], []⟩
    let s := { sc with unseen := [u] }
    u.openTo s xc.reader = true ∧ findsOld s xc.reader u = true ∧ u.reached false 0x4000 1 = true ∧
    (translate s 5 0 .read 0x4000).toOption.map (fun l => (spotOf s l 0x4000, (loadLeaf s l 0x4000 1).toOption)) =
      some (some (false, 0x4000), some [0]) :=
  ⟨by decide +kernel, by show (true && Config.seeOld sc.tick 0x8000) = true; rw [h]; rfl, by decide +kernel, by decide +kernel⟩
/-- A poisoned offset in v8's lane 31, and a misaligned address. -/
theorem hyp_LaneLoads_poison : (offLane xChk { pLd with b := 8, bk := 0 } 31).2 ≠ 0 ∧
    (offLane xc { pLd with b := 1 } 0).2 = 0 ∧ laneVa xc { pLd with b := 1 } 0 % 4 ≠ 0 := by decide +kernel

theorem hyp_AccessTraps : AccessOk sc (5, 0) .read 4 [(0, 0)] [⟨0, 0x4000, 0⟩] ∧ (∃ u ∈ [((1 : Nat), (8 : Byte))], u.2 ≠ 0) ∧
    (∀ u ∈ [((0 : Nat), (0 : Byte))], u.2 = 0) ∧ (0x4000 % 4 = 0 ∧ 0x4001 % 4 ≠ 0) ∧
    (∃ l, translate sc 5 0 .read 0x4000 = .ok l) ∧ translate sc 5 0 .read (2 ^ 57) = .error (.xlat rNonCanon) ∧ (2 ^ 57) % 4 = 0 :=
  ⟨accessOk_of _ _ _ _ _ _ (by decide +kernel), by decide, by decide, by decide, isOk_of _ (by decide +kernel), by decide +kernel, by decide⟩

def pLds : P := { (default : P) with d := 5, a := 4, ty := 6, bk := 2 }
theorem hyp_CourseAccesses : Runs sc xc [] (pLds.d.toNat :: memScalars pLds) ∧ guarded pLds = false ∧
    fieldsOk pLds (courseFree pLds) = true ∧ courseLegal pLds = true ∧ courseAddr xc pLds % 4 = 0 ∧
    (∃ l, translate sc (ctxOf sc xc.con).1 (ctxOf sc xc.con).2 .read (courseAddr xc pLds) = .ok l) ∧
    waitsPinned sc (ctxOf sc xc.con) xc.con.cid [courseAddr xc pLds] = false ∧
    (∃ b, loadSeen sc xc.reader (ctxOf sc xc.con).1 (ctxOf sc xc.con).2 (courseAddr xc pLds) 4 = .ok b) ∧ sc.unseen = [] ∧
    (courseLegal { pLds with x3 := 2 } = true ∧ 2 ≤ ({ pLds with x3 := 2 } : P).x3.toNat ∧ pLds.x3.toNat < 2) ∧
    (match translate sc (ctxOf sc xc.con).1 (ctxOf sc xc.con).2 .write (courseAddr xc pLds) with
      | .ok l => !l.host && placeOf sc (l.frame + courseAddr xc pLds % 4096) == .mem 0x4000 && lineOk sc (lineOf 0x4000) l.key
      | .error _ => false) = true :=
  ⟨runs_sc _ _, by decide +kernel, by decide +kernel, by decide +kernel, by decide +kernel, isOk_of _ (by decide +kernel), by decide +kernel,
    isOk_of _ (by decide +kernel), rfl, by decide +kernel, by decide +kernel⟩
/-- A store of a course where nothing is unseen. -/
theorem hyp_CourseAccesses_store : (translate sc 5 0 .write 0x4000).toOption.map (fun l => (spotOf sc l 0x4000,
    (storeSeen sc 5 0 0 [] l 0x4000 [1]).toOption.isSome)) = some (some (false, 0x4000), true) := by decide +kernel
/-- A store that comes before a copy's write. -/
theorem hyp_CourseAccesses_before (h : Config.seeOld sc.tick 0x8000 = true) : let u : Unseen := ⟨[.copy 0 3 false], false, 0x4000, [1], [], [], []⟩
    let s := { sc with unseen := [u] }
    (s.unseen.filter fun u => u.reached false 0x4000 [9].length && findsOld s (.writer 0 0) u) = [u] := by
  show ([⟨[.copy 0 3 false], false, 0x4000, [1], [], [], []⟩] : List Unseen).filter (fun u => u.reached false 0x4000 1 &&
    (u.openTo { sc with unseen := [⟨[.copy 0 3 false], false, 0x4000, [1], [], [], []⟩] } (.writer 0 0) && Config.seeOld sc.tick u.place)) = _
  rw [List.filter_cons_of_pos, List.filter_nil]
  show (true && (true && Config.seeOld sc.tick 0x8000)) = true
  rw [h]; rfl

/-- The same two words with only lane 0 active. -/
def sLane : State := onCrs sc fun c => { c with splits := c.splits.map fun p => (p.1, { p.2 with m := 1, exec := 1 }) }
def xLane : Cur := parts sLane rfl
theorem hyp_LaneStores : let f := memForm pLd (List.range 8) [0, 1, 2] [8] (dataW pLd) 4 false true
    let ls := lanesOf (active xLane pLd) xLane.c.width
    Runs sLane xLane (vregsOf f.regs) (memScalars pLd) ∧ active xLane pLd ≠ 0 ∧ formErr sLane xLane pLd f = none ∧
    queuesReady xLane (8 :: offReads pLd) none = true ∧
    AccessOk sLane (ctxOf sLane xLane.con) .write 4 ((laneAccs xLane pLd ls).map fun c =>
      (c.lane, firstTag [(pLd.b.toNat, c.tag), (8, (srcVal xLane (dataW pLd) 8 c.lane).2)])) (laneAccs xLane pLd ls) ∧
    waitsPinned sLane (ctxOf sLane xLane.con) xLane.con.cid (ls.map (laneVa xLane pLd)) = false ∧ ls = [0] ∧
    (match translate sLane (ctxOf sLane xLane.con).1 (ctxOf sLane xLane.con).2 .write (laneVa xLane pLd 0) with
      | .ok l => !l.host && placeOf sLane (l.frame + laneVa xLane pLd 0 % 4096) == .mem 0x4000 && lineOk sLane (lineOf 0x4000) l.key
      | .error _ => false) = true :=
  ⟨runs_idle _ _ rfl _ _, by decide +kernel, by decide +kernel, by decide +kernel, accessOk_of _ _ _ _ _ _ (by decide +kernel), by decide +kernel,
    by decide +kernel, by decide +kernel⟩
/-- With one active lane the condition on the other lanes holds. -/
theorem hyp_LaneStores_other (l : Leaf) (key : Nat) (h : translate sLane 5 0 .write (laneVa xLane pLd 0) = .ok l)
    (hk : placeOf sLane (l.frame + laneVa xLane pLd 0 % 4096) = .mem key) :
    ∀ c' ∈ [0], ∀ l' key', translate sLane 5 0 .write (laneVa xLane pLd c') = .ok l' → l'.host = false →
      placeOf sLane (l'.frame + laneVa xLane pLd c' % 4096) = .mem key' →
      (lineOf key' = lineOf key → l'.key = l.key) ∧ (key' = key ∨ key' + 4 ≤ key ∨ key + 4 ≤ key') := by
  simp only [List.mem_singleton]
  rintro _ rfl l' key' h' _ hk'
  rw [h] at h'; cases h'
  rw [hk] at hk'; cases hk'
  exact ⟨fun _ => rfl, Or.inl rfl⟩

theorem hyp_Atomics : let p : P := { (default : P) with d := 8, a := 4, c := 9, ty := 6, bk := 1 }
    let f : Form := { memForm p (atomTys 0) [0, 1] [8, 9] (tyBits p.ty.toNat) 6 true true with rm := false }
    let accs := laneAccs xc p (lanesOf (active xc p) xc.c.width)
    Runs sc xc (vregsOf f.regs) (memScalars p) ∧ active xc p ≠ 0 ∧ formErr sc xc p f = none ∧
    queuesReady xc (9 :: offReads p) (some 8) = true ∧
    (∀ c ∈ accs, (p.bk = 0 → c.tag = 0) ∧ (srcVal xc 32 9 c.lane).2 = 0) ∧
    AccessOk sc (ctxOf sc xc.con) .write 4 [] accs ∧ waitsPinned sc (ctxOf sc xc.con) xc.con.cid (accs.map (·.va)) = false :=
  ⟨runs_sc _ _, by decide +kernel, by decide +kernel, by decide +kernel, by decide +kernel, accessOk_of _ _ _ _ _ _ (by decide +kernel),
    by decide +kernel⟩
theorem hyp_Atomics_course : let p : P := { (default : P) with d := 5, a := 4, b := 2, c := 3, ty := 6, bk := 1 }
    let va := (sGet xc.c p.a.toNat).toNat
    Runs sc xc [] (p.d.toNat :: memScalars p ++ [p.c.toNat]) ∧ guarded p = false ∧
    fieldsOk p { d := true, a := true, b := true, c := true, ty := true, bk := true, x3 := true } = true ∧
    ((atomTys 9).contains p.ty.toNat && decide (p.x3.toNat < 6) && isS p.d && isS p.a &&
      ((p.bk == 1 && isS p.b && isS p.c)) && (decide (p.rm.toNat ≠ 5 ∧ p.rm.toNat ≠ 6))) = true ∧ va % 4 = 0 ∧
    (∃ l, translate sc (ctxOf sc xc.con).1 (ctxOf sc xc.con).2 .write va = .ok l) ∧
    waitsPinned sc (ctxOf sc xc.con) xc.con.cid [va] = false :=
  ⟨runs_sc _ _, by decide +kernel, by decide +kernel, by decide +kernel, by decide +kernel, isOk_of _ (by decide +kernel), by decide +kernel⟩
/-- A place that holds 0, which can be written. -/
theorem hyp_Atomics_one : (match translate sc 5 0 .write 0x4000 with
    | .ok l => (match loadLeaf sc l 0x4000 4 with
      | .ok b => ofBytes b == 0 && (storeLeaf sc l 0x4000 (toBytes 4 (atomResult 6 0 (ofBytes b) 1))).toOption.isSome
      | .error _ => false)
    | .error _ => false) = true := by decide +kernel

theorem hyp_Fences : Runs sc xc [] [] ∧ ∀ p ∈ [({ (default : P) with a := 0x22, x3 := 2 } : P), { (default : P) with a := 0x22, x3 := 1 },
      { (default : P) with a := 0x11, x3 := 5 }], guarded p = false ∧ fieldsOk p { a := true, x3 := true } = true ∧ p.a.toNat % 16 ≠ 0 ∧
      16 ≤ p.a.toNat ∧ p.x3.toNat < 6 ∧ ((p.a.toNat % 16).testBit 1 = true ∨ p.x3 = 5) :=
  ⟨runs_sc _ _, by decide +kernel⟩

/-- A line of the course's own stores, under the lanes that made it. -/
theorem hyp_Fences_dirty : ∃ x, x = { xc with k := { xc.k with dirty := [⟨0x100, xc.con.cid, xc.c.idx, 1, none⟩, ⟨0x101, xc.con.cid, xc.c.idx, 0, some xc.spi⟩] } } ∧
    x.k.pins.Nodup ∧ (∃ d ∈ x.k.dirty, d.cid = x.con.cid ∧ d.ci = x.c.idx ∧ (d.m &&& x.sp.m) ≠ 0) ∧
    ∃ d ∈ x.k.dirty, d.cid = x.con.cid ∧ d.ci = x.c.idx ∧ d.sp = some x.spi :=
  ⟨_, rfl, by decide +kernel, ⟨⟨0x100, xc.con.cid, xc.c.idx, 1, none⟩, by decide +kernel⟩, ⟨0x101, xc.con.cid, xc.c.idx, 0, some xc.spi⟩, by decide +kernel⟩
/-- A course whose CHORD request, in a tile, has not read its network yet. -/
def sReads : State := { sc with cores := sc.cores.map fun k => (k.1, { k.2 with openTiles :=
  [⟨4, 5, 1, 2, 3, [⟨0, 0, 0, 63, 8, 1, 0, 0, [], [3], none, 0, none⟩], 1, 0, 256, 0, 0⟩] }) }
def xReads : Cur := parts sReads rfl
/-- A FENCE of loads while CHORD has reads to make, and with none. -/
theorem hyp_Fences_loads : Runs sReads xReads [] [] ∧ xReads.reads = true ∧ (0x11 % 16).testBit 0 = true ∧ xc.reads = false ∧
    (conAt sc 0).isSome = true ∧ (launchAt sc xc.con.launch).isSome = true :=
  ⟨runs_idle _ _ rfl _ _, by decide +kernel, by decide +kernel, by decide +kernel, by decide +kernel, by decide +kernel⟩

/-- A tile of 16 by 16 n32 elements, at the first granule of a group; the consort's tiles; and tile 3 alone. -/
def tileOf (ty grp : Nat) (own : Bool) : TileEnt := ⟨true, ty, 16, 16, grp, 0, 1, false, own, false⟩
def withTiles (s : State) (ts : List (Nat × TileEnt)) : State := onCon s fun c => { c with tiles := ts, resv := [(0, 4)] }
def sTile (own : Bool) : State := withTiles sc [(3, tileOf 6 0 own)]
def xTile (own : Bool) : Cur := parts (sTile own) rfl
theorem runs_tile (own : Bool) (vs ss : List Nat) : Runs (sTile own) (xTile own) vs ss := runs_idle _ _ rfl _ _
theorem hyp_TileAccesses : let p : P := { (default : P) with d := 8, a := 3, ty := 6, bk := 1 }
    let f := memForm p (List.range 15) [0, 1, 2] [8] (dataW p) 0 false true
    let ls := lanesOf (active (xTile false) p) (xTile false).c.width
    Runs (sTile false) (xTile false) (vregsOf f.regs) [p.b.toNat] ∧ active (xTile false) p ≠ 0 ∧ formErr (sTile false) (xTile false) p f = none ∧
    tileAt (xTile false).con 3 = some (tileOf 6 0 false) ∧ (tileOf 6 0 false).ty = p.ty.toNat ∧
    (∀ l ∈ ls, (offLane (xTile false) p l).2 = 0 ∧ coordOf (tileOf 6 0 false) (offLane (xTile false) p l).1 = some (0, 0)) ∧
    queuesReady (xTile false) (offReads p) (some 8) = true ∧ queuesReady (xTile false) (8 :: offReads p) none = true ∧
    (∀ l ∈ ls, (srcVal (xTile false) (dataW p) 8 l).2 = 0) :=
  ⟨runs_tile _ _ _, by decide +kernel, by decide +kernel, by decide +kernel, by decide +kernel, by decide +kernel, by decide +kernel,
    by decide +kernel, by decide +kernel⟩

/-- TALLOC of tile 1, 16 by 16 of n32, by s6; the kernel has 4 tiles. -/
def sTalloc (ts : List (Nat × TileEnt)) (resv : List (Nat × Nat)) (v : DWord) : State := { (onCon (onCrs sc fun c => { c with s := [(6, v)] })
    fun c => { c with tiles := ts, resv := resv }) with
  launches := base.launches.map fun l => { l with kdesc := List.replicate 19 0 ++ [4] } }
def xTalloc (ts : List (Nat × TileEnt)) (resv : List (Nat × Nat)) (v : DWord) : Cur := parts (sTalloc ts resv v) rfl
def pTalloc : P := { (default : P) with d := 1, a := 6, ty := 6 }
theorem hyp_TileTable_talloc : (∀ ts r v, Runs (sTalloc ts r v) (xTalloc ts r v) [] [6]) ∧ guarded pTalloc = false ∧
    fieldsOk pTalloc { d := true, a := true, ty := true } = true ∧ (isS pTalloc.d && isS pTalloc.a) = true ∧
    (∀ v ∈ [0x0F0F, 0x100F0F, 0x80F0F], v / 2 ^ 21 = 0 ∧ v.testBit 15 = false ∧ v.testBit 7 = false ∧ bits v 16 4 ≤ 8) ∧
    1 < kdByte (launchOf (sTalloc [] [] 0x0F0F) (xTalloc [] [] 0x0F0F).con) 19 ∧
    tileAt (xTalloc [(1, tileOf 6 0 false)] [] 0x0F0F).con 1 = some (tileOf 6 0 false) ∧
    tileAt (xTalloc [] [] 0x0F0F).con 1 = none ∧
    (∀ g, g < 8 → freeRun (xTalloc [] [] 0x80F0F).con g (granulesOf 16 16 6) = none) ∧
    freeRun (xTalloc [] [(0, 4)] 0x0F0F).con 0 (granulesOf 16 16 6) = some 0 ∧
    freeRun (xTalloc [] [(0, 0), (2, 4)] 0x80F0F).con 0 (granulesOf 16 16 6) = none ∧
    freeRun (xTalloc [] [(0, 0), (2, 4)] 0x80F0F).con 1 (granulesOf 16 16 6) = some 2 := by
  refine ⟨fun _ _ _ => runs_idle _ _ rfl _ _, ?_⟩
  decide +kernel
theorem hyp_TileTable_give : (∀ own, Runs (sTile own) (xTile own) [] [] ∧ tileAt (xTile own).con 3 = some (tileOf 6 0 own)) ∧
    (let p : P := { (default : P) with d := 3 };
      guarded p = false ∧ fieldsOk p { d := true } = true ∧ isS p.d = true) ∧ tileAt xc.con 3 = none ∧
    (∀ own, Recorded (sTile own) (xTile own) [3] 9 0 (sTile own) (xTile own)) ∧ (xTile true).iss.await = none ∧
    tilePending (sTile true) (xTile true).con.cid 3 (sTile true).tick = false :=
  ⟨fun own => ⟨runs_tile _ _ _, by cases own <;> decide +kernel⟩, by decide +kernel, by decide +kernel, fun _ => ⟨rfl, rfl⟩, by decide +kernel, by decide +kernel⟩
/-- A command on tile 3 that is not complete, and a TTAKE of it that waits. -/
def cmdOf (q : Nat) (kind : CmdKind) : Cmd := { seq := q, issued := q, cid := 0, ci := some 0, kind := kind, nbv := 3, flag := some 7, follows := none, begun := false
                                                todo := [], payload := [], failed := false, flags := 0, entry := none, done := false }
def withCmds (s : State) (q : Nat) (cs : List Cmd) : State :=
  { s with cores := s.cores.map fun k => (k.1, { (setQueue k.2 q cs) with seq := 9 }) }
def sPending (cs : List Cmd) : State := let s := withCmds (sTile true) 4 cs
  { s with cores := s.cores.map fun k => (k.1, { k.2 with issue := k.2.issue.map fun i => (i.1, { i.2 with
    await := some 9, words := [BitVec.ofNat 32 (3 * 2 ^ 17), 0] }) }) }
theorem hyp_TileTable_wait : let busy := sPending [cmdOf 2 (.mdrain 3 0 6 false)]
    tilePending busy 0 3 9 = true ∧ tilePending (sPending []) 0 3 9 = false ∧
    (let s := { busy with turn := .event 0 (.ttakeComplete 0) };
      (cur? { s with turn := .slot (unitOf s) 0 }).map (fun x => (x.iss.await, bits (x.iss.words.getD (x.iss.off - 1) 0).toNat 17 8)) =
        some (some 9, 3)) := by decide +kernel

/-- A template of kind 0: 16 elements of n32, 4 bytes apart. -/
def tplLd : Tpl := BitVec.ofNat 512 (6 * 2 ^ 8 + 2 ^ 24 + 16 * 2 ^ 64 + 2 ^ 96 + 2 ^ 128 + 4 * 2 ^ 192)
def withBytes (s : State) (a : Nat) (bs : List Byte) : State := { s with mem := base.mem ++ (List.range bs.length).map fun i => (a + i, bs.getD i 0) }
theorem hyp_EngineIssue_xtpl : let p : P := { (default : P) with d := 1, a := 4 }
    let va := (sGet xc.c p.a.toNat).toNat
    let t := withBytes sc 0x4000 (toBytes 64 tplLd.toNat)
    Runs sc xc [] [p.a.toNat] ∧ guarded p = false ∧ fieldsOk p { d := true, a := true } = true ∧ (isS p.d && isS p.a) = true ∧
    p.d.toNat < xc.con.ntpl ∧ va % 64 = 0 ∧ (∃ l, translate sc (ctxOf sc xc.con).1 (ctxOf sc xc.con).2 .read va = .ok l) ∧
    waitsPinned sc (ctxOf sc xc.con) xc.con.cid [va] = false ∧
    (loadSeen sc xc.reader 5 0 va 64).toOption.map (fun b => Tpl.valid (BitVec.ofNat 512 (ofBytes b))) = some false ∧
    (loadSeen t xc.reader 5 0 va 64).toOption.map (fun b => Tpl.valid (BitVec.ofNat 512 (ofBytes b))) = some true :=
  ⟨runs_sc _ _, by decide +kernel, by decide +kernel, by decide +kernel, by decide +kernel, by decide +kernel, isOk_of _ (by decide +kernel),
    by decide +kernel, by decide +kernel, by decide +kernel⟩
/-- XTPL of a misaligned register, of one that does not translate, of a pinned line, and of uncorrectable data. -/
theorem hyp_EngineIssue_xtpl_fails : (sGet xc.c 2).toNat % 64 ≠ 0 ∧ (sGet xc.c 3).toNat % 64 = 0 ∧
    (match translate sc 5 0 .read (sGet xc.c 3).toNat, loadSeen { sc with lines := [(0x100, ⟨0, 0, true⟩)] } xc.reader 5 0 0x4000 64 with
      | .error (.xlat _), .error .mem => true
      | _, _ => false) = true ∧
    waitsPinned { sc with cores := sc.cores.map fun k => (k.1, { k.2 with pins := [⟨0x100, 9, 0⟩] }) } (ctxOf sc xc.con) xc.con.cid [0x4000] = true := by
  decide +kernel

/-- Tiles 1 and 2 of u8 for MMA, in two groups, owned by the engines; tile 3 of f32 for MDRAIN. -/
def sMat : State := { (withTiles (onCrs sc fun c => { c with s := [(8, 0x4000), (9, 3), (11, 0x100010010)] })
    [(1, tileOf 0 0 true), (2, { (tileOf 0 1 true) with base := 4 }), (3, tileOf 6 0 true), (4, tileOf 10 2 true)]) with
  launches := base.launches.map fun l => { l with gangSize := 2, total := 2, kdesc := List.replicate 64 1 } }
def sMat1 : State := onCon sMat fun c => { c with tpls := [(5, tplLd)] }
def xMat : Cur := parts sMat1 rfl
theorem runs_mat (vs ss : List Nat) : Runs sMat1 xMat vs ss := runs_idle _ _ rfl _ _
def pZero : P := { (default : P) with d := 7, c := 0xFF }
def pMma : P := { (default : P) with d := 7, a := 1, b := 2, c := 0xFF }
theorem hyp_EngineIssue_matrix : MatrixLegal sMat1 xMat (.mzero pZero) pZero (.mzero 7) ∧
    MatrixLegal sMat1 xMat (.mma pMma 0) pMma (.mma 0 16 false 7 1 2) ∧ guarded pMma = false ∧ FlagLegal xMat pMma ∧
    roomFor xMat.k [4] = true ∧ etching xMat = false ∧ Runs sMat1 xMat [] [] := by
  refine ⟨⟨rfl, by decide +kernel, by decide +kernel, by decide +kernel, rfl⟩,
    ⟨rfl, by decide +kernel, by decide +kernel, by decide +kernel, by decide +kernel, by decide +kernel, by decide +kernel, by decide +kernel,
      tileOf 0 0 true, { (tileOf 0 1 true) with base := 4 }, by decide +kernel⟩, by decide +kernel, Or.inl rfl, by decide +kernel,
    by decide +kernel, runs_mat _ _⟩
theorem hyp_EngineIssue_copies : let p : P := { (default : P) with d := 5, a := 8, b := 6, x3 := 3 }
    Runs sMat1 xMat [] ((List.range 4).map (p.a.toNat + ·)) ∧ etching xMat = false ∧ roomFor xMat.k [3] = true ∧ roomFor xMat.k [3, 4] = true ∧
    (∃ plans, planCopy xMat.con p none (tplAt xMat.con p.d.toNat) (sGet xMat.c 8) (sGet xMat.c 9) (sGet xMat.c 10) (sGet xMat.c 11) =
      .ok plans) :=
  ⟨runs_mat _ _, by decide +kernel, by decide +kernel, by decide +kernel, isOk_of _ (by decide +kernel)⟩

theorem hyp_CountFlags : let p : P := { (default : P) with d := 7, b := 1, bk := 2 }
    let q : P := { (default : P) with d := 5, a := 7 }
    Runs sc xc [] [5] ∧ guarded p = false ∧ fieldsOk p immFree = true ∧ imm16 p < 2 ^ 15 ∧ 1 ≤ imm16 p ∧ p.d.toNat < xc.con.nflag ∧
    Recorded sc xc [] 8 0 sc xc ∧ xc.iss.cfErr.contains 7 = false ∧
    ({ xc with iss := { xc.iss with cfErr := [7] } } : Cur).iss.cfErr.contains 7 = true ∧
    fieldsOk q { d := true, a := true } = true ∧ isS q.d = true ∧ q.a.toNat < xc.con.nflag :=
  ⟨runs_sc _ _, by decide +kernel, by decide +kernel, by decide +kernel, by decide +kernel, by decide +kernel, ⟨rfl, rfl⟩, by decide +kernel,
    by decide +kernel, by decide +kernel, by decide +kernel, by decide +kernel⟩

theorem hyp_Barriers : let p : P := { (default : P) with b := 3, bk := 2 }
    Runs sc xc [] [] ∧ guarded default = false ∧ fieldsOk default {} = true ∧ Belongs sc xc ∧ isLast xc 2 = true ∧ Belongs s3 x3 ∧
    isLast x3 2 = false ∧ (fallTo xc.iss.hdr (nextClause xc) xc.sp.loops).isSome = true ∧ guarded p = false ∧
    fieldsOk p { b := true, c := true, bk := true } = true ∧ imm16 p ≠ 0 ∧ imm16 { p with b := 0 } = 0 ∧ xc.con.preReq = none ∧
    xc.c.haltReq = false ∧ xc.sp.wake = none :=
  ⟨runs_sc _ _, by decide +kernel, by decide +kernel, belongs_of _ _ (by decide +kernel), by decide +kernel,
    belongs_of _ _ (by decide +kernel), by decide +kernel⟩
/-- The consort of the tests, parked at a barrier or not; and asleep, or yielding, until now. -/
def sPark (f : Split → Split) : State := { (onCrs sc fun c => { c with splits := c.splits.map fun p => (p.1, f p.2) }) with
  turn := .event 0 .barComplete }
def conPark (f : Split → Split) : Option Consort := conAt (sPark f) (unitOf (sPark f))
theorem hyp_Barriers_events : (conPark fun sp => { sp with park := .bar }).map (arrivedAll · .bar) = some true ∧
    (conPark fun sp => sp).map (arrivedAll · .bar) = some false ∧
    (let s := sPark fun sp => { sp with park := .gbar };
      (conPark fun sp => { sp with park := .gbar }).map (fun con => ((gangMembers s con).any (someParked · .gbar),
        (gangMembers s con).all (arrivedAll · .gbar), noticeDue s con)) = some (true, true, false)) ∧
    (let s := sPark fun sp => { sp with park := .sstep };
      (conPark fun sp => { sp with park := .sstep }).map (fun con => ((gangMembers s con).any (someParked · .sstep),
        (gangMembers s con).all (fun d => arrivedAll d .sstep && stepsLanded s d), noticeDue s con)) = some (true, true, false)) := by
  decide +kernel
/-- A step-tagged copy that has not landed. -/
theorem hyp_Barriers_steps : stepsLanded (withCmds (sPark fun sp => sp) 0 [cmdOf 0 (.copy (tplLd ||| 0x20000) 0 0 0 0)])
    { xc.con with stepSeq := some 1 } = false ∧ stepsLanded (sPark fun sp => sp) xc.con = true := by decide +kernel
def sWaits : State := sPark fun sp => { sp with wake := some 0, yielded := some ⟨0, []⟩ }
theorem hyp_Barriers_waits : (((conAt sWaits (unitOf sWaits)).bind (crsAt · 0)).bind (alGet ·.splits 0)).map (fun x => (x.wake, x.yielded)) =
    some (some 0, some ⟨0, []⟩) ∧ (∀ o ∈ ([] : List (Nat × Nat)), stillThere sWaits o = false) := by decide +kernel

/-- A course in a handler, with TRAPPC as given; and under a debugger. -/
def sHandler (pc : DWord) : State := onCrs sc fun c => { c with inHandler := some 0, trappc := pc }
def sDebug : State := { sc with attached := [5] }
theorem hyp_TrapWords : (let p : P := { (default : P) with b := 9, bk := 2 };
      guarded p = false ∧ fieldsOk p { b := true, c := true, bk := true } = true) ∧ Runs sc xc [] [] ∧ isLast xc 2 = true ∧
    guarded default = false ∧ fieldsOk default {} = true ∧ xc.c.inHandler = none ∧
    (∀ pc, Runs (sHandler pc) (parts (sHandler pc) rfl) [] [] ∧ (parts (sHandler pc) rfl).c.inHandler ≠ none ∧
      (parts (sHandler pc) rfl).c.trappc = pc) ∧ (0x2002 : DWord).toNat % 4 ≠ 0 ∧ (0x2000 : DWord).toNat % 4 = 0 ∧
    Belongs (sHandler 0x2000) (parts (sHandler 0x2000) rfl) ∧ debugged sc (ctxOf sc xc.con).1 = false ∧
    Runs sDebug (parts sDebug rfl) [] [] ∧ debugged sDebug (ctxOf sDebug (parts sDebug rfl).con).1 = true ∧ Belongs sDebug (parts sDebug rfl) :=
  ⟨by decide +kernel, runs_sc _ _, by decide +kernel, by decide +kernel, by decide +kernel, by decide +kernel,
    fun _ => ⟨runs_idle _ _ rfl _ _, fun h => Option.some_ne_none _ h, rfl⟩, by decide, by decide, belongs_of _ _ (by decide +kernel),
    by decide +kernel, runs_idle _ _ rfl _ _, by decide +kernel, belongs_of _ _ (by decide +kernel)⟩

/-- A kernel whose TRAPE is 0x3000, and a core whose record queue is full. -/
def sEntry : State := { sc with launches := base.launches.map fun l => { l with kdesc := List.replicate 8 0 ++ [0, 0x30] } }
def sFull : State := { sc with cores := sc.cores.map fun k => (k.1, { k.2 with fifo := List.replicate 16 0 }) }
theorem hyp_TrapEntry : conAt sEntry xc.con.cid = some xc.con ∧ crsAt xc.con xc.c.idx = some xc.c ∧ alGet xc.c.splits 0 = some xc.sp ∧
    trapEntry sEntry xc.con ≠ 0 ∧ xc.c.inHandler = none ∧ conAt sc xc.con.cid = some xc.con ∧ trapEntry sc xc.con = 0 ∧
    conAt sFull xc.con.cid = some xc.con ∧ 16 ≤ (coreAt sFull xc.con.core).fifo.length ∧ (coreAt sc xc.con.core).fifo.length < 16 ∧
    xc.con.capo = false ∧ bits (BitVec.ofNat 64 (rNotPresent * 2 ^ 60) : DWord).toNat 60 4 = rNotPresent ∧ cILL ≠ cXLAT ∧
    conAt sDebug xc.con.cid = some xc.con ∧ debugged sDebug (ctxOf sDebug xc.con).1 = true := by decide +kernel

/-- An error found of a store of the course's split. -/
theorem hyp_TrapEntry_error : ErrorFirst { sc with cores := sc.cores.map fun k => (k.1, { k.2 with
      storeErrs := [⟨xc.con.cid, xc.c.idx, 0, xc.c.gen, 0, 0, 0⟩] }) } xc.con xc.c 0 = true ∧ ErrorFirst sc xc.con xc.c 0 = false := by
  decide +kernel

/-- Two words of the Capo agent's course. -/
def sCapo : State := onCon sc fun c => { c with capo := true }
def xCapo : Cur := parts sCapo rfl
theorem runs_capo (vs ss : List Nat) : Runs sCapo xCapo vs ss := runs_idle _ _ rfl _ _
def pCsr (b c : BitVec 8) : P := { (default : P) with d := 5, b := b, c := c, bk := 2 }
def pCsw (b c : BitVec 8) : P := { (default : P) with a := 5, b := b, c := c, bk := 2 }
theorem hyp_Csrs : Runs sc xc [] [5] ∧ Runs sCapo xCapo [] [5] ∧ (∀ p ∈ [pCsr 0 0, pCsr 0 8, pCsr 1 8, pCsr 4 12], guarded p = false ∧
      fieldsOk p { d := true, b := true, c := true, bk := true } = true ∧ isS p.d = true ∧ csrDefined (imm16 p) = true) ∧
    (∀ p ∈ [pCsw 0 0, pCsw 0 8, pCsw 1 8, pCsw 0 12], guarded p = false ∧
      fieldsOk p { a := true, b := true, c := true, bk := true } = true ∧ isS p.a = true ∧ csrDefined (imm16 p) = true) ∧
    csrCapo 0x7FF = false ∧ csrCapo 0x800 = true ∧ xc.con.capo = false ∧ xCapo.con.capo = true ∧ imm16 (pCsr 0 8) = 0x800 ∧
    imm16 (pCsw 1 8) = 0x801 ∧ 0xC00 ≤ imm16 (pCsw 0 12) ∧ (writeCourseCsr xc.c 0 5).isSome = true ∧ writeCourseCsr xc.c 2 4 = none ∧
    (writeDisp sc 0xC02 25).isSome = true ∧ writeDisp sc 0xC02 26 = none :=
  ⟨runs_sc _ _, runs_capo _ _, by decide +kernel⟩
/-- A read of NSTAT with flags outstanding, and without. -/
theorem hyp_Csrs_due : imm16 (pCsr 1 0) = 1 ∧ flagsDue { xc.c with pend := [{ pendInit with fl := 1 }] } = true ∧ flagsDue xc.c = false ∧
    interlocked { xc.c with pend := [{ pendInit with fl := 1 }] } [] [5] = false := by decide +kernel
/-- Boundary values of the fields that a CSR write checks, and a record queue at its last doubleword. -/
theorem hyp_Csrs_values : (4 : DWord).toNat % 8 < 5 ∧ 5 ≤ (5 : DWord).toNat % 8 ∧ (0x1000000 : DWord).toNat % 2 ^ 24 = 0 ∧
    (1 : DWord).toNat % 2 ^ 24 ≠ 0 ∧ (2 : DWord).toNat % 256 = 2 ∧ (4 : DWord).toNat % 256 ≠ 3 ∧
    (let k := { (coreAt sFull 0) with fdw := 3 }; k.fifo = 0 :: List.replicate 15 0 ∧ k.fdw = 3) ∧ (coreAt sc 0).fifo = [] := by
  decide +kernel
theorem hyp_Csrs_fltrec : let s := { (after (.next (onCon (clause (fltrecWords 5)) fun c => { c with capo := true }))) with
      turn := .event 0 (.fltrecRead 5) }
    (∃ i, (coreAt s (unitOf s)).issue = [(0, i)] ∧ (∃ con, conAt s i.cid = some con ∧ con.capo = true) ∧ 1 ≤ i.off ∧
      (i.words.drop (i.off - 1)).take 2 = fltrecWords 5) ∧ ∃ x, Runs { s with turn := .slot (unitOf s) 0 } x [] [5] :=
  ⟨⟨_, rfl, ⟨_, rfl, rfl⟩, by decide, by decide +kernel⟩, parts _ rfl, runs_idle _ _ rfl _ _⟩
theorem hyp_Csrs_tlbinv : let p : P := { (default : P) with d := 5, a := 6, b := 2, bk := 2 }
    Runs sc xc [] [5, 6] ∧ Runs sCapo xCapo [] [5, 6] ∧ guarded p = false ∧
    fieldsOk p { d := true, a := true, b := true, c := true, bk := true } = true ∧ isS p.d = true ∧ isS p.a = true ∧ imm16 p ≤ 2 ∧
    ¬ imm16 { p with b := 3 } ≤ 2 :=
  ⟨runs_sc _ _, runs_capo _ _, by decide +kernel⟩

/-- A resource table at 0x4000: a header of two entries and one entry, each with its CRC. -/
def sRes : State := { (onCrs (withBytes sc 0x4000 (toBytes 64 (0xFF + 2 * 2 ^ 128 + 0xdf068750 * 2 ^ 480) ++ toBytes 64 (0x8000 * 2 ^ 64 + 0x6b668aca * 2 ^ 480))) fun c =>
    { c with s := [(6, 1), (7, 2)] }) with launches := base.launches.map fun l => { l with rtab := 0x4000 } }
def xRes : Cur := parts sRes rfl
theorem hyp_PlateWords : let p : P := { (default : P) with d := 5, a := 6, b := 0, bk := 2 }
    Runs sc xc [] [5, 6] ∧ Runs sRes xRes [] [5, 6] ∧ guarded p = false ∧
    fieldsOk p { d := true, a := true, b := true, c := true, bk := true } = true ∧ isS p.d = true ∧ isS p.a = true ∧ imm16 p < 7 ∧
    etching xc = false ∧ etching xEtch = true ∧ isVolatile xEtch.c 6 = false ∧ Runs sEtch xEtch [] [5, 6] ∧ (sGet xRes.c 6).toNat < 2 ^ 16 ∧
    waitsPinned sRes (ctxOf sRes xRes.con) xRes.con.cid [0x4000, 0x4040] = false :=
  ⟨runs_sc _ _, runs_idle _ _ rfl _ _, by decide +kernel, by decide +kernel, by decide +kernel, by decide +kernel, by decide +kernel,
    by decide +kernel, by decide +kernel, by decide +kernel, runs_etch _ _, by decide +kernel, by decide +kernel⟩
/-- What an index names: 0 an entry, 1 beyond the table, 2 a bad entry. -/
def namedKind (s : State) (rtab idx : Nat) : Nat := match readNamed s (.course 0 0) (5, 0) rtab idx with
  | .ok (.ent _) => 0
  | .ok .beyond => 1
  | .ok .bad => 2
  | .error _ => 3
theorem hyp_PlateWords_entry : namedKind sRes 0x4000 1 = 0 := by decide +kernel
theorem hyp_PlateWords_beyond : namedKind sRes 0x4000 2 = 1 := by decide +kernel
theorem hyp_PlateWords_bad : namedKind sRes 0x4100 0 = 2 := by decide +kernel
theorem hyp_PlateWords_record : let s := { sEtch with launches := base.launches.map fun l => { l with pstride := 0x2010 } }
    plateCap (launchOf s xEtch.con) = 1 ∧ plateCap (launchOf sEtch xEtch.con) = 0 ∧ xEtch.con.plate.entries = [] := by decide +kernel

theorem hyp_UnitRequests : let p : P := { (default : P) with d := 8, a := 1, c := 1, bk := 1 }
    let q : P := { (default : P) with d := 20, a := 1, c := 8, bk := 1 }
    Belongs sc xc ∧ Runs sc xc ((List.range 1).map (1 + ·) ++ (List.range 1).map (8 + ·) ++ offReads p) [0] ∧ active xc p ≠ 0 ∧
    fieldsOk p { d := true, a := true, b := true, c := true, bk := true } = true ∧ (p.bk = 1 ∧ isS p.b = true) ∧
    windowOk xc 1 1 = true ∧ windowOk xc 8 1 = true ∧ queuesReady xc (offReads p) none = true ∧
    (∀ l ∈ lanesOf (active xc p) xc.c.width,
      namedWaits sc (ctxOf sc xc.con) xc.con.cid (launchOf sc xc.con).rtab ((offLane xc p l).1 % 2 ^ 16) 160 = false) ∧
    Runs sc xc ((List.range 9).map (1 + ·) ++ (List.range (smWindow 8 16)).map (20 + ·) ++ offReads q) [0] ∧ active xc q ≠ 0 ∧
    fieldsOk q { d := true, a := true, b := true, c := true, bk := true } = true ∧ q.c.toNat ≤ 8 ∧ windowOk xc 1 9 = true ∧
    queuesReady xc (offReads q) none = true ∧
    (∀ l ∈ lanesOf (active xc q) xc.c.width,
      namedWaits sc (ctxOf sc xc.con) xc.con.cid (launchOf sc xc.con).rtab ((offLane xc q l).1 % 2 ^ 16) 0 = false) :=
  ⟨belongs_of _ _ (by decide +kernel), runs_sc _ _, by decide +kernel, by decide +kernel, by decide +kernel, by decide +kernel,
    by decide +kernel, by decide +kernel, by decide +kernel, runs_sc _ _, by decide +kernel, by decide +kernel, by decide +kernel, by decide +kernel, by decide +kernel, by decide +kernel⟩

/-- A network of one layer of one input and one output, whose weights are at 0x4000, and a tile of it with n rows. -/
def descOf : List Byte := toBytes 32 0x101 ++ toBytes 32 (0x4000 + 2 ^ 128 + 0x7F * 2 ^ 144)
def rowOf : ChordReq := { cid := 0, ci := 0, pid := 0, lane := 63, d := 8, no := 1, root := 0, key := 0, desc := descOf, x := [3], flags := 0, poison := none, net := none }
def ctOf (n : Nat) : ChordTile := { tid := 4, pasid := 5, rtab := 1, handle := 2, nbv := 3, joined := n
                                    rows := List.replicate n rowOf, opened := 0, win := 256, owner := 0, layer := 0 }
/-- Core 0 changed, at an event of unit 0, at a time. -/
def atCore (s : State) (t : Nat) (f : Core → Core) : State :=
  { (setCore s 0 (f (coreAt s 0))) with cycles := t, turn := .event 0 .chordPass }
theorem hyp_UnitEvents_join : let s := fun n => atCore sc 0 fun k => { k with openTiles := [ctOf n] }
    let f := fun (n h : Nat) => ((coreAt (s n) 0).openTiles.find? (fun t => t.pasid == 5 && t.rtab == 1 && t.handle == h && t.nbv == 3)).map
      (·.joined)
    f 14 2 = some 14 ∧ 14 + 1 < 16 ∧ f 15 2 = some 15 ∧ 16 ≤ 15 + 1 ∧ f 1 3 = none := by decide +kernel
theorem hyp_UnitEvents_close : let s := fun t => atCore sc t fun k => { k with openTiles := [ctOf 1] }
    (coreAt (s 255) (unitOf (s 255))).openTiles.find? (fun u => u.tid == 4) = some (ctOf 1) ∧ (s 255).cycles < 0 + (ctOf 1).win ∧
    0 + (ctOf 1).win ≤ (s 256).cycles := by decide +kernel
/-- A row whose network is fetched, and its tile. -/
def rowNet : ChordReq := { rowOf with net := some [[⟨[0], [], none⟩]] }
def ctNet : ChordTile := { (ctOf 1) with rows := [rowNet] }
theorem hyp_UnitEvents_pass : let s0 := fun t => atCore sc 0 fun k => { k with closedTiles := [t] }
    let s := fun t => fetchTiles (closeOver (s0 t) (unitOf (s0 t))) (unitOf (s0 t))
    let k := coreAt (s ctNet) (unitOf (s ctNet))
    (coreAt (s (ctOf 1)) 0).closedTiles = [ctNet] ∧ k.closedTiles = [ctNet] ∧ fetched ctNet = true ∧ k.freeze = none ∧
    arrayFree (s ctNet) k = true ∧ k.matq = [] ∧ fetched (ctOf 1) = false ∧
    (let p := fun k : Core => { k with pins := [⟨0x100, 9, 0⟩], closedTiles := [ctOf 1] };
      fetchWaits (atCore sc 0 p) (ctOf 1) = true ∧ (coreAt (fetchTiles (closeOver (atCore sc 0 p) 0) 0) 0).closedTiles = [ctOf 1]) ∧
    fetchWaits (s0 (ctOf 1)) (ctOf 1) = false ∧
    ((descLayers rowOf.desc).map fun ls => ((ls[1]?).isSome, (ls[0]?).map fun l =>
      (readRows (s0 (ctOf 1)) (.rows [(0, 0)]) (5, rowOf.root) rowOf.key l (List.range l.nout)).toOption.isSome)) = some (false, some true) ∧
    ((descLayers rowOf.desc).map fun ls => (ls[0]?).map fun l =>
      (readRows (s0 (ctOf 1)) (.rows [(0, 0)]) (5, rowOf.root) 1 l (List.range l.nout)).toOption.isSome) = some (some false) ∧
    (rowNet.net.bind (·[ctNet.layer]?)).isSome = true := by
  decide +kernel
theorem hyp_UnitEvents_writeback : let s := atCore sc 0 fun k => { k with results := [rowOf] }
    (coreAt s (unitOf s)).results[0]? = some rowOf ∧ ((conAt s 0).bind (crsAt · 0)).isSome = true ∧
    ((conAt s 0).bind (crsAt · 0)).map (·.pend) = some [] ∧ rowOf.lane < 64 := by decide +kernel
/-- A marching request of lane 63, with its window at v20 and its ray at v1, that is done, or needs a brick. -/
def rayOf (need state : Option Nat) : SmReq :=
  { cid := 0, ci := 0, pid := 0, lane := 63, d := 20, a := 1, ns := 1, budget := 1, nbv := 3, pasid := 5, root := 0, key := 0, shape0 := 0, feat := 1
    base := 0, ray := [], t := 0, steps := 0, samples := [[7]], brick := 0, depth := 0, px := 0, py := 0, pz := 0, need := need
    state := state, poison := none, window := 2, got := [] }
theorem hyp_UnitEvents_march : let s := atCore sc 0 fun k => { k with stipple := [rayOf none (some 1)] }
    let r := rayOf none (some 1)
    (coreAt s (unitOf s)).stipple[0]? = some r ∧ (r.state.isSome || r.poison.isSome) = true ∧ r.poison = none ∧ r.lane < 64 ∧ r.a + 6 < r.d ∧
    r.a + 8 < r.d ∧ sameBrick (rayOf (some 5) none) (rayOf (some 5) none) = true := by decide +kernel

/-- The head command of a queue of core 0, and the consort's tile 3. -/
def sHead (q : Nat) (c : Cmd) (rest : List Cmd) : State := { (withCmds (sTile true) q (c :: rest)) with turn := .event 0 .matrixStart }
def cpCmd (kind : Nat) : Cmd := cmdOf 5 (.copy (tplLd ||| BitVec.ofNat 512 kind) 0x4000 3 0 0x100010010)
theorem hyp_CopyEvents_begin : (let s := sHead 0 (cpCmd 0) []; headOf s (unitOf s) 0 = some (cpCmd 0) ∧ (cpCmd 0).begun = false ∧
      hazardFree s (coreAt s (unitOf s)) (cpCmd 0) = true) ∧
    (let s := withCmds (sHead 4 (cmdOf 2 (.mdrain 3 0 6 false)) []) 0 [cpCmd 0]; headOf s (unitOf s) 0 = some (cpCmd 0) ∧
      hazardFree s (coreAt s (unitOf s)) (cpCmd 0) = false) := by decide +kernel
def cpBegun (todo : List Nat) : Cmd := { (cpCmd 0) with begun := true, todo := todo }
/-- What moving the first line of a copy comes to: 0 to wait, 1 a fault, 2 done. -/
def lineKind (s : State) (c : Cmd) : Nat := match c.kind with
  | .copy tpl s0 s1 s2 s3 => match moveLine (fun s c e => moveElem s c tpl s0 s1 s2 s3 e) s c (c.todo.filter fun e => lineKey c e == lineKey c 0) with
    | .wait => 0
    | .fault _ _ => 1
    | .done _ _ => 2
  | _ => 3
theorem hyp_CopyEvents_lines : let s := sHead 0 (cpBegun [0]) []
    headOf s (unitOf s) 0 = some (cpBegun [0]) ∧ (cpBegun [0]).begun = true ∧ (cpBegun [0]).todo[0]? = some 0 ∧ lineKind s (cpBegun [0]) = 2 ∧
    lineKind { s with lines := [(0x100, ⟨0, 0, true⟩)] } (cpBegun [0]) = 1 ∧
    lineKind (atCore s 0 fun k => { k with pins := [⟨0x100, 9, 0⟩] }) (cpBegun [0]) = 0 ∧
    headOf (sHead 0 (cpBegun []) []) 0 0 = some (cpBegun []) := by decide +kernel
/-- Elements in bounds and out, aligned and not, of a tile that is not frozen. -/
theorem hyp_CopyEvents_elems : ((conAt (sHead 0 (cpCmd 0) []) 0).bind (tileAt · (bits (3 : DWord).toNat 0 6))) = some (tileOf 6 0 true) ∧
    (tileOf 6 0 true).ty = Tpl.ty tplLd ∧ (tileOf 6 0 true).frz = false ∧ Tpl.kind tplLd = 0 ∧ Tpl.kind (tplLd ||| 1) = 1 ∧
    inBounds 0x100010010 (elemIdx tplLd 15) = true ∧ inBounds 0x10001000F (elemIdx tplLd 15) = false ∧ Tpl.zfill tplLd = false ∧
    Tpl.zfill (tplLd ||| 0x40000) = true ∧ copyVa tplLd 0x4000 15 % 4 = 0 ∧ copyVa tplLd 0x4001 15 % 4 ≠ 0 ∧ Tpl.red (tplLd ||| 1) = false ∧
    (load sc 5 0 (copyVa tplLd 0x4000 15) 4).toOption.isSome = true ∧ (load sc 5 0 (copyVa tplLd (1 <<< 57) 15) 4).toOption.isSome = false ∧
    (store sc 5 0 (copyVa tplLd 0x4000 15) [1, 2, 3, 4]).toOption.isSome = true ∧
    ((lineOfVirt sc 5 0 (copyVa tplLd 0x4000 15)).elim false (pinnedAway sc 0)) = false := by decide +kernel
theorem hyp_CopyEvents_sparse : (4 : Nat) % 4 < 4 / 4 % 4 ∧ 0 / 4 % 4 ≤ 0 % 4 := by decide
/-- A copy of kind 1 that writes the whole line at 0x4000; a pin of it makes the copy wait. -/
def cpOut : Cmd := { (cpCmd 1) with begun := true, todo := List.range 16 }
theorem hyp_CopyEvents_whole : let s := sHead 0 cpOut []
    (wholeLine s cpOut (List.range 16)).map (fun l => (l.1, l.2.length)) = some (0x4000, 64) ∧ (wholeLine s cpOut (List.range 15)).isNone = true ∧
    (conAt s cpOut.cid).isSome = true ∧ (store s 5 0 0x4000 (toBytes 64 1)).toOption.isSome = true ∧
    waitsPinned s (ctxOf s xc.con) cpOut.cid [0x4000] = false ∧
    waitsPinned (atCore s 0 fun k => { k with pins := [⟨0x100, 9, 0⟩] }) (ctxOf s xc.con) cpOut.cid [0x4000] = true := by decide +kernel
/-- A block of a tile of 32 by 32 elements moves to another tile. -/
theorem hyp_CopyEvents_block : let t : Nat → TileEnt := fun b => { (tileOf 6 0 true) with rows := 32, cols := 32, base := b }
    let s := withTiles sc [(3, t 0), (4, t 4)]
    let tpl : Tpl := BitVec.ofNat 512 (4 + 6 * 2 ^ 8 + 32 * 2 ^ 64 + 32 * 2 ^ 96 + 2 ^ 128)
    Tpl.kind tpl = 4 ∧ (conAt s 0).map (fun con => (tileAt con (bits (0x403 : DWord).toNat 0 6), tileAt con (bits (0x403 : DWord).toNat 8 6))) =
      some (some (t 0), some (t 4)) ∧ (t 4).frz = false ∧ (t 4).ty = (t 0).ty ∧ Tpl.e tpl 0 / 32 = 1 ∧
    (rowCol (0 : DWord)).2 + 0 / 1 * 32 + 32 ≤ (t 4).cols := by decide +kernel
/-- An element from another package for a level-1 tile, frozen or not. -/
theorem hyp_CopyEvents_remote : (∀ f, let t : TileEnt := { (tileOf 6 0 true) with lvl := true, frz := f }
      (conAt (withTiles sc [(3, t)]) 0).map (tileAt · 3) = some (some t) ∧ t.lvl = true ∧ t.own = true ∧ 15 < t.rows ∧ 15 < t.cols) ∧
    (conAt (withTiles sc []) 0).map (·.core) = some 0 ∧ (coreAt (withTiles sc []) 0).freeze = none := by decide +kernel

/-- A gang of two consorts on one core: the peer's tile is open to a write, frozen, or on a frozen core; and of one. -/
def sGang : State := { (withTiles sc [(3, tileOf 6 0 true)]) with
  consorts := (withTiles sc [(3, tileOf 6 0 true)]).consorts.flatMap fun c => [c, { c with cid := 1, index := 1, tiles := [(3, { (tileOf 6 0 true) with lvl := true })] }]
  launches := base.launches.map fun l => { l with gangSize := 2, total := 2 } }
theorem hyp_CopyEvents_peer : let k := fun s => match peerEnd s (cpCmd 2) (tplLd ||| 2) 0x301 0 with
      | .bad => (0, 0, 0)
      | .wait => (1, 0, 0)
      | .tile c h => (2, c, h)
      | .away => (3, 0, 0)
    k sGang = (2, 1, 3) ∧ k sc = (0, 0, 0) ∧ k (atCore sGang 0 fun k => { k with freeze := some ⟨0, 0, ⟨0, 0, 0, 0, 0⟩, 0⟩ }) = (1, 0, 0) := by
  decide +kernel

/-- A peer copy that waits at the tile of consort 1 fails as that tile is freed; one that has not begun, or has written all, does not. -/
theorem hyp_TileTable_peers : let c : Cmd := { (cpCmd 2) with kind := .copy (tplLd ||| 2) 0x301 3 0 0, begun := true, todo := [0] }
    let w := fun h => (cmdWrites sGang c).contains (.tile 1 h)
    (w 3, w 4) = (true, false) ∧ c.todo ≠ [] ∧ (failAt sGang 1 3 c).failed = true ∧ (failAt sGang 1 3 { c with begun := false }).failed = false ∧
    (failAt sGang 1 3 { c with todo := [] }).failed = false := by decide +kernel

theorem hyp_CommandEnds : (conAt (sHead 0 (cpBegun []) []) (cpBegun []).cid).isSome = true ∧ (cpBegun []).flag = some 7 ∧
    flagCourse xc.con (some 0) = some 0 ∧ (crsAt xc.con 0).isSome = true ∧ (coreAt sc 0).freeze = none ∧ 16 ≤ (coreAt sFull 0).fifo.length ∧
    (conAt sFull 0).isSome = true ∧ (coreAt sc 0).fifo.length < 16 := by decide +kernel
theorem hyp_CommandEnds_freeze : let s := atCore (sHead 0 (cpBegun [0]) []) 0 fun k => { k with freeze := some ⟨5, 0, ⟨0, 0, 0, 0, 0⟩, 0⟩ }
    (coreAt s (unitOf s)).freeze.isSome = true ∧ (∀ p ∈ s.pris, p.who ≠ .freeze (unitOf s)) ∧
    (queueAt (coreAt s (unitOf s)) 0).find? (fun c => c.seq == 5) = some (cpBegun [0]) ∧
    (∃ p ∈ [(⟨1, 5, 0, .freeze 0⟩ : Pri)], p.who = .freeze (unitOf s)) := by decide +kernel

theorem hyp_MatrixEvents : (let c := cmdOf 5 (.mzero 0); let s := sHead 4 c []; headOf s (unitOf s) 4 = some c ∧ c.begun = false ∧
      hazardFree s (coreAt s (unitOf s)) c = true) ∧
    (let c := cmdOf 5 (.mdrain 3 0 6 false); let s := withCmds (sHead 0 (cpCmd 0) []) 4 [{ c with seq := 6 }];
      (headOf s (unitOf s) 4).map (hazardFree s (coreAt s (unitOf s))) = some false) ∧
    (let c := { (cmdOf 5 (.mzero 0)) with begun := true }; let s := sHead 4 c []; headOf s (unitOf s) 4 = some c ∧ (conAt s c.cid).isSome = true) ∧
    (∀ d, (let c := { (cmdOf 5 (.peer true 0 0 0x10001)) with begun := true, done := d }; headOf (sHead 4 c []) 0 4 = some c)) ∧
    tileAt xMat.con 1 = some (tileOf 0 0 true) ∧ (tileOf 0 0 true).rows ≤ 128 ∧ tileAt xMat.con 2 = some { (tileOf 0 1 true) with base := 4 } ∧
    (tileOf 0 0 true).frz = false := by decide +kernel
theorem hyp_MatrixEvents_kind : ∀ o r a v, (CmdKind.mzero 0) ≠ .peer o r a v := fun _ _ _ _ h => CmdKind.noConfusion h
/-- An ordered contribution to rank 1, in its turn and not; and one to an accumulator that the receiver lacks. -/
theorem hyp_MatrixEvents_peer : let c := { (cmdOf 5 (.peer true 7 0 0x470001)) with begun := true }
    let s := { (withCmds sGang 4 [c]) with turn := .event 0 .peerContributionApply }
    unitOf s < 256 ∧ (coreAt s (unitOf s)).matq.head? = some c ∧ selfAdd s c = false ∧ (conAt s c.cid).isSome = true ∧ c.done = false ∧
    (let l := launchOf s xc.con; l.span.isNone ∧ 0 ≤ bits (0x470001 : DWord).toNat 0 8 ∧ bits (0x470001 : DWord).toNat 0 8 < 0 + l.gangSize) ∧
    (rankConsort s xc.con 1).map (fun rc => (rc.nacc, rc.nflag, smGet 0 rc.nextSlot 7)) = some (8, 64, 0) ∧
    (coreAt s 0).freeze = none ∧ arrayFree s (coreAt s 0) = true ∧ (0x470001 : DWord).getLsbD 22 = true ∧
    bits (0x470001 : DWord).toNat 16 6 < 64 ∧ bits (0x470001 : DWord).toNat 8 8 = 0 ∧ bits (0x470101 : DWord).toNat 8 8 ≠ 0 ∧ ¬ 8 < 8 := by
  decide +kernel

/-- A contribution from another package, in its turn; to an accumulator that is not there. -/
theorem hyp_MatrixEvents_remote : let a : PeerAdd := ⟨0, 7, [(0, 1)], some 0, some 63⟩
    (conAt sGang a.cid).map (fun rc => (rc.core, decide (a.acc < rc.nacc), decide (63 < rc.nflag), smGet 0 rc.nextSlot a.acc)) =
      some (0, true, true, 0) ∧ ({ a with acc := 8 } : PeerAdd).acc = 8 ∧ xc.con.nacc = 8 ∧
    (coreAt sGang 0).freeze = none ∧ arrayFree sGang (coreAt sGang 0) = true ∧
    (let s := { sGang with adds := [a, a], turn := .event 257 .peerContributionApply }; unitOf s = 256 + 1 ∧ s.adds[1]? = some a) := by decide +kernel

/-- A clause in memory at 0x5000 of a header and one word, that the course is to issue; the slots of core 0 are empty. -/
def sIssue (capo : Bool) : State := { (onCon (onCrs sc fun c => { c with
    splits := [(0, entrySplit 0x5000 (fullMask 32))] }) fun c => { c with capo := capo }) with
  cores := [(0, { (coreAt sc 0) with issue := [] })], turn := .event 0 (.clauseIssue 0)
  mem := base.mem ++ [(0x5000, 0x88), (0x5001, 0x7F), (0x5003, 0x08)] }
/-- What a fetch finds where no cached word is taken. -/
def fetchNow (s : State) (ctx : Nat × Nat) (va : Nat) : Except (Nat × DWord) Word := match translate s ctx.1 ctx.2 .fetch va with
  | .error e => .error (memTrap e va)
  | .ok l => match loadLeaf s l va 4 with
    | .ok b => .ok (BitVec.ofNat 32 (ofBytes b))
    | .error e => .error (memTrap e va)
def fetchesNow (s : State) (ctx : Nat × Nat) (va : Nat) : Nat → Except (Nat × DWord) (List Word)
  | 0 => .ok []
  | n + 1 => do
    let w ← fetchNow s ctx va
    let ws ← fetchesNow s ctx (va + 4) n
    .ok (w :: ws)
theorem chosen_zero {α : Type} (l : List α) : chosen l 0 = none := by cases l <;> rfl
theorem fetch_now (h : ∀ t va, Config.fetchCached t va = 0) (s : State) (k : Core) (ctx : Nat × Nat) (va : Nat) :
    fetch s k ctx va = fetchNow s ctx va := by
  unfold fetch fetchNow
  cases translate s ctx.1 ctx.2 .fetch va with
  | error e => rfl
  | ok l => simp only [h, chosen_zero] <;> cases loadLeaf s l va 4 <;> rfl
theorem fetches_now (h : ∀ t va, Config.fetchCached t va = 0) (s : State) (k : Core) (ctx : Nat × Nat) (va n : Nat) :
    fetchWords s k ctx va n = fetchesNow s ctx va n := by
  induction n generalizing va with
  | zero => rfl
  | succ n ih => simp only [fetchWords, fetchesNow, fetch_now h, ih]
def look? (s : State) : Option (Nat × Nat × Bool) := (bestCourse s 0 fun _ => true).map fun b => (b.1.cid, b.2.1.idx, match b.2.2.2.2 with
  | .issue _ _ => true
  | _ => false)
theorem hyp_ClauseIssues_best (h : ∀ t va, Config.fetchCached t va = 0) : look? (sIssue false) = some (0, 0, true) := by
  simp only [look?, bestCourse, lookCourse, lookSplit, lookClause, fetch_now h, fetches_now h]
  decide +kernel
theorem hyp_ClauseIssues : let s := sIssue false
    alGet (coreAt s (unitOf s)).issue 0 = none ∧ 3 < 4 ∧ xc.con.plate.mode ≠ 1 ∧ xc.con.capo = false ∧
    (launchOf s xc.con).prio ≤ 22 ∧ (conAt s 0).map (fun con => (con.cid, (crsAt con 0).map (·.idx))) = some (0, some 0) ∧
    effPrio s xc.con xc.c < effPrio s xc.con { xc.c with age := 4096 } := by decide +kernel
/-- A bad header: no words. -/
theorem hyp_ClauseIssues_header : headerOk 0 [] = false ∧ headerOk 0x08007F88 [] = true ∧ headerOk 0xC0007F88 [] = true ∧
    headerOk 0xC8007F88 [] = false ∧ (let h := 0x08007F80; headerOk h [] = true ∧ skips h 0x4000 [] = false ∧ hPre h = false ∧ (entrySplit 0 1).off = 0 ∧
      ({ (entrySplit 0 1) with preRun := 4 } : Split).preRun = 4) := by decide +kernel
/-- A fetch that is served, one from a pinned line, and one that fails. -/
theorem hyp_ClauseIssues_fetch (h : ∀ t va, Config.fetchCached t va = 0) : (fetch sc coreInit (ctxOf sc xc.con) 0x4000).toOption = some 0 ∧
    (fetch sc coreInit (ctxOf sc xc.con) (2 ^ 57)).toOption = none ∧ waitsPinned sc (ctxOf sc xc.con) xc.con.cid [2 ^ 57] = false ∧
    waitsPinned sc (ctxOf sc xc.con) xc.con.cid [0x4000] = false ∧
    waitsPinned { sc with cores := sc.cores.map fun k => (k.1, { k.2 with pins := [⟨0x100, 9, 0⟩] }) } (ctxOf sc xc.con) xc.con.cid [0x4000] = true := by
  simp only [fetch_now h]
  decide +kernel
/-- An etch that a clause of a course that is not its driver enters, and the driver's with a word that no driver may have. -/
theorem hyp_ClauseIssues_etch : xEtch.con.plate.mode = 1 ∧ xEtch.con.plate.finished = false ∧ (∃ l, launchAt sEtch xEtch.con.launch = some l) ∧
    hDrv 0x08007F88 ≠ xEtch.c.driver.getD (hDrv 0x08007F88) ∧
    (∀ ws ∈ [[0], [0x20084180]], (starts 1 ws).all fun i => driverMay i.2) ∧ (starts 1 [0xF0000000, 0]).any fun i => !driverMay i.2 := by
  refine ⟨by decide +kernel, by decide +kernel, Option.isSome_iff_exists.1 (by decide +kernel), ?_⟩
  decide +kernel
/-- A clause of a launch in slot 0, and the Capo agent's course that may go between its words; its root is a free value, here 0. -/
def sInter : State := { (sIssue true) with
  consorts := (sIssue true).consorts ++ [{ xc.con with cid := 1 }]
  cores := [(0, { (coreAt sc 0) with issue := (coreAt sc 0).issue.map fun i => (i.1, { i.2 with cid := 1 }) })] }
theorem hyp_ClauseIssues_slot : (∀ w, let s := { sInter with cores := sInter.cores.map fun k => (k.1, { k.2 with issue := k.2.issue.map fun i =>
      (i.1, { i.2 with waits := w }) }) }
    (alGet (coreAt s (unitOf s)).issue 0).map (fun i => ((conAt s i.cid).map (·.capo), i.waits)) = some (some false, w) ∧
      alGet (coreAt s (unitOf s)).issue 4 = none) ∧ xc.c.idx = 0 ∧ conAt sc xc.con.cid = some xc.con ∧ crsAt xc.con 0 = some xc.c := by
  decide +kernel
theorem hyp_ClauseIssues_capo (h : Config.capoRoot = 0) (g : ∀ t va, Config.fetchCached t va = 0) : (bestCourse sInter 0 fun c => c.capo).map (fun b => (b.1.cid, match b.2.2.2.2 with
    | .issue _ _ => true
    | _ => false)) = some (0, true) := by
  simp only [bestCourse, lookCourse, lookSplit, lookClause, fetch_now g, fetches_now g, ctxOf, h]
  decide +kernel

/-- A pending write of v8 in lane 0 and of s5, of no flag and no request, and of one. -/
def pendOf (reqs : Nat) : PendWrite := { pendInit with id := 7, vregs := [8], sregs := [5], lanes := [(512, ⟨9, 0⟩)], scalars := [(5, 3)], reqs := reqs }
theorem hyp_LateEvents : let s := fun n => { (onCrs sc fun c => { c with pend := [pendOf n] }) with turn := .event 0 (.longLatencyWriteback 0 0) }
    (∀ n ∈ [0, 1], ((conAt (s n) (unitOf (s n))).bind (crsAt · 0)).bind (·.pend[0]?) = some (pendOf n)) ∧ (pendOf 0).holds = false ∧
    (pendOf 0).record = none ∧ (pendOf 0).skip = [] ∧ ((pendOf 0).lanes.map (·.1)).Nodup ∧ ((pendOf 0).scalars.map (·.1)).Nodup := by decide +kernel
theorem hyp_LateEvents_wdog : let w := fun (t : State) (spent : Nat) (e : Bool) => { (onCon (onCrs t fun c => { c with ended := e }) fun c =>
      { c with wdLimit := 1, wdSpent := spent }) with turn := .event 0 .wdog }
    (∀ n ∈ [1023, 1024], (conAt (w sc n false) (unitOf (w sc n false))).map (fun c => (c.wdLimit, c.wdRaised, c.wdSpent, c.courses.all (·.ended))) =
      some (1, false, n, false)) ∧
    (conAt (w sc 1024 true) 0).map (·.courses.all (·.ended)) = some true ∧ (coreAt (w sc 1024 true) 0).fifo.length < 16 ∧
    (conAt (w sFull 1024 true) 0).map (·.courses.all (·.ended)) = some true ∧ 16 ≤ (coreAt (w sFull 1024 true) 0).fifo.length := by decide +kernel
theorem hyp_LateEvents_due : let con := { xc.con with wdDue := true }
    con.wdDue = true ∧ wdCourse con = some xc.c.idx ∧ mayIssue (coreAt (sIssue false) 0) con { xc.c with splits := [(0, entrySplit 0x5000 1)] } true = true ∧
    fifoRoom (coreAt (sIssue false) 0) = true := by decide +kernel
def errOf : StoreErr := ⟨0, 0, 0, 0, 0, 0, 0x100⟩
theorem hyp_LateEvents_errors : let s := fun (s : State) t => atCore s t fun k => { k with pins := [⟨0x100, 0, 0⟩], storeErrs := [errOf] }
    (∃ p ∈ (coreAt (s sc (2 ^ 16)) 0).pins, p.line = 0x100 ∧ p.since + 2 ^ 16 ≤ (s sc (2 ^ 16)).cycles) ∧
    (∀ p ∈ (coreAt (s sc (2 ^ 16 - 1)) 0).pins, p.line = 0x100 → (s sc (2 ^ 16 - 1)).cycles < p.since + 2 ^ 16) ∧
    (coreAt (s sc 0) 0).storeErrs = [errOf] ∧ (coreAt (s sc 0) 0).fifo.length < 16 ∧ 16 ≤ (coreAt (s sFull 0) 0).fifo.length ∧
    ((conAt sDebug errOf.cid).bind (crsAt · errOf.ci)).isSome = true ∧ debugged sDebug (ctxOf sDebug xc.con).1 = true := by decide +kernel

/-- A course with no split, of a launch of n temporal iterations, on a core with empty slots. -/
def sEnd (n : Nat) (atEnd : Bool) : State := { (onCrs sc fun c => { c with splits := [], atEnd := atEnd }) with
  cores := [], turn := .event 0 (.courseEnd 0)
  launches := base.launches.map fun l => { l with lt := [BitVec.ofNat 32 (2 ^ 27 + n)] } }
theorem hyp_CourseEvents : (∀ n ∈ [1, 2], (conAt (sEnd n false) (unitOf (sEnd n false))).map (fun con => (con.capo, con.plate.mode,
      (crsAt con 0).map (courseDone (sEnd n false) con), iterationsLeft (launchOf (sEnd n false) con) con.tix)) =
        some (false, 0, some true, decide (n = 2))) ∧
    (conAt sc 0).map (fun con => (crsAt con 0).map (courseDone sc con)) = some (some false) ∧
    (conAt (sEnd 2 true) (unitOf (sEnd 2 true))).map (fun con => (con.courses.length, con.courses.all (·.atEnd),
      iterationsLeft (launchOf (sEnd 2 true) con) con.tix)) = some (1, true, true) ∧
    (let con := { xc.con with courses := [{ xc.c with ended := true }] };
      consortOver { (sEnd 1 false) with consorts := [con] } con = true ∧ (launchAt (sEnd 1 false) con.launch).isSome = true) ∧
    consortOver sc xc.con = false := by decide +kernel
theorem hyp_CourseEvents_iterations : let l := { noLaunch with lt := [BitVec.ofNat 32 (2 ^ 27 + 2), BitVec.ofNat 32 (2 ^ 27 + 3)] }
    extentOf l 1 ≠ 0 ∧ kindOf l 1 = 0 ∧ [1, 1, 0, 0].length = 4 ∧ (∀ m, m < 1 → extentOf l m ≤ [1, 1, 0, 0].getD m 0 + 1) ∧
    [1, 1, 0, 0].getD 1 0 + 1 < extentOf l 1 := by decide +kernel
/-- A print that stands at an entry: the end, a guard of tile 3 that holds and one that does not, and an MZERO. -/
def sFeed (e : BitVec 128) : State := { (onCon (withTiles sc [(3, tileOf 6 0 true)]) fun c => { c with
    plate := { c.plate with mode := 2, entries := [e], window := 1 } }) with turn := .event 0 .plateFeed }
def mzeroEntry : BitVec 128 := BitVec.ofNat 128 (2 * 2 ^ 124 + 0xEA000000 + 7 * 2 ^ 17 + 0xFF * 2 ^ 56)
theorem hyp_CourseEvents_print : (∀ e, (conAt (sFeed e) (unitOf (sFeed e))).map (fun con => (con.plate.mode, con.plate.feedDone, con.dying, con.held,
      con.preReq)) = some (2, false, false, false, none)) ∧ (coreAt (sFeed 0) 0).freeze = none ∧
    (conAt (sFeed 0) 0).map (streamOk (sFeed 0)) = some true ∧ bits (0 : BitVec 128).toNat 124 4 = 0 ∧
    (let v := (tileGuard 3 (tileOf 6 0 true)).toNat; bits v 124 4 = 11 ∧ bits v 120 4 = 3 ∧
      (conAt (sFeed 0) 0).map (tileGuardOk · v) = some true ∧ tileGuardOk xc.con v = false) := ⟨fun _ => rfl, by decide +kernel⟩
theorem hyp_CourseEvents_mzero : ∃ p, entryInstr mzeroEntry.toNat = some (.mzero p) ∧ bits mzeroEntry.toNat 124 4 = 2 ∧
    (∃ ps, planMatrix (launchOf sc xc.con) xc.con .mzero p (BitVec.ofNat 64 (bits mzeroEntry.toNat 64 23)) = .ok ps) ∧
    roomFor (coreAt sc 0) [4] = true := ⟨_, rfl, by decide, isOk_of _ (by decide +kernel), by decide +kernel⟩

/-- A QCB at 0x6000: PASID 5, PRIO 4, rings of 64 at 0x8000 and 0x9000; and its queue with commands. -/
def qcbFor (tail head ctail st : Nat) : List Byte := toBytes 24 (0x8000 + 64 * 2 ^ 64 + tail * 2 ^ 96 + head * 2 ^ 128 + 64 * 2 ^ 160) ++
  toBytes 40 (0x9000 + ctail * 2 ^ 64 + (5 + 4 * 2 ^ 24 + st * 2 ^ 29 + 2 ^ 32 + 2 ^ 48) * 2 ^ 192)
def sQueue (tail head ctail st : Nat) (q : Queue) (more : List (Nat × Byte)) : State := { (withBytes base 0x6000 (qcbFor tail head ctail st)) with
  mem := (withBytes base 0x6000 (qcbFor tail head ctail st)).mem ++ more
  queues := [q], turn := .event 0x6000 .wait, mbox := { Mailbox.reset with ready := true } }
def queueOfCmds (cs : List QCmd) : Queue := { (newQueue 0x6000) with cached := true, cmds := cs, spans := [(1, 0x3F)] }
def cmdBytes (v : Nat) : QCmd := ⟨0, toBytes 64 v, 0x3F, 0, 0⟩
def sCmd (v : Nat) : State := sQueue 1 1 0 1 (queueOfCmds [cmdBytes v]) []
theorem alone_of (v : Nat) (h : nextCmd (sCmd v) 0x6000 = some (cmdBytes v)) (g : cmdBad (cmdBytes v) = none) :
    Alone (sCmd v) (queueOfCmds [cmdBytes v]) (cmdBytes v) := ⟨rfl, rfl, h, g⟩

/-- A capability for the QCB with every right but the last, sealed, and a new tail of 2. -/
def wakeBytes : List Byte := let cap := 0x6000 + 64 * 2 ^ 64 + 0x1F * 2 ^ 96 + 5 * 2 ^ 116
  toBytes 24 cap ++ toBytes 8 (Config.capSeal cap).toNat ++ toBytes 32 2
theorem ofBytes_toBytes8 (v : BitVec 64) : ofBytes (toBytes 8 v.toNat) = v.toNat := by
  have h : ∀ i, (byteAt v.toNat i).toNat = v.toNat / 2 ^ (8 * i) % 2 ^ 8 := fun i => by simp [byteAt, Nat.shiftRight_eq_div_pow]
  simp only [toBytes, List.range, List.range.loop, List.map, ofBytes, h]
  have := v.isLt
  omega
theorem hyp_QueueEvents_wake : wakeFails (sQueue 1 0 0 1 (queueOfCmds []) []) 0x10000 wakeBytes (some 5) = none := by
  have h : fieldB wakeBytes 24 8 = (Config.capSeal (fieldB wakeBytes 0 24)).toNat := by
    have e : fieldB wakeBytes 0 24 = 0x6000 + 64 * 2 ^ 64 + 0x1F * 2 ^ 96 + 5 * 2 ^ 116 := by decide +kernel
    rw [e]
    exact ofBytes_toBytes8 _
  simp only [wakeFails, h, ne_eq, not_true_eq_false, false_or]
  decide +kernel
theorem hyp_QueueEvents_wakes : let s := fun st cached ok => sQueue (if ok then 1 else 99) 0 0 st { (queueOfCmds []) with cached := cached } []
    serving (s 1 true true) = true ∧ serving base = false ∧ wakeFails (s 1 true true) 0x1FFC0 [] none = some 1 ∧ 0x1FFC0 < 0x20000 ∧
    (queueFor (s 1 true true) (fieldB wakeBytes 0 8)).map (·.cached) = some true ∧ (qcbOf (s 1 true true) (fieldB wakeBytes 0 8)).state ≠ 3 ∧
    (qcbOf (s 3 true true) (fieldB wakeBytes 0 8)).state = 3 ∧ qcbOk (qcbOf (s 1 true true) 0x6000) = true ∧
    qcbOk (qcbOf base 0x6000) = false := by decide +kernel
/-- A queue with a WAIT to fetch; and the same with its ring in a page that is not present, and on a bad line. -/
def sFetch : State := sQueue 1 0 0 1 (queueOfCmds []) [(0x8000, 4)]
def noPage (s : State) : State := { s with mem := s.mem.filter fun b => b.1 != 0x2000 }
def badLine (s : State) (n : Nat) : State := { s with lines := [(n, ⟨0, 0, true⟩)] }
theorem hyp_QueueEvents_fetch : (fetchFrom sFetch).map (·.qcb) = some 0x6000 ∧ serving sFetch = true ∧
    (∀ p ∈ sFetch.queues, p.cmds = [] ∧ p.retiring = none) ∧ (qcbOf sFetch 0x6000).head = 0 ∧
    (loadMany sFetch 5 0 0x8000 8).toOption.map (fun bs => cmdBad ⟨0, bs, 0x3F, 0, 0⟩) = some none ∧
    (match loadMany (noPage sFetch) 5 0 0x8000 8, loadMany (badLine sFetch 0x200) 5 0 0x8000 8 with
      | .error (.xlat r), .error .mem => decide (r = rNotPresent)
      | _, _ => false) = true := by decide +kernel
def doneNow : Done := ⟨0, 0, 7, 0, 0, 0⟩
/-- What a record's write comes to: 0 written, 1 a page not present, 2 an error. -/
def recordKind (s : State) : Nat := match storeMany s (5, 0) 0x9000 4 (recordBytes doneNow true 0) with
  | .ok _ => 0
  | .error (.xlat _) => 1
  | .error .mem => 2
theorem hyp_QueueEvents_records : ((queueFor sFetch 0x6000).elim true (·.broken)) = false ∧
    (let b := qcbOf sFetch 0x6000; inc32 b.ctail b.chead < b.csize ∧ b.cring = 0x9000) ∧
    (let b := qcbOf (sQueue 1 0 64 1 (queueOfCmds []) []) 0x6000; b.csize ≤ inc32 b.ctail b.chead) ∧
    recordKind sFetch = 0 ∧ recordKind (noPage sFetch) = 1 ∧ recordKind { sFetch with keys := [], lines := [] } = 1 := by decide +kernel
/-- The ring's line is pinned; and a page was granted. -/
theorem hyp_QueueEvents_waits : let pin := fun (s : State) n => { s with cores := [(0, { coreInit with pins := [⟨n, 9, 0⟩] })] }
    waitsPins sFetch (5, 0) [0x8000] = false ∧ waitsPins (pin sFetch 0x200) (5, 0) [0x8000] = true ∧ waitsPins (pin sFetch 0x240) (5, 0) [0x9000] = true ∧
    (queueFor sFetch 0x6000).map (·.granted) = some [] ∧
    (queueFor { sFetch with queues := [{ (queueOfCmds []) with granted := [0x8000] }] } 0x6000).map (·.granted) = some [0x8000] := by decide +kernel
theorem hyp_QueueEvents_complete : let s := fun sh => { sFetch with
      launches := [{ noLaunch with lid := 0, qcb := 0x6000, shares := [sh] }], turn := .event 0 .launchComplete }
    (launchAt (s []) (unitOf (s []))).map (fun l => ((queueFor (s []) l.qcb).map fun q => (q.pri, q.retiring), launchOver (s []) l)) =
      some (some (false, none), true) ∧
    (launchAt (s [(0, 1)]) 0).map (launchOver (s [(0, 1)])) = some false := by decide +kernel

/-- FEED of work queue 9 at 0x4000: create, destroy, append. -/
def feedCmd (fl src n : Nat) : Nat := 2 + fl * 2 ^ 8 + 9 * 2 ^ 16 + src * 2 ^ 64 + n * 2 ^ 128
theorem hyp_CommandEvents_create : Alone (sCmd (feedCmd 1 0x4000 16)) (queueOfCmds [cmdBytes (feedCmd 1 0x4000 16)]) (cmdBytes (feedCmd 1 0x4000 16)) ∧
    isCreate (cmdBytes (feedCmd 1 0x4000 16)) = true ∧ feedSrc (cmdBytes (feedCmd 1 0x4000 16)) % 16 = 0 ∧
    wqAt (sCmd (feedCmd 1 0x4000 16)) 9 = none ∧ (∃ e, 4 ≤ e ∧ e ≤ 20 ∧ feedCount (cmdBytes (feedCmd 1 0x4000 16)) = 2 ^ e) ∧
    feedSrc (cmdBytes (feedCmd 1 0x4008 16)) % 16 ≠ 0 ∧ (¬ ∃ e, 4 ≤ e ∧ e ≤ 20 ∧ feedCount (cmdBytes (feedCmd 1 0x4000 0)) = 2 ^ e) := by
  refine ⟨alone_of _ (by decide +kernel) (by decide +kernel), by decide +kernel, by decide +kernel, by decide +kernel,
    ⟨4, by decide +kernel⟩, by decide +kernel, ?_⟩
  rintro ⟨e, -, -, h⟩
  have := Nat.two_pow_pos e
  have z : feedCount (cmdBytes (feedCmd 1 0x4000 0)) = 0 := by decide +kernel
  omega
/-- The next command, run with a work queue there. -/
def sFeed2 (v : Nat) (w : WorkQ) : State := { (sCmd v) with workqs := [w] }
theorem hyp_CommandEvents_destroy : isDestroy (cmdBytes (feedCmd 8 0 0)) = true ∧ nextCmd (sCmd (feedCmd 8 0 0)) 0x6000 = some (cmdBytes (feedCmd 8 0 0)) ∧
    cmdBad (cmdBytes (feedCmd 8 0 0)) = none ∧ wqAt (sFeed2 (feedCmd 8 0 0) (wqOf 5 0 false)) 9 = some (wqOf 5 0 false) ∧
    5 = (queueCtx (sFeed2 (feedCmd 8 0 0) (wqOf 5 0 false))).1 ∧ refillAsleep (sFeed2 (feedCmd 8 0 0) (wqOf 5 0 false)) 9 = false ∧
    ¬ (wqOf 5 0 true).isOpen = false := by decide +kernel
theorem hyp_CommandEvents_append : let c := cmdBytes (feedCmd 0 0x4000 1)
    let s := sFeed2 (feedCmd 0 0x4000 1) (wqOf 5 15 true)
    isAppend c = true ∧ nextCmd s 0x6000 = some c ∧ cmdBad c = none ∧ feedSrc c % 16 = 0 ∧ feedCount c = 1 ∧ wqAt s 9 = some (wqOf 5 15 true) ∧
    (cmdFlags c).testBit 1 = false ∧ (wqOf 5 15 true).count + 1 ≤ (wqOf 5 15 true).cap ∧ (wqOf 5 16 true).cap < (wqOf 5 16 true).count + 1 ∧
    (wqOf 4 0 true).owner ≠ (queueCtx s).1 ∧ (queueCtx s) = (5, 0) ∧ (load s 5 0 0x4000 8).toOption = some (List.replicate 8 0) ∧
    (wqPush s (wqOf 5 15 true) (List.replicate 16 0)).toOption.map (fun u => (qcbOf (wakeRefills u 9) 0x6000).state) = some 1 := by decide +kernel
theorem hyp_CommandEvents_room : let c := { (cmdBytes (feedCmd 0 0x4000 1)) with stage := 2 }
    let s := fun w => { (sQueue 1 1 0 2 (queueOfCmds [c]) []) with workqs := [w] }
    queueFor (s (wqOf 5 15 true)) (unitOf (s (wqOf 5 15 true))) = some (queueOfCmds [c]) ∧ isAppend c = true ∧
    wqAt (s (wqOf 5 15 true)) (feedNum c) = some (wqOf 5 15 true) ∧ (wqOf 5 16 true).cap < (wqOf 5 16 true).count + feedCount c ∧
    (wqPush (s (wqOf 5 15 true)) (wqOf 5 15 true) (List.replicate 16 0)).toOption.map (fun u => (qcbOf (wakeRefills u 9) 0x6000).state) = some 2 := by
  decide +kernel
/-- SIGNAL at 0x4000, storing and adding, and misaligned; and a WAIT there for 0 and for 1. -/
theorem hyp_CommandEvents_sync : (∀ v ∈ [3 + 0x4000 * 2 ^ 64, 3 + 2 ^ 8 + 0x4000 * 2 ^ 64 + 2 ^ 128, 3 + 0x4004 * 2 ^ 64, 4 + 0x4000 * 2 ^ 64,
      4 + 0x4000 * 2 ^ 64 + 2 ^ 128, 4 + 0x4004 * 2 ^ 64], nextCmd (sCmd v) 0x6000 = some (cmdBytes v) ∧ cmdBad (cmdBytes v) = none ∧
        (cmdOp (cmdBytes v) = 3 ∨ cmdOp (cmdBytes v) = 4) ∧ (load (sCmd v) 5 0 (syncAddr (cmdBytes v) / 8 * 8) 8).toOption = some (List.replicate 8 0) ∧
        (store (sCmd v) 5 0 (syncAddr (cmdBytes v) / 8 * 8) (toBytes 8 (syncValue (cmdBytes v) % 2 ^ 64))).toOption.isSome = true) ∧
    (load (noPage (sCmd 0)) 5 0 0x4000 8).toOption = none ∧
    (let c := { (cmdBytes (4 + 0x4000 * 2 ^ 64)) with stage := 2 }; let s := sQueue 1 1 0 1 (queueOfCmds [c]) [];
      queueFor s (unitOf s) = some (queueOfCmds [c]) ∧ (queueOfCmds [c]).pri = false ∧ cmdOp c = 4) := by decide +kernel
/-- GANG of 2 with its MAP at 0x4000, and of 0; LAUNCH of a kernel at 0xA000, and one that breaks a limit. -/
def launchCmd : Nat := 1 + 2 * 2 ^ 16 + 0xA000 * 2 ^ 64 + 0xB000 * 2 ^ 128 + 0xC000 * 2 ^ 192 + (2 ^ 27 + 1) * 2 ^ 256
def sLaunch : State := { base with
  mem := base.mem ++ [(0x6001, 0x80), (0x6008, 64), (0x600C, 1), (0x6010, 1), (0x6014, 64), (0x6019, 0x90), (0x6030, 5), (0x6033, 0x24),
    (0xA010, 2), (0xA011, 1), (0xA012, 1)]
  queues := [queueOfCmds [cmdBytes launchCmd]], turn := .event 0x6000 .launch, mbox := { Mailbox.reset with ready := true } }
theorem hyp_CommandEvents_gang : (∀ v ∈ [5 + 2 * 2 ^ 144 + 0x4000 * 2 ^ 192, 5], nextCmd (sCmd v) 0x6000 = some (cmdBytes v) ∧ cmdBad (cmdBytes v) = none ∧
      cmdOp (cmdBytes v) = 5) ∧ fieldB (cmdBytes 5).bytes 18 2 = 0 ∧
    (loadBytes (sCmd (5 + 2 * 2 ^ 144 + 0x4000 * 2 ^ 192)) (5, 0) 0x4000 4).toOption.isSome = true ∧
    (nextCmd sLaunch 0x6000 = some (cmdBytes launchCmd) ∧ cmdBad (cmdBytes launchCmd) = none ∧ cmdOp (cmdBytes launchCmd) = 1) ∧
    launchOk (cmdBytes 1).bytes = false := by decide +kernel
/-- The addresses of the tests below 2^30 translate to themselves and load what memory holds. -/
theorem place_low (s : State) (h : s.pkg = 0) (va : Nat) (hv : va < 1073741824) : placeOf s va = .mem va := by
  have a : va / 549755813888 = 0 := Nat.div_eq_of_lt (by omega)
  have b : va % 549755813888 = va := Nat.mod_eq_of_lt (by omega)
  have c : ¬ Config.krehanEnd ≤ va := by unfold Config.krehanEnd; omega
  have d : va < Config.installedBytes := by unfold Config.installedBytes; omega
  simp [placeOf, a, b, c, d, h]
theorem leaf_low (va : Nat) (hv : va < 1073741824) : leafOf sLaunch 2 (va / 4096) 0xF = .ok ⟨va / 4096 * 4096, 0, false, true, true, 262144⟩ := by
  have a : va / 4096 % 262144 = va / 4096 := Nat.mod_eq_of_lt (by omega)
  have p := place_low sLaunch rfl (va / 4096 * 4096) (by omega)
  have k : 0 ∈ sLaunch.keys := List.mem_singleton.2 rfl
  simp [leafOf, leafFrames, Nat.testBit, a, p, k, bits]
theorem walk_low (va : Nat) (hv : va < 1073741824) : translate sLaunch 5 0 .read va = .ok ⟨va / 4096 * 4096, 0, false, true, true, 262144⟩ := by
  have b : ∀ lo, 30 ≤ lo → bits va lo 9 = 0 := fun lo hl => by
    have : va / 2 ^ lo = 0 := Nat.div_eq_of_lt (lt_of_lt_of_le hv (Nat.pow_le_pow_right (n := 2) (by omega) hl))
    simp [bits, Nat.shiftRight_eq_div_pow, this]
  have r0 : readPte sLaunch 0 = .ok 0x1001 := rfl
  have r1 : readPte sLaunch 0x1000 = .ok 0x2001 := rfl
  have r2 : readPte sLaunch 0x2000 = .ok 0xF := rfl
  have w : walk sLaunch va 0 4 = .ok ⟨va / 4096 * 4096, 0, false, true, true, 262144⟩ := by
    have q : bits 4097 12 40 = 1 ∧ bits 8193 12 40 = 2 ∧ bits 4097 52 12 = 0 ∧ bits 8193 52 12 = 0 ∧ bits 4097 2 10 = 0 ∧ bits 8193 2 10 = 0 ∧
      Nat.testBit 4097 1 = false ∧ Nat.testBit 8193 1 = false ∧ Nat.testBit 15 1 = true := by decide
    simp [walk, b, r0, r1, r2, q, leaf_low va hv, bind, Except.bind]
  have k : 0 ∈ sLaunch.keys := List.mem_singleton.2 rfl
  have t : tlbFind sLaunch 5 0 (va / 4096) = [] := rfl
  simp [Machine.translate, chosen, w, t, k, permit, show ¬ 144115188075855872 ≤ va by omega]
theorem load_low (va : Nat) (hv : va < 1073741824) : load sLaunch 5 0 va 1 = .ok [smGet 0 sLaunch.mem va] := by
  have p := place_low sLaunch rfl va hv
  have o : ∀ n, lineOk sLaunch n 0 = true := fun _ => rfl
  simp [load, walk_low va hv, loadLeaf, physRead, p, memRead, o, rawRead, bind, Except.bind, Nat.div_add_mod']
theorem bytes_low (n va : Nat) (hv : va + n ≤ 1073741824) : loadBytes sLaunch (5, 0) va n = .ok ((List.range' va n).map (smGet 0 sLaunch.mem)) := by
  induction n generalizing va with
  | zero => rfl
  | succ n ih => simp [loadBytes, Nat.mod_eq_of_lt (show va < 18446744073709551616 by omega), load_low va (by omega), ih (va + 1) (by omega), List.range'_succ]
theorem probe_low (n va : Nat) (hv : va + n ≤ 1073741824) : probe sLaunch (5, 0) va n = none := by
  simp only [probe, List.find?_eq_none, List.mem_map, List.mem_range]
  rintro _ ⟨i, hi, rfl⟩
  simp [Nat.mod_eq_of_lt (show va + i < 18446744073709551616 by omega), walk_low (va + i) (by omega)]
/-- The checks of a launch, one by one. -/
theorem check_of (s : State) (qcb : Nat) (q : Queue) (c : QCmd) (ctx : Nat × Nat) (kd args : List Byte) (v1 v2 v3 : Nat)
    (hc : ((qcbOf s qcb).pasid, (qcbOf s qcb).root) = ctx) (h1 : fieldB c.bytes 8 8 = v1) (h2 : fieldB c.bytes 16 8 = v2)
    (h3 : fieldB c.bytes 24 8 = v3) (ho : launchOk c.bytes = true) (p1 : probe s ctx v1 256 = none) (p2 : probe s ctx v2 256 = none)
    (p3 : probe s ctx v3 64 = none) (b1 : loadBytes s ctx v1 256 = .ok kd) (b2 : loadBytes s ctx v2 256 = .ok args)
    (hk : kernelOk kd = true) (ht : tableOk (launchFrom s qcb (qcbOf s qcb) c kd args q.bind) = true)
    (hg : (launchFrom s qcb (qcbOf s qcb) c kd args q.bind).gangSize = 0) (hb : q.bind = none)
    (hr : (launchFrom s qcb (qcbOf s qcb) c kd args q.bind).refill = false) : ∃ l, checkLaunch s qcb q c = .ok l := by
  refine ⟨{ (launchFrom s qcb (qcbOf s qcb) c kd args q.bind) with
    shares := dealShares (launchFrom s qcb (qcbOf s qcb) c kd args q.bind) }, ?_⟩
  simp [hb] at ht hg hr ⊢
  simp [checkLaunch, hc, h1, h2, h3, ho, p1, p2, p3, b1, b2, hk, ht, hg, hr, hb, List.findSome?]
theorem hyp_CommandEvents_free : launchWaits sLaunch 0x6000 (cmdBytes launchCmd) = false ∧
    (∀ v ∈ [feedCmd 0 0x4000 1, 3 + 0x4000 * 2 ^ 64], waitsPins (sCmd v) (queueCtx (sCmd v)) [0x4000, 0x4008] = false) ∧
    (let s := sFeed2 (feedCmd 0 0x4000 1) (wqOf 5 15 true); waitsPins s (5, (wqOf 5 15 true).root) (wqSpan (wqOf 5 15 true) 15 1) = false) ∧
    (let s := sCmd (5 + 2 * 2 ^ 144 + 0x4000 * 2 ^ 192); waitsPins s (queueCtx s) ((List.range 4).map fun i => (0x4000 + i) % 2 ^ 64) = false) := by
  decide +kernel
theorem hyp_CommandEvents_launch : ∃ l, checkLaunch sLaunch 0x6000 (queueOfCmds [cmdBytes launchCmd]) (cmdBytes launchCmd) = .ok l :=
  check_of _ _ _ _ (5, 0) (List.replicate 16 0 ++ [2, 1, 1] ++ List.replicate 237 0) (List.replicate 256 0) 0xA000 0xB000 0xC000
    (by decide +kernel) (by decide +kernel) (by decide +kernel) (by decide +kernel) (by decide +kernel) (probe_low _ _ (by decide))
    (probe_low _ _ (by decide)) (probe_low _ _ (by decide)) ((bytes_low _ _ (by decide)).trans (congrArg _ (by decide +kernel)))
    ((bytes_low _ _ (by decide)).trans (congrArg _ (by decide +kernel))) (by decide +kernel) (by decide +kernel) (by decide +kernel)
    rfl (by decide +kernel)

/-! Placement, gangs, pre-emption -/

/-- A kernel of one course of 32 lanes, and a launch of two consorts of it. -/
def kd32 : List Byte := List.replicate 16 0 ++ [2, 1, 1]
def lTwo : Launch := { noLaunch with lid := 1, pasid := 5, root := 0, prio := 4, qcb := 0x6000, kdesc := kd32, shares := [[(0, 2)], [], [], []], total := 2 }
def sPlace (l : Launch) (i : Nat) : State := { base with launches := [l], turn := .event i .ticketClaim }
theorem order_one (l : Launch) (i : Nat) (h : l.gangSize = 0) (g : (l.shares.getD 0 []).isEmpty = false) : claimOrder (sPlace l i) 0 = [l] := by
  simp only [claimOrder, sPlace, List.filter_cons, h, g]
  simp
theorem hyp_Placement_claim : (∃ r, (claimOrder (sPlace lTwo 0) (unitOf (sPlace lTwo 0) / 64)).findSome? (fun l =>
      (claimFit (sPlace lTwo 0) (unitOf (sPlace lTwo 0)) l).map fun f => (l, f)) = some r) ∧ unitOf (sPlace lTwo 0) < 256 ∧
    256 ≤ unitOf (sPlace lTwo 256) ∧ (claimFit { (sPlace lTwo 0) with launches := [lTwo, { lTwo with prio := 5, waits := [(0, ⟨0, 0, [0], false⟩)] }] } 0 lTwo) = none := by
  refine ⟨?_, by decide +kernel, by decide +kernel, by decide +kernel⟩
  rw [show unitOf (sPlace lTwo 0) / 64 = 0 from rfl, order_one _ _ rfl rfl]
  exact Option.isSome_iff_exists.1 (by decide +kernel)
theorem hyp_Placement_enter : let fit : Fit := ⟨[0], [], 0, 0, 0⟩
    conAt base base.nextCid = none ∧ (plateStart lTwo 0).mode = 0 ∧ (startIdx lTwo (plateStart lTwo 0)).zip fit.slots ≠ [] := by decide +kernel
theorem hyp_Placement_steal : let s := fun l => sPlace l 5
    let n := fun (d : Nat) => shareSize (lTwo.shares.getD d [])
    launchAt (s lTwo) (unitOf (s lTwo) / 4) = some lTwo ∧ lTwo.shares.length = 4 ∧ hasDies lTwo = false ∧
    lTwo.shares.getD (unitOf (s lTwo) % 4) [] = [] ∧ 2 ≤ n 0 ∧ (∀ d, d < 4 → n d ≤ n 0) ∧ (∀ d, d < 0 → n d < n 0) ∧
    lTwo.shares.getD (unitOf (sPlace lTwo 4) % 4) [] ≠ [] ∧ (launchAt (sPlace lTwo 4) (unitOf (sPlace lTwo 4) / 4)) = some lTwo := by
  decide +kernel
/-- A gang of two that waits on die 0, on a queue whose GWAIT and GMAX are 1. -/
def lGang (w : GangWait) : Launch := { lTwo with gangSize := 2, shares := [[(0, 1)], [], [], []], waits := [(0, w)] }
def sWait (w : GangWait) (t : Nat) : State := { (sQueue 0 0 0 1 (queueOfCmds []) []) with
  launches := [lGang w], turn := .event 4 .gangTimeout, cycles := t }
def w0 : GangWait := ⟨0, 0, [], false⟩
def wR : GangWait := ⟨0, 0, [0, 1], false⟩
theorem hyp_Placement_place : gangOf (sWait w0 0) = some (lGang w0, 0, w0) ∧ [0].length ≠ (lGang w0).gangSize ∧ [0, 1].length = (lGang w0).gangSize ∧
    (let l := { (lGang w0) with shares := [[], [], [], []], waits := [] };
      (placeAll l [(0, 0), (1, 1)] (setLaunch (sWait w0 0) l)).isSome = true ∧ placeAll l [(0, 0), (256, 1)] (setLaunch (sWait w0 0) l) = none) := by
  decide +kernel
/-- What a consort of the launch wants, how many such an empty core takes, and so the room for a gang of two on empty cores. -/
def wTwo : Want := wantOf lTwo 1
theorem many_two : howMany wTwo 2 [] = 2 := by
  have a : fitOn [] wTwo = some ⟨[0], List.replicate 8 (0, 0), 0, 0, 0⟩ := by decide +kernel
  have b : fitOn [placed wTwo ⟨[0], List.replicate 8 (0, 0), 0, 0, 0⟩] wTwo = some ⟨[1], List.replicate 8 (0, 0), 0, 0, 0⟩ := by decide +kernel
  simp only [howMany, a, b]
theorem room_two (w : GangWait) (t : Nat) (cores : List Nat) (gone : Consort → Bool)
    (g : gangWants (sWait w t) (lGang w) w.gang = [wTwo, wTwo]) :
    roomOnce (sWait w t) (lGang w) w.gang cores gone = decide (2 ≤ 2 * cores.length) := by
  have c : ∀ k, onCore (sWait w t) k = [] := fun _ => rfl
  have z : (lGang w).gangSize = 2 := rfl
  simp only [roomOnce, g, c, z, List.filter_nil, List.map_map]
  have m : ∀ l : List Nat, (l.map (howMany wTwo 2 ∘ fun _ => [])).sum = 2 * l.length := by
    intro l
    induction l with
    | nil => rfl
    | cons a l ih => simp only [List.map_cons, List.sum_cons, ih, Function.comp, many_two, List.length_cons]; omega
  simp [m]
theorem hyp_Placement_room : (∀ v ∈ gangWants (sWait w0 0) (lGang w0) 0, v = wTwo) ∧ (lGang w0).gangSize ≠ 0 := by decide +kernel
/-- A consort whose plate header lies in a pinned line; and one of a launch without plates. -/
theorem hyp_Placement_plate : let l := { lTwo with plateMode := 1, pstore := 0x4000, pstride := 0x3000 }
    let s := { (sPlace l 0) with cores := [(0, { coreInit with pins := [⟨0x100, 9, 0⟩] })] }
    nextUnit (l.shares.getD 0 []) = some 0 ∧ plateWaits s l 0 = true ∧ plateWaits (sPlace lTwo 0) lTwo 0 = false := by decide +kernel
theorem hyp_Placement_reserve : [0, 1].Nodup ∧ (∀ k ∈ [0, 1], k < 256) ∧ w0.reserved = [] ∧ gangOf (sWait w0 1024) = some (lGang w0, 0, w0) ∧
    1023 < w0.since + 1024 * (qcbOf (sWait w0 1023) (lGang w0).qcb).gwait ∧ w0.since + 1024 * (qcbOf (sWait w0 1024) (lGang w0).qcb).gwait ≤ 1024 ∧
    roomOnce (sWait w0 1024) (lGang w0) w0.gang [0, 1] (fun c => !c.capo && decide (conPrio (sWait w0 1024) c < (lGang w0).prio)) = true := by
  rw [room_two _ _ _ _ (by decide +kernel)]
  decide +kernel
theorem hyp_Placement_preempt : gangOf (sWait wR 1024) = some (lGang wR, 0, wR) ∧ wR.preempted = false ∧
    1023 < wR.since + 1024 * (qcbOf (sWait wR 1023) (lGang wR).qcb).gmax ∧ wR.since + 1024 * (qcbOf (sWait wR 1024) (lGang wR).qcb).gmax ≤ 1024 ∧
    2047 < wR.since + 2 * (1024 * (qcbOf (sWait wR 2047) (lGang wR).qcb).gmax) ∧ wR.since + 2 * (1024 * (qcbOf (sWait wR 2048) (lGang wR).qcb).gmax) ≤ 2048 ∧
    roomOnce (sWait wR 1024) (lGang wR) wR.gang wR.reserved (fun _ => false) = true ∧ (sWait wR 1024).consorts = [] ∧
    roomOnce (sWait w0 1024) (lGang w0) w0.gang w0.reserved (fun _ => false) = false ∧ launchAt (sWait wR 0) (lGang wR).lid = some (lGang wR) := by
  rw [room_two _ _ _ _ (by decide +kernel), room_two _ _ _ _ (by decide +kernel)]
  decide +kernel

/-- The gang of sGang across packages 0 and 1, starting at 2^17. -/
def spanOf0 : Span := ⟨2 ^ 17, 0, 4, 7, [0, 1], false, false, false, false⟩
def sSpan (f : Span → Span) (t : Nat) : State := { sGang with
  launches := sGang.launches.map fun l => { l with span := some (f spanOf0) }, fabtime := t, turn := .event 0 .gangStart }
theorem hyp_Gangs : (∀ f ∈ [id, fun g => { g with sent := true }, fun g => { g with going := true }], (spanAt (sSpan f 0)).map (·.2) = some (f spanOf0)) ∧
    (spanAt (sSpan id 0)).map (fun p => spanPlaced (sSpan id 0) p.1) = some true ∧ 0 + 2 ^ 17 ≤ spanOf0.start ∧ spanOf0.start < 1 + 2 ^ 17 ∧
    (let s := { (sSpan (fun g => { g with sent := true }) 0) with readyOut := [(7, 1)] }; (spanOf0.gid, 1) ∈ s.readyOut ∧ (spanAt s).isSome = true) ∧
    2 ^ 17 - 2 ^ 15 - 1 + 2 ^ 15 < spanOf0.start ∧ spanOf0.start ≤ 2 ^ 17 - 2 ^ 15 + 2 ^ 15 ∧
    (let s := { (sSpan id (2 ^ 17)) with ready := [(7, 0), (7, 1)] };
      (spanAt s).map (fun p => spanPlaced s p.1) = some true ∧ (∀ p ∈ spanOf0.pkgs, (spanOf0.gid, p) ∈ s.ready) ∧ ∀ a ∈ s.aborts, a.1 ≠ spanOf0.gid) ∧
    ¬ (∀ p ∈ spanOf0.pkgs, (spanOf0.gid, p) ∈ (sSpan id (2 ^ 17)).ready) := by decide +kernel
theorem hyp_Gangs_late : (launchAt sGang 0).map (·.lid) = some 0 ∧ ∃ c ∈ sGang.consorts, c.launch = 0 := by decide +kernel
theorem hyp_Gangs_failure : let f := fun (s : State) (fs : List Nat) => { s with launches := s.launches.map fun l => { l with failed := fs } }
    (conAt sGang 0).map (fun c => (c.capo, c.dying, c.failAt, (launchAt (f sGang [0]) c.launch).map fun l =>
      (l.gangSize, l.failed.contains (c.index / l.gangSize)))) = some (false, false, none, some (2, true)) ∧
    (conAt { (sSpan id 0) with lostPkgs := [1] } (unitOf (sSpan id 0))).isSome = true ∧ (∃ p ∈ spanOf0.pkgs, p ∈ [1]) ∧
    (conAt sGang 0).bind (fun c => (launchAt sGang c.launch).map fun l => peerFailed sGang l c) = some false ∧
    (coreAt sGang 0).fifo.length < 16 ∧ 16 ≤ (coreAt { sGang with cores := sFull.cores } 0).fifo.length := by decide +kernel
/-- A gang that started with a late ABORT from package 1, while a member waits in GBAR, or none does. -/
def sLate (pk : Park) : State := { (onCrs (sSpan (fun g => { g with going := true }) 0) fun c => { c with
  splits := c.splits.map fun p => (p.1, { p.2 with park := pk }) }) with aborts := [(7, 1)] }
theorem hyp_Gangs_aborted : (∀ pk ∈ [Park.gbar, .ready], (conAt (sLate pk) 0).map (fun c => (c.capo, c.dying, c.failAt)) = some (false, false, none)) ∧
    (∀ pk ∈ [Park.gbar, .ready], (launchAt (sLate pk) 0).map (fun l => (l.gangSize, l.failed, l.span.map fun g => (g.gid, g.going))) =
      some (2, [], some (7, true))) ∧
    ((conAt (sLate .gbar) 0).map fun c => (gangMembers (sLate .gbar) c).any (someParked · .gbar)) = some true ∧
    ((conAt (sLate .ready) 0).map fun c => (gangMembers (sLate .ready) c).all fun d => !someParked d .gbar && !someParked d .sstep) = some true ∧
    (sLate .ready).lostPkgs = [] ∧ allCmds (coreAt (sLate .ready) 0) = [] := by decide +kernel
theorem hyp_Gangs_survivor : let s := fun t issue ended => { (onCon sGang fun c => { c with
      failAt := some 0, courses := c.courses.map fun c => { c with ended := ended } }) with
      cycles := t, turn := .event 0 .survivorTeardown, cores := if issue then sGang.cores else [] }
    let ov := fun t i e => (conAt (s t i e) (unitOf (s t i e))).map fun c =>
      (c.failAt, consortOver (s t i e) { c with failAt := none }, inIssue (s t i e) c, decide ((s t i e).cycles < 0 + 2 ^ 20))
    ov (2 ^ 20 - 1) false false = some (some 0, false, false, true) ∧ ov (2 ^ 20) false false = some (some 0, false, false, false) ∧
    ov (2 ^ 20) true false = some (some 0, false, true, false) ∧ (ov 0 false true).map (·.2.1) = some true := by decide +kernel

/-- A consort that was asked to be saved, at its points or in issue. -/
def sPre (asked : Option Nat) (issue : Bool) (t : Nat) : State := { (onCon sc fun c => { c with preReq := asked, courses := c.courses.map fun c => { c with
    splits := c.splits.map fun p => (p.1, { p.2 with point := true, off := 0 }) } }) with
  cycles := t, turn := .event 0 .preemptSave, cores := if issue then sc.cores else [] }
theorem hyp_Preemption : let p := fun s => (conAt s (unitOf s)).map fun c => (c.preReq, [c.capo, c.dying, c.held, atPoints s c, drained (coreAt s c.core) c])
    p (sPre (some 0) false 0) = some (some 0, [false, false, false, true, true]) ∧ (p (sPre (some 0) true (2 ^ 16))).map (·.2) = some [false, false, false, false, true] ∧
    p (sPre none false 0) = some (none, [false, false, false, true, true]) ∧ (2 ^ 16 - 1 < 0 + 2 ^ 16) ∧
    (coreAt (sPre (some 0) false 0) 0).openTiles = [] ∧
    (coreAt (sPre (some 0) false 0) 0).freeze = none ∧
    (p (onCrs (sPre (some 0) false 0) fun c => { c with pend := [pendOf 0] })).map (·.2) = some [false, false, false, true, false] := by decide +kernel
theorem hyp_Preemption_tile : let tile : ChordTile := { (default : ChordTile) with rows := [{ (default : ChordReq) with cid := 0 }] }
    let s := sPre (some 0) false 0
    let s := setCore s 0 { (coreAt s 0) with openTiles := [tile] }
    ((coreAt s 0).openTiles.find? fun t => t.rows.any fun r => r.cid == 0) = some tile ∧
    (conAt s (unitOf s)).map (fun c => (c.preReq, c.core, atPoints s c)) = some (some 0, 0, true) := by decide +kernel
/-- The consort of sc, saved with a copy on channel 0, to be restored on core 1. -/
def sSaved : State := { sc with consorts := [], turn := .event 0 (.consortRestore 1), saved := [⟨xc.con, [(0, cpCmd 0)], 0⟩] }
theorem hyp_Preemption_restore : let v : Saved := ⟨xc.con, [(0, cpCmd 0)], 0⟩
    1 < 256 ∧ (sSaved.saved.find? fun v => v.consort.cid == unitOf sSaved) = some v ∧ reservedOver sSaved 1 (conPrio sSaved v.consort) = false ∧
    roomFor (coreAt sSaved 1) (v.cmds.map (·.1) ++ engineClaims (coreAt sSaved 1)) = true ∧
    (fitOn (onCore sSaved 1) { (wantOf (launchOf sSaved v.consort) v.consort.courses.length) with window := v.consort.plate.window }).map
      (fun f => decide (v.consort.courses.length ≤ f.slots.length)) = some true ∧
    conAt sSaved v.consort.cid = none ∧ ∀ c ∈ v.cmds, c.1 < 5 := by decide +kernel
/-- A command rung in. -/
def rung (s : State) (op : Nat) : State := { s with mbox := { Mailbox.reset with ready := true, busy := true, waiting := some (BitVec.ofNat 8 op, []) } }
theorem rung_of (s : State) (op : Nat) (h : op < 256) : Rung (rung s op) op :=
  ⟨_, _, rfl, rfl, Nat.mod_eq_of_lt h, fun g => Bool.noConfusion g⟩
theorem hyp_Preemption_command : Rung (rung { sc with turn := .event 0 .preempt } 0x12) 0x12 ∧
    (conAt (rung { sc with turn := .event 0 .preempt } 0x12) 0).map (·.capo) = some false ∧
    (conAt (rung { sCapo with turn := .event 0 .preempt } 0x12) 0).elim true (·.capo) = true ∧
    unitOf (rung { sc with turn := .event 0 .preempt } 0x12) = 0 := ⟨rung_of _ _ (by decide), by decide +kernel, by decide +kernel, rfl⟩

/-! The debugger -/

/-- A debugged course: halted or not, with a pending write to v8 and s5 or not, and what it was trapped at. -/
def sDbg (halted : Bool) (n : List PendWrite) : State := rung { (onCrs sDebug fun c => { c with halted := halted, pend := n, trapHalt := some 0 }) with
  turn := .event 0 (.debugHalt 0) } 0x13
def conD (halted : Bool) (n : List PendWrite) : Consort := { xc.con with courses := [{ xc.c with halted := halted, pend := n, trapHalt := some 0 }] }
theorem debugs_of (halted : Bool) (n : List PendWrite) :
    Debugs (sDbg halted n) (conD halted n) { xc.c with halted := halted, pend := n, trapHalt := some 0 } :=
  ⟨rung_of _ _ (by decide), rfl, rfl, rfl, rfl⟩
theorem hyp_Debugging : Debugs (sDbg true []) (conD true []) { xc.c with halted := true, trapHalt := some 0 } ∧
    Debugs (sDbg false []) (conD false []) { xc.c with trapHalt := some 0 } := ⟨debugs_of true [], debugs_of false []⟩
theorem hyp_Debugging_targets : let c := fun n => { xc.c with halted := false, pend := n, trapHalt := some 0 }
    let con := fun n => conD false n
    let k := coreAt sc 0
    targetOk (con []) (c []) (.v 8 0) = true ∧ targetOk (con []) (c []) (.s 64) = false ∧ targetPending k 0 (c []) (.v 8 0) = false ∧
    targetPending k 0 (c [pendOf 0]) (.v 8 0) = true ∧ (∀ n, DebugTarget.v 8 0 ≠ .csr n) ∧ (alGet (c []).splits 0).isSome = true := by
  refine ⟨by decide +kernel, by decide +kernel, by decide +kernel, by decide +kernel, (by intro n h; cases h), by decide +kernel⟩
/-- A tile, a handle never allocated, and an entry of a queue. -/
theorem hyp_Debugging_entries : let con := { xc.con with tiles := [(3, tileOf 6 0 true)], queues := [(1, [[⟨5, 0⟩]])] }
    tileAt con 3 = some (tileOf 6 0 true) ∧ alGet con.tiles 4 = none ∧ (alGet con.queues 1).bind (·[0]?) = some [⟨5, 0⟩] ∧
    targetOk con xc.c (.tile 3) = true ∧ targetOk con xc.c (.queue 1 0 0) = true ∧ targetPending (coreAt sc 0) 0 xc.c (.queue 1 0 0) = false := by
  decide +kernel
theorem hyp_Debugging_refused : let s := fun (s : State) i => rung { s with turn := .event 0 (.debugHalt i) } 0x13
    Rung (s sc 0) 0x13 ∧ (conAt (s sc 5) (unitOf (s sc 5))).bind (crsAt · 5) = none ∧
    (conAt (s sc 0) (unitOf (s sc 0))).map (fun con => ((crsAt con 0).map (·.ended), debugged (s sc 0) (ctxOf (s sc 0) con).1)) =
      some (some false, false) := ⟨rung_of _ _ (by decide), by decide +kernel, by decide +kernel⟩

/-! The host, the fabric and the mailbox -/

theorem hyp_HostLink_power : (∃ bd, boardOf (powerOn State.reset).cfgImage = some bd) ∧ State.reset.staged = [] ∧
    ({ State.reset with staged := [[1]] } : State).staged = [[1]] := ⟨⟨_, rfl⟩, rfl, rfl⟩
/-- A configuration image within the limits, and one without a partition size; what an image holds is a free value. -/
theorem hyp_HostLink_images (h : Config.imageConfig [1] = some ⟨some 6, 15, 1500⟩) (g : Config.imageConfig [2] = some ⟨none, 0, 600⟩) :
    boardOf [1] = some ⟨6, 15, 1500⟩ ∧ boardOf [2] = none := by
  simp only [boardOf, List.isEmpty_cons, Bool.false_eq_true, if_false, h, g]
  decide
def priOf (w : PriFor) : Pri := ⟨3, 5, 0x8000, w⟩
def sPri (s : State) (w : PriFor) : State := { s with pris := [priOf w], turn := .event 3 (.priResponse true) }
theorem hyp_HostLink_pri : let p := fun s w => ((sPri s w).pris.find? fun p => p.id == unitOf (sPri s w)) = some (priOf w)
    p sc (.course 0 0) ∧ p sDebug (.course 0 0) ∧ p sFetch (.queue 0x6000) ∧ p sc (.freeze 2) ∧ (conAt sc 0).map (fun c => (crsAt c 0).isSome) = some true ∧
    (conAt sc 0).map (fun c => debugged (sPri sc (.course 0 0)) (ctxOf sc c).1) = some false ∧
    (conAt sDebug 0).map (fun c => debugged (sPri sDebug (.course 0 0)) (ctxOf sDebug c).1) = some true ∧
    (queueFor (sPri sFetch (.queue 0x6000)) 0x6000).isSome = true := by decide +kernel
theorem hyp_HostLink_memory : 0x4000 % 64 + [(1 : Byte)].length < 64 ∧ placeOf base 0x4000 = .mem 0x4000 ∧
    (memWrite base 0x4000 0 [1, 2]).toOption.isSome = true ∧ (memWrite (badLine base 0x100) 0x4000 0 [1, 2]).toOption = none ∧
    placeOf (badLine base 0x100) 0x4000 = .mem 0x4000 ∧ 0x4000 % 64 + 2 ≤ 64 ∧ spanPinned base 0x4000 2 = false ∧
    spanPinned (atCore sc 0 fun k => { k with pins := [⟨0x100, 9, 0⟩] }) 0x4000 2 = true := by decide +kernel
theorem hyp_HostLink_fabric : let s := { base with peers := [1], turn := .event 1 .fabricTimeout }
    s.peers.contains 1 = true ∧ s.lostPkgs.contains 1 = false ∧ unitOf s = 1 ∧ placeOf s (0x4000 % 2 ^ 39) = .mem 0x4000 ∧
    s.keys.contains 0 = true ∧ s.keys.contains 1 = false ∧ spanPinned s (0x4000 % 2 ^ 39) 2 = false ∧ s.peers.contains 2 = false ∧
    (memWrite { s with heard := alSet s.heard 1 s.cycles } 0x4000 0 [1, 2]).toOption.isSome = true ∧
    (memWrite { (badLine s 0x100) with heard := alSet s.heard 1 s.cycles } 0x4000 0 [1, 2]).toOption = none ∧
    (alGet s.heard 1).getD 0 + 2 ^ 20 ≤ ({ s with cycles := 2 ^ 20 } : State).cycles ∧ ¬ (alGet s.heard 1).getD 0 + 2 ^ 20 ≤ s.cycles := by
  decide +kernel
theorem hyp_HostLink_links : let s := fun n => { base with links := 0x20000, turn := .event n .linkFail }
    (∀ n ∈ [16, 17], unitOf (s n) < 18) ∧ (s 16).links.getLsbD 16 = false ∧ (s 17).links.getLsbD 17 = true := by decide +kernel
theorem hyp_HostLink_registers : (rung base 0).mbox.busy = true ∧ (let m := { Mailbox.reset with ready := true }; m.busy = false ∧ m.ready = true) ∧
    bits (0x70013 : DWord).toNat 8 11 ≤ 0x700 ∧ (List.replicate 0x700 (0 : Byte)).length = 0x700 ∧ 0x100 ≤ 0x100 ∧ 0x7F8 + 8 ≤ 0x800 ∧
    0x20000 ≤ 0x200FF ∧ 0x200FF < 0x20100 ∧ serving sFetch = true ∧ serving base = false ∧ 0x7F9 ≠ 8 ∧ 0x7F8 < 0x7F9 := by
  exact ⟨rfl, ⟨rfl, rfl⟩, by decide +kernel, List.length_replicate, by decide, by decide, by decide, by decide, by decide +kernel, by decide +kernel,
    by decide, by decide⟩
theorem hyp_MailboxCommands_complete : (base.mbox.busy = false) ∧ (let s := { (rung base 0) with mbox := { (rung base 0).mbox with waiting := none } };
      s.mbox.busy = true ∧ s.mbox.waiting = none ∧ ∀ q ∈ s.queues, q.retiring = none) ∧
    (let s := { (rung base 0x14) with mbox := { (rung base 0x14).mbox with safe := true } }; s.mbox.busy = true ∧ s.mbox.waiting = some (0x14, []) ∧
      s.mbox.safe = true ∧ ¬ (1 ≤ (0x14 : Byte).toNat ∧ (0x14 : Byte).toNat ≤ 3)) ∧
    (rung base 0x15).mbox.waiting = some (0x15, []) ∧ mbOps.contains (0x14 : Byte).toNat = true ∧ mbOps.contains (0x15 : Byte).toNat = false := by
  decide +kernel
theorem hyp_MailboxCommands_rung : ∀ op ∈ mbOps, Rung (rung base op) op := fun op h => rung_of _ _ ((show ∀ o ∈ mbOps, o < 256 by decide) op h)
theorem hyp_MailboxCommands_attest : (List.replicate 64 (0 : Byte)).length = 64 ∧ [(0 : Byte)].length ≠ 64 := by decide
theorem hyp_MailboxCommands_capmint : (0x6000 : DWord).toNat % 256 = 0 ∧ qcbBytes (rung sFetch 0x10) (0x6000 : DWord).toNat ≠ none ∧
    (63 : BitVec 16).toNat < 64 ∧ 64 ≤ (64 : BitVec 16).toNat := by
  exact ⟨by decide, Option.ne_none_iff_isSome.2 (by decide +kernel), by decide, by decide⟩
theorem hyp_MailboxCommands_retire : let s := rung { sFetch with consorts := [] } 0x11
    (∀ q ∈ s.queues, (qcbOf s q.qcb).pasid ≠ (6 : BitVec 20).toNat) ∧ (∀ l ∈ s.launches, l.pasid ≠ (6 : BitVec 20).toNat) ∧
    (let u : State := { s with launches := s.launches.map fun l => { l with pasid := 6 } };
      u.launches.map (·.pasid) = [(6 : BitVec 20).toNat] ∧ u.consorts = [] ∧ u.queues.map (fun q => (qcbOf u q.qcb).pasid) = [5]) := by decide +kernel
theorem hyp_MailboxCommands_retireQueue : queueFor (sCmd 4) 0x6000 = some (queueOfCmds [cmdBytes 4]) ∧ ∀ c ∈ (queueOfCmds [cmdBytes 4]).cmds, c.stage = 0 := by
  decide +kernel
theorem hyp_MailboxCommands_keys (h : Config.keyUnwraps [] = true) : Rung (rung base 0x30) 0x30 ∧ Config.keyUnwraps [] = true ∧
    alGet ({ base with lines := [(1, ⟨5, Config.keyOf [] + 1, false⟩)] } : State).lines 1 = some ⟨5, Config.keyOf [] + 1, false⟩ ∧
    Config.keyOf [] + 1 ≠ Config.keyOf [] := ⟨rung_of _ _ (by decide), h, rfl, by omega⟩
theorem hyp_MailboxCommands_events : State.reset.wakeDiscards.length = 6 ∧
    40 * (State.reset.headLog.length + State.reset.fabricLog.length) + 16 * State.reset.ringFaults.length ≤ 2000 := by decide
theorem hyp_MailboxCommands_disp : (writeDisp base 0xC02 25).isSome = true ∧ writeDisp base 0xC02 26 = none ∧ 0xC00 ≤ 0xC00 ∧ 0xC04 ≤ 0xC04 := by
  decide +kernel

/-! Burin -/

theorem hyp_BurinLanes : RunsB sB 0 xB ∧ (∀ i ∈ ([.ladd 0 1 2 3 0 1, .ladd 0 1 2 3 1 0, .wxy 0 1 0 0] : List Instr), (burinLane i).isSome = true ∧ i.wf = true) ∧
    (burinLane (.ladd 0 1 2 3 1 1)).isSome = true ∧ (Instr.ladd 0 1 2 3 1 1).wf = false ∧ (5 : BitVec 3).toNat ≤ 5 ∧
    ¬ ((2 : BitVec 2) = 1 ∧ (0 : BitVec 3).toNat ≤ 1 ∨ (2 : BitVec 2) = 2 ∧ (0 : BitVec 3) = 2) ∧
    ((1 : BitVec 2) = 1 ∧ (1 : BitVec 3).toNat ≤ 1 ∨ (1 : BitVec 2) = 2 ∧ (1 : BitVec 3) = 2) :=
  ⟨runs_sB, by decide +kernel, by decide +kernel, by decide +kernel, by decide, by decide, by decide⟩
/-- Head 0 with frame slots at 0x4000 to 0x4300, scanned out of core 0's invocation of band 0; and that invocation. -/
def md : HeadMode := { (default : HeadMode) with hwidth := 16, hheight := 32, htotal := 32, vtotal := 128, pixclk := 1000, cores := 1
                                                 slots := [0x4000, 0x4100, 0x4200, 0x4300], link := .dp128 4 20000, bpp := 24 }
def hd : Head := { headInit with on := true, mode := md }
def sBand (f : Head → Head) (g : Burin → Burin) : State := let s := setHead sB 0 (f hd)
  setBurin s 0 (g xB)
theorem runs_band (f : Head → Head) (g : Burin → Burin) (hr : (g xB).running = true) (hb : (g xB).bundle ≠ []) : RunsB (sBand f g) 0 (g xB) :=
  ⟨rfl, rfl, hr, hb⟩
def bandOf (lines : List (Nat × Supply)) (closed : Bool) : Band := ⟨0, 0, some (List.replicate 32 7), lines, closed⟩
def posed (x : Head) : Head := { x with bands := [bandOf [(1, .due), (2, .reproj)] false] }
theorem hyp_BurinSlot3 : intLane 0 = true ∧ RunsB sB 0 xB ∧ (bw xB (0 : BitVec 6).toNat % 2 ^ 32 + 64 * (1 : BitVec 3).toNat) % 2 ^ 19 % 64 = 0 ∧
    xB.late = false ∧ (let g := fun (x : Burin) => { x with late := true }; RunsB (sBand id g) 0 (g xB) ∧ (g xB).late = true) ∧
    (let g := fun (x : Burin) => { x with src := ⟨[(2, 1)], [], []⟩ }; RunsB (sBand id g) 0 (g xB) ∧
      bw (g xB) (2 : BitVec 6).toNat % 2 ^ 32 % 64 ≠ 0) :=
  ⟨by decide, runs_sB, by decide +kernel, rfl, ⟨runs_band _ _ rfl (List.cons_ne_nil _ _), rfl⟩, runs_band _ _ rfl (List.cons_ne_nil _ _), by decide +kernel⟩
theorem hyp_BurinSlot3_waits : bandStarted sB xB = false ∧ RunsB (sBand posed id) 0 xB ∧ (myBand (sBand posed id) xB).pose = some (List.replicate 32 7) ∧
    (List.replicate 32 (7 : Byte)).length = 32 ∧ loutsPending xB = false ∧
    (let g := fun (x : Burin) => { x with louts := [⟨0, 0, 3, 0⟩] }; RunsB (sBand posed g) 0 (g xB) ∧ loutsPending (g xB) = true) :=
  ⟨by decide +kernel, runs_band _ _ rfl (List.cons_ne_nil _ _), by decide +kernel, by decide, by decide +kernel, runs_band _ _ rfl (List.cons_ne_nil _ _),
    by decide +kernel⟩
/-- The generation of slot 1 is 5. -/
def sGen (n : Byte) : State := { (sBand posed id) with mem := base.mem ++ if n = 0 then [] else [(0x4100, n), (0x4110, 16)] }
theorem hyp_BurinSlot3_facq : (∀ n, RunsB (sGen n) 0 xB) ∧ xB.hold = none ∧ bandStarted (sGen 5) xB = true ∧
    (∀ i ∈ [0, 1, 2, 3], (load (sGen 0) 0 0 ((headAt (sGen 0) 0).mode.slots.getD i 0) 8).toOption.map ofBytes = some 0 ∧
      (load (sGen 5) 0 0 ((headAt (sGen 5) 0).mode.slots.getD i 0) 8).toOption.map ofBytes = some (if i = 1 then 5 else 0)) ∧
    dispCtx (sGen 5) xB.head = (0, 0) ∧ (load (sGen 5) 0 0 0x4110 4).toOption = some [16, 0, 0, 0] ∧
    (∀ k ∈ [24, 32, 40, 48], (load (sGen 5) 0 0 (0x4100 + k) 8).toOption = some (List.replicate 8 0)) ∧
    (addHold (sGen 5) xB.head 1 true).toOption.map (fun u => decide (burinAt u 0 = xB)) = some true :=
  ⟨fun _ => ⟨rfl, rfl, rfl, List.cons_ne_nil _ _⟩, by decide +kernel, by decide +kernel, by decide +kernel, by decide +kernel, by decide +kernel,
    by decide +kernel, by decide +kernel⟩
/-- A slot's descriptor on a pinned line; a hold that goes down, or cannot, its descriptor's page not being present. -/
def withPin (s : State) (n : Nat) : State := { s with cores := [(0, { coreInit with pins := [⟨n, 9, 0⟩] })] }
theorem hyp_BurinSlot3_held : (∀ n, RunsB (withPin (sGen 0) n) 0 xB) ∧ burinPinned (withPin (sGen 0) 0x100) 0 (headAt (sGen 0) 0).mode.slots = true ∧
    burinPinned (sGen 5) 0 (headAt (sGen 5) 0).mode.slots = false ∧
    (let g := fun (x : Burin) => { x with hold := some 1 }
     (burinAt (sBand posed g) 0).hold = some 1 ∧ (addHold (sBand posed g) 0 1 false).toOption.isSome = true ∧
       (addHold (noPage (sBand posed g)) 0 1 false).toOption.isSome = false) ∧
    (load (sGen 5) 0 0 (0x4100 + 8) 4).toOption.isSome = true :=
  ⟨fun _ => ⟨rfl, rfl, rfl, List.cons_ne_nil _ _⟩, by decide +kernel, by decide +kernel, by decide +kernel, by decide +kernel⟩
/-- An acquired slot whose colours are in GDDR, at 1 GiB, or are not. -/
def acqAt (a : Nat) (x : Burin) : Burin := { x with acq := some ⟨16, 16, a, a, a⟩ }
def sGddr (a : Nat) : State := { (sBand posed (acqAt a)) with mem := base.mem ++ [(0x2008, 0x0F), (0x200C, 0x48)] }
theorem hyp_BurinSlot3_fsmp : (∀ a, RunsB (sGddr a) 0 (acqAt a xB)) ∧ xB.acq = none ∧ (0 : BitVec 3).toNat ≤ 2 ∧
    (readSamples (sGddr 0x40000000) (dispCtx (sGddr 0x40000000) 0) 4 (List.replicate 16 0x40000000)).toOption = some (List.replicate 16 0) ∧
    (readSamples (sGddr 0x4000) (dispCtx (sGddr 0x4000) 0) 4 (List.replicate 16 0x4000)).toOption = none ∧
    inGddr (sGddr 0x4000) (dispCtx (sGddr 0x4000) 0) 0x4000 = false ∧ inGddr (sGddr 0) (dispCtx (sGddr 0) 0) 0x40000000 = true ∧
    (let va := fun a => (List.range 16).map fun k => (a + texel 16 (bw xB 0 / 2 ^ (32 * k) % 2 ^ 32) * ((4 * 16 + 255) / 256 * 256) +
        4 * texel 16 (bw xB 0 / 2 ^ (32 * k) % 2 ^ 32)) % 2 ^ 64
     burinPinned (sGddr 0x4000) 0 (va 0x4000) = false ∧ burinPinned (withPin (sGddr 0x4000) 0x100) 0 (va 0x4000) = true) :=
  ⟨fun _ => ⟨rfl, rfl, rfl, List.cons_ne_nil _ _⟩, by decide +kernel, by decide, by decide +kernel, by decide +kernel, by decide +kernel,
    by decide +kernel, by decide +kernel⟩
theorem hyp_BurinSlot3_lines : RunsB (sBand posed id) 0 xB ∧ (3 : BitVec 3).toNat ≤ 3 ∧ (3 : BitVec 3).toNat ≠ xB.head ∧ (0 : BitVec 3).toNat = xB.head ∧
    supplyOver (sBand posed id) xB = false ∧ bw xB (1 : BitVec 6).toNat / 2 ^ 32 % 2 ^ 32 % 64 = 0 ∧
    (∀ l ∈ [0, 1, 15], alGet (myBand (sBand posed id) xB).lines l ≠ some .reproj) ∧
    (let f := fun (x : Head) => { x with bands := [bandOf [] true] }; RunsB (sBand f id) 0 xB ∧ supplyOver (sBand f id) xB = true) ∧
    (let g := fun (x : Burin) => { x with src := ⟨[(1, 2 ^ 32)], [], []⟩ }; RunsB (sBand posed g) 0 (g xB) ∧
      bw (g xB) (1 : BitVec 6).toNat / 2 ^ 32 % 2 ^ 32 % 64 ≠ 0) :=
  ⟨runs_band _ _ rfl (List.cons_ne_nil _ _), by decide, by decide +kernel, by decide +kernel, by decide +kernel, by decide +kernel, by decide +kernel,
    ⟨runs_band _ _ rfl (List.cons_ne_nil _ _), by decide +kernel⟩, runs_band _ _ rfl (List.cons_ne_nil _ _), by decide +kernel⟩

/-! The display -/

/-- A state whose second GiB is GDDR, and a mode with its slots and images there. -/
def sScreen : State := { base with mem := base.mem ++ [(0x2008, 0x0F), (0x200C, 0x48)] }
def mdG : HeadMode := { md with slots := [0x40004000, 0x40004100, 0x40004200, 0x40004300], pbuf0 := 0x40000000, pbuf1 := 0x40001000 }
theorem hyp_MailboxCommands_modes : modesOk (rung sScreen 0x20) [(0, mdG)] = true ∧ modesOk (rung sScreen 0x20) [(0, { mdG with hwidth := 8 })] = false ∧
    modesOk (rung sScreen 0x20) [(0, { mdG with pbuf1 := 0x1000 })] = false := by decide +kernel
theorem hyp_DisplayEvents_mode : coresOf md.cores ≠ [] ∧ md.image.length ≤ 2 ^ 16 ∧ modesOk sScreen [(0, mdG)] = true ∧ (0, mdG) ∈ [(0, mdG)] ∧
    alGet [(0, mdG)] 0 = some mdG ∧ (1, { mdG with cores := 2 }) ∈ modesAfter (setHead sScreen 1 { hd with mode := { mdG with cores := 2 } }) [(0, mdG)] := by
  decide +kernel
def sDisp (f : Head → Head) (i : Instr) : State := { (sBand f id) with turn := .event 0 i }
def atLine (l : Nat) (x : Head) : Head := { x with frame := 1, line := l, nextStart := 2, nextDeadline := 2, bands := [⟨0, 0, none, [(0, .row [])], false⟩] }
theorem hyp_DisplayEvents_bands : let due := fun (x : Head) s => (instantDue x x.nextStart leadOf, s)
    due (headAt (sDisp (fun x => { x with line := 95 }) .bandStart) 0) 0 = (false, 0) ∧
    due (headAt (sDisp (fun x => { x with line := 96 }) .bandStart) 0) 0 = (true, 0) ∧
    (let d := fun n l => headAt (sDisp (fun x => { x with nextStart := n, line := l }) .bandDeadline) 0;
      (d 0 127).nextStart ≤ (d 0 127).nextDeadline ∧ (d 1 124).nextDeadline < (d 1 124).nextStart ∧
      instantDue (d 1 123) (d 1 123).nextDeadline guardOf = false ∧ instantDue (d 1 124) (d 1 124).nextDeadline guardOf = true ∧
      (∃ i, i < 16 ∧ alGet (bandAt (d 1 124) 0 0).lines i = none)) ∧
    unitOf (sDisp id .bandDeadline) < 4 ∧ (∃ c, (alGet (sDisp id .bandDeadline).burins c).isSome = true) ∧
    (let x := { hd with bands := [bandOf ((List.range 16).map fun i => (i, .due)) false] };
      ∀ i, i < 16 → (alGet (bandAt x 0 0).lines i).isSome = true) :=
  ⟨by decide +kernel, by decide +kernel, ⟨by decide +kernel, by decide +kernel, by decide +kernel, by decide +kernel, ⟨0, by decide +kernel⟩⟩,
    by decide +kernel, ⟨0, by decide +kernel⟩, by decide +kernel⟩
theorem hyp_DisplayEvents_invocations : let s := fun r => { (sBand (fun x => { x with nextBand := [(0, 1)] }) fun c => { c with running := r }) with
      turn := .event 0 .burinInvocationStart }
    (∀ r ∈ [true, false], (∀ j, j < 0 → ¬ ((headAt (s r) j).on = true ∧ (alGet (headAt (s r) j).nextBand (unitOf (s r))).isSome = true)) ∧
      (headAt (s r) 0).on = true ∧ alGet (headAt (s r) 0).nextBand (unitOf (s r)) = some 1 ∧ (burinAt (s r) (unitOf (s r))).running = r) ∧
    (∀ g ∈ [0, 1], (0 % bandCount hd + (coresOf hd.mode.cores).length < bandCount hd) ∧
      bandCount hd ≤ 1 % bandCount hd + (coresOf hd.mode.cores).length ∧ g / bandCount hd = 0) := by decide +kernel
theorem hyp_DisplayEvents_rows : (let s := { (sBand id fun c => { c with landing := [⟨5, 9, false⟩] }) with turn := .event 0 .burinWriteback };
      (burinAt s (unitOf s)).landing = [⟨5, 9, false⟩]) ∧
    (let s := { (sBand posed fun c => { c with louts := [⟨0, 0, 1, 0⟩] }) with turn := .event 0 .loutRowRead };
      (burinAt s (unitOf s)).louts = [⟨0, 0, 1, 0⟩] ∧ alGet (bandAt (headAt s (burinAt s (unitOf s)).head) 0 0).lines 1 = some .due) ∧
    unitOf (sDisp id .poseCommit) < 4 := by decide +kernel
theorem hyp_DisplayEvents_scan : let x := fun f => headAt (sDisp f .scanoutLine) (unitOf (sDisp f .scanoutLine))
    (x fun x => { x with on := false }).on = false ∧ (x id).on = true ∧ instantDue (x id) (x id).nextStart leadOf = false ∧
    instantDue (x id) (x id).nextDeadline guardOf = false ∧ (x id).frame = 0 ∧ (x (atLine 0)).frame ≠ 0 ∧ (x (atLine 0)).line < (x (atLine 0)).mode.hheight ∧
    instantDue (x (atLine 0)) 2 leadOf = false ∧ instantDue (x (atLine 0)) 2 guardOf = false ∧
    alGet (bandAt (x (atLine 0)) 0 0).lines 0 = some (.row []) ∧
    (let s := setBurin (sDisp (atLine 0) .scanoutLine) 0 burinInit
     (∀ c ∈ s.burins, ¬ (c.2.running = true ∧ c.2.head = unitOf s ∧ c.2.bundle ≠ [])) ∧ scanPinned s 0 0 = false ∧ scanPinned (withPin s 0) 0 0 = true) ∧
    (∃ c ∈ (sDisp id .scanoutLine).burins, c.2.running = true ∧ c.2.head = unitOf (sDisp id .scanoutLine) ∧ c.2.bundle ≠ []) ∧
    (let y := x fun x => { (atLine 1 x) with bands := [⟨0, 0, none, [(1, .reproj)], false⟩] };
      alGet (bandAt y (y.frame - 1) (y.line / 16)).lines (y.line % 16) = some .reproj) ∧
    (∀ c ∈ (sDisp (atLine 0) .scanoutLine).burins, c.2.head = 0 → ∀ l ∈ c.2.louts, ¬ (l.frame = 0 ∧ l.band = 0 ∧ l.line = 0)) ∧
    (let y := x fun x => { (atLine 1 x) with bands := [⟨0, 0, none, [(1, .due)], false⟩] }; y.frame ≠ 0 ∧ y.line < y.mode.hheight ∧
      alGet (bandAt y (y.frame - 1) (y.line / 16)).lines (y.line % 16) = some .due) ∧
    (x (atLine 126)).line + 1 < (x (atLine 126)).mode.vtotal ∧ (x (atLine 127)).mode.vtotal ≤ (x (atLine 127)).line + 1 ∧
    (x (atLine 32)).mode.hheight ≤ (x (atLine 32)).line := by decide +kernel
theorem hyp_DisplayEvents_present : (store base (dispCtx base 0).1 (dispCtx base 0).2 (0x4000 % 2 ^ 64) (toBytes 4 (9 : Word).toNat)).toOption.isSome = true := by
  decide +kernel

/-! Encodings and steps -/

theorem hyp_EncodeDecode : (∀ i ∈ ([.sadd 1 2 3, .vadd pT, .ladd 3 17 3 11 0 1] : List Instr), i.wf = true ∧ i.hasWords = true) ∧
    decodeWords [0x20084180, 5] = .ok (.sadd 1 2 3, [5]) ∧ decodeBurin 0x81A21961 = .ok (.ladd 3 17 3 11 0 1) := by decide +kernel
theorem hyp_DecodeEncode_reserved : (∀ n ∈ [0x0C, 0x0F], 0x0C ≤ (BitVec.ofNat 32 (n * 2 ^ 25)).toNat / 2 ^ 25 ∧ (BitVec.ofNat 32 (n * 2 ^ 25)).toNat / 2 ^ 25 < 0x10) ∧
    (∀ n ∈ [0x1B, 0x3F], 0x1B ≤ (BitVec.ofNat 32 (n * 2 ^ 25)).toNat / 2 ^ 25 ∧ (BitVec.ofNat 32 (n * 2 ^ 25)).toNat / 2 ^ 25 < 0x40) ∧
    (∀ n ∈ [0x57, 0x7D, 0x7F], (BitVec.ofNat 32 (n * 2 ^ 25)).toNat / 2 ^ 25 = n) ∧
    (∀ n ∈ [0x3F, 0x5B, 0x4D, 0x4F], (BitVec.ofNat 32 (n * 2 ^ 25)).toNat / 2 ^ 25 < 0x40 ∨ 0x5B ≤ (BitVec.ofNat 32 (n * 2 ^ 25)).toNat / 2 ^ 25 ∨
      (0x4D ≤ (BitVec.ofNat 32 (n * 2 ^ 25)).toNat / 2 ^ 25 ∧ (BitVec.ofNat 32 (n * 2 ^ 25)).toNat / 2 ^ 25 < 0x50)) := by decide +kernel
theorem hyp_StepRuns : (let s := clause [0x20084180]; mover s = .slot 0 0 ∧ s.turn ≠ .free ∧ ∃ iss, alGet (coreAt s 0).issue 0 = some iss ∧
      decodeWords (iss.words.drop (iss.off - 1)) = .ok (.sadd 1 2 3, [])) ∧
    (let s := clause [0x18000000]; mover s = .slot 0 0 ∧ ∃ iss, alGet (coreAt s 0).issue 0 = some iss ∧
      decodeWords (iss.words.drop (iss.off - 1)) = .error .ctrlOpcode) ∧
    (mover sB = .burin 0 ∧ (burinAt sB 0).running = true ∧ (burinAt sB 0).bundle ≠ [] ∧ (decodeSlot (burinAt sB 0).pos
      ((burinAt sB 0).bundle.getD (burinAt sB 0).pos 0)).toOption.isSome = true) ∧
    (let s := sBand id fun c => { c with bundle := [] }; mover s = .burin 0 ∧ (burinAt s 0).running = true ∧ (burinAt s 0).bundle = []) ∧
    mover (sDisp id .poseCommit) = .event 0 .poseCommit ∧ Instr.poseCommit.hasWords = false ∧
    freeTurn (.next base) = .next { base with turn := .free } :=
  ⟨⟨by decide +kernel, by decide +kernel, _, rfl, by decide +kernel⟩, ⟨by decide +kernel, _, rfl, by decide +kernel⟩,
    ⟨by decide +kernel, by decide +kernel, by decide +kernel, by decide +kernel⟩, by decide +kernel, by decide +kernel, by decide +kernel, rfl⟩
theorem hyp_MemoryForm : MemWf State.reset ∧ (∃ t, step (clause [0x20084180]) = .next t) := ⟨⟨rfl, rfl⟩, _, rfl⟩

/-! More forms of the statements above -/

/-- In an etch: PSLOT and PGUARD of a register that is volatile and of one that is not, a scalar operation with a volatile source and
without one, and a special source that is no etch source. -/
theorem hyp_PlateWords_marks : (∀ a ∈ [(1 : BitVec 8), 2], let p : P := { (default : P) with d := 5, a := a, b := 3, bk := 2 }
      guarded p = false ∧ fieldsOk p { d := true, a := true, b := true, c := true, bk := true } = true ∧ isS p.a = true ∧ imm16 p = 3) ∧
    Runs sEtch xEtch [] [5, 1] ∧ Runs sEtch xEtch [] [5, 2] ∧ isVolatile xEtch.c 1 = true ∧ isVolatile xEtch.c 2 = false ∧
    (∃ f, scalarFn (.sadd 5 1 2) = some (5, [1, 2], f)) ∧ (∃ r ∈ ([1, 2] : List (BitVec 6)), isVolatile xEtch.c r.toNat = true) ∧
    (¬ ∃ r ∈ ([2, 3] : List (BitVec 6)), isVolatile xEtch.c r.toNat = true) ∧ (srdVal sEtch xEtch 1).isSome = true ∧ etchSource 1 = false ∧
    waitsPinned sEtch (ctxOf sEtch xEtch.con) xEtch.con.cid [0, 64] = false :=
  ⟨by decide +kernel, runs_etch _ _, runs_etch _ _, by decide +kernel, by decide +kernel, ⟨_, rfl⟩, by decide +kernel, by decide +kernel,
    by decide +kernel, by decide +kernel, by decide +kernel⟩

/-- A tile whose window of 256 cycles has passed, and one whose window has not. -/
theorem hyp_UnitEvents_window : let s := fun t => atCore sc t fun k => { k with openTiles := [ctOf 1] }
    (∃ t ∈ (coreAt (s 256) (unitOf (s 256))).openTiles, t.tid = 4 ∧ windowOver (s 256) t = true) ∧
    (∀ t ∈ (coreAt (s 255) (unitOf (s 255))).openTiles, t.tid = 4 → windowOver (s 255) t = false) :=
  ⟨⟨ctOf 1, by decide +kernel⟩, by decide +kernel⟩
/-- A pass after the tiles due were closed, with the array taken by begun commands alone, or by a command that waits. -/
theorem hyp_UnitEvents_passes : let s0 := fun q n => atCore sc 0 fun k => { k with closedTiles := [ctOf 1], matq := q, passes := n }
    let s := fun q n => fetchTiles (closeOver (s0 q n) (unitOf (s0 q n))) (unitOf (s0 q n))
    let c : Cmd := { (cmdOf 5 (.peer true 0 0 0x10001)) with begun := true }
    (∀ p ∈ [([], 9), ([c], 9), ([{ c with begun := false }], 3)], let t := s p.1 p.2
      (coreAt t (unitOf t)).closedTiles = [ctNet] ∧ fetched ctNet = true ∧ (coreAt t (unitOf t)).freeze = none ∧
      arrayFree t (coreAt t (unitOf t)) = true ∧
      ((∀ c ∈ (coreAt t (unitOf t)).matq.head?, c.begun = true) ∨ (coreAt t (unitOf t)).passes < 4)) := by decide +kernel
/-- Requests that are poisoned, and one that needs a brick. -/
theorem hyp_UnitEvents_poison : let r := { rowOf with poison := some 0x16 }
    let m := { (rayOf none none) with poison := some 0x14 }
    (coreAt (atCore sc 0 fun k => { k with results := [r], stipple := [m] }) 0).results[0]? = some r ∧ r.poison.isSome = true ∧
    (coreAt (atCore sc 0 fun k => { k with results := [r], stipple := [m] }) 0).stipple[0]? = some m ∧ (m.state.isSome || m.poison.isSome) = true ∧
    (allocated xc.con) = 248 ∧ (∀ g ∈ (List.range m.window).map (m.d + ·), g < min 248 (allocated xc.con)) ∧
    (∃ r ∈ (coreAt (atCore sc 0 fun k => { k with stipple := [rayOf (some 5) none] }) 0).stipple, sameBrick r r = true) :=
  ⟨by decide +kernel, by decide +kernel, by decide +kernel, by decide +kernel, by decide +kernel, by decide +kernel, ⟨rayOf (some 5) none, by decide +kernel⟩⟩

/-- A copy's read that is served, and one that fails. -/
theorem hyp_CopyEvents_reads : (loadSeen sc (.copy 0) 5 0 (copyVa tplLd 0x4000 15) 4).toOption.isSome = true ∧
    (loadSeen sc (.copy 0) 5 0 (copyVa tplLd (1 <<< 57) 15) 4).toOption = none ∧ waitsPinned sc (5, 0) 0 [copyVa tplLd 0x4000 15] = false := by decide +kernel
/-- Spills: one that reduces, one of 4-bit elements, one of zeros out of bounds; and a fill of zeros out of bounds. -/
theorem hyp_CopyEvents_spills : let red : Tpl := BitVec.ofNat 512 (1 + 2 * 2 ^ 8 + 2 ^ 16 + 2 ^ 24 + 16 * 2 ^ 64 + 2 ^ 96 + 2 ^ 128 + 4 * 2 ^ 192)
    let sub : Tpl := BitVec.ofNat 512 (1 + 14 * 2 ^ 8 + 2 ^ 24 + 16 * 2 ^ 64 + 2 ^ 96 + 2 ^ 128 + 1 * 2 ^ 192)
    Tpl.kind red = 1 ∧ Tpl.red red = true ∧ 8 ≤ tyBits (Tpl.ty red) ∧ copyVa red 0x4000 15 % 4 = 0 ∧ inBounds 0x100010010 (elemIdx red 15) = true ∧
    (load sc 5 0 (copyVa red 0x4000 15) 4).toOption = some [0, 0, 0, 0] ∧
    (putVal red 3 0 7).1 = 7 ∧ (store sc 5 0 (copyVa red 0x4000 15) (toBytes 4 7)).toOption.isSome = true ∧
    Tpl.kind sub = 1 ∧ tyBits (Tpl.ty sub) < 8 ∧ Tpl.red sub = false ∧ inBounds 0x100010010 (elemIdx sub 15) = true ∧
    (load sc 5 0 (copyVa sub 0x4000 15) 1).toOption = some [0] ∧ (store sc 5 0 (copyVa sub 0x4000 15) [0xA0]).toOption.isSome = true ∧
    inBounds 0x10001000F (elemIdx tplLd 15) = false ∧ Tpl.zfill (tplLd ||| 0x40001) = true ∧ Tpl.kind (tplLd ||| 0x40001) = 1 := by
  decide +kernel
/-- A sparse fill of 4-byte elements into tile 3: its two data elements at 0x4000 and its nibble at 0x4100. -/
theorem hyp_CopyEvents_sparseFill : let tpl : Tpl := tplLd ||| 3
    let s := withTiles sc [(3, tileOf 6 0 true)]
    Tpl.kind tpl = 3 ∧ (conAt s 0).bind (tileAt · 3) = some (tileOf 6 0 true) ∧ (tileOf 6 0 true).ty = Tpl.ty tpl ∧ (tileOf 6 0 true).frz = false ∧
    8 ≤ tyBits (Tpl.ty tpl) ∧ 0x4000 % 4 = 0 ∧ (rowCol 0).2 + 4 * 0 + 4 ≤ (tileOf 6 0 true).cols ∧
    waitsPinned s (5, 0) 0 [0x4000, 0x4004, 0x4100] = false ∧
    (∀ va ∈ [0x4000, 0x4004], (loadSeen s (.copy 0) 5 0 va 4).toOption.map (·.length) = some 4) ∧ (loadSeen s (.copy 0) 5 0 0x4100 1).toOption.isSome = true := by
  decide +kernel
/-- A gang of which rank 1 is on package 1, lost or not, and an element that adds. -/
theorem hyp_CopyEvents_away : let g : Span := ⟨0, 0, 4, 7, [0, 1, 1, 1], true, true, true, false⟩
    let s := fun lost => { sGang with lostPkgs := lost, links := 1, launches := sGang.launches.map fun l => { l with span := some g, total := 4 } }
    (∀ lost ∈ [[], [1]], (match peerEnd (s lost) (cpCmd 2) (tplLd ||| 2) 0x303 0 with
      | .away => true
      | _ => false) = true ∧ (conAt (s lost) (cpCmd 2).cid).map (rankLost (s lost) · 3) = some (lost == [1])) ∧
    (let e : PeerElem := ⟨0, 0, 3, 15, 15, 7, true, 3⟩; (e.red && [2, 9, 10].contains 10) = true ∧ (e.red && [2, 9, 10].contains 6) = false) := by
  decide +kernel

/-- A core frozen by a copy of a debugged context, whose course runs and does not. -/
theorem hyp_CommandEnds_debugged : let s := fun issue => { (atCore (sHead 0 (cpBegun [0]) []) 0 fun k => { k with
      freeze := some ⟨5, 0, ⟨0, 0, 0, 0, 0⟩, 0⟩, issue := if issue then k.issue else [] }) with attached := [5] }
    (∀ b ∈ [true, false], (conAt (s b) (cpBegun [0]).cid).map (fun con => (debugged (s b) (ctxOf (s b) con).1, flagCourse con (cpBegun [0]).ci,
      (crsAt con 0).map fun d => (d.ended, d.splits.head?.map (·.1)))) = some (true, some 0, some (false, some 0))) ∧
    (∀ b ∈ [true, false], (coreAt (s b) (unitOf (s b))).issue.any (fun i => i.2.cid == 0 && i.2.ci == 0) = b) ∧
    (∀ b ∈ [true, false], (coreAt (s b) (unitOf (s b))).freeze.isSome = true) ∧ (∀ p ∈ (s false).pris, p.who ≠ .freeze 0) := by decide +kernel

/-- A store error that may be recorded, and one that waits: its course is in issue. -/
theorem hyp_LateEvents_found : let s := atCore { sc with consorts := [] } 0 fun k => { k with storeErrs := [errOf] }
    (coreAt s (unitOf s)).storeErrs.find? (fun e => !impWaits s (unitOf s) e) = some errOf ∧
    (let t := atCore sc 0 fun k => { k with storeErrs := [{ errOf with gen := xc.c.gen }] };
      ∀ e ∈ (coreAt t (unitOf t)).storeErrs, impWaits t (unitOf t) e = true) := by decide +kernel

/-- An etch that has ended but is not finished; a print whose next entry is beyond the window, on a pinned line or not. -/
theorem hyp_CourseEvents_streams : ((conAt { sEtch with turn := .event 0 .plateFeed } 0).map (·.plate.mode)) = some 1 ∧
    (let s := fun (pins : List Pin) => { (sFeed 0) with
        consorts := (sFeed 0).consorts.map fun c => { c with plate := { c.plate with addr := 0x4000, window := 0 } }
        cores := [(1, { coreInit with pins := pins })] }
     (conAt (s []) 0).map (streamPinned (s [])) = some false ∧ (conAt (s [⟨0x180, 9, 0⟩]) 0).map (streamPinned (s [⟨0x180, 9, 0⟩])) = some true) := by
  decide +kernel

/-- The QCB's line is pinned, or not; a queue that owes a record; one that is broken; and a record that finds no room, or is written. -/
theorem hyp_QueueEvents_owed : qcbPinned sFetch 0x6000 = false ∧ qcbPinned (withPin sFetch 0x180) 0x6000 = true ∧
    (let s := fun (q : Queue) => { sFetch with queues := [q] }
     let q := queueOfCmds []
     (queueFor (s { q with owed := [doneNow] }) 0x6000).map (·.owed) = some [doneNow] ∧
     (queueFor (s { q with broken := true }) 0x6000).map (·.broken) = some true ∧ (queueFor (s q) 0x6000).map (·.broken) = some false ∧
     (tryRecord (s { q with pri := true }) 0x6000 doneNow).2 = false ∧ (tryRecord (s q) 0x6000 doneNow).2 = true) := by decide +kernel

/-- Commands of which one may go before the others, behind an earlier LAUNCH or an append that waits. -/
def numbered (n v stage : Nat) : QCmd := ⟨n, toBytes 64 v, 0x3F, stage, 0⟩
def sMany (cs : List QCmd) : State := { (sQueue 1 1 0 1 (queueOfCmds cs) []) with workqs := [wqOf 5 0 true] }
theorem hyp_CommandEvents_behind : let c := numbered 1 (feedCmd 0 0x4000 1 + 2 ^ 9) 0
    let q := queueOfCmds [numbered 0 (feedCmd 0 0x4000 1) 2, c]
    let s := sMany q.cmds
    nextCmd s 0x6000 = some c ∧ cmdBad c = none ∧ isAppend c = true ∧ feedBehind q c = true ∧ wqAt s (feedNum c) = some (wqOf 5 0 true) ∧
    feedSrc c % 16 = 0 ∧ (queueCtx s).1 = 5 ∧ 0 + feedCount c ≤ (wqOf 5 0 true).cap := by decide +kernel
/-- An append of two records with CLOSE, of a queue with room, at places that are pinned or not. -/
theorem hyp_CommandEvents_appends : let v := feedCmd 2 0x4000 2
    let c := cmdBytes v
    let s := sFeed2 v (wqOf 5 15 true)
    isAppend c = true ∧ feedCount c = 2 ∧ (cmdFlags c).testBit 1 = true ∧ (wqOf 5 14 true).count + 2 ≤ (wqOf 5 14 true).cap ∧
    (let s := sFeed2 v (wqOf 5 14 true)
     waitsPins s (queueCtx s) (feedWords c) = false ∧ waitsPins s (5, 0) (wqSpan (wqOf 5 14 true) 14 2) = false ∧
     waitsPins (withPin s 0x100) (queueCtx s) (feedWords c) = true ∧
     (∀ va ∈ feedWords c, (load s 5 0 va 8).toOption.isSome = true) ∧
     (pushAll s 9 (List.replicate 32 0) 2).toOption.isSome = true) ∧
    (cmdFlags c).testBit 2 = false ∧ (wqOf 5 15 true).cap < (wqOf 5 15 true).count + feedCount c ∧ unitOf s = 0x6000 ∧
    (load (noPage s) 5 0 0x4000 8).toOption = none := by decide +kernel
/-- A SIGNAL behind another command, and one at a pinned line; a WAIT there; a GANG whose MAP is pinned. -/
theorem hyp_CommandEvents_pinned : (∀ v ∈ [3 + 0x4000 * 2 ^ 64, 4 + 0x4000 * 2 ^ 64], waitsPins (withPin (sCmd v) 0x100) (queueCtx (sCmd v)) [0x4000] = true) ∧
    (let s := withPin (sCmd (5 + 2 * 2 ^ 144 + 0x4000 * 2 ^ 192)) 0x100
     waitsPins s (queueCtx s) ((List.range 4).map fun i => (0x4000 + i) % 2 ^ 64) = true) ∧
    (let c := numbered 1 (3 + 0x4000 * 2 ^ 64) 0
     let s := sMany [numbered 0 launchCmd 1, c]
     nextCmd s 0x6000 = some c ∧ cmdBad c = none ∧ cmdOp c = 3) := by decide +kernel
/-- LAUNCH behind a LAUNCH, without OVERLAP and with it, and one whose kernel is on a pinned line. -/
theorem hyp_CommandEvents_overlap : let q := fun v => queueOfCmds [numbered 0 launchCmd 1, numbered 1 v 0]
    launchFree (q launchCmd) (numbered 1 launchCmd 0) = false ∧ launchFree (q (launchCmd + 2 ^ 12)) (numbered 1 (launchCmd + 2 ^ 12) 0) = true ∧
    launchFree (queueOfCmds [cmdBytes launchCmd]) (cmdBytes launchCmd) = true ∧
    launchWaits (withPin sLaunch 0x280) 0x6000 (cmdBytes launchCmd) = true ∧
    (∀ v ∈ [launchCmd, launchCmd + 2 ^ 12], nextCmd { sLaunch with queues := [q v] } 0x6000 = some (numbered 1 v 0) ∧ cmdBad (numbered 1 v 0) = none) := by
  decide +kernel
/-- A GANG that waits for its LAUNCH, and none. -/
theorem hyp_CommandEvents_bound : (queueOfCmds [numbered 0 5 1]).cmds.find? gangBound = some (numbered 0 5 1) ∧
    (queueOfCmds [numbered 0 5 0]).cmds.find? gangBound = none := by decide +kernel

/-- A package of a gang that never started: whether it did is a free value. -/
theorem hyp_Gangs_never (h : Config.neverStarted 7 1 = true) : ∃ g : Span, g.going = true ∧ ∃ p ∈ g.pkgs, p ≠ base.pkg ∧ Config.neverStarted g.gid p = true :=
  ⟨{ spanOf0 with going := true }, rfl, 1, by decide +kernel, by decide +kernel, h⟩

/-- A consort at its points whose save meets no pin, whatever the save area is, no core having one. -/
theorem hyp_Preemption_save : let s := closeOver (sPre (some 0) false 0) 0
    (coreAt s 0).freeze = none ∧ (∀ k ∈ s.cores, k.2.pins = []) ∧ (coreAt s 0).openTiles.find? (fun t => t.rows.any fun r => r.cid == 0) = none ∧
    (conAt s 0).map (drained (coreAt s 0)) = some true := by decide +kernel

theorem hyp_HostLink_linked : let s := fun l => { base with links := l, peers := [1], turn := .event 1 .fabricTimeout }
    (s 1).links ≠ 0 ∧ (s 1).peers.contains 1 = true ∧ (s 1).lostPkgs.contains 1 = false ∧ (s 0).links = 0 ∧ (s 1).peers.contains 2 = false ∧
    placeOf (s 1) (0x4000 % 2 ^ 39) = .mem 0x4000 ∧ spanPinned (s 1) (0x4000 % 2 ^ 39) 2 = false ∧
    spanPinned (withPin (s 1) 0x100) (0x4000 % 2 ^ 39) 2 = true ∧
    (memWrite { (s 1) with heard := alSet (s 1).heard 1 (s 1).cycles } 0x4000 0 [1, 2]).toOption.isSome = true := by decide +kernel
/-- A hold whose slot's line is pinned, and one whose is not. -/
theorem hyp_BurinSlot3_release : let s := sBand posed fun x => { x with hold := some 1 }
    (burinAt s 0).hold = some 1 ∧ waitsPins s (dispCtx s 0) [0x4108] = false ∧ waitsPins (withPin s 0x104) (dispCtx s 0) [0x4108] = true := by
  decide +kernel
/-- A core whose next invocation waits for the release of a hold, which a pin keeps. -/
theorem hyp_DisplayEvents_holds : let s := { (withPin (sBand (fun x => { x with nextBand := [(0, 1)] }) fun c => { c with running := false, hold := some 1 }) 0x104) with
      turn := .event 0 .burinInvocationStart }
    (burinAt s (unitOf s)).running = false ∧ (burinAt s (unitOf s)).hold.isSome = true ∧ tryRelease s (unitOf s) = s := by decide +kernel
theorem hyp_StepRuns_idle : let s := sBand id fun c => { c with running := false }
    mover s = .burin 0 ∧ (burinAt s 0).running = false := by decide +kernel
theorem hyp_MailboxCommands_images : running base false = Config.factoryImage false ∧ running { base with fwImage := [7] } false = [7] :=
  ⟨rfl, rfl⟩

/-! The statements' other forms -/

/-- A refill split that exits inside its last record, and lanes of it that go on. -/
theorem hyp_ExitYield_stays : let s := { (sJoin (jr 1 none)) with launches := s1.launches.map fun l => { l with refill := true } }
    (cur? s).map (fun x => (x.sp.jrec, refills s x.con && onlySplit x, match (arrive x.c.recs 2 0 0 17).2 with
      | .gone _ => true
      | _ => false)) = some (some 2, true, true) := by decide +kernel
/-- A JOIN of a course with reads to make, and one without. -/
theorem hyp_Joining_reads : (let s := { (sJ (jr 1 none)) with cores := (sJ (jr 1 none)).cores.map fun k => (k.1, { k.2 with openTiles := (coreAt sReads 0).openTiles }) };
      (cur? s).map (fun x => (x.sp.jrec, alGet x.c.recs 2, decide ((jr 1 none).addr = x.iss.hdr), x.reads)) =
        some (some 2, some (jr 1 none), true, true)) ∧
    (xJ (jr 1 none)).reads = false ∧ (xJ (jr 2 none)).reads = false := by decide +kernel
/-- SETA and SETB of a flag, and of none, for the first long-latency word, the second and a third. -/
theorem hyp_LongLatency_picks : (parts sFlag rfl).iss.ll = 0 ∧ hSetA (parts sFlag rfl).iss.header < 12 ∧ ¬ hSetA xc.iss.header < 12 ∧
    ({ xc.iss with ll := 1 } : Issue).ll = 1 ∧ 2 ≤ ({ xc.iss with ll := 2 } : Issue).ll := by decide +kernel

/-- LD with offsets in v8; ST of v9; LDT with offsets in v8, STT of v9, and LDT with its offset in s7. -/
def pTrap : P := { pLd with b := 8, bk := 0 }
def pTrapSt : P := { pLd with d := 9, b := 0, bk := 1 }
def pTile : P := { (default : P) with d := 10, a := 3, b := 8, ty := 6 }
def pTileSt : P := { (default : P) with d := 9, a := 3, b := 0, ty := 6, bk := 1 }
def pTileOut : P := { (default : P) with d := 10, a := 3, b := 7, ty := 6, bk := 1 }
/-- Poisoned offsets of LD, poisoned data of ST and ATOM, and addresses that LDS, STS and ATOMS do not translate. -/
theorem hyp_AccessTraps_words : let p := pTrap
    let q := pTrapSt
    let a : P := { (default : P) with d := 10, a := 4, c := 9, ty := 6, bk := 1 }
    let fa : Form := { memForm a (atomTys 0) [0, 1] [10, 9] (tyBits a.ty.toNat) 6 true true with rm := false }
    (∀ p, Runs sChk xChk (vregsOf (memForm p (List.range 8) [0, 1, 2] [p.d.toNat] (dataW p) 4 false true).regs) (memScalars p)) ∧
    (∀ p ∈ [pTrap, pTrapSt], active xChk p ≠ 0 ∧ formErr sChk xChk p (memForm p (List.range 8) [0, 1, 2] [p.d.toNat] (dataW p) 4 false true) = none ∧
      queuesReady xChk (offReads p) (some p.d.toNat) = true ∧ queuesReady xChk (p.d.toNat :: offReads p) none = true) ∧
    (let accs := laneAccs xChk p (lanesOf (active xChk p) xChk.c.width);
      let tags := accs.map fun a => (a.lane, a.tag);
      (accessTrap sChk (ctxOf sChk xChk.con) .read 4 tags accs).map (·.1) = some cPOISON ∧ (tags.map (·.1)).Pairwise (· < ·) ∧
        ∀ u ∈ tags, u.1 < 64) ∧
    (let accs := laneAccs xChk q (lanesOf (active xChk q) xChk.c.width);
      (accessTrap sChk (ctxOf sChk xChk.con) .write 4 (accs.map fun a => (a.lane, firstTag [(q.b.toNat, a.tag),
        (q.d.toNat, (srcVal xChk (dataW q) q.d.toNat a.lane).2)])) accs).map (·.1) = some cPOISON) ∧
    Runs sChk xChk (vregsOf fa.regs) (memScalars a) ∧ active xChk a ≠ 0 ∧ formErr sChk xChk a fa = none ∧
    queuesReady xChk (a.c.toNat :: offReads a) (some a.d.toNat) = true ∧
    (let accs := laneAccs xChk a (lanesOf (active xChk a) xChk.c.width);
      (accessTrap sChk (ctxOf sChk xChk.con) .write 4 (accs.map fun l => (l.lane, firstTag
        [(a.c.toNat, (srcVal xChk 32 a.c.toNat l.lane).2)])) accs).map (·.1) = some cPOISON) :=
  ⟨fun _ => runs_idle _ _ rfl _ _, by decide +kernel, by decide +kernel, by decide +kernel, runs_idle _ _ rfl _ _, by decide +kernel,
    by decide +kernel, by decide +kernel, by decide +kernel⟩
theorem hyp_AccessTraps_course : let p : P := { pLds with a := 2 }
    let a : P := { (default : P) with d := 5, a := 3, b := 2, c := 3, ty := 6, bk := 1 }
    Runs sc xc [] (p.d.toNat :: memScalars p) ∧ guarded p = false ∧ fieldsOk p (courseFree p) = true ∧ courseLegal p = true ∧
    (accessTrap sc (ctxOf sc xc.con) .read 4 [] [⟨0, courseAddr xc p, 0⟩]).map (·.1) = some cALIGN ∧
    (accessTrap sc (ctxOf sc xc.con) .write 4 [] [⟨0, courseAddr xc p, 0⟩]).map (·.1) = some cALIGN ∧
    Runs sc xc [] (a.d.toNat :: memScalars a ++ [a.c.toNat]) ∧
    (accessTrap sc (ctxOf sc xc.con) .write 4 [] [⟨0, (sGet xc.c a.a.toNat).toNat, 0⟩]).map (·.1) = some cXLAT :=
  ⟨runs_sc _ _, by decide +kernel, by decide +kernel, by decide +kernel, by decide +kernel, by decide +kernel, runs_sc _ _, by decide +kernel⟩
/-- Tags of registers, of which the first that is poisoned is the lowest. -/
theorem hyp_AccessTraps_tags : let ts : List (Nat × Byte) := [(9, 0), (10, 8), (11, 9)]
    ∃ t ∈ ts, t.2 ≠ 0 ∧ ∀ u ∈ ts, u.2 ≠ 0 → u ≠ t → t.1 < u.1 := ⟨(10, 8), by decide +kernel⟩
/-- Tile words with a poisoned offset, with poisoned data, and with a coordinate beyond the tile; on tiles of each kind. -/
def sTileChk (t : TileEnt) : State := onCrs (withTiles (onCrs sc fun c => { c with v := [(8 * 64 + 31, ⟨0, 1⟩), (9 * 64 + 30, ⟨0, 8⟩)] }) [(3, t)])
  fun c => { c with s := [(7, 0x10)] }
def xTileChk (t : TileEnt) : Cur := parts (sTileChk t) rfl
theorem hyp_AccessTraps_tiles : let p := pTile
    let q := pTileSt
    let r := pTileOut
    let t := tileOf 6 0 false
    let x := xTileChk t
    let ls := lanesOf (active x p) x.c.width
    (∀ t p ss, Runs (sTileChk t) (xTileChk t) (vregsOf (memForm p (List.range 15) [0, 1, 2] [p.d.toNat] (dataW p) 0 false true).regs) ss) ∧
    (∀ p ∈ [pTile, pTileSt, pTileOut], active x p ≠ 0 ∧ formErr (sTileChk t) x p (memForm p (List.range 15) [0, 1, 2] [p.d.toNat] (dataW p) 0 false true) = none ∧
      queuesReady x (offReads p) (some p.d.toNat) = true ∧ queuesReady x (p.d.toNat :: offReads p) none = true) ∧
    tileAt x.con 3 = some t ∧ tileAt x.con 4 = none ∧ tileAt (xTileChk (tileOf 6 0 true)).con 3 = some (tileOf 6 0 true) ∧
    tileAt (xTileChk (tileOf 7 0 false)).con 3 = some (tileOf 7 0 false) ∧ (tileOf 7 0 false).ty ≠ p.ty.toNat ∧
    tileAt (xTileChk { t with frz := true }).con 3 = some { t with frz := true } ∧ t.ty = p.ty.toNat ∧ x.c.width ≤ 64 ∧
    (∃ l ∈ ls, firstTag [(p.b.toNat, (offLane x p l).2)] ≠ 0) ∧
    (∃ l ∈ ls, firstTag [(q.b.toNat, (offLane x q l).2), (q.d.toNat, (srcVal x (dataW q) q.d.toNat l).2)] ≠ 0) ∧
    (∀ l ∈ ls, firstTag [(r.b.toNat, (offLane x r l).2)] = 0) ∧ (∃ ls', ls = 0 :: ls') ∧ coordOf t (offLane x r 0).1 = none :=
  ⟨fun _ _ _ => runs_idle _ _ rfl _ _, by decide +kernel, by decide +kernel, by decide +kernel, by decide +kernel, by decide +kernel,
    by decide +kernel, by decide +kernel, by decide +kernel, by decide +kernel, ⟨31, by decide +kernel⟩, ⟨30, by decide +kernel⟩,
    by decide +kernel, ⟨_, rfl⟩, by decide +kernel⟩

/-- TGIVE of a course with reads to make, and of one without. -/
theorem hyp_TileTable_reads : (let s := { (sTile false) with cores := (sTile false).cores.map fun k => (k.1, { k.2 with openTiles := (coreAt sReads 0).openTiles }) };
      (cur? s).map (fun x => (tileAt x.con 3, x.reads)) = some (some (tileOf 6 0 false), true)) ∧ (xTile false).reads = false := by decide +kernel
/-- Barriers whose courses have reads to make, and without. -/
theorem hyp_Barriers_reads : consortReads (sPark fun sp => { sp with park := .bar }) xc.con = false ∧
    (gangMembers (sPark fun sp => { sp with park := .gbar }) xc.con).all (fun d => !consortReads sc d) = true ∧ consortReads sReads xReads.con = true ∧
    (gangMembers sReads xReads.con).any (consortReads sReads) = true ∧ xReads.con.courses ≠ [] := by decide +kernel
/-- ERET with a guard, with a field, and in the midst of a clause. -/
theorem hyp_TrapWords_eret : guarded { (default : P) with g := 1 } = true ∧ guarded { (default : P) with d := 1 } = false ∧
    fieldsOk { (default : P) with d := 1 } {} = false ∧ isLast x3 2 = false ∧ isLast xc 2 = true ∧
    (fallTo xc.iss.hdr (nextClause xc) xc.sp.loops).isSome = true := by decide +kernel

/-- Leads and guards at their limits, and beyond them; a tile whose window has not passed. -/
theorem hyp_Csrs_disp : LimitsOk base (fun h => bits (0x0008000800080008 : DWord).toNat (16 * h) 10) (fun h => bits (0x0004000400040004 : DWord).toNat (16 * h) 8) ∧
    ¬ LimitsOk base (fun h => bits (0x0007000800080008 : DWord).toNat (16 * h) 10) (fun h => bits (0x0003000400040004 : DWord).toNat (16 * h) 8) ∧
    bits (25 : DWord).toNat 0 5 ≤ 25 ∧ 25 < bits (26 : DWord).toNat 0 5 ∧ (∀ t ∈ (coreAt sReads xReads.con.core).openTiles, windowOver sReads t = false) ∧
    0xC00 ≤ 0xC00 := by
  refine ⟨?_, fun h => ?_, by decide, by decide, by decide +kernel, Nat.le_refl _⟩
  · unfold LimitsOk; decide +kernel
  · have := h 3 (by omega); revert this; decide +kernel

/-- A table of one network at 0x5000, of one layer, and the reads of its header and descriptor. -/
def sNet : State := { sRes with mem := (withBytes sc 0x4000 (toBytes 64 (0xFF + 2 * 2 ^ 128 + 0xdf068750 * 2 ^ 480) ++
  toBytes 64 (2 + 0x5000 * 2 ^ 64 + 0x2657156f * 2 ^ 480))).mem ++ [(0x5000, 1), (0x5001, 1)] }
theorem hyp_UnitRequests_spans : (match readNamed sNet (.course 0 0) (5, 0) 0x4000 1 with
    | .ok (.ent e) => decide (ResEnt.type e = 2 ∧ ResEnt.base e % 32 = 0) && (match readKeyed sNet (.course 0 0) (5, 0) (ResEnt.key e) (ResEnt.base e) 32 with
      | .ok b => headerOf (ofBytes b) == some (1, 1)
      | .error _ => false)
    | _ => false) = true := by decide +kernel

/-- Messages of another package that arrive, and that do not. -/
theorem hyp_CopyEvents_reach : (∀ s ∈ [{ sc with links := 0 }, { sc with links := 1, lostPkgs := [1] }], reaches s 1 = false) ∧
    ({ sc with links := 1 } : State).links ≠ 0 ∧ 1 ∉ ({ sc with links := 1 } : State).lostPkgs := by decide +kernel

/-- An add of a consort to its own rank: to an accumulator that it lacks, out of its turn, and in it; and one to rank 1. -/
def selfCmd (target : DWord) (acc : Nat) : Cmd := { (cmdOf 5 (.peer true acc 0 target)) with begun := true }
def sSelf (c : Cmd) : State := { (withCmds sGang 4 [c]) with turn := .event 0 .matrixComplete }
theorem hyp_MatrixEvents_self : (∀ c ∈ [selfCmd 0x470000 7, selfCmd 0x470100 7, selfCmd 0x470000 8], headOf (sSelf c) (unitOf (sSelf c)) 4 = some c ∧
      c.begun = true ∧ selfAdd (sSelf c) c = true ∧ (conAt (sSelf c) c.cid).map (fun con => (con.nacc, con.nflag, smGet 0 con.nextSlot 7)) = some (8, 64, 0)) ∧
    slotOf true 0x470000 = some 0 ∧ slotOf true 0x470100 = some 1 ∧ rflagOf 0x470000 = some 7 ∧
    selfAdd (sSelf (selfCmd 0x470001 7)) (selfCmd 0x470001 7) = false ∧ (conAt (sSelf (selfCmd 0x470001 7)) 0).isSome = true ∧
    (rankConsort sGang xc.con 0).map (·.cid) = some 0 ∧ (rankConsort sGang xc.con 1).map (·.cid) = some 1 := by decide +kernel
/-- Elements of the types that MMA takes, and chunks with a NaN, with an infinity of each sign, with both, and with neither. -/
theorem hyp_MatrixEvents_chunks : tyFmt 8 = some fmtF16 ∧ (let v := fun x => fmtF16.unpack x
      v 0x7E00 = .nan false ∧ v 0x7C00 = .inf false ∧ v 0xFC00 = .inf true ∧ v 0 = .fin false 0 (-24) ∧ v 0x3C00 = .fin false 1024 (-10)) ∧
    [((0x7E00 : Nat), (0x3C00 : Nat))] ≠ [] ∧ (0 : Nat) = 0 ∧ (15 : Nat) = 15 ∧ (2 : Nat) ≠ 8 ∧ (2 : Nat) ≠ 9 := by decide +kernel
/-- Fetched words: what memory holds, what the core has cached, and what memory held as the launch was dispatched. -/
theorem hyp_ClauseIssues_fetched (h : ∀ t va, Config.fetchCached t va = 0) : ∃ w, fetch sc coreInit (ctxOf sc xc.con) 0x4000 = .ok w := by
  simp only [fetch_now h]
  exact isOk_of _ (by decide +kernel)

/-- Writes that push: with a record and without; entries of later words are already in the queue. -/
def pushing (record : Option StoreErr) : PendWrite := { (pendOf 0) with push := some (1, [[⟨5, 0⟩]]), turn := 3, record := record }
theorem hyp_LateEvents_push : (let s := fun r => { (onCrs (onCon sc fun c => { c with queues := [(1, [[⟨6, 0⟩], [⟨7, 0⟩]])], turns := [(1, [2, 5])] })
      fun c => { c with pend := [pushing r] }) with turn := .event 0 (.longLatencyWriteback 0 0) };
      ∀ r ∈ [none, some errOf], (conAt (s r) (unitOf (s r))).map (fun con => ((crsAt con 0).bind (·.pend[0]?), ((turnsOf con 1).filter fun t => decide (t ≤ 3)).length)) =
        some (some (pushing r), 1)) ∧ (pushing none).push = some (1, [[⟨5, 0⟩]]) ∧ (0 : Nat) ≠ 1 ∧ (pendOf 0).push = none := by decide +kernel
/-- A course with an error outstanding, which waits at its boundary. -/
theorem hyp_LateEvents_waits : let k := { (coreAt sc 0) with storeErrs := [{ errOf with cid := xc.con.cid, ci := xc.c.idx, gen := xc.c.gen }] }
    (xc.con.wdDue && wdCourse xc.con == some xc.c.idx) = false ∧ trapPending xc.c = none ∧
    (∃ e ∈ k.storeErrs, e.cid = xc.con.cid ∧ e.ci = xc.c.idx ∧ e.gen = xc.c.gen) ∧
    (conAt sc errOf.cid).map (fun con => (crsAt con errOf.ci).isSome) = some true :=
  ⟨by decide +kernel, by decide +kernel, ⟨_, List.mem_cons_self, rfl, rfl, rfl⟩, by decide +kernel⟩
/-- A consort with an error of an access still to record. -/
theorem hyp_CourseEvents_errors : (∃ c ∈ ({ xc.con with courses := [{ xc.c with pend := [pushing (some errOf)] }] } : Consort).courses, ∃ p ∈ c.pend, p.record.isSome = true) ∧
    (∃ e ∈ (coreAt (atCore sc 0 fun k => { k with storeErrs := [errOf] }) xc.con.core).storeErrs, e.cid = xc.con.cid) ∧ conAt sc xc.con.cid = some xc.con :=
  ⟨⟨_, List.mem_cons_self, _, List.mem_cons_self, rfl⟩, ⟨errOf, by decide +kernel⟩, by decide +kernel⟩

/-- Commands that are bad: OP 0, a reserved flag of each OP, and a right not held; and none of that. -/
theorem hyp_QueueEvents_bad : (∀ v ∈ [0, 6, 1 + 32 * 2 ^ 8, 2 + 16 * 2 ^ 8, 3 + 2 * 2 ^ 8, 4 + 2 ^ 8],
      let op := fieldB (cmdBytes v).bytes 0 1
      let fl := fieldB (cmdBytes v).bytes 1 1
      op = 0 ∨ 6 ≤ op ∨ (op = 1 ∧ 32 ≤ fl) ∨ (op = 2 ∧ 16 ≤ fl) ∨ (op = 3 ∧ 2 ≤ fl) ∨ (4 ≤ op ∧ fl ≠ 0)) ∧
    fieldB (cmdBytes 4).bytes 0 1 = 4 ∧ fieldB (cmdBytes 4).bytes 1 1 = 0 ∧ (cmdBytes 4).rights.getLsbD 4 = true ∧
    ({ (cmdBytes 4) with rights := 0x0F } : QCmd).rights.getLsbD 4 = false := by decide +kernel
/-- A fetch of a bad command, one that waits to be seen, and a queue with none. -/
theorem hyp_QueueEvents_pump : (loadMany (sQueue 1 0 0 1 (queueOfCmds []) [(0x8000, 6)]) 5 0 0x8000 8).toOption.map (fun bs => cmdBad ⟨0, bs, 0x3F, 0, 0⟩) =
      some (some stBADCMD) ∧
    (let s := sCmd 6; nextCmd s 0x6000 = some (cmdBytes 6) ∧ cmdBad (cmdBytes 6) = some stBADCMD ∧ queueFor s 0x6000 = some (queueOfCmds [cmdBytes 6]) ∧
      unitOf s = 0x6000) ∧ nextCmd sFetch 0x6000 = none ∧ cmdOp (cmdBytes 6) ≠ 1 ∧ cmdOp (cmdBytes (1 + 32 * 2 ^ 8)) = 1 := by decide +kernel
/-- Room for an append that waits, in a queue that is another's now, whose QCB a consort has pinned, or that is not there. -/
theorem hyp_CommandEvents_roomless : let c := { (cmdBytes (feedCmd 0 0x4000 1)) with stage := 2 }
    let s := fun ws => { (sQueue 1 1 0 2 (queueOfCmds [c]) []) with workqs := ws }
    (wqOf 4 0 true).owner ≠ (queueCtx (s [wqOf 4 0 true])).1 ∧ wqAt (s []) (feedNum c) = none ∧ (s []).queues = [queueOfCmds [c]] ∧
    qcbPinned (s []) (unitOf (s [])) = false ∧ qcbPinned (withPin (s []) 0x180) (unitOf (s [])) = true ∧ c.stage = 2 := by decide +kernel

/-- A share of two ranges, whose first ticket is taken. -/
theorem hyp_Placement_shares : (∀ r ∈ [((0 : Nat), (2 : Nat)), (5, 6)], r.1 < r.2) ∧ nextUnit [(0, 2), (5, 6)] = some 0 := by decide +kernel
/-- A message of a gang from a package that is lost, with no link, and from one that is reached. -/
theorem hyp_Gangs_links : ({ base with links := 0 } : State).links = 0 ∧ (1 : Nat) ∈ ({ base with lostPkgs := [1] } : State).lostPkgs ∧
    ({ base with links := 1 } : State).links ≠ 0 ∧ 1 ∉ ({ base with links := 1 } : State).lostPkgs ∧
    (∃ p ∈ spanOf0.pkgs, p ≠ base.pkg ∧ ({ base with links := 0 } : State).links = 0) :=
  ⟨rfl, by decide, by decide, by decide, 1, by decide +kernel⟩
/-- A split at a pre-emption point; one that waits for a refill, and one that does not. -/
theorem hyp_Preemption_points : pointOf { xc.sp with point := true } = true ∧ pointOf { xc.sp with point := false } = false ∧
    wakeRefill { xc.sp with park := .refill 3 } = { xc.sp with park := .ready } ∧ ∀ m, xc.sp.park ≠ .refill m :=
  ⟨by decide +kernel, by decide +kernel, by decide +kernel, fun _ h => Park.noConfusion h⟩
/-- PRI_RESPONSE for a queue whose QCB a consort has pinned, or not. -/
theorem hyp_HostLink_priPinned : qcbPinned (sPri sFetch (.queue 0x6000)) 0x6000 = false ∧
    qcbPinned (withPin (sPri sFetch (.queue 0x6000)) 0x180) 0x6000 = true := by decide +kernel

/-- RETIRE of a context that has a queue, whose QCB a consort has pinned, or not; and its launch. -/
theorem hyp_MailboxCommands_retires : let s := rung { sFetch with turn := .event 0 (.retire 5) } 0x11
    ((s.queues.filter fun q => (qcbOf s q.qcb).pasid == (5 : BitVec 20).toNat).map (·.qcb)) = [0x6000] ∧ qcbPinned s 0x6000 = false ∧
    qcbPinned (withPin s 0x180) 0x6000 = true ∧ (launchAt s 0).map (·.lid) = some 0 ∧ conAt s s.nextCid = none ∧
    (List.replicate 64 (0 : Byte)).length = 64 := by decide +kernel
/-- A retired queue: with a WAIT dispatched, with a LAUNCH alone, with a record owed, and with nothing left; its record fits or not. -/
def sRetired (cs : List QCmd) (owed : List Done) (ctail : Nat) : State :=
  sQueue 1 1 ctail 1 { (queueOfCmds cs) with owed := owed, retiring := some 2 } []
theorem hyp_MailboxCommands_flush : (∀ cs ∈ [[{ (cmdBytes 4) with stage := 2 }], [{ (cmdBytes 1) with stage := 1 }], []], ∀ o ∈ [[], [doneNow]],
      (queueFor (sRetired cs o 0) 0x6000).map (fun q => (q.retiring, q.cmds, q.owed)) = some (some 2, cs, o)) ∧
    ([{ (cmdBytes 4) with stage := 2 }].find? fun c => cmdOp c != 1) = some { (cmdBytes 4) with stage := 2 } ∧
    (∀ c ∈ [{ (cmdBytes 1) with stage := 1 }], cmdOp c = 1) ∧ qcbPinned (sRetired [] [] 0) 0x6000 = false ∧
    (tryRecord (sRetired [] [] 0) 0x6000 ⟨stRETIRED, 2, 0, 0, 0, 0⟩).2 = true ∧ (tryRecord (sRetired [] [] 64) 0x6000 ⟨stRETIRED, 2, 0, 0, 0, 0⟩).2 = false ∧
    (queueFor (tryRecord (sRetired [] [] 64) 0x6000 ⟨stRETIRED, 2, 0, 0, 0, 0⟩).1 0x6000).map (·.broken) = some false := by decide +kernel
/-- CAPMINT of a QCB that a consort has pinned, and of one that none has. -/
theorem hyp_MailboxCommands_capPinned : qcbPinned (rung sFetch 0x10) (0x6000 : DWord).toNat = false ∧
    qcbPinned (withPin (rung sFetch 0x10) 0x180) (0x6000 : DWord).toNat = true := by decide +kernel

/-- MODESET to a slot on a line that a consort has pinned, or not. -/
theorem hyp_MailboxCommands_modePins : modesetWaits (rung sScreen 0x20) [(0, mdG)] = false ∧ modesOk (rung sScreen 0x20) [(0, mdG)] = true := by decide +kernel
/-- FACQ's reads of the generations as it finds them, one that fails, and those of the slot. -/
theorem hyp_BurinSlot3_reads : (∀ i ∈ [0, 1, 2, 3], (loadSeen (sGen 5) .burin 0 0 ((headAt (sGen 5) 0).mode.slots.getD i 0) 8).toOption.map ofBytes =
      some (if i = 1 then 5 else 0)) ∧ (loadSeen (noPage (sGen 5)) .burin 0 0 ((headAt (sGen 5) 0).mode.slots.getD 0 0) 8).toOption = none ∧
    inGddr (sGddr 0) (dispCtx (sGddr 0) 0) 0x40000000 = true ∧ (loadSeen (sGddr 0) .burin 0 0 0x40000000 4).toOption.isSome = true ∧
    (loadSeen (badLine (sGddr 0) (lineOf 0x4800000000)) .burin 0 0 0x40000000 4).toOption = none := by decide +kernel
/-- Coordinates: a NaN, infinities, 16.5 and -1.5. -/
theorem hyp_BurinSlot3_texels : 1 ≤ 16 ∧ fmtF32.unpack 0x7FC00000 = .nan false ∧ fmtF32.unpack 0x7F800000 = .inf false ∧ fmtF32.unpack 0xFF800000 = .inf true ∧
    fmtF32.unpack 0x41840000 = .fin false 0x840000 (-19) ∧ fmtF32.unpack 0xBFC00000 = .fin true 0xC00000 (-23) ∧
    texel 16 0x41840000 = 15 ∧ texel 16 0xBFC00000 = 0 ∧ texel 16 0x40200000 = 2 := by decide +kernel
/-- A presented write that fails, and a pixel's source: in front of the eye, within the frame; and none, by an infinite quotient. -/
def unitMat : List (List Nat) := [[0x3F800000, 0, 0], [0, 0x3F800000, 0], [0, 0, 0x3F800000]]
def mdEye : HeadMode := { md with kfx := 0x3F800000, kfy := 0x3F800000 }
theorem hyp_DisplayEvents_fails : (match store base (dispCtx base 0).1 (dispCtx base 0).2 (2 ^ 57 % 2 ^ 64) (toBytes 4 (9 : Word).toNat) with
    | .error _ => true
    | .ok _ => false) = true := by decide +kernel
theorem hyp_DisplayEvents_source : (let d := matVec unitMat (matVec unitMat [0x3F000000, 0x3F000000, f32Of 1]);
      fCmp fmtF32 (d.getD 2 0) 0 = some .gt ∧ (floorF (rDiv (rMul mdEye.kfx.toNat (d.getD 0 0)) (d.getD 2 0))).isSome = true) ∧
    sourceOf mdEye unitMat unitMat 3 5 = some (3, 5) ∧ floorF 0x7F800000 = none ∧ floorF 0x7FC00000 = none ∧ floorF 0xBFC00000 = some (-2) ∧
    unitMat.length = 3 ∧ (1 : Nat) ≠ 0 := by decide +kernel
/-- A plate whose STATE can be written, on a pinned line or not, and one whose page is not present. -/
theorem hyp_StepRuns_plates : sc.plateDue = [] ∧ waitsPins sc (5, 0) [0x4000] = false ∧ waitsPins (withPin sc 0x100) (5, 0) [0x4000] = true ∧
    (store sc 5 0 (0x4000 + 5) [2]).toOption.isSome = true ∧ (store (noPage sc) 5 0 (0x4000 + 5) [2]).toOption.isSome = false ∧
    waitsPins (noPage sc) (5, 0) [0x4000] = false := by decide +kernel

end Sys2Proof.Tests
end

section
/-! SUPPORT. The two-word forms that run, and what they read and write: one rule per shared operation (R27, R65, R66). -/

namespace Sys2Proof.Machine

open Sys2Proof.Safety

/-! ## Words that run -/

/-- A lane-class word without an active lane has no effect, whatever its fields hold (R65). -/
theorem laneWord_of_inactive {s : State} {x : Cur} {p : P} {vr sr : List Nat} (h : Runs s x vr sr) (ha : active x p = 0)
    (f : Free) (legal : Bool) (k : Cur → Mask → State) : laneWord s p f legal vr sr k = retire s x 2 := by
  simp [laneWord, onWord_runs h, ha]

/-- A lane-class word with an active lane and fields that pass their checks goes on with its active lanes. -/
theorem laneWord_of_active {s : State} {x : Cur} {p : P} {f : Free} {legal : Bool} {vr sr : List Nat} (h : Runs s x vr sr)
    (ha : active x p ≠ 0) (hf : fieldsOk p f = true) (hl : legal = true) (k : Cur → Mask → State) :
    laneWord s p f legal vr sr k = k x (active x p) := by
  rw [laneWord, onWord_runs h]
  simp only [hf, hl, if_neg ha, Bool.not_true, Bool.or_self, Bool.false_eq_true, if_false]

/-- A course-class word without a guard whose fields pass their checks goes on. -/
theorem courseWord_of_fields {s : State} {x : Cur} {p : P} {f : Free} {legal : Bool} {sr : List Nat} (h : Runs s x [] sr)
    (hg : guarded p = false) (hf : fieldsOk p f = true) (hl : legal = true) (k : Cur → State) :
    courseWord s p f legal sr k = k x := by
  simp [courseWord, onWord_runs h, hg, hf, hl]

/-! ## Registers as masks -/

/-- The mask of a predicate holds the lanes that read true. -/
theorem pMask_getLsbD (c : Course) (r : Nat) {l : Nat} (hl : l < 64) : (pMask c r).getLsbD l = pGet c r l := by
  unfold pMask pGet fullMask
  split
  · rw [BitVec.getLsbD_ofNat, Nat.testBit_two_pow_sub_one]
    simp [hl]
  · rfl

/-- A result of no scalar source takes no volatile mark (R177). -/
theorem sSetFrom_nil (x : Cur) (r : Nat) (v : DWord) : sSetFrom x r v [] = sSet x.c r v := by
  simp [sSetFrom]

theorem sSetFrom_nil_writes (x : Cur) (r : Nat) (v : DWord) : WritesS x.c (sSetFrom x r v []) r v := by
  rw [sSetFrom_nil]
  exact sSet_writes x.c r v

end Sys2Proof.Machine
end

section
/-! PROOF. Predicate logic and reductions, SETX and GETX (R41, R316, R352, R353, R363). -/

namespace Sys2Proof.Machine

open Sys2Proof.Safety

/-! ## Predicate logic (R353) -/

/-- An operation on masks that acts on each lane by itself, as an operation on truth values. -/
def Lanewise (f : Mask → Mask → Mask) (op : Bool → Bool → Bool) : Prop :=
  ∀ a b l, l < 64 → (f a b).getLsbD l = op (a.getLsbD l) (b.getLsbD l)

/-- Each predicate logic word is the shared form with an operation on masks that acts lane by lane as the table says. -/
theorem exec_of_predFn {i : Instr} {p : P} {two : Bool} {op : Bool → Bool → Bool} (h : predFn i = some (p, two, op)) :
    ∃ f, Lanewise f op ∧ ∀ s, exec i s = predLogic p s two f := by
  unfold predFn at h
  split at h
  · cases h; exact ⟨(· &&& ·), fun _ _ _ _ => BitVec.getLsbD_and, fun _ => rfl⟩
  · cases h; exact ⟨(· ||| ·), fun _ _ _ _ => BitVec.getLsbD_or, fun _ => rfl⟩
  · cases h; exact ⟨(· ^^^ ·), fun _ _ _ _ => BitVec.getLsbD_xor, fun _ => rfl⟩
  · cases h; exact ⟨fun a b => a &&& ~~~b, fun _ _ _ hl => by simp [hl], fun _ => rfl⟩
  · cases h; exact ⟨fun a _ => ~~~a, fun _ _ _ hl => by simp [hl], fun _ => rfl⟩
  · cases h; exact ⟨fun a _ => a, fun _ _ _ _ => rfl, fun _ => rfl⟩
  · cases h

/-- With an active lane and legal fields, predicate logic writes the operation's result to the active lanes of p(D). -/
theorem predLogic_writes {s : State} {x : Cur} {p : P} {two : Bool} {f : Mask → Mask → Mask} {op : Bool → Bool → Bool}
    (hop : Lanewise f op) (h : Runs s x [] []) (ha : active x p ≠ 0) (hf : fieldsOk p { d := true, a := true, b := two } = true)
    (hl : (isP p.d && isP p.a && isP p.b) = true) :
    ∃ c' vals, predLogic p s two f = .next (retire s { x with c := c' } 2) ∧ WritesP x.c c' p.d.toNat (active x p) vals ∧
      ∀ l, l < 64 → (active x p).getLsbD l = true → vals.getLsbD l = op (pGet x.c p.a.toNat l) (pGet x.c p.b.toNat l) := by
  refine ⟨_, f (pMask x.c p.a.toNat) (pMask x.c p.b.toNat), ?_, pSet_writes _ _ _ _, fun l hl64 _ => ?_⟩
  · rw [predLogic, laneWord_of_active h ha hf hl]
  · rw [hop _ _ l hl64, pMask_getLsbD _ _ hl64, pMask_getLsbD _ _ hl64]

/-- Predicate logic without an active lane has no effect. -/
theorem predLogic_of_inactive {s : State} {x : Cur} {p : P} (h : Runs s x [] []) (ha : active x p = 0) (two : Bool)
    (f : Mask → Mask → Mask) : predLogic p s two f = .next (retire s x 2) := by
  rw [predLogic, laneWord_of_inactive h ha]

/-! ## Predicate reductions (R352) -/

theorem boolWord_ne_zero (m : Mask) : boolWord (m != 0) = if m = 0 then 0 else 1 := by
  by_cases h : m = 0 <;> simp [boolWord, h]

theorem boolWord_eq (m e : Mask) : boolWord (m == e) = if m = e then 1 else 0 := by
  simp [boolWord]

theorem exec_pany (p : P) (s : State) : exec (.pany p) s = predReduce p s fun _ m => boolWord (m != 0) := rfl
theorem exec_pall (p : P) (s : State) : exec (.pall p) s = predReduce p s fun e m => boolWord (m == e) := rfl

/-- Each predicate reduction is the shared form with the function of the table. -/
theorem exec_of_reduceFn {i : Instr} {p : P} {f : Mask → Mask → DWord} (h : reduceFn i = some (p, f)) (s : State) :
    exec i s = predReduce p s f := by
  unfold reduceFn at h
  split at h
  · cases h; simp only [exec_pany, boolWord_ne_zero]
  · cases h; simp only [exec_pall, boolWord_eq]
  · cases h; rfl
  · cases h

/-- A predicate reduction writes its result from EXEC and the predicate within it to s(D). -/
theorem predReduce_writes {s : State} {x : Cur} {p : P} (f : Mask → Mask → DWord) (h : Runs s x [] [p.d.toNat])
    (hg : guarded p = false) (hf : fieldsOk p { d := true, a := true } = true) (hl : (isS p.d && isP p.a) = true) :
    ∃ c', predReduce p s f = .next (retire s { x with c := c' } 2) ∧
      WritesS x.c c' p.d.toNat (f x.sp.exec (x.sp.exec &&& pMask x.c p.a.toNat)) := by
  refine ⟨_, ?_, sSetFrom_nil_writes _ _ _⟩
  rw [predReduce, courseWord_of_fields h hg hf hl]

/-! ## EXEC (R41, R316, R363) -/

/-- The source of SETX: an s register, or the immediate zero-extended (R41). -/
def setxSource (x : Cur) (p : P) : DWord := if p.bk = 1 then sGet x.c p.b.toNat else BitVec.ofNat 64 (imm16 p)

/-- EXEC after SETX: the source within M, its low 32 bits where the course is no lockstep pair (R41). -/
def setxExec (x : Cur) (p : P) : Mask :=
  (if x.c.width = 64 then setxSource x p else setxSource x p &&& 0xFFFFFFFF) &&& x.sp.m

theorem setxSource_getLsbD (x : Cur) (p : P) {l : Nat} (hl : l < 64) :
    (setxSource x p).getLsbD l = if p.bk = 1 then (sGet x.c p.b.toNat).getLsbD l else (imm16 p).testBit l := by
  unfold setxSource
  split
  · rfl
  · rw [BitVec.getLsbD_ofNat]
    simp [hl]

/-- The mask of the low 32 lanes. -/
theorem low32_getLsbD (l : Nat) : (0xFFFFFFFF : DWord).getLsbD l = decide (l < 32) := by
  have h : (0xFFFFFFFF : DWord) = (BitVec.allOnes 32).setWidth 64 := by decide
  rw [h, BitVec.getLsbD_setWidth, BitVec.getLsbD_allOnes]
  have : l < 32 → l < 64 := by omega
  simpa using this

/-- EXEC after SETX, lane by lane. -/
theorem setxExec_getLsbD (x : Cur) (p : P) (l : Nat) :
    (setxExec x p).getLsbD l = (x.sp.m.getLsbD l && (x.c.width == 64 || decide (l < 32)) &&
      (if p.bk = 1 then (sGet x.c p.b.toNat).getLsbD l else (imm16 p).testBit l)) := by
  by_cases hl : l < 64
  · rw [← setxSource_getLsbD x p hl, setxExec, BitVec.getLsbD_and]
    by_cases hw : x.c.width = 64
    · simp [hw, Bool.and_comm]
    · rw [if_neg hw, BitVec.getLsbD_and, low32_getLsbD, beq_eq_false_iff_ne.mpr hw, Bool.false_or]
      ac_rfl
  · have hm : ∀ m : Mask, m.getLsbD l = false := fun m => BitVec.getLsbD_of_ge m l (by omega)
    simp [hm]

/-- SETX replaces EXEC of the running split and nothing else. -/
theorem exec_setx {s : State} {x : Cur} {p : P} (h : Runs s x [] (if p.bk = 1 then [p.b.toNat] else [])) (hg : guarded p = false)
    (hf : fieldsOk p { b := true, c := p.bk == 2, bk := true } = true) (hl : (p.bk == 2 || (p.bk == 1 && isS p.b)) = true) :
    exec (.setx p) s = .next (retire s { x with sp := { x.sp with exec := setxExec x p } } 2) := by
  show execSetx p s = _
  rw [execSetx, courseWord_of_fields h hg hf hl]
  rfl

/-- GETX writes EXEC to s(D). -/
theorem exec_getx_writes {s : State} {x : Cur} {p : P} (h : Runs s x [] [p.d.toNat]) (hg : guarded p = false)
    (hf : fieldsOk p { d := true } = true) (hl : isS p.d = true) :
    ∃ c', exec (.getx p) s = .next (retire s { x with c := c' } 2) ∧ WritesS x.c c' p.d.toNat x.sp.exec := by
  refine ⟨_, ?_, sSetFrom_nil_writes _ _ _⟩
  show execGetx p s = _
  rw [execGetx, courseWord_of_fields h hg hf hl]

/-- Settles O14, from the shared forms of predicate logic and of the reductions, and from EXEC after SETX lane by lane. -/
theorem predicates : Obligations.Predicates := by
  refine ⟨⟨?logic, ?reduce, ?idle⟩, ?setx, ?getx⟩
  case logic =>
    intro i p two op hi s x h ha hf hl
    obtain ⟨f, hop, hexec⟩ := exec_of_predFn hi
    rw [hexec]
    exact predLogic_writes hop h ha hf hl
  case reduce =>
    intro i p f hi s x h hg hf hl
    rw [exec_of_reduceFn hi]
    exact predReduce_writes f h hg hf hl
  case idle =>
    intro i p two op hi s x h ha
    obtain ⟨f, -, hexec⟩ := exec_of_predFn hi
    rw [hexec, predLogic_of_inactive h ha]
  case setx => exact fun p s x h hg hf hl => ⟨_, exec_setx h hg hf hl, setxExec_getLsbD x p⟩
  case getx => exact fun p s x h hg hf hl => exec_getx_writes h hg hf hl

end Sys2Proof.Machine
end

section
/-! SUPPORT. Poison: the tag of a register list, TRAPV of POISON, and when poison traps (R172, R221, R222). -/

namespace Sys2Proof.Machine

open Sys2Proof.Safety

/-- A lane-class word with an active lane and a field that must be 0 traps ILL FIELD (R65, R66). -/
theorem laneWord_of_badFields {s : State} {x : Cur} {p : P} {f : Free} {vr sr : List Nat} (h : Runs s x vr sr) (ha : active x p ≠ 0)
    (hf : fieldsOk p f = false) (legal : Bool) (k : Cur → Mask → State) : laneWord s p f legal vr sr k = ill s x iFIELD := by
  rw [laneWord, onWord_runs h]
  simp only [hf, if_neg ha, Bool.not_false, Bool.true_or, if_true]

/-! ## The tag of a list of registers (R222) -/

/-- Of a register that stands so far and the next poisoned one, the lower; the first where two are the same. -/
def lowerTag (a : Option (Nat × Byte)) (t : Nat × Byte) : Option (Nat × Byte) := match a with
  | some b => if t.1 < b.1 then some t else some b
  | none => some t

theorem firstTag_eq_foldl (ts : List (Nat × Byte)) :
    firstTag ts = ((ts.filter fun t => t.2 != 0).foldl lowerTag none).elim 0 (·.2) := rfl

/-- The lower of two, gathered along a list, ends at a lowest entry. -/
theorem foldl_lowerTag_lowest (ts : List (Nat × Byte)) (b : Nat × Byte) :
    ∃ m ∈ b :: ts, ts.foldl lowerTag (some b) = some m ∧ ∀ u ∈ b :: ts, m.1 ≤ u.1 := by
  induction ts generalizing b with
  | nil => exact ⟨b, by simp, rfl, by simp⟩
  | cons t ts ih =>
    by_cases h : t.1 < b.1
    · obtain ⟨m, hm, hfold, hlow⟩ := ih t
      have hmt := hlow t (by simp)
      refine ⟨m, List.mem_cons_of_mem _ hm, by simpa [lowerTag, h] using hfold, ?_⟩
      exact List.forall_mem_cons.2 ⟨by omega, hlow⟩
    · obtain ⟨m, hm, hfold, hlow⟩ := ih b
      have hmb := hlow b (by simp)
      refine ⟨m, by simp only [List.mem_cons] at hm ⊢; tauto, by simpa [lowerTag, h] using hfold, fun u hu => ?_⟩
      obtain rfl | rfl | hu : u = b ∨ u = t ∨ u ∈ ts := by simpa using hu
      · exact hmb
      · omega
      · exact hlow u (List.mem_cons_of_mem _ hu)

/-- The tag of a list: none where no register is poisoned, else that of a poisoned register below which none is. -/
theorem firstTag_cases (ts : List (Nat × Byte)) :
    ((∀ t ∈ ts, t.2 = 0) ∧ firstTag ts = 0) ∨
      ∃ m ∈ ts, m.2 ≠ 0 ∧ firstTag ts = m.2 ∧ ∀ u ∈ ts, u.2 ≠ 0 → m.1 ≤ u.1 := by
  have hmem : ∀ t, t ∈ ts.filter (fun t => t.2 != 0) ↔ t ∈ ts ∧ t.2 ≠ 0 := fun t => by simp
  rw [firstTag_eq_foldl]
  cases hf : ts.filter fun t => t.2 != 0 with
  | nil =>
    refine .inl ⟨fun t ht => ?_, rfl⟩
    by_contra h0
    exact absurd ((hmem t).2 ⟨ht, h0⟩) (by rw [hf]; exact List.not_mem_nil)
  | cons b bs =>
    rw [hf] at hmem
    obtain ⟨m, hm, hfold, hlow⟩ := foldl_lowerTag_lowest bs b
    obtain ⟨hts, hm0⟩ := (hmem m).1 hm
    refine .inr ⟨m, hts, hm0, ?_, fun u hu hu0 => hlow u ((hmem u).2 ⟨hu, hu0⟩)⟩
    show (bs.foldl lowerTag (some b)).elim 0 (·.2) = m.2
    rw [hfold, Option.elim_some]

theorem firstTag_eq_zero_iff (ts : List (Nat × Byte)) : firstTag ts = 0 ↔ ∀ t ∈ ts, t.2 = 0 := by
  obtain ⟨hz, h0⟩ | ⟨m, hm, hm0, hfirst, -⟩ := firstTag_cases ts
  · exact iff_of_true h0 hz
  · exact iff_of_false (hfirst ▸ hm0) fun h => hm0 (h m hm)

/-- The tag of a list is that of its lowest poisoned register. -/
theorem firstTag_eq_of_lowest {ts : List (Nat × Byte)} {t : Nat × Byte} (ht : t ∈ ts) (ht0 : t.2 ≠ 0)
    (hlow : ∀ u ∈ ts, u.2 ≠ 0 → u ≠ t → t.1 < u.1) : firstTag ts = t.2 := by
  obtain ⟨hz, -⟩ | ⟨m, hm, hm0, hfirst, hmlow⟩ := firstTag_cases ts
  · exact absurd (hz t ht) ht0
  · by_cases hmt : m = t
    · rw [hfirst, hmt]
    · exact absurd (hlow m hm hm0 hmt) (by have := hmlow t ht ht0; omega)

/-! ## TRAPV of POISON (R172) -/

/-- The lanes half of TRAPV is the half that holds the lowest lane named. -/
theorem lanesHalf_of_lowest {m : Mask} {l : Nat} (hl : m.getLsbD l = true) (hlow : ∀ i, i < l → m.getLsbD i = false) :
    lanesHalf m = (if 32 ≤ l then m.toNat / 2 ^ 32 else m.toNat % 2 ^ 32, decide (32 ≤ l)) := by
  have hbit : m.toNat.testBit l = true := hl
  have hclear : ∀ i, i < l → m.toNat.testBit i = false := hlow
  by_cases h : 32 ≤ l
  · have hlo : m.toNat % 2 ^ 32 = 0 := Nat.zero_of_testBit_eq_false fun i => by
      rw [Nat.testBit_mod_two_pow]
      by_cases hi : i < 32
      · simp [hclear i (by omega)]
      · simp [hi]
    have hm : m.toNat ≠ 0 := fun h0 => by simp [h0] at hbit
    simp only [lanesHalf, hlo, h, hm, ne_eq, not_true_eq_false, not_false_eq_true, if_true, if_false, decide_true]
  · have hlo : m.toNat % 2 ^ 32 ≠ 0 := fun h0 => by
      have hbit' := Nat.testBit_mod_two_pow m.toNat 32 l
      rw [h0, hbit] at hbit'
      simp [h] at hbit'
    simp only [lanesHalf, h, hlo, ne_eq, not_false_eq_true, if_true, if_false, decide_false]

theorem toNat_poisonValue {m : Mask} {l : Nat} (hl : m.getLsbD l = true) (hlow : ∀ i, i < l → m.getLsbD i = false) (t : Byte) :
    (poisonValue m t.toNat).toNat = 2 ^ 32 * (if 32 ≤ l then m.toNat / 2 ^ 32 else m.toNat % 2 ^ 32) +
      ((if 32 ≤ l then 256 else 0) + t.toNat) := by
  have hm : m.toNat < 2 ^ 64 := m.isLt
  have ht : t.toNat < 256 := t.isLt
  rw [poisonValue, lanesHalf_of_lowest hl hlow]
  simp only [BitVec.toNat_ofNat, decide_eq_true_eq]
  by_cases h : 32 ≤ l <;> simp only [h, if_true, if_false] <;> omega

/-- TRAPV of POISON by its fields, from the lowest lane named. -/
theorem poisonValue_fields {m : Mask} {l : Nat} (hl : m.getLsbD l = true) (hlow : ∀ i, i < l → m.getLsbD i = false) (t : Byte) :
    let v := poisonValue m t.toNat
    v.extractLsb' 0 8 = t ∧ v.getLsbD 8 = decide (32 ≤ l) ∧ v.extractLsb' 9 23 = 0 ∧
      ∀ k, k < 32 → v.getLsbD (32 + k) = m.getLsbD (if 32 ≤ l then 32 + k else k) := by
  have ht : t.toNat < 256 := t.isLt
  have hv := toNat_poisonValue hl hlow t
  generalize poisonValue m t.toNat = v at hv
  have hbit : ∀ k, v.getLsbD k = v.toNat.testBit k := fun _ => rfl
  have hrest : (if 32 ≤ l then 256 else 0) + t.toNat < 2 ^ 32 := by split <;> omega
  refine ⟨?reason, ?half, ?zero, fun k hk => ?lanes⟩
  case reason =>
    apply BitVec.eq_of_toNat_eq
    rw [BitVec.extractLsb'_toNat, hv]
    split <;> omega
  case half =>
    rw [hbit, Nat.testBit_eq_decide_div_mod_eq, hv, decide_eq_decide]
    split <;> omega
  case zero =>
    apply BitVec.eq_of_toNat_eq
    rw [BitVec.extractLsb'_toNat, hv, Nat.shiftRight_eq_div_pow]
    show _ = 0
    split <;> omega
  case lanes =>
    rw [hbit, hv, Nat.testBit_two_pow_mul_add _ hrest, if_neg (by omega), Nat.add_sub_cancel_left]
    split
    · rw [Nat.testBit_div_two_pow, Nat.add_comm]; rfl
    · rw [Nat.testBit_mod_two_pow, decide_eq_true hk, Bool.true_and]; rfl

/-! ## When poison traps (R222) -/

theorem poison?_eq_none_iff (ts : List (Nat × Byte)) : poison? ts = none ↔ ∀ t ∈ ts, t.2 = 0 := by
  unfold poison?
  cases hf : ts.find? fun t => t.2 != 0 with
  | none => simpa using hf
  | some t => simpa using ⟨t.1, t.2, List.mem_of_find?_eq_some hf, by simpa using List.find?_some hf⟩

/-- The lanes that the tags of poison name. -/
def poisonLanes (ts : List (Nat × Byte)) : Mask := maskOf 64 fun l => ts.any fun u => u.1 == l && u.2 != 0

theorem poisonLanes_getLsbD (ts : List (Nat × Byte)) {l : Nat} (hl : l < 64) :
    (poisonLanes ts).getLsbD l = true ↔ ∃ u ∈ ts, u.1 = l ∧ u.2 ≠ 0 := by
  rw [poisonLanes, maskOf_getLsbD _ _ _ hl]
  simp [hl]

theorem poison?_eq_of_first {ts pre post : List (Nat × Byte)} {l : Nat} {t : Byte} (e : ts = pre ++ (l, t) :: post)
    (hpre : ∀ u ∈ pre, u.2 = 0) (ht : t ≠ 0) : poison? ts = some (poisonValue (poisonLanes ts) t.toNat) := by
  have hfind : ts.find? (fun u => u.2 != 0) = some (l, t) :=
    List.find?_eq_some_iff_append.2 ⟨by simpa using ht, pre, post, e, fun u hu => by simp [hpre u hu]⟩
  rw [poison?, hfind]
  rfl

/-- The value of a poison trap, from one tag for each of some lanes in order. -/
theorem poisonWord_of_poison? {ts : List (Nat × Byte)} {v : DWord} (hv : poison? ts = some v)
    (hord : (ts.map (·.1)).Pairwise (· < ·)) (hlt : ∀ u ∈ ts, u.1 < 64) : PoisonWord v ts := by
  intro pre l t post e hpre ht
  have hmem : (l, t) ∈ ts := e ▸ List.mem_append_cons_self
  have hl64 : l < 64 := hlt _ hmem
  have hlow : ∀ i, i < l → (poisonLanes ts).getLsbD i = false := fun i hi => by
    rw [Bool.eq_false_iff, ne_eq, poisonLanes_getLsbD ts (by omega)]
    rintro ⟨u, hu, rfl, hu0⟩
    rw [e, List.map_append, List.map_cons, List.pairwise_append, List.pairwise_cons] at hord
    obtain ⟨-, ⟨hpost, -⟩, -⟩ := hord
    rw [e, List.mem_append, List.mem_cons] at hu
    obtain hu | rfl | hu := hu
    · exact hu0 (hpre u hu)
    · exact absurd hi (lt_irrefl _)
    · exact absurd (hpost u.1 (List.mem_map_of_mem hu)) (by omega)
  rw [poison?_eq_of_first e hpre ht, Option.some.injEq] at hv
  subst hv
  obtain ⟨hreason, hhalf, hzero, hlanes⟩ := poisonValue_fields ((poisonLanes_getLsbD ts hl64).2 ⟨_, hmem, rfl, ht⟩) hlow t
  refine ⟨hreason, hhalf, hzero, fun k hk => ?_⟩
  rw [hlanes k hk, poisonLanes_getLsbD ts (by split <;> omega)]

end Sys2Proof.Machine
end

section
/-! PROOF. CHK (R172, R222, R304). -/

namespace Sys2Proof.Machine

open Sys2Proof.Safety

/-! ## The tag of a lane's window -/

/-- The tag of a lane's window of n registers from a: that of its lowest poisoned register (R222). -/
def windowTag (c : Course) (a n l : Nat) : Byte := firstTag ((List.range n).map fun j => (j, (vGet c (a + j) l).tag))

theorem windowTag_ne_zero_iff (c : Course) (a n l : Nat) :
    windowTag c a n l ≠ 0 ↔ ∃ j, j < n ∧ (vGet c (a + j) l).tag ≠ 0 := by
  rw [windowTag, ne_eq, firstTag_eq_zero_iff]
  simp

theorem windowTag_eq_of_lowest {c : Course} {a n l j : Nat} (hj : j < n) (hj0 : (vGet c (a + j) l).tag ≠ 0)
    (hlow : ∀ i, i < j → (vGet c (a + i) l).tag = 0) : windowTag c a n l = (vGet c (a + j) l).tag := by
  refine firstTag_eq_of_lowest (t := (j, _)) (List.mem_map.2 ⟨j, List.mem_range.2 hj, rfl⟩) hj0 fun u hu hu0 hne => ?_
  obtain ⟨i, -, rfl⟩ := List.mem_map.1 hu
  have hij : i ≠ j := fun h => hne (by rw [h])
  have hge : ¬ i < j := fun h => hu0 (hlow i h)
  show j < i
  omega

/-! ## The lanes that CHK tests (R304) -/

/-- The lane and its window's tag, for each active lane. -/
def chkTags (x : Cur) (p : P) (fn : BitVec 4) : List (Nat × Byte) :=
  (lanesOf (active x p) x.c.width).map fun l => (l, windowTag x.c p.a.toNat (fn.toNat + 1) l)

/-- An active lane with a poisoned register in its window. -/
def PoisonedLane (x : Cur) (p : P) (fn : BitVec 4) (l : Nat) : Prop :=
  l < x.c.width ∧ (active x p).getLsbD l = true ∧ ∃ j, j ≤ fn.toNat ∧ (vGet x.c (p.a.toNat + j) l).tag ≠ 0

theorem poisonedLane_iff (x : Cur) (p : P) (fn : BitVec 4) (l : Nat) : PoisonedLane x p fn l ↔
    (l < x.c.width ∧ (active x p).getLsbD l = true) ∧ windowTag x.c p.a.toNat (fn.toNat + 1) l ≠ 0 := by
  simp only [PoisonedLane, windowTag_ne_zero_iff, Nat.lt_succ_iff, and_assoc]

theorem mem_chkTags (x : Cur) (p : P) (fn : BitVec 4) (u : Nat × Byte) : u ∈ chkTags x p fn ↔
    (u.1 < x.c.width ∧ (active x p).getLsbD u.1 = true) ∧ windowTag x.c p.a.toNat (fn.toNat + 1) u.1 = u.2 := by
  obtain ⟨l, t⟩ := u
  simp only [chkTags, List.mem_map, lanesOf_mem, Prod.mk.injEq]
  constructor
  · rintro ⟨a, ha, rfl, ht⟩
    exact ⟨ha, ht⟩
  · exact fun ⟨hl, ht⟩ => ⟨l, hl, rfl, ht⟩

theorem exists_mem_chkTags_iff (x : Cur) (p : P) (fn : BitVec 4) (l : Nat) :
    (∃ u ∈ chkTags x p fn, u.1 = l ∧ u.2 ≠ 0) ↔ PoisonedLane x p fn l := by
  simp only [mem_chkTags, poisonedLane_iff]
  constructor
  · rintro ⟨u, ⟨hl, ht⟩, rfl, h0⟩
    exact ⟨hl, ht ▸ h0⟩
  · exact fun ⟨hl, h0⟩ => ⟨(l, _), ⟨hl, rfl⟩, rfl, h0⟩

theorem chkTags_ordered (x : Cur) (p : P) (fn : BitVec 4) : ((chkTags x p fn).map (·.1)).Pairwise (· < ·) := by
  have h : (chkTags x p fn).map (·.1) = lanesOf (active x p) x.c.width := by simp [chkTags, Function.comp_def]
  rw [h]
  exact List.pairwise_lt_range.filter _

theorem poison?_chkTags_of_clean {x : Cur} {p : P} {fn : BitVec 4} (h : ∀ l, ¬ PoisonedLane x p fn l) :
    poison? (chkTags x p fn) = none :=
  (poison?_eq_none_iff _).2 fun u hu => by
    by_contra hu0
    exact h u.1 ((exists_mem_chkTags_iff x p fn u.1).1 ⟨u, hu, rfl, hu0⟩)

/-- The tags stand in lane order, so those before the lowest poisoned lane's are clear. -/
theorem chkTags_split_of_lowest {x : Cur} {p : P} {fn : BitVec 4} {l : Nat} (hl : PoisonedLane x p fn l)
    (hlow : ∀ m, m < l → ¬ PoisonedLane x p fn m) :
    ∃ pre post, chkTags x p fn = pre ++ (l, windowTag x.c p.a.toNat (fn.toNat + 1) l) :: post ∧ ∀ u ∈ pre, u.2 = 0 := by
  obtain ⟨pre, post, e⟩ := List.append_of_mem
    ((mem_chkTags x p fn (l, windowTag x.c p.a.toNat (fn.toNat + 1) l)).2 ⟨((poisonedLane_iff x p fn l).1 hl).1, rfl⟩)
  refine ⟨pre, post, e, fun u hu => ?_⟩
  have hord := chkTags_ordered x p fn
  rw [e, List.map_append, List.pairwise_append] at hord
  obtain ⟨-, -, hcross⟩ := hord
  have hlt : u.1 < l := hcross u.1 (List.mem_map_of_mem hu) l List.mem_cons_self
  by_contra hu0
  exact hlow u.1 hlt ((exists_mem_chkTags_iff x p fn u.1).1 ⟨u, e ▸ List.mem_append_left _ hu, rfl, hu0⟩)

/-- The value of CHK's trap, from the lowest poisoned lane and that lane's lowest poisoned register. -/
theorem poison?_chkTags_of_lowest {x : Cur} {p : P} {fn : BitVec 4} {l j : Nat} (hl : PoisonedLane x p fn l)
    (hlow : ∀ m, m < l → ¬ PoisonedLane x p fn m) (hj : j ≤ fn.toNat) (hj0 : (vGet x.c (p.a.toNat + j) l).tag ≠ 0)
    (hjlow : ∀ i, i < j → (vGet x.c (p.a.toNat + i) l).tag = 0) (hw : x.c.width ≤ 64) :
    ∃ v, poison? (chkTags x p fn) = some v ∧ v.extractLsb' 0 8 = (vGet x.c (p.a.toNat + j) l).tag ∧
      v.getLsbD 8 = decide (32 ≤ l) ∧ v.extractLsb' 9 23 = 0 ∧
      ∀ k, k < 32 → (v.getLsbD (32 + k) = true ↔ PoisonedLane x p fn (if 32 ≤ l then 32 + k else k)) := by
  obtain ⟨pre, post, e, hpre⟩ := chkTags_split_of_lowest hl hlow
  rw [windowTag_eq_of_lowest (Nat.lt_succ_of_le hj) hj0 hjlow] at e
  have hv := poison?_eq_of_first e hpre hj0
  have hlt : ∀ u ∈ chkTags x p fn, u.1 < 64 := fun u hu => lt_of_lt_of_le ((mem_chkTags x p fn u).1 hu).1.1 hw
  obtain ⟨hreason, hhalf, hzero, hlanes⟩ := poisonWord_of_poison? hv (chkTags_ordered x p fn) hlt pre l _ post e hpre hj0
  exact ⟨_, hv, hreason, hhalf, hzero, fun k hk => (hlanes k hk).trans (exists_mem_chkTags_iff x p fn _)⟩

/-! ## The word -/

section
variable {p : P} {fn : BitVec 4} {s : State} {x : Cur}
  (h : Runs s x ((List.range (fn.toNat + 1)).map (p.a.toNat + ·)) [])
include h

theorem exec_chk_of_inactive (ha : active x p = 0) : exec (.chk p fn) s = .next (retire s x 2) := by
  show execChk p fn s = _
  rw [execChk, laneWord_of_inactive h ha]

theorem exec_chk_of_badFields (ha : active x p ≠ 0) (hf : fieldsOk p { a := true } = false) :
    exec (.chk p fn) s = .next (ill s x iFIELD) := by
  show execChk p fn s = _
  rw [execChk, laneWord_of_badFields h ha hf]

theorem exec_chk_of_badWindow (ha : active x p ≠ 0) (hf : fieldsOk p { a := true } = true)
    (hwin : windowOk x p.a.toNat (fn.toNat + 1) = false) : exec (.chk p fn) s = .next (ill s x iREGRANGE) := by
  show execChk p fn s = _
  rw [execChk, laneWord_of_active h ha hf rfl, hwin]
  rfl

/-- A CHK that passes its checks traps on the tags of its active lanes, or does nothing. -/
theorem exec_chk_of_checked (ha : active x p ≠ 0) (hf : fieldsOk p { a := true } = true)
    (hwin : windowOk x p.a.toNat (fn.toNat + 1) = true) :
    exec (.chk p fn) s = .next ((poison? (chkTags x p fn)).elim (retire s x 2) (trap s x cPOISON)) := by
  show execChk p fn s = _
  rw [execChk, laneWord_of_active h ha hf rfl, hwin]
  show Host.Outcome.next (match poison? (chkTags x p fn) with
    | some v => trap s x cPOISON v
    | none => retire s x 2) = _
  cases poison? (chkTags x p fn) <;> rfl

end

/-- Settles O18, from the order of CHK's checks and from the fields of its trap value. -/
theorem poisonCheck : Obligations.PoisonCheck := by
  intro p fn s x h bad
  refine ⟨exec_chk_of_inactive h, exec_chk_of_badFields h, exec_chk_of_badWindow h, fun ha hf hwin => ?_⟩
  rw [exec_chk_of_checked h ha hf hwin]
  constructor
  case left =>
    intro hclean
    rw [poison?_chkTags_of_clean hclean, Option.elim_none]
  case right =>
    intro l j hl hlow hj hj0 hjlow hw
    obtain ⟨v, hv, hfields⟩ := poison?_chkTags_of_lowest hl hlow hj hj0 hjlow hw
    exact ⟨v, by rw [hv, Option.elim_some], hfields⟩

end Sys2Proof.Machine
end

section
/-! SUPPORT. What a V instruction writes: lanes of a register, one result per lane, and its window's checks (R48, R82, R83, R378, R379). -/

namespace Sys2Proof.Machine

open Sys2Proof.Safety

/-! ## Lanes of a register (R378) -/

/-- A course changed in vector registers alone. -/
def OnlyV (c c' : Course) : Prop := c' = { c with v := c'.v }

theorem OnlyV.refl (c : Course) : OnlyV c c := rfl

theorem OnlyV.trans {a b c : Course} (hab : OnlyV a b) (hbc : OnlyV b c) : OnlyV a c := by
  unfold OnlyV at *
  rw [hbc, hab]

theorem vSet_only (c : Course) (r l : Nat) (v : LaneVal) : OnlyV c (vSet c r l v) := rfl

/-- A fold whose steps each change vector registers alone does so as a whole. -/
theorem foldl_only {α : Type} {f : Course → α → Course} (hf : ∀ c a, OnlyV c (f c a)) (as : List α) (c : Course) :
    OnlyV c (as.foldl f c) := by
  induction as generalizing c with
  | nil => exact OnlyV.refl c
  | cons a as ih => exact (hf c a).trans (ih _)

theorem writeLanes_only (c : Course) (r : Nat) (outs : List (Nat × LaneVal)) : OnlyV c (writeLanes c r outs) :=
  foldl_only (fun c _ => vSet_only c _ _ _) outs c

/-- A write of one value per lane, read back. -/
theorem vGet_writeLanes (f : Nat → LaneVal) {ls : List Nat} (hls : ∀ l ∈ ls, l < 64) (c : Course) (d r : Nat) {l : Nat} (hl : l < 64) :
    vGet (writeLanes c d (ls.map fun i => (i, f i))) r l = if r = d ∧ l ∈ ls then f l else vGet c r l := by
  induction ls generalizing c with
  | nil => simp [writeLanes]
  | cons i is ih =>
    obtain ⟨hi, his⟩ := List.forall_mem_cons.1 hls
    have hstep : writeLanes c d ((i :: is).map fun i => (i, f i)) = writeLanes (vSet c d i (f i)) d (is.map fun i => (i, f i)) := rfl
    rw [hstep, ih his, vGet_vSet c d i r l (f i) hi hl]
    by_cases hr : r = d
    · by_cases hli : l = i
      · simp [hr, hli]
      · simp [hr, hli]
    · simp [hr]

theorem lt_of_mem_lanesOf {m : Mask} {width l : Nat} (h : l ∈ lanesOf m width) : l < 64 := by
  by_contra hge
  have hbit := ((lanesOf_mem m width l).1 h).2
  rw [BitVec.getLsbD_of_ge m l (by omega)] at hbit
  exact Bool.false_ne_true hbit

/-! ## Flags (R82, R83) -/

/-- Lanes that raise no flag raise none together. -/
theorem outFlags_eq_zero {outs : List LaneOut} (h : ∀ o ∈ outs, o.fl = 0) : outFlags outs = 0 := by
  unfold outFlags
  induction outs with
  | nil => rfl
  | cons o os ih =>
    obtain ⟨ho, hos⟩ := List.forall_mem_cons.1 h
    simpa [ho] using ih hos

/-- Without a flag raised there is no FPX. -/
theorem fpx?_eq_none {outs : List LaneOut} (h : ∀ o ∈ outs, o.fl = 0) (c : Course) : fpx? c outs = none := by
  simp [fpx?, outFlags_eq_zero h]

/-! ## A V instruction that writes one result per active lane -/

/-- The outcome of a lane among outcomes made lane by lane. -/
theorem find?_lane {out : Nat → LaneOut} (hlane : ∀ l, (out l).lane = l) (ls : List Nat) (l : Nat) :
    (ls.map out).find? (fun o => o.lane == l) = if l ∈ ls then some (out l) else none := by
  induction ls with
  | nil => rfl
  | cons i is ih =>
    rw [List.map_cons, List.find?_cons, hlane i, ih]
    by_cases hi : i = l
    · simp [hi]
    · simp [beq_false_of_ne hi, Ne.symm hi]

/-- The parts after a V instruction has popped its sources, written its outcomes and raised their flags. -/
def written (x : Cur) (d w : Nat) (reads : List Nat) (outs : List LaneOut) : Cur :=
  let y := writeResult { x with con := popQueues x.con (qWidth x.c) reads } w d (outs.map fun o => (o.lane, o.val, o.tag))
  { y with c := raise y.c (outFlags outs) }

/-- Each outcome as the value of its lane. -/
theorem map_laneLo (outs : List LaneOut) :
    (outs.map fun o => (o.lane, o.val, o.tag)).map (fun o => (o.1, (⟨if o.2.2 = 0 then BitVec.ofNat 32 o.2.1 else 0, o.2.2⟩ : LaneVal))) =
      outs.map fun o => (o.lane, laneLo o) := by
  simp [laneLo]

theorem map_laneHi (outs : List LaneOut) :
    (outs.map fun o => (o.lane, o.val, o.tag)).map
        (fun o => (o.1, (⟨if o.2.2 = 0 then BitVec.ofNat 32 (o.2.1 / 2 ^ 32) else 0, o.2.2⟩ : LaneVal))) =
      outs.map fun o => (o.lane, laneHi o) := by
  simp [laneHi]

/-- Outcomes to a queue register enter the queue. -/
theorem written_of_queue (x : Cur) {d : Nat} (hd : 248 ≤ d) (w : Nat) (reads : List Nat) (outs : List LaneOut) :
    written x d w reads outs = { x with
      con := pushQueue (popQueues x.con (qWidth x.c) reads) (d - 248) (pushTurn x) x.c.width (outs.map fun o => (o.lane, laneLo o))
      c := raise x.c (outFlags outs) } := by
  simp only [written, writeResult, if_pos hd, map_laneLo]
  rfl

/-- Outcomes to a vector register are written to it, or to its aligned pair. -/
theorem written_of_register (x : Cur) {d : Nat} (hd : d < 248) (w : Nat) (reads : List Nat) (outs : List LaneOut) :
    written x d w reads outs = { x with
      con := popQueues x.con (qWidth x.c) reads
      c := raise (if w = 64 then
          writeLanes (writeLanes x.c d (outs.map fun o => (o.lane, laneLo o))) (d + 1) (outs.map fun o => (o.lane, laneHi o))
        else writeLanes x.c d (outs.map fun o => (o.lane, laneLo o))) (outFlags outs) } := by
  simp only [written, writeResult, if_neg (Nat.not_le.2 hd), map_laneLo, map_laneHi]

/-- Flags raised over a change of vector registers. -/
theorem raise_of_onlyV {c c' : Course} (h : OnlyV c c') (f : Flags) :
    raise c' f = { c with v := (raise c' f).v, nstat := c.nstat ||| f.setWidth 64 } := by
  rw [h]
  rfl

theorem vGet_raise (c : Course) (f : Flags) (r l : Nat) : vGet (raise c f) r l = vGet c r l := rfl

/-- Outcomes made lane by lane leave what R378 says. -/
theorem written_writes (x : Cur) (d w : Nat) (reads : List Nat) {out : Nat → LaneOut} (hlane : ∀ l, (out l).lane = l) {ls : List Nat}
    (hls : ∀ l ∈ ls, l < 64) : WritesV x (written x d w reads (ls.map out)) d w reads (ls.map out) := by
  have hpair : ∀ f : LaneOut → LaneVal, ((ls.map out).map fun o => (o.lane, f o)) = ls.map fun l => (l, f (out l)) := fun f => by
    simp [Function.comp_def, hlane]
  by_cases hd : d < 248
  · rw [written_of_register x hd, hpair, hpair]
    refine ⟨rfl, raise_of_onlyV ?only _, fun _ => ⟨rfl, fun r l hl => ?reg⟩, fun hq => absurd hd (Nat.not_lt.2 hq)⟩
    case only =>
      split
      · exact (writeLanes_only x.c d _).trans (writeLanes_only _ (d + 1) _)
      · exact writeLanes_only x.c d _
    case reg =>
      rw [find?_lane hlane, vGet_raise]
      by_cases hw : w = 64
      · rw [if_pos hw, vGet_writeLanes _ hls _ _ _ hl, vGet_writeLanes _ hls _ _ _ hl]
        by_cases hl' : l ∈ ls
        · by_cases hr : r = d <;> simp [hl', hr, hw]
        · simp [hl']
      · rw [if_neg hw, vGet_writeLanes _ hls _ _ _ hl]
        by_cases hl' : l ∈ ls <;> simp [hl', hw]
  · have hq : 248 ≤ d := Nat.not_lt.1 hd
    rw [written_of_queue x hq]
    exact ⟨rfl, raise_of_onlyV (OnlyV.refl _) _, fun h => absurd h hd, fun _ => ⟨rfl, rfl⟩⟩

/-- A V instruction with an active lane, a legal form, queues ready and no enabled flag raised writes an outcome for each active
lane. -/
theorem vecRun_writes {s : State} {x : Cur} {p : P} {f : Form} {reads : List Nat} {d w : Nat} {g : Cur → List Nat → List LaneOut}
    {out : Nat → LaneOut} (hr : Runs s x (vregsOf f.regs) (bScalar p)) (ha : active x p ≠ 0) (hf : formErr s x p f = none)
    (hq : queuesReady x reads (some d) = true)
    (hg : g x (lanesOf (active x p) x.c.width) = (lanesOf (active x p) x.c.width).map out) (hlane : ∀ l, (out l).lane = l)
    (hx : fpx? x.c ((lanesOf (active x p) x.c.width).map out) = none) :
    ∃ x', vecRun s p f reads d w g = retire s x' 2 ∧ WritesV x x' d w reads ((lanesOf (active x p) x.c.width).map out) := by
  refine ⟨written x d w reads ((lanesOf (active x p) x.c.width).map out), ?_, written_writes x d w reads hlane fun l => lt_of_mem_lanesOf⟩
  rw [vecRun, vecWrite, onWord_runs hr]
  simp only [if_neg ha, hf, hq, hg, hx, Bool.not_true, Bool.false_eq_true, if_false]
  rfl

/-! ## Words that run, and the checks of a form (R38, R379) -/

/-- A word that may run may run with fewer registers named. -/
theorem runs_of_subset {s : State} {x : Cur} {vs vs' ss : List Nat} (h : Runs s x vs ss) (hsub : ∀ r ∈ vs', r ∈ vs) :
    Runs s x vs' ss := by
  refine ⟨h.cur, h.free, ?_, h.alone⟩
  have hclear := h.clear
  simp only [interlocked, List.any_eq_false, Bool.or_eq_true, List.any_eq_true, List.contains_iff_mem, not_or, not_exists, not_and] at hclear ⊢
  exact fun pw hpw => ⟨fun r hr hmem => (hclear pw hpw).1 r hr (hsub r hmem), (hclear pw hpw).2⟩

/-- Registers each read or written as a lane are named once. -/
theorem vregsOf_lanes (rs : List Nat) : vregsOf (rs.map fun r => (r, 32)) = rs := by
  simp [vregsOf, List.flatMap_map]

/-- A check of the instruction's own that fails is a field violation. -/
theorem formErr_of_not_other {f : Form} (h : f.other = false) (s : State) (x : Cur) (p : P) : formErr s x p f = some iFIELD := by
  simp [formErr, h]

/-- A check that does not stop one run of checks does not stop another. -/
theorem ite_of_none {c : Prop} [Decidable c] {sub : Nat} {a : Option Nat} (h : (if c then some sub else a) = none) (b : Option Nat) :
    (if c then some sub else b) = b := by
  refine if_neg fun hc => ?_
  rw [if_pos hc] at h
  cases h

/-- The register checks of a form whose fields pass and whose registers are each a lane. -/
theorem formErr_of_lanes {s : State} {x : Cur} {p : P} {f : Form} (hf : formErr s x p { f with regs := [] } = none)
    (h32 : ∀ r ∈ f.regs, r.2 = 32) :
    formErr s x p f = if ∃ r ∈ f.regs, r.1 < 248 ∧ allocated x.con ≤ r.1 then some iREGRANGE else none := by
  have hpair : f.regs.any (fun r => r.2 == 64 && (r.1 % 2 == 1 || decide (248 ≤ r.1))) = false := by
    simp only [List.any_eq_false, Bool.and_eq_true, beq_iff_eq]
    exact fun r hr h => absurd ((h32 r hr).symm.trans h.1) (by decide)
  have hrange : f.regs.any (fun r => decide (r.1 < 248) && decide (allocated x.con ≤ r.1 + (if r.2 = 64 then 1 else 0))) =
      decide (∃ r ∈ f.regs, r.1 < 248 ∧ allocated x.con ≤ r.1) := by
    rw [Bool.eq_iff_iff, List.any_eq_true, decide_eq_true_iff]
    refine exists_congr fun r => and_congr_right fun hr => ?_
    simp [h32 r hr]
  unfold formErr at hf ⊢
  refine (ite_of_none hf _).trans ?_
  simp only [hpair, hrange, decide_eq_true_eq, Bool.false_eq_true, if_false]

end Sys2Proof.Machine
end

section
/-! PROOF. VPACK and VUNPK (R395, R402). -/

namespace Sys2Proof.Machine

open Sys2Proof.Safety

/-! ## Elements of a packed word (R77) -/

/-- Element j of a word packed of low bits is the low bits of value j. -/
theorem bits_of_packed {α : Type} (f : α → Nat) (e : Nat) (vs : List α) {j : Nat} (hj : j < vs.length) :
    bits (vs.foldr (fun v acc => acc * 2 ^ e + f v % 2 ^ e) 0) (e * j) e = f vs[j] % 2 ^ e := by
  have he : 0 < 2 ^ e := Nat.two_pow_pos e
  induction vs generalizing j with
  | nil => exact absurd hj (Nat.not_lt_zero j)
  | cons v vs ih =>
    rw [List.foldr_cons]
    cases j with
    | zero => simp [bits, Nat.add_mod]
    | succ j =>
      have hlow : ∀ acc, (acc * 2 ^ e + f v % 2 ^ e) / 2 ^ e = acc := fun acc => by
        rw [Nat.add_comm, Nat.add_mul_div_right _ _ he, Nat.div_eq_of_lt (Nat.mod_lt _ he), Nat.zero_add]
      rw [List.getElem_cons_succ, ← ih (Nat.lt_of_succ_lt_succ hj)]
      simp only [bits, Nat.shiftRight_eq_div_pow, Nat.mul_succ, Nat.add_comm (e * j) e, Nat.pow_add, ← Nat.div_div_eq_div_mul, hlow]

/-! ## VPACK (R395) -/

/-- The form of VPACK. -/
def packForm (p : P) : Form := { stdForm p packTypes false false 0 false false with
  other := decide (p.a.toNat < 248), regs := (p.d.toNat, 32) :: (window p.a.toNat (32 / tyBits p.ty.toNat)).map fun r => (r, 32) }

/-- The outcome of VPACK in a lane: the low bits of the window's registers, and the tag of the lowest poisoned one. -/
def packedLane (p : P) (c : Course) (l : Nat) : LaneOut :=
  let win := window p.a.toNat (32 / tyBits p.ty.toNat)
  ⟨l, (win.map fun r => vGet c r l).foldr (fun v acc => acc * 2 ^ tyBits p.ty.toNat + v.val.toNat % 2 ^ tyBits p.ty.toNat) 0, 0,
    firstTag (win.map fun r => (r, (vGet c r l).tag))⟩

theorem packedLane_bits (p : P) (c : Course) (l : Nat) {j : Nat} (hj : j < 32 / tyBits p.ty.toNat) :
    bits (packedLane p c l).val (tyBits p.ty.toNat * j) (tyBits p.ty.toNat) =
      (vVal c (p.a.toNat + j) l).toNat % 2 ^ tyBits p.ty.toNat := by
  have hlen : j < ((window p.a.toNat (32 / tyBits p.ty.toNat)).map fun r => vGet c r l).length := by simpa [window] using hj
  rw [packedLane, bits_of_packed (fun v : LaneVal => v.val.toNat) _ _ hlen]
  simp [window, vVal]

/-- VPACK whose window ends by v247 is a V instruction with the outcomes of its lanes. -/
theorem exec_vpack {p : P} (hwin : p.a.toNat + 32 / tyBits p.ty.toNat ≤ 248) (s : State) :
    exec (.vpack p) s = .next (vecRun s p (packForm p) [] p.d.toNat 32 fun x ls => ls.map (packedLane p x.c)) :=
  congrArg Host.Outcome.next (if_neg fun h => absurd h.2 (Nat.not_lt.2 hwin))

/-! ## VUNPK (R402) -/

/-- The form of VUNPK. -/
def unpackForm (p : P) : Form := { stdForm p packTypes false false 0 false false with
  other := decide (p.d.toNat < 248)
  regs := (p.a.toNat, 32) :: ((window p.d.toNat (32 / tyBits p.ty.toNat)).filter fun r => decide (r < 248)).map fun r => (r, 32) }

/-- What VUNPK writes to a lane of the window's register j: element j of the source, or its poison. -/
def unpackedLane (x : Cur) (p : P) (j l : Nat) : LaneVal :=
  let v := srcLane x p.a.toNat l
  ⟨if v.tag = 0 then BitVec.ofNat 32 (extendLane p.ty.toNat (bits v.val.toNat (tyBits p.ty.toNat * j) (tyBits p.ty.toNat))) else 0, v.tag⟩

/-- VUNPK's write of the window's register j. -/
def unpackTo (x : Cur) (p : P) (c : Course) (j : Nat) : Course :=
  writeLanes c (p.d.toNat + j) ((lanesOf (active x p) x.c.width).map fun l => (l, unpackedLane x p j l))

/-- The course after VUNPK has written the first n registers of its window. -/
def unpacked (x : Cur) (p : P) (n : Nat) : Course := (List.range n).foldl (unpackTo x p) x.c

theorem unpacked_only (x : Cur) (p : P) (n : Nat) : OnlyV x.c (unpacked x p n) :=
  foldl_only (fun c _ => writeLanes_only c _ _) _ _

/-- The registers written hold the elements, in the active lanes; every other lane and register is as it was. -/
theorem vGet_unpacked (x : Cur) (p : P) (n r : Nat) {l : Nat} (hl : l < 64) :
    vGet (unpacked x p n) r l =
      if p.d.toNat ≤ r ∧ r < p.d.toNat + n ∧ l < x.c.width ∧ (active x p).getLsbD l = true then unpackedLane x p (r - p.d.toNat) l
      else vGet x.c r l := by
  induction n with
  | zero => exact (if_neg (by omega)).symm
  | succ n ih =>
    have hstep : unpacked x p (n + 1) = unpackTo x p (unpacked x p n) n := by
      simp [unpacked, List.range_succ]
    rw [hstep, unpackTo, vGet_writeLanes _ (fun _ => lt_of_mem_lanesOf) _ _ _ hl, ih]
    simp only [lanesOf_mem]
    by_cases hr : r = p.d.toNat + n
    · subst hr
      simp
    · have hlt : r < p.d.toNat + (n + 1) ↔ r < p.d.toNat + n := by omega
      simp [hr, hlt]

/-- A window that ends by v247 has no queue register. -/
theorem window_filter {d n : Nat} (h : d + n ≤ 248) : ((window d n).filter fun r => decide (r < 248)) = window d n := by
  rw [List.filter_eq_self]
  intro r hr
  obtain ⟨j, hj, rfl⟩ : ∃ j, j < n ∧ d + j = r := by simpa [window] using hr
  exact decide_eq_true (by omega)

theorem unpackForm_lanes (p : P) : ∀ r ∈ (unpackForm p).regs, r.2 = 32 := by
  refine List.forall_mem_cons.2 ⟨rfl, fun r hr => ?_⟩
  obtain ⟨r, -, rfl⟩ := List.mem_map.1 hr
  rfl

/-- The registers that VUNPK names below v248 are among the source and its whole window. -/
theorem vregsOf_unpackForm (p : P) : ∀ r ∈ vregsOf (unpackForm p).regs,
    r ∈ vregsOf ((p.a.toNat, 32) :: (window p.d.toNat (32 / tyBits p.ty.toNat)).map fun r => (r, 32)) := by
  have h : ∀ rs, vregsOf ((p.a.toNat, 32) :: rs.map fun r => (r, 32)) = p.a.toNat :: rs := fun rs => vregsOf_lanes (p.a.toNat :: rs)
  rw [unpackForm, h, h]
  exact List.cons_subset_cons _ (List.filter_subset_self _)

section
variable {p : P} {s : State} {x : Cur} (h : Runs s x (vregsOf (unpackForm p).regs) []) (ha : active x p ≠ 0)
include h ha

/-- VUNPK whose fields do not pass traps with their sub-code. -/
theorem exec_vunpk_of_badFields {sub : Nat} (hf : formErr s x p { unpackForm p with regs := [] } = some sub) :
    exec (.vunpk p) s = .next (ill s x sub) := by
  refine congrArg Host.Outcome.next ((onWord_runs h _).trans ?_)
  simp only [unpackForm] at hf
  simp only [if_neg ha, hf]

/-- VUNPK whose fields pass and whose registers do not traps with their sub-code. -/
theorem exec_vunpk_of_badRegisters {sub : Nat} (hf : formErr s x p { unpackForm p with regs := [] } = none)
    (hr : formErr s x p (unpackForm p) = some sub) : exec (.vunpk p) s = .next (ill s x sub) := by
  refine congrArg Host.Outcome.next ((onWord_runs h _).trans ?_)
  simp only [unpackForm] at hf hr
  simp only [if_neg ha, hf, hr]

/-- VUNPK that passes its other checks traps where its window runs beyond v247. -/
theorem exec_vunpk_of_longWindow (hf : formErr s x p { unpackForm p with regs := [] } = none)
    (hr : formErr s x p (unpackForm p) = none) (hwin : 248 < p.d.toNat + 32 / tyBits p.ty.toNat) :
    exec (.vunpk p) s = .next (ill s x iREGRANGE) := by
  refine congrArg Host.Outcome.next ((onWord_runs h _).trans ?_)
  simp only [unpackForm] at hf hr
  simp only [if_neg ha, hf, hr, if_pos hwin]

/-- VUNPK that passes its checks and finds its queue ready pops it and writes its window. -/
theorem exec_vunpk_of_checked (hf : formErr s x p { unpackForm p with regs := [] } = none) (hr : formErr s x p (unpackForm p) = none)
    (hwin : p.d.toNat + 32 / tyBits p.ty.toNat ≤ 248) (hq : queuesReady x [p.a.toNat] none = true) :
    exec (.vunpk p) s = .next (retire s { x with
      con := popQueues x.con (qWidth x.c) [p.a.toNat], c := unpacked x p (32 / tyBits p.ty.toNat) } 2) := by
  refine congrArg Host.Outcome.next ((onWord_runs h _).trans ?_)
  simp only [unpackForm] at hf hr
  simp only [if_neg ha, hf, hr, if_neg (Nat.not_lt.2 hwin), hq, Bool.not_true, Bool.false_eq_true, if_false, List.map_map]
  rfl

/-- A window of VUNPK beyond v247 or the allocation traps ILL REGRANGE. -/
theorem exec_vunpk_of_badWindow (hf : formErr s x p { unpackForm p with regs := [] } = none)
    (hwin : 248 < p.d.toNat + 32 / tyBits p.ty.toNat ∨ ∃ r ∈ window p.d.toNat (32 / tyBits p.ty.toNat), allocated x.con ≤ r) :
    exec (.vunpk p) s = .next (ill s x iREGRANGE) := by
  have hregs := formErr_of_lanes hf (unpackForm_lanes p)
  split at hregs
  case isTrue => exact exec_vunpk_of_badRegisters h ha hf hregs
  case isFalse hfit =>
    refine exec_vunpk_of_longWindow h ha hf hregs ?_
    by_contra hle
    obtain hlong | ⟨r, hr, hbeyond⟩ := hwin
    · exact hle hlong
    · have hmem : r ∈ (window p.d.toNat (32 / tyBits p.ty.toNat)).filter fun r => decide (r < 248) := by
        rwa [window_filter (Nat.not_lt.1 hle)]
      refine hfit ⟨(r, 32), List.mem_cons_of_mem _ (List.mem_map.2 ⟨r, hmem, rfl⟩), ?_, hbeyond⟩
      exact of_decide_eq_true (List.mem_filter.1 hmem).2

end

/-- The ten types of R395. -/
theorem packTypes_contains_iff (ty : Nat) : packTypes.contains ty = true ↔ ty ∈ [0, 1, 4, 5, 8, 9, 12, 13, 14, 15] := by
  rw [packTypes, List.contains_iff_mem]

/-- Settles O11, from the elements of a packed word, from the registers that VUNPK writes one by one, and from its checks in order. -/
theorem packedLanes : Obligations.PackedLanes := by
  refine ⟨?pack, ?unpack, fun ty v => ⟨packTypes_contains_iff ty, rfl⟩, ?stops⟩
  case pack =>
    intro p s x _ hwin win f h ha hf hq
    have hfl : ∀ o ∈ (lanesOf (active x p) x.c.width).map (packedLane p x.c), o.fl = 0 := by
      simp [packedLane]
    obtain ⟨x', hrun, hwrites⟩ := vecRun_writes (f := packForm p) (w := 32) (g := fun x ls => ls.map (packedLane p x.c)) h ha hf hq rfl
      (fun _ => rfl) (fpx?_eq_none hfl x.c)
    refine ⟨_, x', by rw [exec_vpack hwin, hrun], hwrites, by simp [packedLane, Function.comp_def], fun o ho => ⟨hfl o ho, ?_⟩⟩
    obtain ⟨l, -, rfl⟩ := List.mem_map.1 ho
    exact ⟨rfl, fun j hj => packedLane_bits p x.c l hj⟩
  case unpack =>
    intro p s x _ hwin win f h ha hf hr hq
    have hform : unpackForm p = f := by rw [unpackForm, window_filter hwin]
    rw [← hform] at h hf hr
    exact ⟨_, exec_vunpk_of_checked h ha hf hr hwin hq, unpacked_only x p _, fun r l hl => vGet_unpacked x p _ r hl⟩
  case stops =>
    intro p s x win f h ha hf
    have hruns := runs_of_subset h (vregsOf_unpackForm p)
    constructor
    case left =>
      exact fun hd => exec_vunpk_of_badFields hruns ha (formErr_of_not_other (decide_eq_false (Nat.not_lt.2 hd)) s x p)
    case right =>
      intro hd hwin
      have hform : ({ unpackForm p with regs := [] } : Form) = f := by
        rw [unpackForm, decide_eq_true hd]
        rfl
      exact exec_vunpk_of_badWindow hruns ha (hform ▸ hf) hwin

end Sys2Proof.Machine
end
